-- ==== Sys2Proof/Word.lean ====
section
/-! DEFINITION. The word types of the PIC24H CPU (spec 00_scope.md R5, R7) and their plainest arithmetic. -/

namespace Sys2Proof

/-- A data word: 16 bits (R5 "data word width"). -/
abbrev Word := BitVec 16

/-- A data byte: 8 bits. -/
abbrev Byte := BitVec 8

/-- A program word: 24 bits (R5 "instruction word width"). -/
abbrev PWord := BitVec 24

/-- A program address, PC<22:0>: 23 bits (R29; 90_conflicts.md C1). -/
abbrev PAddr := BitVec 23

/-- The number of a working register, W0 to W15 (R21). -/
abbrev Reg := Fin 16

/-- W0 under the name WREG (R22). -/
abbrev wreg : Reg := 0

/-- The frame pointer W14 (R25). -/
abbrev fp : Reg := 14

/-- The software stack pointer W15 (R24). -/
abbrev sp : Reg := 15

/-- The operand size of an instruction: word (`.W`, the default) or byte (`.B`) (R89). -/
inductive Size where
  | word
  | byte
  deriving DecidableEq, Repr

end Sys2Proof
end

