-- ==== Sys2Proof/Config.lean ====
section
/-! DEFINITION. What the spec leaves to the device (00_scope.md R6, 92_eei_decisions.md section 1) as one record of
plain data, and the free values (the spec's `draw(N)`, R8) as opaque constants.

The record is an argument of the machine: it is a field of State that no step changes, so a statement about every
state holds for every device. `Device.default` is only the record `State.reset` carries. -/

namespace Sys2Proof.Config

/-- The k-th free 16-bit value: the spec's `draw(16)`, "an N-bit value the sources do not fix; the model must hold for
every value" (R8). No body: nothing can be proved of a value of it. (notes/assumptions/1.md) -/
opaque freeValue : Nat → BitVec 16

/-- What a RAM byte that nothing has written since the last reset reads as: a free value for each reset (the first
argument numbers the resets) and each address (R51 "data RAM: every byte a draw"). (notes/assumptions/2.md) -/
opaque unwrittenByte : Nat → Nat → BitVec 8

/-- `SfrAddr` (R6, R50, D7): the even data-space address of each memory-mapped CPU register. W0 to W15 are not here:
they stand at 2n (R23). -/
structure SfrMap where
  splim   : Word
  pcl     : Word
  pch     : Word
  tblpag  : Word
  psvpag  : Word
  rcount  : Word
  sr      : Word
  corcon  : Word
  disicnt : Word
  deriving DecidableEq, Repr

/-- The default addresses of R50 (general knowledge GK1). (notes/assumptions/3.md) -/
def SfrMap.default : SfrMap :=
  { splim := 0x0020, pcl := 0x002E, pch := 0x0030, tblpag := 0x0032, psvpag := 0x0034,
    rcount := 0x0036, sr := 0x0042, corcon := 0x0044, disicnt := 0x0052 }

/-- `Vector` (R354, D10): where control goes for a source number. `table base` reads the word of program memory at
`base + 2*v` (the default, with base 0x000004; the alternate table has base 0x000104); `listed` is any other function,
written out. -/
inductive VectorMap where
  | table (base : Nat)
  | listed (entries : List (Nat × PAddr)) (other : PAddr)
  deriving DecidableEq, Repr

/-- The source number and the level (8 to 15) of a synchronous trap (R341, defaults of the parameter `Vector`). -/
structure TrapLine where
  source : Nat
  level  : BitVec 4
  deriving DecidableEq, Repr

/-- The parameters of the device (R6, 92_eei_decisions.md section 1). -/
structure Device where
  /-- `SfrAddr`. -/
  sfr : SfrMap
  /-- `DataImpl`: the implemented data addresses at and above 0x0800, as ranges (first, last). -/
  dataImpl : List (Nat × Nat)
  /-- `ProgImpl`: the implemented program addresses, as ranges (first, last). -/
  progImpl : List (Nat × Nat)
  /-- `Vector`. -/
  vectors : VectorMap
  /-- Source number and level of the address error trap. -/
  addressTrap : TrapLine
  /-- Source number and level of the stack error trap. -/
  stackTrap : TrapLine
  /-- Source number and level of the arithmetic error trap. -/
  mathTrap : TrapLine
  /-- `NSTDIS` (INTCON1<15>), constant over a run (D21). -/
  nstdis : Bool
  /-- `RCOUNT_WIDTH` is 16 and not 14 (D6, 90_conflicts.md C2). -/
  rcountWide : Bool
  /-- The model enters the handlers of the stack error and address error traps under the further assumption R355 names
  (the access suppressed, the instruction's other effects free values). False: those traps end in `Fault(kind)`.
  (notes/assumptions/4.md) -/
  runOn : Bool
  /-- A destination `[++Wn]` leaves Wn + 2s, as the WriteOp line of R150 has it, and not Wn + s, as the table of R90
  has it for every operand. (notes/assumptions/12.md) -/
  preIncTwice : Bool
  /-- A source `[Wn++]` or `[Wn--]` is read before its pointer is updated, as the ReadOp lines of R150 have it, and not
  after, as D27 has it. (notes/assumptions/46.md) -/
  readThenUpdate : Bool
  deriving DecidableEq, Repr

/-- The record that `State.reset` carries: the spec's default for each parameter that has one; the data range of
95_test_vectors.md; the whole user program space (R102). (notes/assumptions/5.md) -/
def Device.default : Device :=
  { sfr := SfrMap.default
    dataImpl := [(0x0800, 0x27FF)]
    progImpl := [(0x000000, 0x7FFFFF)]
    vectors := .table 0x000004
    addressTrap := ⟨2, 13⟩
    stackTrap := ⟨3, 12⟩
    mathTrap := ⟨4, 11⟩
    nstdis := false
    rcountWide := false
    runOn := true
    preIncTwice := false
    readThenUpdate := false }

end Sys2Proof.Config
end

