-- ==== Sys2Proof/Syntax.lean ====
section
/-! DEFINITION. The decoded instructions: one constructor for each row of spec/opcode_table.json
(30_encoding.md R127), with the operands of R9 and R123. -/

namespace Sys2Proof

/-- A source or destination operand of a register instruction (R90, R150). -/
inductive Opnd where
  /-- `Wn`, register direct -/
  | direct (n : Reg)
  /-- `[Wn]` -/
  | ind (n : Reg)
  /-- `[Wn--]` -/
  | postDec (n : Reg)
  /-- `[Wn++]` -/
  | postInc (n : Reg)
  /-- `[--Wn]` -/
  | preDec (n : Reg)
  /-- `[++Wn]` -/
  | preInc (n : Reg)
  /-- `[Wn+Wb]`, MOV only -/
  | offset (n b : Reg)
  deriving DecidableEq, Repr

/-- The instructions in scope (R4), one constructor a row of the opcode table. -/
inductive Instr where
  /-- `MOV{.B} Wso, Wdo` (R151) -/
  | mov (sz : Size) (src dst : Opnd)
  /-- `MOV f, Wnd` (R152) -/
  | movFWnd (f : Word) (nd : Reg)
  /-- `MOV Wns, f` (R153) -/
  | movWnsF (ns : Reg) (f : Word)
  /-- `MOV{.B} WREG, f` (R154) -/
  | movWregF (sz : Size) (f : BitVec 13)
  /-- `MOV #lit16, Wnd` (R155) -/
  | movLit16 (lit : Word) (nd : Reg)
  /-- `MOV.B #lit8, Wnd` (R156) -/
  | movLit8 (lit : Byte) (nd : Reg)
  /-- `MOV.D Ws, Wnd` (R157) -/
  | movDLoad (src : Opnd) (nd : Reg)
  /-- `MOV.D Wns, Wd` (R158) -/
  | movDStore (ns : Reg) (dst : Opnd)
  /-- `PUSH Wso` (R171) -/
  | push (src : Opnd)
  /-- `POP Wdo` (R172) -/
  | pop (dst : Opnd)
  /-- `PUSH.S` (R175) -/
  | pushS
  /-- `POP.S` (R176) -/
  | popS
  /-- `LNK #lit14` (R177) -/
  | lnk (lit : BitVec 14)
  /-- `ULNK` (R178) -/
  | ulnk
  /-- `ADD{.B} f {,WREG}` (R191); `toFile` is bit D, 1 = the file register, 0 = WREG -/
  | addF (sz : Size) (f : BitVec 13) (toFile : Bool)
  /-- `ADD{.B} Wb, Ws, Wd` (R192) -/
  | add (sz : Size) (wb : Reg) (src dst : Opnd)
  /-- `MUL.UU Wb, Ws, Wnd` (R213) -/
  | mulUU (wb : Reg) (src : Opnd) (nd : Reg)
  /-- `MUL.UU Wb, #lit5, Wnd` (R213) -/
  | mulUULit (wb : Reg) (lit : BitVec 5) (nd : Reg)
  /-- `MUL.US Wb, Ws, Wnd` (R214) -/
  | mulUS (wb : Reg) (src : Opnd) (nd : Reg)
  /-- `MUL.SU Wb, Ws, Wnd` (R215) -/
  | mulSU (wb : Reg) (src : Opnd) (nd : Reg)
  /-- `MUL.SU Wb, #lit5, Wnd` (R215) -/
  | mulSULit (wb : Reg) (lit : BitVec 5) (nd : Reg)
  /-- `MUL.SS Wb, Ws, Wnd` (R216) -/
  | mulSS (wb : Reg) (src : Opnd) (nd : Reg)
  /-- `MUL{.B} f` (R217) -/
  | mulF (sz : Size) (f : BitVec 13)
  /-- `DIV.SW Wm, Wn` (R223) -/
  | divSW (m n : Reg)
  /-- `DIV.SD Wm, Wn` (R224); `t` is the field that holds the number of W(m+1) (R124) -/
  | divSD (t m n : Reg)
  /-- `DIV.UW Wm, Wn` (R225) -/
  | divUW (m n : Reg)
  /-- `DIV.UD Wm, Wn` (R226) -/
  | divUD (t m n : Reg)
  /-- `SL{.B} Ws, Wd` (R241) -/
  | sl (sz : Size) (src dst : Opnd)
  /-- `SL Wb, #lit4, Wnd` (R242) -/
  | slLit (wb : Reg) (k : BitVec 4) (nd : Reg)
  /-- `SL Wb, Wns, Wnd` (R242) -/
  | slReg (wb ns nd : Reg)
  /-- `LSR{.B} Ws, Wd` (R243) -/
  | lsr (sz : Size) (src dst : Opnd)
  /-- `LSR Wb, #lit4, Wnd` (R244) -/
  | lsrLit (wb : Reg) (k : BitVec 4) (nd : Reg)
  /-- `LSR Wb, Wns, Wnd` (R244) -/
  | lsrReg (wb ns nd : Reg)
  /-- `ASR{.B} Ws, Wd` (R245) -/
  | asr (sz : Size) (src dst : Opnd)
  /-- `ASR Wb, #lit4, Wnd` (R246) -/
  | asrLit (wb : Reg) (k : BitVec 4) (nd : Reg)
  /-- `ASR Wb, Wns, Wnd` (R246) -/
  | asrReg (wb ns nd : Reg)
  /-- `BSET f, #bit4` (R261) -/
  | bset (f : BitVec 13) (bit : BitVec 4)
  /-- `BCLR f, #bit4` (R262) -/
  | bclr (f : BitVec 13) (bit : BitVec 4)
  /-- `BTSC f, #bit4` (R263) -/
  | btsc (f : BitVec 13) (bit : BitVec 4)
  /-- `BRA Expr` (R270); the operand is the signed word offset of R126 -/
  | bra (off : Word)
  /-- `GOTO Expr` (R271) -/
  | goto (target : PAddr)
  /-- `CALL Expr` (R272) -/
  | call (target : PAddr)
  /-- `RCALL Expr` (R274); the operand is the signed word offset of R126 -/
  | rcall (off : Word)
  /-- `RETURN` (R275) -/
  | ret
  /-- `RETLW{.B} #lit10, Wn` (R276) -/
  | retlw (sz : Size) (lit : BitVec 10) (n : Reg)
  /-- `RETFIE` (R277) -/
  | retfie
  /-- `TBLRDL{.B} [Ws], Wd` (R301) -/
  | tblrdl (sz : Size) (src dst : Opnd)
  /-- `TBLRDH{.B} [Ws], Wd` (R302) -/
  | tblrdh (sz : Size) (src dst : Opnd)
  /-- `TBLWTL{.B} Ws, [Wd]` (R303) -/
  | tblwtl (sz : Size) (src dst : Opnd)
  /-- `TBLWTH{.B} Ws, [Wd]` (R303) -/
  | tblwth (sz : Size) (src dst : Opnd)
  /-- `REPEAT #lit14` (R311) -/
  | repeatLit (lit : BitVec 14)
  /-- `REPEAT Wn` (R312) -/
  | repeatW (n : Reg)
  /-- `NOP` (R317) -/
  | nop
  /-- `RESET` (R318) -/
  | reset
  /-- `DISI #lit14` (R319) -/
  | disi (lit : BitVec 14)
  /-- `PWRSAV #lit1` (R320) -/
  | pwrsav (lit : BitVec 1)
  deriving DecidableEq, Repr

/-- The length in words of an instruction (R121): GOTO and CALL take two, every other one. -/
def Instr.words : Instr → Nat
  | .goto _ => 2
  | .call _ => 2
  | _ => 1

end Sys2Proof
end

