-- ==== Sys2Proof/WellFormed.lean ====
section
/-! DEFINITION. Which terms of `Instr` the encodings of 30_encoding.md R125 to R127 can write down. Operands that are
encodable and that a rule gives no meaning (an odd multiply destination, say) are well formed here: the meaning refuses
them by name. -/

namespace Sys2Proof

/-- Not `[Wn+Wb]`: that mode exists in the MOV rows only (R125). -/
def Opnd.plain : Opnd → Bool
  | .offset _ _ => false
  | _ => true

/-- An even number: the pair and address fields that leave out bit 0. -/
def evenReg (r : Reg) : Bool := r.val % 2 = 0

/-- The one `w` field of a MOV word: the offset register of whichever operand has one, else 0 (R124, R125). -/
def movBase (src dst : Opnd) : Reg :=
  match src, dst with
  | .offset _ b, _ => b
  | _, .offset _ b => b
  | _, _ => 0

/-- Both operands of a MOV agree with its one `w` field (R124). -/
def Opnd.agrees (w : Reg) : Opnd → Bool
  | .offset _ b => b = w
  | _ => true

/-- The word is the PUSH row's: `MOV Wso, [W15++]` in word mode with `w` = 0000 (R127, R130). -/
def isPushForm (sz : Size) (src dst : Opnd) : Bool :=
  sz = .word && movBase src dst = 0 && dst = .postInc sp

/-- The word is the POP row's: `MOV [--W15], Wdo` in word mode with `w` = 0000 (R127, R130). -/
def isPopForm (sz : Size) (src dst : Opnd) : Bool :=
  sz = .word && movBase src dst = 0 && src = .preDec sp

/-- The instruction can be written in its row's encoding. -/
def Instr.wf : Instr → Bool
  | .mov sz src dst =>
    src.agrees (movBase src dst) && dst.agrees (movBase src dst) && !isPushForm sz src dst && !isPopForm sz src dst
  | .movFWnd f _ => f.toNat % 2 = 0
  | .movWnsF _ f => f.toNat % 2 = 0
  | .movWregF _ _ => true
  | .movLit16 _ _ => true
  | .movLit8 _ _ => true
  | .movDLoad src nd => src.plain && evenReg nd
  | .movDStore ns dst => evenReg ns && dst.plain
  | .push src => src.agrees 0
  | .pop dst => dst.agrees 0 && !(dst = .postInc sp)
  | .pushS => true
  | .popS => true
  | .lnk lit => lit.toNat % 2 = 0
  | .ulnk => true
  | .addF _ _ _ => true
  | .add _ _ src dst => src.plain && dst.plain
  | .mulUU _ src _ => src.plain
  | .mulUULit _ _ _ => true
  | .mulUS _ src _ => src.plain
  | .mulSU _ src _ => src.plain
  | .mulSULit _ _ _ => true
  | .mulSS _ src _ => src.plain
  | .mulF _ _ => true
  | .divSW _ _ => true
  | .divSD _ _ _ => true
  | .divUW _ _ => true
  | .divUD _ _ _ => true
  | .sl _ src dst => src.plain && dst.plain
  | .slLit _ _ _ => true
  | .slReg _ _ _ => true
  | .lsr _ src dst => src.plain && dst.plain
  | .lsrLit _ _ _ => true
  | .lsrReg _ _ _ => true
  | .asr _ src dst => src.plain && dst.plain
  | .asrLit _ _ _ => true
  | .asrReg _ _ _ => true
  | .bset f _ => f.toNat % 2 = 0
  | .bclr f _ => f.toNat % 2 = 0
  | .btsc f _ => f.toNat % 2 = 0
  | .bra _ => true
  | .goto target => target.toNat % 2 = 0
  | .call target => target.toNat % 2 = 0
  | .rcall _ => true
  | .ret => true
  | .retlw _ _ _ => true
  | .retfie => true
  | .tblrdl _ src dst => src.plain && dst.plain
  | .tblrdh _ src dst => src.plain && dst.plain
  | .tblwtl _ src dst => src.plain && dst.plain
  | .tblwth _ src dst => src.plain && dst.plain
  | .repeatLit _ => true
  | .repeatW _ => true
  | .nop => true
  | .reset => true
  | .disi _ => true
  | .pwrsav _ => true

end Sys2Proof
end

