-- ==== Sys2Proof/Decode.lean ====
section
/-! DEFINITION. The decoder, total on any words and rejecting by name, and after it the encoder, both from the tables of
30_encoding.md R124 to R127 (general knowledge GK9, advisory by D1; notes/assumptions/6.md). A program word is one
24-bit unit and has no byte order (R82). -/

namespace Sys2Proof

/-- Why a list of program words is no instruction of the opcode table. -/
inductive DecodeError where
  /-- The word matches no row (R128). -/
  | unknownOpcode
  /-- A 3-bit mode field holds 110 or 111 in a row where R125 leaves those codes unused. -/
  | unusedMode
  /-- The second word of a GOTO or CALL has a bit of 23:7 set, which R126 says are 0. -/
  | badSecondWord
  /-- There is no word, or no second word. -/
  | missingWord
  deriving DecidableEq, Repr

/-- `w[lo+n-1:lo]` of a word read as a number. -/
def bits (w lo n : Nat) : Nat := w / 2 ^ lo % 2 ^ n

/-- The register number in the four bits from `lo` up. -/
def regAt (w lo : Nat) : Reg := ⟨bits w lo 4, Nat.mod_lt _ (by decide)⟩

/-- Byte mode (bit B, 1 = byte). -/
def sizeAt (w lo : Nat) : Size := if bits w lo 1 = 1 then .byte else .word

/-- The addressing modes of the `p` and `q` fields (R125); codes 110 and 111 are unused there. -/
def plainOpnd (mode : Nat) (n : Reg) : Option Opnd :=
  match mode with
  | 0 => some (.direct n)
  | 1 => some (.ind n)
  | 2 => some (.postDec n)
  | 3 => some (.postInc n)
  | 4 => some (.preDec n)
  | 5 => some (.preInc n)
  | _ => none

/-- The addressing modes of the `g` and `h` fields of MOV (R125): 110 and 111 are `[Wn+Wb]`. -/
def movOpnd (mode : Nat) (n b : Reg) : Opnd :=
  match plainOpnd mode n with
  | some o => o
  | none => .offset n b

/-- A row with one general operand `pppssss`. -/
def withSrc (w : Nat) (k : Opnd → Instr) : Except DecodeError Instr :=
  match plainOpnd (bits w 4 3) (regAt w 0) with
  | some s => .ok (k s)
  | none => .error .unusedMode

/-- A row with two general operands `qqqdddd` and `pppssss`. -/
def withSrcDst (w : Nat) (k : Size → Opnd → Opnd → Instr) : Except DecodeError Instr :=
  match plainOpnd (bits w 4 3) (regAt w 0), plainOpnd (bits w 11 3) (regAt w 7) with
  | some s, some d => .ok (k (sizeAt w 14) s d)
  | _, _ => .error .unusedMode

/-- The MOV Wso,Wdo row and, inside it, the PUSH and POP rows, which take precedence (R127, R130). A `w` field that no
operand uses is not looked at (notes/assumptions/6.md). -/
def decodeMov (w : Nat) : Instr :=
  let b := regAt w 15
  let sz := sizeAt w 14
  let src := movOpnd (bits w 4 3) (regAt w 0) b
  let dst := movOpnd (bits w 11 3) (regAt w 7) b
  if isPushForm sz src dst then .push src
  else if isPopForm sz src dst then .pop dst
  else .mov sz src dst

/-- The two rows of the multi-bit shifts that share bits 23:15: `100kkkk` and `000ssss` (R127). -/
def decodeShift (w : Nat) (lit : Reg → BitVec 4 → Reg → Instr) (reg : Reg → Reg → Reg → Instr) :
    Except DecodeError Instr :=
  if bits w 4 3 = 0b100 then .ok (lit (regAt w 11) (BitVec.ofNat 4 w) (regAt w 7))
  else if bits w 4 3 = 0 then .ok (reg (regAt w 11) (regAt w 0) (regAt w 7))
  else .error .unknownOpcode

/-- The two rows of a divide that share bits 23:15: bit 6 is the dividend size (R124). -/
def decodeDiv (w : Nat) (narrow : Reg → Reg → Instr) (wide : Reg → Reg → Reg → Instr) : Except DecodeError Instr :=
  if bits w 4 3 = 0b100 then .ok (wide (regAt w 11) (regAt w 7) (regAt w 0))
  else if bits w 4 3 = 0 ∧ bits w 11 4 = 0 then .ok (narrow (regAt w 7) (regAt w 0))
  else .error .unknownOpcode

/-- The file-register bit rows: `bbb f(12) b` (R126). -/
def decodeBit (w : Nat) (k : BitVec 13 → BitVec 4 → Instr) : Instr :=
  k (BitVec.ofNat 13 (2 * bits w 1 12)) (BitVec.ofNat 4 (8 * bits w 0 1 + bits w 13 3))

/-- The one-word rows, by their top byte `w / 2^16` where that is fixed. -/
def decodeByte (top w : Nat) : Except DecodeError Instr :=
  match top with
  | 0x00 => .ok .nop
  | 0x05 =>
    if bits w 15 1 = 0 then .ok (.retlw (sizeAt w 14) (BitVec.ofNat 10 (bits w 4 10)) (regAt w 0))
    else .error .unknownOpcode
  | 0x06 =>
    if bits w 0 16 = 0x0000 then .ok .ret
    else if bits w 0 16 = 0x4000 then .ok .retfie
    else .error .unknownOpcode
  | 0x07 => .ok (.rcall (BitVec.ofNat 16 w))
  | 0x09 =>
    if bits w 14 2 = 0 then .ok (.repeatLit (BitVec.ofNat 14 w))
    else if bits w 4 12 = 0x800 then .ok (.repeatW (regAt w 0))
    else .error .unknownOpcode
  | 0x37 => .ok (.bra (BitVec.ofNat 16 w))
  | 0xA8 => .ok (decodeBit w .bset)
  | 0xA9 => .ok (decodeBit w .bclr)
  | 0xAF => .ok (decodeBit w .btsc)
  | 0xB3 =>
    if bits w 12 4 = 0b1100 then .ok (.movLit8 (BitVec.ofNat 8 (bits w 4 8)) (regAt w 0))
    else .error .unknownOpcode
  | 0xB4 =>
    if bits w 15 1 = 0 then .ok (.addF (sizeAt w 14) (BitVec.ofNat 13 w) (bits w 13 1 = 1))
    else .error .unknownOpcode
  | 0xB7 =>
    if bits w 15 1 = 1 ∧ bits w 13 1 = 1 then .ok (.movWregF (sizeAt w 14) (BitVec.ofNat 13 w))
    else .error .unknownOpcode
  | 0xB8 =>
    if bits w 15 1 = 0 then
      if bits w 5 2 = 0b11 then .ok (.mulUULit (regAt w 11) (BitVec.ofNat 5 w) (regAt w 7))
      else withSrc w (.mulUU (regAt w 11) · (regAt w 7))
    else withSrc w (.mulUS (regAt w 11) · (regAt w 7))
  | 0xB9 =>
    if bits w 15 1 = 0 then
      if bits w 5 2 = 0b11 then .ok (.mulSULit (regAt w 11) (BitVec.ofNat 5 w) (regAt w 7))
      else withSrc w (.mulSU (regAt w 11) · (regAt w 7))
    else withSrc w (.mulSS (regAt w 11) · (regAt w 7))
  | 0xBA => withSrcDst w (if bits w 15 1 = 0 then .tblrdl else .tblrdh)
  | 0xBB => withSrcDst w (if bits w 15 1 = 0 then .tblwtl else .tblwth)
  | 0xBC =>
    if bits w 15 1 = 0 ∧ bits w 13 1 = 0 then .ok (.mulF (sizeAt w 14) (BitVec.ofNat 13 w))
    else .error .unknownOpcode
  | 0xBE =>
    if bits w 11 5 = 0 ∧ bits w 7 1 = 0 then
      withSrc w (.movDLoad · ⟨2 * bits w 8 3, by have := Nat.mod_lt (w / 2 ^ 8) (y := 2 ^ 3) (by decide); unfold bits; omega⟩)
    else if bits w 14 2 = 0b10 ∧ bits w 4 3 = 0 ∧ bits w 0 1 = 0 then
      match plainOpnd (bits w 11 3) (regAt w 7) with
      | some d => .ok (.movDStore (regAt w 0) d)
      | none => .error .unusedMode
    else .error .unknownOpcode
  | 0xD0 => if bits w 15 1 = 0 then withSrcDst w .sl else .error .unknownOpcode
  | 0xD1 => withSrcDst w (if bits w 15 1 = 0 then .lsr else .asr)
  | 0xD8 => if bits w 15 1 = 0 then decodeDiv w .divSW .divSD else decodeDiv w .divUW .divUD
  | 0xDD => if bits w 15 1 = 0 then decodeShift w .slLit .slReg else .error .unknownOpcode
  | 0xDE => if bits w 15 1 = 0 then decodeShift w .lsrLit .lsrReg else decodeShift w .asrLit .asrReg
  | 0xFA =>
    if bits w 14 2 = 0 ∧ bits w 0 1 = 0 then .ok (.lnk (BitVec.ofNat 14 w))
    else if bits w 0 16 = 0x8000 then .ok .ulnk
    else .error .unknownOpcode
  | 0xFC => if bits w 14 2 = 0 then .ok (.disi (BitVec.ofNat 14 w)) else .error .unknownOpcode
  | 0xFE =>
    if bits w 0 16 = 0xA000 then .ok .pushS
    else if bits w 0 16 = 0x8000 then .ok .popS
    else if bits w 0 16 = 0x0000 then .ok .reset
    else if bits w 1 15 = 0x2000 then .ok (.pwrsav (BitVec.ofNat 1 w))
    else .error .unknownOpcode
  | _ => .error .unknownOpcode

/-- The instruction of a word that is not the first of two. The rows whose top byte is not fixed stand first. -/
def decodeOne (w : Nat) : Except DecodeError Instr :=
  if bits w 19 5 = 0b01111 then .ok (decodeMov w)
  else if bits w 19 5 = 0b10000 then .ok (.movFWnd (BitVec.ofNat 16 (2 * bits w 4 15)) (regAt w 0))
  else if bits w 19 5 = 0b10001 then .ok (.movWnsF (regAt w 0) (BitVec.ofNat 16 (2 * bits w 4 15)))
  else if bits w 19 5 = 0b01000 then withSrcDst w (fun sz s d => .add sz (regAt w 15) s d)
  else if bits w 20 4 = 0b0010 then .ok (.movLit16 (BitVec.ofNat 16 (bits w 4 16)) (regAt w 0))
  else decodeByte (bits w 16 8) w

/-- The first word is that of a two-word instruction (R121: "The first word alone tells the decoder that a second word
follows"): the rows GOTO and CALL. -/
def isTwoWord (w : PWord) : Bool :=
  (bits w.toNat 16 8 = 0x04 || bits w.toNat 16 8 = 0x02) && bits w.toNat 0 1 = 0

/-- The target of a GOTO or CALL from its two words (R126). -/
def jumpTarget (w1 w2 : Nat) : PAddr := BitVec.ofNat 23 (bits w2 0 7 * 2 ^ 16 + bits w1 0 16)

/-- The instruction at the head of a list of program words and the words after it. -/
def decode (ws : List PWord) : Except DecodeError (Instr × List PWord) :=
  match ws with
  | [] => .error .missingWord
  | w :: rest =>
    if isTwoWord w then
      match rest with
      | [] => .error .missingWord
      | w2 :: rest2 =>
        if bits w2.toNat 7 17 = 0 then
          if bits w.toNat 16 8 = 0x04 then .ok (.goto (jumpTarget w.toNat w2.toNat), rest2)
          else .ok (.call (jumpTarget w.toNat w2.toNat), rest2)
        else .error .badSecondWord
    else
      match decodeOne w.toNat with
      | .ok i => .ok (i, rest)
      | .error e => .error e

/-- The length in words of the instruction whose first word is `w`, where that word is an instruction's (R121, R264). -/
def lengthOf (w : PWord) : Option Nat :=
  if isTwoWord w then some 2
  else
    match decodeOne w.toNat with
    | .ok _ => some 1
    | .error _ => none

/-- The instruction this decoder reads from an instruction whose bits are `w`: bit 0 is the least significant bit of the
first 24-bit word, the second word's bits count on from 24; bits from `nbits` up are 0. -/
def decodeTableWord (nbits w : Nat) : Option Instr :=
  match decode [BitVec.ofNat 24 (w % 2 ^ nbits), BitVec.ofNat 24 (w % 2 ^ nbits / 2 ^ 24)] with
  | .ok (i, _) => some i
  | .error _ => none

/-! ## The encoder -/

/-- The mode code of an operand (R125). -/
def Opnd.code : Opnd → Nat
  | .direct _ => 0
  | .ind _ => 1
  | .postDec _ => 2
  | .postInc _ => 3
  | .preDec _ => 4
  | .preInc _ => 5
  | .offset _ _ => 6

/-- The register an operand names as data or as pointer. -/
def Opnd.reg : Opnd → Reg
  | .direct n => n
  | .ind n => n
  | .postDec n => n
  | .postInc n => n
  | .preDec n => n
  | .preInc n => n
  | .offset n _ => n

/-- Bit B. -/
def Size.code : Size → Nat
  | .word => 0
  | .byte => 1

/-- `qqqdddd` at bit 7. -/
def Opnd.dstBits (o : Opnd) : Nat := o.code * 2 ^ 11 + o.reg.val * 2 ^ 7

/-- `pppssss` at bit 0. -/
def Opnd.srcBits (o : Opnd) : Nat := o.code * 2 ^ 4 + o.reg.val

/-- `B qqq dddd ppp ssss`. -/
def opBits (sz : Size) (src dst : Opnd) : Nat := sz.code * 2 ^ 14 + dst.dstBits + src.srcBits

/-- `bbb f(12) b` (R126). -/
def bitBits (f : BitVec 13) (bit : BitVec 4) : Nat := bit.toNat % 8 * 2 ^ 13 + f.toNat / 2 * 2 + bit.toNat / 8

/-- One 24-bit word. -/
def oneWord (n : Nat) : List PWord := [BitVec.ofNat 24 n]

/-- The two words of GOTO and CALL (R126). -/
def twoWords (op : Nat) (t : PAddr) : List PWord :=
  [BitVec.ofNat 24 (op * 2 ^ 16 + t.toNat % 2 ^ 16), BitVec.ofNat 24 (t.toNat / 2 ^ 16)]

/-- The words of a well-formed instruction, from the patterns of R127. -/
def encode : Instr → List PWord
  | .mov sz src dst => oneWord (0b01111 * 2 ^ 19 + (movBase src dst).val * 2 ^ 15 + opBits sz src dst)
  | .movFWnd f nd => oneWord (0b10000 * 2 ^ 19 + f.toNat / 2 * 2 ^ 4 + nd.val)
  | .movWnsF ns f => oneWord (0b10001 * 2 ^ 19 + f.toNat / 2 * 2 ^ 4 + ns.val)
  | .movWregF sz f => oneWord (0b101101111 * 2 ^ 15 + sz.code * 2 ^ 14 + 2 ^ 13 + f.toNat)
  | .movLit16 lit nd => oneWord (0b0010 * 2 ^ 20 + lit.toNat * 2 ^ 4 + nd.val)
  | .movLit8 lit nd => oneWord (0b101100111100 * 2 ^ 12 + lit.toNat * 2 ^ 4 + nd.val)
  | .movDLoad src nd => oneWord (0b1011111000000 * 2 ^ 11 + nd.val / 2 * 2 ^ 8 + src.srcBits)
  | .movDStore ns dst => oneWord (0b1011111010 * 2 ^ 14 + dst.dstBits + ns.val)
  | .push src => oneWord (0b01111000000111111 * 2 ^ 7 + src.srcBits)
  | .pop dst => oneWord (0b0111100000 * 2 ^ 14 + dst.dstBits + 0b1001111)
  | .pushS => oneWord 0b111111101010000000000000
  | .popS => oneWord 0b111111101000000000000000
  | .lnk lit => oneWord (0b1111101000 * 2 ^ 14 + lit.toNat)
  | .ulnk => oneWord 0b111110101000000000000000
  | .addF sz f toFile => oneWord (0b101101000 * 2 ^ 15 + sz.code * 2 ^ 14 + toFile.toNat * 2 ^ 13 + f.toNat)
  | .add sz wb src dst => oneWord (0b01000 * 2 ^ 19 + wb.val * 2 ^ 15 + opBits sz src dst)
  | .mulUU wb src nd => oneWord (0b101110000 * 2 ^ 15 + wb.val * 2 ^ 11 + nd.val * 2 ^ 7 + src.srcBits)
  | .mulUULit wb lit nd => oneWord (0b101110000 * 2 ^ 15 + wb.val * 2 ^ 11 + nd.val * 2 ^ 7 + 3 * 2 ^ 5 + lit.toNat)
  | .mulUS wb src nd => oneWord (0b101110001 * 2 ^ 15 + wb.val * 2 ^ 11 + nd.val * 2 ^ 7 + src.srcBits)
  | .mulSU wb src nd => oneWord (0b101110010 * 2 ^ 15 + wb.val * 2 ^ 11 + nd.val * 2 ^ 7 + src.srcBits)
  | .mulSULit wb lit nd => oneWord (0b101110010 * 2 ^ 15 + wb.val * 2 ^ 11 + nd.val * 2 ^ 7 + 3 * 2 ^ 5 + lit.toNat)
  | .mulSS wb src nd => oneWord (0b101110011 * 2 ^ 15 + wb.val * 2 ^ 11 + nd.val * 2 ^ 7 + src.srcBits)
  | .mulF sz f => oneWord (0b101111000 * 2 ^ 15 + sz.code * 2 ^ 14 + f.toNat)
  | .divSW m n => oneWord (0b110110000 * 2 ^ 15 + m.val * 2 ^ 7 + n.val)
  | .divSD t m n => oneWord (0b110110000 * 2 ^ 15 + t.val * 2 ^ 11 + m.val * 2 ^ 7 + 2 ^ 6 + n.val)
  | .divUW m n => oneWord (0b110110001 * 2 ^ 15 + m.val * 2 ^ 7 + n.val)
  | .divUD t m n => oneWord (0b110110001 * 2 ^ 15 + t.val * 2 ^ 11 + m.val * 2 ^ 7 + 2 ^ 6 + n.val)
  | .sl sz src dst => oneWord (0b110100000 * 2 ^ 15 + opBits sz src dst)
  | .slLit wb k nd => oneWord (0b110111010 * 2 ^ 15 + wb.val * 2 ^ 11 + nd.val * 2 ^ 7 + 2 ^ 6 + k.toNat)
  | .slReg wb ns nd => oneWord (0b110111010 * 2 ^ 15 + wb.val * 2 ^ 11 + nd.val * 2 ^ 7 + ns.val)
  | .lsr sz src dst => oneWord (0b110100010 * 2 ^ 15 + opBits sz src dst)
  | .lsrLit wb k nd => oneWord (0b110111100 * 2 ^ 15 + wb.val * 2 ^ 11 + nd.val * 2 ^ 7 + 2 ^ 6 + k.toNat)
  | .lsrReg wb ns nd => oneWord (0b110111100 * 2 ^ 15 + wb.val * 2 ^ 11 + nd.val * 2 ^ 7 + ns.val)
  | .asr sz src dst => oneWord (0b110100011 * 2 ^ 15 + opBits sz src dst)
  | .asrLit wb k nd => oneWord (0b110111101 * 2 ^ 15 + wb.val * 2 ^ 11 + nd.val * 2 ^ 7 + 2 ^ 6 + k.toNat)
  | .asrReg wb ns nd => oneWord (0b110111101 * 2 ^ 15 + wb.val * 2 ^ 11 + nd.val * 2 ^ 7 + ns.val)
  | .bset f bit => oneWord (0b10101000 * 2 ^ 16 + bitBits f bit)
  | .bclr f bit => oneWord (0b10101001 * 2 ^ 16 + bitBits f bit)
  | .btsc f bit => oneWord (0b10101111 * 2 ^ 16 + bitBits f bit)
  | .bra off => oneWord (0b00110111 * 2 ^ 16 + off.toNat)
  | .goto t => twoWords 0b00000100 t
  | .call t => twoWords 0b00000010 t
  | .rcall off => oneWord (0b00000111 * 2 ^ 16 + off.toNat)
  | .ret => oneWord 0b000001100000000000000000
  | .retlw sz lit n => oneWord (0b000001010 * 2 ^ 15 + sz.code * 2 ^ 14 + lit.toNat * 2 ^ 4 + n.val)
  | .retfie => oneWord 0b000001100100000000000000
  | .tblrdl sz src dst => oneWord (0b101110100 * 2 ^ 15 + opBits sz src dst)
  | .tblrdh sz src dst => oneWord (0b101110101 * 2 ^ 15 + opBits sz src dst)
  | .tblwtl sz src dst => oneWord (0b101110110 * 2 ^ 15 + opBits sz src dst)
  | .tblwth sz src dst => oneWord (0b101110111 * 2 ^ 15 + opBits sz src dst)
  | .repeatLit lit => oneWord (0b0000100100 * 2 ^ 14 + lit.toNat)
  | .repeatW n => oneWord (0b00001001100000000000 * 2 ^ 4 + n.val)
  | .nop => oneWord 0
  | .reset => oneWord 0b111111100000000000000000
  | .disi lit => oneWord (0b1111110000 * 2 ^ 14 + lit.toNat)
  | .pwrsav m => oneWord (0b11111110010000000000000 * 2 + m.toNat)

end Sys2Proof
end

