-- ==== Sys2Proof/Machine/State.lean ====
section
/-! DEFINITION. The state of the machine (10_state.md R20 to R51, R46's hidden state, the memories of 20_memory.md), all
of it plain data, and the state after reset. -/

namespace Sys2Proof.Machine

/-- The five ALU flags DC, N, OV, Z, C (R33, R34); also the shadow copy of them, `SRsh` (R28). -/
structure AluFlags where
  dc : Bool
  n  : Bool
  ov : Bool
  z  : Bool
  c  : Bool
  deriving DecidableEq, Repr

/-- SR, the status register (R33): its nine implemented bits. Bits 15:9 are unimplemented and read 0. The word
software sees is `srWord` in Ops. -/
structure StatusReg where
  flags : AluFlags
  /-- IPL<2:0>, SR<7:5> (R37) -/
  ipl : BitVec 3
  /-- RA, SR<4>: REPEAT loop active (R37) -/
  ra : Bool
  deriving DecidableEq, Repr

/-- CORCON (R38): its two implemented bits, IPL3 (bit 3) and PSV (bit 2). -/
structure CoreCon where
  ipl3 : Bool
  psv  : Bool
  deriving DecidableEq, Repr

/-- The four divides (R220). -/
inductive DivKind where
  | sw
  | sd
  | uw
  | ud
  deriving DecidableEq, Repr

/-- `DivGhost` (R221): the record of a divide in progress. -/
structure DivGhost where
  kind     : DivKind
  /-- the dividend `a`: 32 bits in the SD and UD forms, 16 bits zero-extended in the others -/
  dividend : BitVec 32
  /-- the divisor `d` -/
  divisor  : Word
  /-- `k`, the number of executions done -/
  done     : Nat
  /-- the last drawn W0, W1, N, C, Z -/
  w0 : Word
  w1 : Word
  n  : Bool
  c  : Bool
  z  : Bool
  deriving DecidableEq, Repr

/-- The synchronous traps (R341). -/
inductive TrapKind where
  | stackError
  | addressError
  | arithmeticError
  deriving DecidableEq, Repr

/-- Why the device was reset (R391). No register records it; it is in no state after the step. -/
inductive ResetCause where
  | uninitW
  | software
  | environment
  deriving DecidableEq, Repr

/-- What an instruction raised besides its own effects (R350 step 3): a trap that is requested (R8 "raise") and taken
when the instruction is over, or a device reset that has replaced everything. -/
inductive Event where
  | trap (kind : TrapKind)
  | reset (cause : ResetCause)
  deriving DecidableEq, Repr

/-- What the environment presents at one instruction boundary (R350 steps 1 and 2, `IrqOracle`): nothing, a reset, or a
request of source `v` at level `p`. -/
inductive Input where
  | quiet
  | reset
  | request (v : Nat) (p : BitVec 4)
  deriving DecidableEq, Repr

/-- One write handed to the device (`DeviceOracle`, R84 step 2): the address, the size and the value. -/
structure DeviceWrite where
  addr  : Word
  size  : Size
  value : Word
  deriving DecidableEq, Repr

/-- What the instruction in execution has done so far that the timing rules, R316 and R401 ask about. -/
structure Trace where
  /-- a source read fell in the PSV window (R415) -/
  psvRead : Bool
  /-- bit n: a data write landed on the data-space address of Wn (R412) -/
  wHit : BitVec 16
  /-- a data write landed on SPLIM's address (R401) -/
  splimHit : Bool
  /-- it was a RETFIE that went back to the target of a REPEAT (R277, R316) -/
  toTarget : Bool
  deriving DecidableEq, Repr

/-- What the instruction executed before this one left for the timing rules, R316 and R401. -/
structure Previous where
  /-- bit n: `ModifiesW(I1, n)` (R412) -/
  mods : BitVec 16
  /-- it wrote SPLIM's data-space address (R401) -/
  splim : Bool
  /-- it was a pass of a REPEAT loop that goes on with the next execution (R415, R416) -/
  midLoop : Bool
  /-- it was a REPEAT, of whatever count, or the RETFIE that went back to its target (R316, R405) -/
  afterRepeat : Bool
  deriving DecidableEq, Repr

/-- The state of the machine. -/
structure State where
  /-- W0 to W15 (R21) -/
  w : Vector Word 16
  /-- the initialisation detector (R26) -/
  winit : Vector Bool 16
  /-- the shadows of W0 to W3 (R28) -/
  wsh : Vector Word 4
  /-- the shadow of the five flags (R28) -/
  srsh : AluFlags
  /-- PC<22:0>, the address of the instruction being executed (R29) -/
  pc : PAddr
  /-- the status register (R33) -/
  sr : StatusReg
  /-- the core control register (R38) -/
  corcon : CoreCon
  /-- the stack pointer limit (R40) -/
  splim : Word
  /-- the latch that enables the limit check (R41) -/
  splimen : Bool
  /-- the table page (R42) -/
  tblpag : Byte
  /-- the PSV page (R43) -/
  psvpag : Byte
  /-- the repeat counter (R44): 14 bits, or 16 under `rcountWide` -/
  rcount : Word
  /-- the DISI counter (R45) -/
  disicnt : BitVec 14
  /-- the divide in progress (R221) -/
  divGhost : Option DivGhost
  /-- data RAM (R80): the bytes written since the last reset, addresses strictly rising -/
  mem : List Host.Cell
  /-- program memory (R95): the words that are not 0, even addresses strictly rising -/
  prog : List (Nat × PWord)
  /-- the model's own: what the last instruction raised; none between steps -/
  event : Option Event
  /-- the model's own: the trace of the instruction in execution -/
  cur : Trace
  /-- the model's own: what the instruction before left for timing and R401 -/
  prev : Previous
  /-- the model's own: the exception frames that hold the address of an instruction that follows a REPEAT and had not
  begun (R316, R405): W15 above the frame, and that address -/
  delayed : List (Nat × PAddr)
  /-- the model's own: how many free values have been used -/
  draws : Nat
  /-- the model's own: how many device resets there have been, which numbers the RAM contents -/
  ramEpoch : Nat
  /-- the model's own: the writes handed to the device, the last one first -/
  devOut : List DeviceWrite
  /-- the model's own: what the environment presents at the boundaries to come -/
  inputs : List Input
  /-- the parameters of the device, which no step changes -/
  dev : Config.Device
  deriving DecidableEq, Repr

/-- Why a run ends at a trap (R355, D11, D29): the outcome `Fault(kind)`. -/
inductive Fault where
  /-- The stack error trap (R342). Raised by an instruction whose W15 address fails R100, where the device record does
  not say `runOn` or the CPU is inside a trap handler (R357); and by taking an exception whose frame does not fit (R352,
  R355: "what that nested entry pushes where is not in the source"). Safe: the model stops where the hardware goes on. -/
  | stackError
  /-- The address error trap (R344). Raised by a bad data, table or program address where the device record does not say
  `runOn` or the CPU is inside a trap handler (R357); by a `pc` that holds no program word; and by taking
  an exception whose frame or vector lies outside implemented memory. Safe: the model stops where the hardware goes on. -/
  | addressError
  /-- The arithmetic error trap (R343) raised inside a trap handler (R357: `Fault` by R355). Safe: the model stops where
  the hardware goes on. -/
  | arithmeticError
  deriving DecidableEq, Repr

/-- Why a step has no meaning: the spec's `refuse(reason)` (R8). Every one is safe: the model stops. -/
inductive Refusal where
  /-- An instruction whose arm of `exec` gives it no meaning; no arm does. Safe. -/
  | notModelled (mnemonic : String)
  /-- The words at the pc are no instruction of the opcode table (R128, D2), or a taken skip meets such a word. Safe. -/
  | unknownOpcode (why : DecodeError)
  /-- MOV.D with an odd register (R157, R158). Safe. -/
  | movDOddRegister
  /-- A multiply destination that is odd or W14 (R212, R406). Safe. -/
  | mulBadDest
  /-- A 32-bit dividend pair that is not W(m+1):Wm with m even, or the divisor W0 or W1 (R220). Safe. -/
  | divBadOperand
  /-- A divide outside its own REPEAT #17, or disturbed (R221, R405). Safe. -/
  | divideMisuse
  /-- An instruction that may not be the target of a REPEAT, right after one or under an active loop (R316). Safe. -/
  | repeatBadTarget
  /-- REPEAT Wn with a count that does not fit RCOUNT (R312, D6). Safe. -/
  | repeatCountTooWide
  /-- A shift count above 15 (R242, R244, R246, D17). Safe. -/
  | shiftCountOver15
  /-- Source and destination both modify one register (R92, D27). Safe. -/
  | sameRegTwiceModified
  /-- LNK with an odd literal (R177). Safe. -/
  | lnkOddLiteral
  /-- A data write to PCL or PCH (R31, D5). Safe. -/
  | pcWrite
  /-- A data write to the PSV window with PSV on (R94, D28). Safe. -/
  | psvWrite
  /-- A table read with a register-direct source: R301's source form is an indirect operand. Safe. -/
  | tableDirectOperand
  /-- A table access with TBLPAG<7> = 1 (R300, D9). Safe. -/
  | tableTestSpace
  /-- TBLWTL and TBLWTH (R303, D9). Safe. -/
  | tableWrite
  /-- PWRSAV (R320, D37). Safe. -/
  | powerSave
  deriving DecidableEq, Repr

/-- What cuts an instruction or an exception entry short, before anything of it is kept. -/
inductive Stop where
  | trap (kind : TrapKind)
  | reset (cause : ResetCause)
  | refuse (reason : Refusal)
  deriving DecidableEq, Repr

/-- The machine right after reset (R51, R390): every value the spec states; zero for what the spec calls unknown
(SPLIM, RCOUNT, DISICNT, the shadows), which notes/assumptions/7.md names one by one; RAM with nothing written; program
memory with nothing listed; no request. -/
def State.reset : State :=
  { w := #v[0, 0, 0, 0, 0, 0, 0, 0, 0, 0, 0, 0, 0, 0, 0, 0x0800]
    winit := #v[false, false, false, false, false, false, false, false,
                false, false, false, false, false, false, false, true]
    wsh := #v[0, 0, 0, 0]
    srsh := ⟨false, false, false, false, false⟩
    pc := 0
    sr := ⟨⟨false, false, false, false, false⟩, 0, false⟩
    corcon := ⟨false, false⟩
    splim := 0
    splimen := false
    tblpag := 0
    psvpag := 0
    rcount := 0
    disicnt := 0
    divGhost := none
    mem := []
    prog := []
    event := none
    cur := ⟨false, 0, false, false⟩
    prev := ⟨0, false, false, false⟩
    delayed := []
    draws := 0
    ramEpoch := 0
    devOut := []
    inputs := []
    dev := Config.Device.default }

end Sys2Proof.Machine
end

