-- ==== Sys2Proof/Machine/Ops.lean ====
section
/-! DEFINITION. The named operations over registers, memories, the stack and the exceptions (10_state.md, 20_memory.md,
60_exceptions.md R350 to R355, 70_reset_and_hazards.md R390). Every instruction is built from these. -/

namespace Sys2Proof.Machine

/-- What one instruction answers. -/
abbrev Result := Host.Outcome State Fault Refusal

/-! ## Bytes, words and address lists -/

/-- Bits 7:0. -/
def lowByte (v : Word) : Byte := v.extractLsb' 0 8

/-- Bits 15:8. -/
def highByte (v : Word) : Byte := v.extractLsb' 8 8

/-- A word from its two bytes, the byte at the even address being bits 7:0 (R82; notes/assumptions/8.md). -/
def joinBytes (lo hi : Byte) : Word := hi ++ lo

/-- `v[15:1] : 0`. -/
def evenWord (v : Word) : Word := v &&& 0xFFFE

/-- `v[22:1] : 0`: every program address is even (R29, R278). -/
def evenAddr (v : PAddr) : PAddr := v &&& 0x7FFFFE

/-- The operand size in bytes, `s` of R150. -/
def bytesOf : Size → Nat
  | .word => 2
  | .byte => 1

/-- The operand width in bits, `n` of R34. -/
def widthOf : Size → Nat
  | .word => 16
  | .byte => 8

/-- A value of the given size held in a word: a byte is zero-extended. -/
def sized (sz : Size) (v : Word) : Word :=
  match sz with
  | .word => v
  | .byte => (lowByte v).setWidth 16

/-- The address lies in one of the ranges (first, last). -/
def inRanges (rs : List (Nat × Nat)) (a : Nat) : Bool := rs.any fun r => r.1 ≤ a && a ≤ r.2

/-- The entry at an address. -/
def findAt {α : Type} : List (Nat × α) → Nat → Option α
  | [], _ => none
  | (b, x) :: r, a => if a = b then some x else findAt r a

/-- The list with one entry written; it keeps the addresses strictly rising. -/
def insertAt {α : Type} : List (Nat × α) → Nat → α → List (Nat × α)
  | [], a, v => [(a, v)]
  | (b, x) :: r, a, v =>
    if a < b then (a, v) :: (b, x) :: r
    else if a = b then (a, v) :: r
    else (b, x) :: insertAt r a v

/-- The list with one entry taken out. -/
def eraseAt {α : Type} : List (Nat × α) → Nat → List (Nat × α)
  | [], _ => []
  | (b, x) :: r, a => if a = b then r else (b, x) :: eraseAt r a

/-- Every address is above `lo` and the addresses rise strictly. -/
def risingFrom {α : Type} (lo : Nat) : List (Nat × α) → Bool
  | [] => true
  | (a, _) :: r => lo ≤ a && risingFrom (a + 1) r

/-- The canonical form of data memory: addresses strictly rising, all of them data addresses at or above 0x0800, where
RAM begins (R6, R102). Every listed byte has been written since the last reset; none can be compared with the free
byte an unlisted address reads as (notes/assumptions/2.md). -/
def Memory.wf (m : List Host.Cell) : Bool := risingFrom 0x0800 m && m.all fun c => c.1 < 0x10000

/-! ## Free values -/

/-- `draw(16)` (R8): the next free value. -/
def draw (s : State) : Word × State := (Config.freeValue s.draws, { s with draws := s.draws + 1 })

/-- The free value `k` places on, for an operation that uses several at once. -/
def drawAt (s : State) (k : Nat) : Word := Config.freeValue (s.draws + k)

/-- `draw(1)`, `k` places on. -/
def drawBit (s : State) (k : Nat) : Bool := (drawAt s k).getLsbD 0

/-- More free values than any one instruction uses before it is cut short. What comes after a cut starts past them, so
that it shares no free value with what was given up. -/
def drawGap : Nat := 16

/-! ## Working registers -/

/-- `W[n]` read as data; it never faults (R8, R27). -/
def State.reg (s : State) (n : Reg) : Word := s.w.get n

/-- `Winit[n]` (R26). -/
def State.isInit (s : State) (n : Reg) : Bool := s.winit.get n

/-- What a register keeps of a value written to it: W15<0> is forced to 0 (R24). -/
def regMask (n : Reg) (v : Word) : Word := if n = sp then evenWord v else v

/-- The register's contents changed, `Winit` left alone. -/
def State.putW (s : State) (n : Reg) (v : Word) : State := { s with w := s.w.set n.val (regMask n v) n.isLt }

/-- `W[n] <- v`, a word write: it sets `Winit[n]` (R8, R26). -/
def State.setW (s : State) (n : Reg) (v : Word) : State :=
  { s with w := s.w.set n.val (regMask n v) n.isLt, winit := s.winit.set n.val true n.isLt }

/-- `W[n].lo <- v`, a byte write: bits 15:8 and `Winit[n]` unchanged (R8, R86). -/
def State.setWLow (s : State) (n : Reg) (v : Byte) : State := s.putW n (joinBytes v (highByte (s.reg n)))

/-- A register write of either size. -/
def State.setSized (s : State) (sz : Size) (n : Reg) (v : Word) : State :=
  match sz with
  | .word => s.setW n v
  | .byte => s.setWLow n (lowByte v)

/-- `Ptr(n)` (R27): the register read as an address pointer; never word-written, it resets the device. -/
def ptr (s : State) (n : Reg) : Except Stop Word :=
  if s.isInit n then .ok (s.reg n) else .error (.reset .uninitW)

/-! ## The status register and CORCON as words -/

/-- SR as software reads it (R33). -/
def srWord (r : StatusReg) : Word :=
  BitVec.ofNat 16 (r.flags.dc.toNat * 256 + r.ipl.toNat * 32 + r.ra.toNat * 16 + r.flags.n.toNat * 8
    + r.flags.ov.toNat * 4 + r.flags.z.toNat * 2 + r.flags.c.toNat)

/-- The five flags of a word laid out as SR. -/
def flagsOfWord (v : Word) : AluFlags :=
  ⟨v.getLsbD 8, v.getLsbD 3, v.getLsbD 2, v.getLsbD 1, v.getLsbD 0⟩

/-- A data write to SR (R33, R37): RA is read-only; IPL<2:0> is read-only when NSTDIS = 1; bits 15:9 are ignored. -/
def srWritten (nstdis : Bool) (r : StatusReg) (v : Word) : StatusReg :=
  { flags := flagsOfWord v, ipl := if nstdis then r.ipl else v.extractLsb' 5 3, ra := r.ra }

/-- SR<7:0> restored from the stack by RETFIE (R277): RA and IPL included, DC kept. -/
def srRestored (r : StatusReg) (b : Byte) : StatusReg :=
  { flags := ⟨r.flags.dc, b.getLsbD 3, b.getLsbD 2, b.getLsbD 1, b.getLsbD 0⟩
    ipl := b.extractLsb' 5 3, ra := b.getLsbD 4 }

/-- CORCON as software reads it (R38). -/
def corconWord (c : CoreCon) : Word := BitVec.ofNat 16 (c.ipl3.toNat * 8 + c.psv.toNat * 4)

/-- A data write to CORCON (R38): IPL3 can be cleared and not set. -/
def corconWritten (c : CoreCon) (v : Word) : CoreCon := ⟨c.ipl3 && v.getLsbD 3, v.getLsbD 2⟩

/-- The CPU interrupt priority level `CORCON[3] : SR[7:5]` (R38). -/
def cpuLevel (s : State) : Nat := s.corcon.ipl3.toNat * 8 + s.sr.ipl.toNat

/-- What RCOUNT keeps of a value: its low `RCOUNT_WIDTH` bits (R44, D6). -/
def rcountMask (d : Config.Device) (v : Word) : Word := if d.rcountWide then v else v &&& 0x3FFF

/-! ## The memory-mapped CPU registers (R50) -/

/-- The registers of the CPU register map. -/
inductive CpuReg where
  | w (n : Reg)
  | splim
  | pcl
  | pch
  | tblpag
  | psvpag
  | rcount
  | sr
  | corcon
  | disicnt
  deriving DecidableEq, Repr

/-- The CPU register at an even data address: W0 to W15 at 2n (R23), the others where `SfrAddr` says (D7). -/
def cpuRegAt (m : Config.SfrMap) (a : Word) : Option CpuReg :=
  if h : a.toNat / 2 < 16 then some (.w ⟨a.toNat / 2, h⟩)
  else if a = m.splim then some .splim
  else if a = m.pcl then some .pcl
  else if a = m.pch then some .pch
  else if a = m.tblpag then some .tblpag
  else if a = m.psvpag then some .psvpag
  else if a = m.rcount then some .rcount
  else if a = m.sr then some .sr
  else if a = m.corcon then some .corcon
  else if a = m.disicnt then some .disicnt
  else none

/-- The word a read of a CPU register returns; PCL and PCH return a free value, of which PCH<15:7> read 0
(R31, U2, C10; notes/assumptions/9.md). -/
def readCpu (r : CpuReg) (s : State) : Word × State :=
  match r with
  | .w n => (s.reg n, s)
  | .splim => (s.splim, s)
  | .pcl => draw s
  | .pch => ((draw s).1 &&& 0x007F, (draw s).2)
  | .tblpag => (s.tblpag.setWidth 16, s)
  | .psvpag => (s.psvpag.setWidth 16, s)
  | .rcount => (s.rcount, s)
  | .sr => (srWord s.sr, s)
  | .corcon => (corconWord s.corcon, s)
  | .disicnt => (s.disicnt.setWidth 16, s)

/-- A register's contents after a value is written to it: read-only bits unchanged, unimplemented bits dropped, W15 and
SPLIM bit 0 forced to 0 (R84 step 1). The trace notes a W register (R412) and SPLIM (R401). -/
def putCpu (r : CpuReg) (v : Word) (s : State) : Except Stop State :=
  match r with
  | .w n => .ok { s.putW n v with cur := { s.cur with wHit := s.cur.wHit ||| (1#16 <<< n.val) } }
  | .splim => .ok { s with splim := evenWord v, cur := { s.cur with splimHit := true } }
  | .pcl => .error (.refuse .pcWrite)
  | .pch => .error (.refuse .pcWrite)
  | .tblpag => .ok { s with tblpag := lowByte v }
  | .psvpag => .ok { s with psvpag := lowByte v }
  | .rcount => .ok { s with rcount := rcountMask s.dev v }
  | .sr => .ok { s with sr := srWritten s.dev.nstdis s.sr v }
  | .corcon => .ok { s with corcon := corconWritten s.corcon v }
  | .disicnt => .ok { s with disicnt := v.setWidth 14 }

/-- What only a word write does: it initialises a W register (R26, D18) and enables the limit check (R41). -/
def noteWordWrite (r : CpuReg) (s : State) : State :=
  match r with
  | .w n => { s with winit := s.winit.set n.val true n.isLt }
  | .splim => { s with splimen := true }
  | _ => s

/-- A word or byte write to a CPU register; a byte write leaves the other half as it is. -/
def writeCpu (r : CpuReg) (sz : Size) (odd : Bool) (v : Word) (s : State) : Except Stop State :=
  match sz with
  | .word => (putCpu r v s).map (noteWordWrite r)
  | .byte =>
    let old := (readCpu r s).1
    putCpu r (if odd then joinBytes (lowByte old) (lowByte v) else joinBytes (lowByte v) (highByte old)) s

/-! ## Program space -/

/-- `paddr` is in `ProgImpl` (R95); a program address has 23 bits. -/
def progImplemented (s : State) (a : Nat) : Bool := a < 0x800000 && inRanges s.dev.progImpl (a / 2 * 2)

/-- `ProgRead(paddr)` (R95): the word at an implemented address; a word nothing was placed at is 0, a NOP
(notes/assumptions/10.md). -/
def progRead (s : State) (a : Nat) : Option PWord :=
  if progImplemented s a then some ((findAt s.prog (a / 2 * 2)).getD 0) else none

/-- Bits 15:0 of a program word. -/
def progLow (w : PWord) : Word := w.extractLsb' 0 16

/-- Program memory with one word placed at an even address; a word 0 is not listed. -/
def progSet (p : List (Nat × PWord)) (a : Nat) (w : PWord) : List (Nat × PWord) :=
  if w = 0 then eraseAt p a else insertAt p a w

/-! ## Data space (R84) -/

/-- Where a data address leads. -/
inductive Region where
  | cpu (r : CpuReg)
  | device
  | psv
  | ram
  | absent
  deriving DecidableEq, Repr

/-- The address is in `DataImpl`, which holds addresses at and above 0x0800 (R6, D8). -/
def dataImplemented (s : State) (a : Nat) : Bool := 0x0800 ≤ a && inRanges s.dev.dataImpl a

/-- The data-space dispatch of R84, in its order. -/
def region (s : State) (a : Word) : Region :=
  match cpuRegAt s.dev.sfr (evenWord a) with
  | some r => .cpu r
  | none =>
    if a.toNat < 0x0800 then .device
    else if 0x8000 ≤ a.toNat && s.corcon.psv then .psv
    else if dataImplemented s a.toNat then .ram
    else .absent

/-- The byte of RAM at an address: the byte last written there since the last reset, else the free byte of
`Config.unwrittenByte`. This is the ONE definition of what an unlisted address reads as. -/
def State.ramByte (s : State) (a : Nat) : Byte := (findAt s.mem a).getD (Config.unwrittenByte s.ramEpoch a)

/-- One byte of RAM written. -/
def State.setRamByte (s : State) (a : Nat) (b : Byte) : State := { s with mem := insertAt s.mem a b }

/-- RAM read at a size, little-endian (R82). -/
def ramRead (s : State) (sz : Size) (a : Word) : Word :=
  match sz with
  | .word => joinBytes (s.ramByte a.toNat) (s.ramByte (a.toNat + 1))
  | .byte => (s.ramByte a.toNat).setWidth 16

/-- RAM written at a size, little-endian (R82). -/
def ramWrite (s : State) (sz : Size) (a v : Word) : State :=
  match sz with
  | .word => (s.setRamByte a.toNat (lowByte v)).setRamByte (a.toNat + 1) (highByte v)
  | .byte => s.setRamByte a.toNat (lowByte v)

/-- The address is odd. -/
def isOdd (a : Word) : Bool := a.getLsbD 0

/-- The word itself, or the byte of it that the address selects. -/
def pick (sz : Size) (a v : Word) : Word :=
  match sz with
  | .word => v
  | .byte => if isOdd a then (highByte v).setWidth 16 else (lowByte v).setWidth 16

/-- `paddr = PSVPAG[7:0] : ea[14:1] : 0` (R93). -/
def psvAddr (s : State) (a : Word) : Nat := s.psvpag.toNat * 2 ^ 15 + a.toNat % 2 ^ 15 / 2 * 2

/-- The byte after the address of a word access to RAM is in `DataImpl` too. DESIGN CHOICE, notes/assumptions/33.md: a
word of which only the even byte is implemented is an address error; R84 step 4 tests the address alone, while R88
speaks of any address not in `DataImpl`. -/
def ramHolds (s : State) (sz : Size) (a : Word) : Bool :=
  match sz with
  | .word => dataImplemented s (a.toNat + 1)
  | .byte => true

/-- `MemRead(addr, n)` (R8, R83, R84, R88, R93, R94): the value read, a byte zero-extended. -/
def memRead (sz : Size) (a : Word) (s : State) : Except Stop (Word × State) :=
  if sz = .word ∧ isOdd a then .error (.trap .addressError)
  else
    match region s a with
    | .cpu r => .ok (pick sz a (readCpu r s).1, (readCpu r s).2)
    | .device => .ok (sized sz (draw s).1, (draw s).2)
    | .psv =>
      match progRead s (psvAddr s a) with
      | some w => .ok (pick sz a (progLow w), { s with cur := { s.cur with psvRead := true } })
      | none => .error (.trap .addressError)
    | .ram => if ramHolds s sz a then .ok (ramRead s sz a, s) else .error (.trap .addressError)
    | .absent => .error (.trap .addressError)

/-- `MemWrite(addr, n, v)` (R8, R83, R84, R88, R94). -/
def memWrite (sz : Size) (a v : Word) (s : State) : Except Stop State :=
  if sz = .word ∧ isOdd a then .error (.trap .addressError)
  else
    match region s a with
    | .cpu r => writeCpu r sz (isOdd a) v s
    | .device => .ok { s with devOut := ⟨a, sz, sized sz v⟩ :: s.devOut }
    | .psv => .error (.refuse .psvWrite)
    | .ram => if ramHolds s sz a then .ok (ramWrite s sz a v) else .error (.trap .addressError)
    | .absent => .error (.trap .addressError)

/-! ## The software stack (R97 to R101) -/

/-- The SPLIM value a check uses: a free value with bit 0 clear for a read in the instruction right after a write of
SPLIM's address (R401), else SPLIM. -/
def limitFor (isRead : Bool) (s : State) : Word × State :=
  if isRead && s.prev.splim then (evenWord (draw s).1, (draw s).2) else (s.splim, s)

/-- `StackEA(ea)` (R100): underflow always; with the latch set, wrap of the address arithmetic and overflow past
SPLIM + 2. `wraps` says that the address arithmetic carried out of 16 bits (notes/assumptions/11.md). -/
def stackCheck (ea : Word) (wraps isRead : Bool) (s : State) : Except Stop State :=
  if ea.toNat < 0x0800 then .error (.trap .stackError)
  else if s.splimen then
    if wraps then .error (.trap .stackError)
    else if (limitFor isRead s).1.toNat + 2 < ea.toNat then .error (.trap .stackError)
    else .ok (limitFor isRead s).2
  else .ok s

/-- `Push16(v)` (R98). -/
def push16 (v : Word) (s : State) : Except Stop State := do
  let ea := s.reg sp
  let s1 ← stackCheck ea (0x10000 ≤ ea.toNat + 2) false s
  let s2 ← memWrite .word ea v s1
  .ok (s2.setW sp (ea + 2))

/-- `Pop16()` (R99). -/
def pop16 (s : State) : Except Stop (Word × State) := do
  let ea := s.reg sp - 2
  let s1 ← stackCheck ea false true s
  memRead .word ea (s1.setW sp ea)

/-- `PushPC_call(ret)` (R101). -/
def pushPcCall (ret : PAddr) (s : State) : Except Stop State := do
  let s1 ← push16 (ret.extractLsb' 0 16) s
  push16 ((ret.extractLsb' 16 7).setWidth 16) s1

/-- The second word of an exception frame: `SR[7:0] : IPL3 : ret[22:16]` (R101). -/
def frameHigh (s : State) (ret : PAddr) : Word :=
  (lowByte (srWord s.sr) ++ BitVec.ofBool s.corcon.ipl3) ++ ret.extractLsb' 16 7

/-- `PushPC_exc(ret)` (R101). -/
def pushPcExc (ret : PAddr) (s : State) : Except Stop State := do
  let s1 ← push16 (ret.extractLsb' 0 16) s
  push16 (frameHigh s1 ret) s1

/-- `hi[6:0] : lo[15:1] : 0`, the address two popped words hold (R275). -/
def poppedAddr (hi lo : Word) : PAddr := evenAddr (hi.extractLsb' 0 7 ++ lo)

/-! ## Taking an exception and returning from one (R352 to R356) -/

/-- `Vector(v)` (R354): bit 0 cleared; a table entry outside program memory is an address error. -/
def vectorOf (v : Nat) (s : State) : Except Stop PAddr :=
  match s.dev.vectors with
  | .table base =>
    match progRead s (base + 2 * v) with
    | some w => .ok (evenAddr (w.extractLsb' 0 23))
    | none => .error (.trap .addressError)
  | .listed es other => .ok (evenAddr ((findAt es v).getD other))

/-- `IPL <- p` (R353): IPL3 and IPL<2:0> on entry; an interrupt enters at 7 when NSTDIS = 1. -/
def setLevel (p : BitVec 4) (s : State) : State :=
  { s with
    corcon := { s.corcon with ipl3 := p.getLsbD 3 }
    sr := { s.sr with ipl := if !p.getLsbD 3 && s.dev.nstdis then 7 else p.extractLsb' 0 3 } }

/-- The notes of delayed targets without one for the frame below `W15 = top`. -/
def dropFrame (top : Word) (l : List (Nat × PAddr)) : List (Nat × PAddr) := l.filter fun e => e.1 != top.toNat

/-- The notes of delayed targets after a frame with the return address `ret` was pushed up to `W15 = top`: the frame is
noted where `ret` is the address of an instruction that follows a REPEAT and has not begun; an older note of a frame
that stood there is gone (R316, R405; notes/assumptions/26.md). -/
def noteFrame (afterRepeat : Bool) (top : Word) (ret : PAddr) (l : List (Nat × PAddr)) : List (Nat × PAddr) :=
  if afterRepeat then (top.toNat, ret) :: dropFrame top l else dropFrame top l

/-- `Enter(v, p, ret)` (R352): the frame pushed, RA cleared, the level raised, the PC at the handler. No stall, no open
loop and no REPEAT before it reach the handler's first instruction (R358, R415); that the interrupted instruction
follows a REPEAT is noted for its return (R316; notes/assumptions/26.md). -/
def enter (v : Nat) (p : BitVec 4) (ret : PAddr) (s : State) : Except Stop State := do
  let s1 ← pushPcExc ret s
  let target ← vectorOf v s1
  let s2 := setLevel p s1
  .ok { s2 with
    sr := { s2.sr with ra := false }
    pc := target
    prev := { s2.prev with mods := 0, midLoop := false, afterRepeat := false }
    delayed := noteFrame s.prev.afterRepeat (s1.reg sp) ret s2.delayed }

/-- Source number and level of a synchronous trap (R341). -/
def trapLine (d : Config.Device) : TrapKind → Config.TrapLine
  | .stackError => d.stackTrap
  | .addressError => d.addressTrap
  | .arithmeticError => d.mathTrap

/-- Entering the handler of a trap an instruction raised, `ret` the address that would have executed next
(R343, R352, R355). The request is over. -/
def enterTrap (k : TrapKind) (s : State) : Except Stop State :=
  enter (trapLine s.dev k).source (trapLine s.dev k).level s.pc { s with event := none }

/-- What RETFIE restores from the two words it popped (R277, R356). -/
def restoreFrame (hi lo : Word) (s : State) : State :=
  { s with
    sr := srRestored s.sr (highByte hi)
    corcon := { s.corcon with ipl3 := hi.getLsbD 7 }
    pc := poppedAddr hi lo }

/-- The target of a REPEAT that an exception delayed is the instruction after that REPEAT still (R277, R316): the
RETFIE that pops its frame, which lay below `W15 = top`, notes it for the next instruction and strikes the frame off.
-/
def State.backToTarget (top : Word) (s : State) : State :=
  { s with
    cur := { s.cur with toTarget := findAt s.delayed top.toNat = some s.pc }
    delayed := dropFrame top s.delayed }

/-! ## Device reset (R390) -/

/-- What the environment presents after a device reset (R390: no request is pending, and the first instruction
executed is the one at 0x000000): a request at the first boundary is gone, later boundaries are as they were
(notes/assumptions/15.md). -/
def withoutPending : List Input → List Input
  | .request _ _ :: l => .quiet :: l
  | l => l

/-- `DeviceReset(cause)` (R390): the reset state, with what is unknown drawn afresh; no request is pending; program
memory, the device and its surroundings stay. The event says that a reset has replaced everything. -/
def deviceReset (cause : ResetCause) (s0 : State) : State :=
  let s := { s0 with draws := s0.draws + drawGap }
  { State.reset with
    splim := evenWord (drawAt s 0)
    rcount := rcountMask s.dev (drawAt s 1)
    disicnt := (drawAt s 2).setWidth 14
    wsh := #v[drawAt s 3, drawAt s 4, drawAt s 5, drawAt s 6]
    srsh := flagsOfWord (drawAt s 7)
    draws := s.draws + 8
    ramEpoch := s.ramEpoch + 1
    prog := s.prog
    devOut := s.devOut
    inputs := withoutPending s.inputs
    dev := s.dev
    event := some (.reset cause) }

/-! ## How an instruction ends -/

/-- The next sequential address after `words` instruction words (R29), modulo 2^23 (notes/assumptions/32.md). -/
def nextPc (s : State) (words : Nat) : PAddr := s.pc + BitVec.ofNat 23 (2 * words)

/-- `next pc <- pc + 2*words`. -/
def advance (words : Nat) (s : State) : State := { s with pc := nextPc s words }

/-- Which status bits an instruction writes. -/
inductive FlagPart where
  /-- none -/
  | keep
  /-- DC, N, OV, Z, C -/
  | all
  /-- N, OV, Z, C -/
  | butDc
  /-- SR<7:0> and IPL3 -/
  | frame
  deriving DecidableEq, Repr

/-- The places an instruction may write, W registers with the size of the write, data addresses with the size of the
store. It is read only where a trap cuts the instruction short and the device record says `runOn`. -/
structure Footprint where
  regs   : List (Reg × Size)
  stores : List (Size × Word)
  flags  : FlagPart
  deriving DecidableEq, Repr

/-- A register that may or may not have been written: its value (or low byte) is free, and so is whether a word write
initialised it. -/
def loseReg (s : State) (r : Reg × Size) : State :=
  let s1 := { s with draws := s.draws + 2 }
  match r.2 with
  | .byte => s1.setWLow r.1 (lowByte (drawAt s 0))
  | .word =>
    { s1.putW r.1 (drawAt s 0) with winit := s.winit.set r.1.val (s.isInit r.1 || drawBit s 1) r.1.isLt }

/-- A store that may or may not have been done: RAM takes a free value; anything else is written, or not, as a free bit
says. -/
def loseStore (s : State) (st : Size × Word) : State :=
  let s1 := { s with draws := s.draws + 2 }
  match memWrite st.1 st.2 (drawAt s 0) s1 with
  | .ok t => if region s st.2 = .ram || drawBit s 1 then t else s1
  | .error _ => s1

/-- Status bits that may or may not have been written. -/
def loseFlags (s : State) (f : FlagPart) : State :=
  let s1 := { s with draws := s.draws + 1 }
  match f with
  | .keep => s
  | .all => { s1 with sr := { s.sr with flags := flagsOfWord (drawAt s 0) } }
  | .butDc => { s1 with sr := { s.sr with flags := { flagsOfWord (drawAt s 0) with dc := s.sr.flags.dc } } }
  | .frame =>
    { s1 with
      sr := srRestored s.sr (lowByte (drawAt s 0))
      corcon := { s.corcon with ipl3 := (drawAt s 0).getLsbD 8 } }

/-- The state in which a trapped instruction asks for its handler where the device record says `runOn`: the access
suppressed, the instruction's other effects free values, the PC at its successor, the trap requested
(R355 [general knowledge]). DESIGN CHOICE, notes/assumptions/4.md: the successor of an instruction that would have
changed the flow (BRA, CALL, RCALL, the returns, a skip) is here the address after it, pc + 4 for a CALL and pc + 2
otherwise, though R313 calls the flow change an instruction makes its successor: the change was cut short. DESIGN
CHOICE, notes/assumptions/32.md: a CALL at 0x7FFFFC has no address after it (R32, R272), and the handler is entered
with pc + 4 taken modulo 2^23, 0x000000. DESIGN CHOICE, notes/assumptions/35.md: the trace is that of the state before
the instruction, so a PSV read already made costs no cycles. -/
def trapped (k : TrapKind) (words : Nat) (f : Footprint) (s0 : State) : State :=
  let s := { s0 with draws := s0.draws + drawGap }
  let s1 := loseFlags (f.stores.foldl loseStore (f.regs.foldl loseReg s)) f.flags
  { s1 with pc := nextPc s0 words, event := some (.trap k) }

/-- `Fault(kind)` (R355, R357). -/
def faultOf : TrapKind → Fault
  | .stackError => .stackError
  | .addressError => .addressError
  | .arithmeticError => .arithmeticError

/-- The outcome of an instruction of `words` words and footprint `f` begun in `s`: its own next state; a refusal; a
device reset; or a trap that cut it short. -/
def settle (words : Nat) (f : Footprint) (s : State) (r : Except Stop State) : Result :=
  match r with
  | .ok t => .next t
  | .error (.refuse x) => .refused x
  | .error (.reset c) => .next (deviceReset c s)
  | .error (.trap k) => if s.dev.runOn then .next (trapped k words f s) else .fault (faultOf k)

end Sys2Proof.Machine
end

