-- ==== Sys2Proof/Machine/Flags.lean ====
section
/-! DEFINITION. The flag computations (10_state.md R34, R35, 42_alu_add.md R193, 44_shift.md). A value of byte size is
held zero-extended in a word. -/

namespace Sys2Proof.Machine

/-- `h` of R34: the number of low bits whose carry out is DC. -/
def halfOf : Size → Nat
  | .word => 8
  | .byte => 4

/-- An operand's low n bits as a number. -/
def operandNat (sz : Size) (v : Word) : Nat := v.toNat % 2 ^ widthOf sz

/-- `(a + b) mod 2^n` (R193). -/
def addResult (sz : Size) (a b : Word) : Word :=
  BitVec.ofNat 16 ((operandNat sz a + operandNat sz b) % 2 ^ widthOf sz)

/-- Bit n-1 of a value. -/
def signBit (sz : Size) (v : Word) : Bool := v.getLsbD (widthOf sz - 1)

/-- N of a result (R34). -/
def negative (sz : Size) (r : Word) : Bool := signBit sz r

/-- Z of a result (R34). -/
def zero (sz : Size) (r : Word) : Bool := operandNat sz r = 0

/-- The five flags of an addition `r = a + b` (R34, R35, R193). -/
def addFlags (sz : Size) (a b : Word) : AluFlags :=
  { dc := 2 ^ halfOf sz ≤ a.toNat % 2 ^ halfOf sz + b.toNat % 2 ^ halfOf sz
    n := negative sz (addResult sz a b)
    ov := signBit sz a = signBit sz b && signBit sz (addResult sz a b) != signBit sz a
    z := zero sz (addResult sz a b)
    c := 2 ^ widthOf sz ≤ operandNat sz a + operandNat sz b }

/-- SR with its five flags replaced. -/
def State.setFlags (s : State) (f : AluFlags) : State := { s with sr := { s.sr with flags := f } }

/-- The flags of a single-bit shift (R241, R243, R245): C the bit shifted out, N and Z of the result, OV a free bit
(D32), DC unchanged. -/
def shift1Flags (sz : Size) (out : Bool) (r : Word) (s : State) : State :=
  let s1 := { s with draws := s.draws + 1 }
  s1.setFlags { s.sr.flags with c := out, n := negative sz r, z := zero sz r, ov := drawBit s 0 }

/-- The flags of a multi-bit shift (R242, R244, R246): N and Z of the result. -/
def shiftFlags (r : Word) (s : State) : State :=
  s.setFlags { s.sr.flags with n := negative .word r, z := zero .word r }

end Sys2Proof.Machine
end

