-- ==== Sys2Proof/Machine/Operands.lean ====
section
/-! DEFINITION. The operand forms (20_memory.md R90 to R92, 40_move.md R150): reading a source, writing a destination,
the double-word forms of MOV.D, and what a form may touch. -/

namespace Sys2Proof.Machine

/-- The form is register direct. -/
def isDirect : Opnd → Bool
  | .direct _ => true
  | _ => false

/-- The form pre- or post-modifies its register. -/
def modifies : Opnd → Bool
  | .postDec _ => true
  | .postInc _ => true
  | .preDec _ => true
  | .preInc _ => true
  | _ => false

/-- The form is pre-modified. -/
def isPre : Opnd → Bool
  | .preDec _ => true
  | .preInc _ => true
  | _ => false

/-- A source form updates its register before the access: a pre-modified one (R150, D27), and a post-modified one too,
as D27 has it ("Source effective address and its modification, then the read"), unless the device record takes the
ReadOp lines of R150, in which the read comes first. The two rules disagree and 90_conflicts.md does not name the
point: `readThenUpdate` says which (DESIGN CHOICE, notes/assumptions/46.md). -/
def updatesFirst (op : Opnd) (s : State) : Bool := modifies op && (isPre op || !s.dev.readThenUpdate)

/-- What is added to the pointer to give the address, for an access of `step` bytes (R90, column EA). -/
def eaOffset (op : Opnd) (step : Nat) (s : State) : Int :=
  match op with
  | .preDec _ => -(step : Int)
  | .preInc _ => (step : Int)
  | .offset _ b => ((s.reg b).toNat : Int)
  | _ => 0

/-- What is added to the pointer afterwards (R90, column "register after"). -/
def updOffset (op : Opnd) (step : Nat) : Int :=
  match op with
  | .postDec _ => -(step : Int)
  | .postInc _ => (step : Int)
  | .preDec _ => -(step : Int)
  | .preInc _ => (step : Int)
  | _ => 0

/-- The same for a destination. R150's WriteOp line for `[++Wn]` adds the step twice where R90's table adds it once,
and 90_conflicts.md does not name the point: `preIncTwice` says which (DESIGN CHOICE, notes/assumptions/12.md). -/
def dstOffset (op : Opnd) (step : Nat) (s : State) : Int :=
  match op with
  | .preInc _ => if s.dev.preIncTwice then 2 * (step : Int) else (step : Int)
  | _ => updOffset op step

/-- Address arithmetic modulo 2^16 (R90). -/
def shiftAddr (base : Word) (d : Int) : Word := BitVec.ofInt 16 (base.toNat + d)

/-- The address arithmetic carries out of 16 bits (R100 (b), D12; a borrow is no carry, notes/assumptions/11.md). -/
def leaves16 (base : Word) (d : Int) : Bool := 0xFFFF < (base.toNat : Int) + d

/-- The effective address of a form on the registers as they stand (R90). -/
def eaOf (op : Opnd) (step : Nat) (s : State) : Word := shiftAddr (s.reg op.reg) (eaOffset op step s)

/-- The register's value after a form on the registers as they stand (R90). -/
def updOf (op : Opnd) (step : Nat) (s : State) : Word := shiftAddr (s.reg op.reg) (updOffset op step)

/-- The register's value after a destination form on the registers as they stand (R90, R150). -/
def dstUpdOf (op : Opnd) (step : Nat) (s : State) : Word := shiftAddr (s.reg op.reg) (dstOffset op step s)

/-- The pointer arithmetic of a form wraps, as a source or as a destination. -/
def wrapsOf (op : Opnd) (step : Nat) (isRead : Bool) (s : State) : Bool :=
  leaves16 (s.reg op.reg) (eaOffset op step s) ||
    leaves16 (s.reg op.reg) (if isRead then updOffset op step else dstOffset op step s)

/-- The form uses W15's contents to generate its effective address (R100): as its pointer, or as the offset register of
`[Wn+Wb]` (DEDUCED, notes/assumptions/43.md). -/
def usesSp : Opnd → Bool
  | .offset n b => n = sp || b = sp
  | op => op.reg = sp

/-- `chk(n, ea)` of R150, for every form whose address W15's contents generate (R100). -/
def spCheck (op : Opnd) (ea : Word) (wraps isRead : Bool) (s : State) : Except Stop State :=
  if usesSp op then stackCheck ea wraps isRead s else .ok s

/-- The pointer of an indirect form checked and its address formed (`Ptr` before `StackEA`, D38). -/
def locate (op : Opnd) (step : Nat) (isRead : Bool) (s : State) : Except Stop (Word × State) := do
  let _ ← ptr s op.reg
  let s1 ← spCheck op (eaOf op step s) (wrapsOf op step isRead s) isRead s
  .ok (eaOf op step s, s1)

/-- `ReadOp(op, s)` (R150): the operand's value, a byte zero-extended. The pointer is updated before the destination
is written; where that write lands on the pointer itself, `dominate` takes the update back (R85). A read of the
pointer's own data address sees the pointer updated where `updatesFirst` says so (R92, D27). -/
def readOp (sz : Size) (op : Opnd) (s : State) : Except Stop (Word × State) :=
  if isDirect op then .ok (sized sz (s.reg op.reg), s)
  else do
    let (ea, s1) ← locate op (bytesOf sz) true s
    if updatesFirst op s then memRead sz ea (s1.setW op.reg (updOf op (bytesOf sz) s))
    else do
      let (v, s2) ← memRead sz ea s1
      .ok (v, if modifies op then s2.setW op.reg (updOf op (bytesOf sz) s) else s2)

/-- The write at `ea` covered a byte of the pointer register's own data-space address, 2n and 2n + 1 (R85). -/
def covers (op : Opnd) (ea : Word) : Bool := ea.toNat / 2 = op.reg.val

/-- `upd` of R150: the register's update, unless the data write dominates (R85). -/
def updateDst (op : Opnd) (covered : Bool) (new : Word) (s : State) : State :=
  if modifies op && !covered then s.setW op.reg new else s

/-- `WriteOp(op, s, v)` (R150). -/
def writeOp (sz : Size) (op : Opnd) (v : Word) (s : State) : Except Stop State :=
  if isDirect op then .ok (s.setSized sz op.reg v)
  else do
    let (ea, s1) ← locate op (bytesOf sz) false s
    let s2 ← memWrite sz ea v s1
    .ok (updateDst op (covers op ea) (dstUpdOf op (bytesOf sz) s) s2)

/-- A word one byte of which, the one the address `ea` selects, is kept and the other is put back to `old`. -/
def keepByteAt (ea old v : Word) : Word :=
  if isOdd ea then joinBytes (lowByte old) (highByte v) else joinBytes (lowByte v) (highByte old)

/-- "The data write dominates" (R85) where a store at `ea` landed on the register that the SOURCE form modified: the
modification is lost. A word store has replaced it whole; of a byte store the other byte is again what it was before
the instruction, `old` (DEDUCED, notes/assumptions/42.md). -/
def dominate (sz : Size) (src : Opnd) (ea old : Word) (s : State) : State :=
  match sz with
  | .word => s
  | .byte => if modifies src && covers src ea then s.putW src.reg (keepByteAt ea old (s.reg src.reg)) else s

/-- `WriteOp(dst, s, v)` of an instruction that began in `s0` and read `src`, which left `s` (R92, R150): the result
written, and a store that lands on the source's pointer dominates (R85). -/
def writeResult (sz : Size) (src dst : Opnd) (v : Word) (s0 s : State) : Except Stop State := do
  let t ← writeOp sz dst v s
  .ok (if isDirect dst then t else dominate sz src (eaOf dst (bytesOf sz) s) (s0.reg src.reg) t)

/-- Both operands pre- or post-modify one register (R92, D27). DESIGN CHOICE, notes/assumptions/45.md: the
instructions that ask this refuse before they evaluate an operand, so an uninitialised pointer of such an instruction
does not reset the device. -/
def sameTwice (src dst : Opnd) : Bool := modifies src && modifies dst && src.reg = dst.reg

/-! ## Double words (R157, R158) -/

/-- The register after Wn, the high half of an aligned pair. -/
def pairHigh (n : Reg) : Reg := n + 1

/-- The odd-register check of MOV.D (R157). -/
def oddReg (n : Reg) : Bool := n.val % 2 = 1

/-- The second word of a double-word access through W15 is checked too (R158: "both word addresses go through
`StackEA`"). -/
def spCheckSecond (op : Opnd) (ea : Word) (isRead : Bool) (s : State) : Except Stop State :=
  spCheck op (ea + 2) (0x10000 ≤ ea.toNat + 2) isRead s

/-- A pair read: the word at the lower address first (R89, R157); the pointer is updated before both reads
or, where `updatesFirst` says no, after both: "one operand evaluation". -/
def readPair (op : Opnd) (s : State) : Except Stop (Word × Word × State) :=
  if isDirect op then .ok (s.reg op.reg, s.reg (pairHigh op.reg), s)
  else do
    let (ea, s1) ← locate op 4 true s
    let s2 ← spCheckSecond op ea true s1
    if updatesFirst op s then do
      let (lo, s3) ← memRead .word ea (s2.setW op.reg (updOf op 4 s))
      let (hi, s4) ← memRead .word (ea + 2) s3
      .ok (lo, hi, s4)
    else do
      let (lo, s3) ← memRead .word ea s2
      let (hi, s4) ← memRead .word (ea + 2) s3
      .ok (lo, hi, if modifies op then s4.setW op.reg (updOf op 4 s) else s4)

/-- A pair written: the word at the lower address first (R89, R158, D27). -/
def writePair (op : Opnd) (lo hi : Word) (s : State) : Except Stop State :=
  if isDirect op then .ok ((s.setW op.reg lo).setW (pairHigh op.reg) hi)
  else do
    let (ea, s1) ← locate op 4 false s
    let s2 ← spCheckSecond op ea false s1
    let s3 ← memWrite .word ea lo s2
    let s4 ← memWrite .word (ea + 2) hi s3
    .ok (updateDst op (covers op ea || covers op (ea + 2)) (dstUpdOf op 4 s) s4)

/-! ## What a form may touch (for `Footprint`) -/

/-- The register a source form may write. -/
def srcRegs (op : Opnd) : List (Reg × Size) := if modifies op then [(op.reg, .word)] else []

/-- The registers a destination form may write. -/
def dstRegs (sz : Size) (op : Opnd) : List (Reg × Size) :=
  if isDirect op then [(op.reg, sz)] else srcRegs op

/-- The registers as the source form's update leaves them. -/
def afterSrc (src : Opnd) (step : Nat) (s : State) : State :=
  if modifies src then s.putW src.reg (updOf src step s) else s

/-- The stores a destination form may make, before or after the source form's update of its register. -/
def dstStores (sz : Size) (src dst : Opnd) (s : State) : List (Size × Word) :=
  if isDirect dst then []
  else [(sz, eaOf dst (bytesOf sz) s), (sz, eaOf dst (bytesOf sz) (afterSrc src (bytesOf sz) s))]

/-- The footprint of an instruction that reads `src` and writes `dst`. -/
def opFootprint (sz : Size) (src dst : Opnd) (f : FlagPart) (s : State) : Footprint :=
  ⟨srcRegs src ++ dstRegs sz dst, dstStores sz src dst s, f⟩

/-- The footprint of an instruction that reads `src` and writes the given registers. -/
def regFootprint (src : Opnd) (rs : List (Reg × Size)) : Footprint := ⟨srcRegs src ++ rs, [], .keep⟩

/-- An instruction that touches nothing but the PC. -/
def pcOnly : Footprint := ⟨[], [], .keep⟩

end Sys2Proof.Machine
end

