-- ==== Sys2Proof/Machine/Move.lean ====
section
/-! DEFINITION. Data movement (40_move.md R151 to R158). No instruction of this file writes a flag (GK4). -/

namespace Sys2Proof.Machine

/-- `v = ReadOp(src, s); WriteOp(dst, s, v)` (R151), refused where both operands modify one register (R92). DESIGN
CHOICE, notes/assumptions/45.md: the refusal comes before any pointer is looked at, so before the
`DeviceReset(UninitW)` of an uninitialised one (R27), which the spec does not order. -/
def transfer (sz : Size) (src dst : Opnd) (s : State) : Except Stop State :=
  if sameTwice src dst then .error (.refuse .sameRegTwiceModified)
  else do
    let (v, s1) ← readOp sz src s
    let s2 ← writeResult sz src dst v s s1
    .ok (advance 1 s2)

/-- `MOV{.B} Wso, Wdo` (R151). -/
def execMov (sz : Size) (src dst : Opnd) (s : State) : Result :=
  settle 1 (opFootprint sz src dst .keep s) s (transfer sz src dst s)

/-- `MOV f, Wnd` (R152). -/
def execMovFWnd (f : Word) (nd : Reg) (s : State) : Result :=
  settle 1 ⟨[(nd, .word)], [], .keep⟩ s do
    let (v, s1) ← memRead .word f s
    .ok (advance 1 (s1.setW nd v))

/-- `MOV Wns, f` (R153). -/
def execMovWnsF (ns : Reg) (f : Word) (s : State) : Result :=
  settle 1 pcOnly s do
    let s1 ← memWrite .word f (s.reg ns) s
    .ok (advance 1 s1)

/-- A file-register address: 13 bits, zero-extended (R91). -/
def fileAddr (f : BitVec 13) : Word := f.setWidth 16

/-- `MOV{.B} WREG, f` (R154). -/
def execMovWregF (sz : Size) (f : BitVec 13) (s : State) : Result :=
  settle 1 pcOnly s do
    let s1 ← memWrite sz (fileAddr f) (s.reg wreg) s
    .ok (advance 1 s1)

/-- `MOV #lit16, Wnd` (R155). -/
def execMovLit16 (lit : Word) (nd : Reg) (s : State) : Result :=
  settle 1 pcOnly s (.ok (advance 1 (s.setW nd lit)))

/-- `MOV.B #lit8, Wnd` (R156). -/
def execMovLit8 (lit : Byte) (nd : Reg) (s : State) : Result :=
  settle 1 pcOnly s (.ok (advance 1 (s.setWLow nd lit)))

/-- `MOV.D Ws, Wnd` (R157): an odd register is refused, a register-direct Ws included, and before a pointer is looked
at (DESIGN CHOICE, notes/assumptions/45.md). -/
def execMovDLoad (src : Opnd) (nd : Reg) (s : State) : Result :=
  settle 1 (regFootprint src [(nd, .word), (pairHigh nd, .word)]) s <|
    if oddReg nd || (isDirect src && oddReg src.reg) then .error (.refuse .movDOddRegister)
    else do
      let (lo, hi, s1) ← readPair src s
      .ok (advance 1 ((s1.setW nd lo).setW (pairHigh nd) hi))

/-- `MOV.D Wns, Wd` (R158). An odd register is refused before a pointer is looked at (DESIGN CHOICE,
notes/assumptions/45.md). -/
def execMovDStore (ns : Reg) (dst : Opnd) (s : State) : Result :=
  settle 1 ⟨dstRegs .word dst, [(.word, eaOf dst 4 s), (.word, eaOf dst 4 s + 2)], .keep⟩ s <|
    if oddReg ns || (isDirect dst && oddReg dst.reg) then .error (.refuse .movDOddRegister)
    else do
      let s1 ← writePair dst (s.reg ns) (s.reg (pairHigh ns)) s
      .ok (advance 1 s1)

end Sys2Proof.Machine
end

