-- ==== Sys2Proof/Machine/Alu.lean ====
section
/-! DEFINITION. ADD (42_alu_add.md R191, R192). The result is written first and the five flags after it (D32). -/

namespace Sys2Proof.Machine

/-- `ADD{.B} f {,WREG}` (R191). -/
def execAddF (sz : Size) (f : BitVec 13) (toFile : Bool) (s : State) : Result :=
  settle 1 ⟨if toFile then [] else [(wreg, sz)], if toFile then [(sz, fileAddr f)] else [], .all⟩ s do
    let (a, s1) ← memRead sz (fileAddr f) s
    let b := s.reg wreg
    let r := addResult sz a b
    let s2 ← if toFile then memWrite sz (fileAddr f) r s1 else .ok (s1.setSized sz wreg r)
    .ok (advance 1 (s2.setFlags (addFlags sz a b)))

/-- `ADD{.B} Wb, Ws, Wd` (R192). Wb is read as data before Ws's pre- or post-modification. Two operands that modify
one register are refused before a pointer is looked at (DESIGN CHOICE, notes/assumptions/45.md). -/
def execAdd (sz : Size) (wb : Reg) (src dst : Opnd) (s : State) : Result :=
  settle 1 (opFootprint sz src dst .all s) s <|
    if sameTwice src dst then .error (.refuse .sameRegTwiceModified)
    else do
      let a := s.reg wb
      let (b, s1) ← readOp sz src s
      let s2 ← writeResult sz src dst (addResult sz a b) s s1
      .ok (advance 1 (s2.setFlags (addFlags sz a b)))

end Sys2Proof.Machine
end

