-- ==== Sys2Proof/Machine/Bits.lean ====
section
/-! DEFINITION. Bit instructions and the skip (45_bit_skip.md R260 to R264). -/

namespace Sys2Proof.Machine

/-- `addr = f + (bit4 >> 3)`, the byte that holds the bit (R260). -/
def bitAddr (f : BitVec 13) (bit : BitVec 4) : Word := fileAddr f + BitVec.ofNat 16 (bit.toNat / 8)

/-- `b = bit4 & 7` (R260). -/
def bitPos (bit : BitVec 4) : Nat := bit.toNat % 8

/-- One byte read and written back with one bit changed. -/
def changeBit (f : BitVec 13) (bit : BitVec 4) (change : Word → Word → Word) (s : State) : Result :=
  settle 1 ⟨[], [(.byte, bitAddr f bit)], .keep⟩ s do
    let (v, s1) ← memRead .byte (bitAddr f bit) s
    let s2 ← memWrite .byte (bitAddr f bit) (change v (1#16 <<< bitPos bit)) s1
    .ok (advance 1 s2)

/-- `BSET f, #bit4` (R261). -/
def execBset (f : BitVec 13) (bit : BitVec 4) (s : State) : Result := changeBit f bit (fun v m => v ||| m) s

/-- `BCLR f, #bit4` (R262). -/
def execBclr (f : BitVec 13) (bit : BitVec 4) (s : State) : Result := changeBit f bit (fun v m => v &&& ~~~m) s

/-- `Skip()` (R264): past the instruction at `pc + 2`, one or two words. A word that is no instruction has no length
(R128); arithmetic that leaves program space is an address error (D5). -/
def skip (s : State) : Except Stop State :=
  match progRead s (s.pc.toNat + 2) with
  | none => .error (.trap .addressError)
  | some w =>
    match lengthOf w with
    | none => .error (.refuse (.unknownOpcode .unknownOpcode))
    | some l =>
      if s.pc.toNat + 2 + 2 * l < 0x800000 then .ok (advance (1 + l) s) else .error (.trap .addressError)

/-- `BTSC f, #bit4` (R263). -/
def execBtsc (f : BitVec 13) (bit : BitVec 4) (s : State) : Result :=
  settle 1 pcOnly s do
    let (v, s1) ← memRead .byte (bitAddr f bit) s
    if v.getLsbD (bitPos bit) then .ok (advance 1 s1) else skip s1

end Sys2Proof.Machine
end

