-- ==== Sys2Proof/Machine/Flow.lean ====
section
/-! DEFINITION. Program flow (46_control_flow.md R270 to R278). -/

namespace Sys2Proof.Machine

/-- A program address that arithmetic gave: outside 0 to 0x7FFFFE it is an address error (D5). -/
def inProgram (a : Int) : Except Stop PAddr :=
  if 0 ≤ a && a < 0x800000 then .ok (evenAddr (BitVec.ofInt 23 a)) else .error (.trap .addressError)

/-- `pc + 2 + 2*signed(n16)` (R126, R270). -/
def relTarget (off : Word) (s : State) : Except Stop PAddr := inProgram ((s.pc.toNat : Int) + 2 + 2 * off.toInt)

/-- `next pc <- target`. -/
def State.jump (s : State) (target : PAddr) : State := { s with pc := target }

/-- `BRA Expr` (R270). -/
def execBra (off : Word) (s : State) : Result :=
  settle 1 pcOnly s do
    let t ← relTarget off s
    .ok (s.jump t)

/-- `GOTO Expr` (R271). -/
def execGoto (target : PAddr) (s : State) : Result := settle 2 pcOnly s (.ok (s.jump (evenAddr target)))

/-- What a call may touch: W15 and the two stack words. -/
def callFootprint (s : State) : Footprint :=
  ⟨[(15, .word)], [(.word, s.reg 15), (.word, s.reg 15 + 2)], .keep⟩

/-- The return address of a call of `words` words pushed (R101, R273). -/
def pushReturn (words : Nat) (s : State) : Except Stop State := do
  let ret ← inProgram ((s.pc.toNat : Int) + 2 * words)
  pushPcCall ret s

/-- `CALL Expr` (R272): the return address is `pc + 4`. -/
def execCall (target : PAddr) (s : State) : Result :=
  settle 2 (callFootprint s) s do
    let s1 ← pushReturn 2 s
    .ok (s1.jump (evenAddr target))

/-- `RCALL Expr` (R274): the return address is `pc + 2`; it is pushed before the target is formed. -/
def execRcall (off : Word) (s : State) : Result :=
  settle 1 (callFootprint s) s do
    let s1 ← pushReturn 1 s
    let t ← relTarget off s
    .ok (s1.jump t)

/-- `hi = Pop16(); lo = Pop16()` (R275). -/
def popFrame (s : State) : Except Stop (Word × Word × State) := do
  let (hi, s1) ← pop16 s
  let (lo, s2) ← pop16 s1
  .ok (hi, lo, s2)

/-- `RETURN` (R275). -/
def execRet (s : State) : Result :=
  settle 1 ⟨[(15, .word)], [], .keep⟩ s do
    let (hi, lo, s1) ← popFrame s
    .ok (s1.jump (poppedAddr hi lo))

/-- `RETLW{.B} #lit10, Wn` (R276): the byte form uses the low 8 bits of the literal. -/
def execRetlw (sz : Size) (lit : BitVec 10) (n : Reg) (s : State) : Result :=
  settle 1 ⟨[(15, .word), (n, sz)], [], .keep⟩ s do
    let (hi, lo, s1) ← popFrame s
    .ok ((s1.setSized sz n (lit.setWidth 16)).jump (poppedAddr hi lo))

/-- `RETFIE` (R277): SR<7:0>, IPL3 and the PC from the exception frame; where that is the address of a delayed target
of a REPEAT, it is one again (R316). -/
def execRetfie (s : State) : Result :=
  settle 1 ⟨[(15, .word)], [], .frame⟩ s do
    let (hi, lo, s1) ← popFrame s
    .ok ((restoreFrame hi lo s1).backToTarget (s.reg sp))

end Sys2Proof.Machine
end

