-- ==== Sys2Proof/Machine/MulDiv.lean ====
section
/-! DEFINITION. Multiply and divide (43_multiply_divide.md R211 to R228). -/

namespace Sys2Proof.Machine

/-! ## Multiply -/

/-- An operand as the multiplier takes it: sign- or zero-extended into the seventeenth bit (R211), as a number. -/
def mulOperand (signed : Bool) (v : Word) : Int := if signed then v.toInt else (v.toNat : Int)

/-- `P mod 2^32` (R211). -/
def product (sa sb : Bool) (a b : Word) : BitVec 32 := BitVec.ofInt 32 (mulOperand sa a * mulOperand sb b)

/-- A destination pair that is unaligned or W15:W14 (R212). -/
def mulBadDest (nd : Reg) : Bool := oddReg nd || nd = fp

/-- A 32-bit value to W(nd+1):W(nd) (R212): two word writes. -/
def setPair (nd : Reg) (p : BitVec 32) (s : State) : State :=
  (s.setW nd (p.extractLsb' 0 16)).setW (pairHigh nd) (p.extractLsb' 16 16)

/-- The register forms with a general second operand: Wb is read as data first. A bad destination (R212) is refused
before Ws's pointer is looked at (DESIGN CHOICE, notes/assumptions/45.md). -/
def multiply (sa sb : Bool) (wb : Reg) (src : Opnd) (nd : Reg) (s : State) : Result :=
  settle 1 (regFootprint src [(nd, .word), (pairHigh nd, .word)]) s <|
    if mulBadDest nd then .error (.refuse .mulBadDest)
    else do
      let a := s.reg wb
      let (b, s1) ← readOp .word src s
      .ok (advance 1 (setPair nd (product sa sb a b) s1))

/-- The two literal forms: the literal is unsigned. -/
def multiplyLit (sa : Bool) (wb : Reg) (lit : BitVec 5) (nd : Reg) (s : State) : Result :=
  settle 1 pcOnly s <|
    if mulBadDest nd then .error (.refuse .mulBadDest)
    else .ok (advance 1 (setPair nd (product sa false (s.reg wb) (lit.setWidth 16)) s))

/-- `MUL.UU Wb, Ws, Wnd` (R213). -/
def execMulUU (wb : Reg) (src : Opnd) (nd : Reg) (s : State) : Result := multiply false false wb src nd s

/-- `MUL.UU Wb, #lit5, Wnd` (R213). -/
def execMulUULit (wb : Reg) (lit : BitVec 5) (nd : Reg) (s : State) : Result := multiplyLit false wb lit nd s

/-- `MUL.US Wb, Ws, Wnd` (R214): unsigned Wb, signed Ws. -/
def execMulUS (wb : Reg) (src : Opnd) (nd : Reg) (s : State) : Result := multiply false true wb src nd s

/-- `MUL.SU Wb, Ws, Wnd` (R215): signed Wb, unsigned Ws. -/
def execMulSU (wb : Reg) (src : Opnd) (nd : Reg) (s : State) : Result := multiply true false wb src nd s

/-- `MUL.SU Wb, #lit5, Wnd` (R215). -/
def execMulSULit (wb : Reg) (lit : BitVec 5) (nd : Reg) (s : State) : Result := multiplyLit true wb lit nd s

/-- `MUL.SS Wb, Ws, Wnd` (R216). -/
def execMulSS (wb : Reg) (src : Opnd) (nd : Reg) (s : State) : Result := multiply true true wb src nd s

/-- `MUL{.B} f` (R217): W0 times the file register, unsigned (C12), to W3:W2 or, in byte mode, all of W2. -/
def execMulF (sz : Size) (f : BitVec 13) (s : State) : Result :=
  settle 1 ⟨match sz with | .word => [(2, .word), (3, .word)] | .byte => [(2, .word)], [], .keep⟩ s do
    let (b, s1) ← memRead sz (fileAddr f) s
    let p := product false false (sized sz (s.reg wreg)) b
    .ok (advance 1 (match sz with
      | .word => setPair 2 p s1
      | .byte => s1.setW 2 (p.extractLsb' 0 16)))

/-! ## Divide -/

/-- The forms with a 32-bit dividend. -/
def isWide : DivKind → Bool
  | .sd => true
  | .ud => true
  | .sw => false
  | .uw => false

/-- The dividend `a` (R221). -/
def dividendOf (kind : DivKind) (m : Reg) (s : State) : BitVec 32 :=
  if isWide kind then s.reg (pairHigh m) ++ s.reg m else (s.reg m).setWidth 32

/-- The operand restrictions of R220: the divisor is not W0 or W1; a 32-bit dividend is an aligned pair, its high word
named by the field `t` (R124). -/
def divBadOperand (kind : DivKind) (t m n : Reg) : Bool :=
  n = 0 || n = 1 || (isWide kind && (oddReg m || t != pairHigh m))

/-- Quotient and remainder as integers (R223 to R226): truncated toward zero, the remainder with the dividend's sign.
-/
def divInts (kind : DivKind) (a : BitVec 32) (d : Word) : Int × Int :=
  match kind with
  | .sw => ((lowHalf a).toInt.tdiv d.toInt, (lowHalf a).toInt.tmod d.toInt)
  | .sd => (a.toInt.tdiv d.toInt, a.toInt.tmod d.toInt)
  | .uw => (((lowHalf a).toNat / d.toNat : Nat), ((lowHalf a).toNat % d.toNat : Nat))
  | .ud => ((a.toNat / d.toNat : Nat), (a.toNat % d.toNat : Nat))
where
  /-- bits 15:0 of the dividend -/
  lowHalf (a : BitVec 32) : Word := a.extractLsb' 0 16

/-- `ovf` (R223 to R226): the quotient does not fit in 16 bits, signed in the signed forms. -/
def divOverflows (kind : DivKind) (q : Int) : Bool :=
  match kind with
  | .sw => q < -32768 || 32767 < q
  | .sd => q < -32768 || 32767 < q
  | .uw => 0xFFFF < q
  | .ud => 0xFFFF < q

/-- `Scramble()` (R221): W0, W1, N, C, Z free values, remembered in the record. -/
def scramble (g : DivGhost) (s : State) : State :=
  let s1 := { s with draws := s.draws + 5 }
  let s2 := (s1.setW 0 (drawAt s 0)).setW 1 (drawAt s 1)
  { s2 with
    sr := { s.sr with flags := { s.sr.flags with n := drawBit s 2, c := drawBit s 3, z := drawBit s 4 } }
    divGhost := some { g with
      w0 := drawAt s 0, w1 := drawAt s 1, n := drawBit s 2, c := drawBit s 3, z := drawBit s 4 } }

/-- `Intact()` (R221). -/
def intact (g : DivGhost) (n : Reg) (s : State) : Bool :=
  s.reg 0 = g.w0 && s.reg 1 = g.w1 && s.sr.flags.n = g.n && s.sr.flags.c = g.c && s.sr.flags.z = g.z
    && s.reg n = g.divisor

/-- `Finish(kind, a, d)` (R221, R228): the quotient and the remainder, or free values where the quotient does not fit;
N, OV, Z, C free, DC unchanged; the record is closed. -/
def finishDiv (g : DivGhost) (s : State) : State :=
  let s1 := { s with draws := s.draws + 6 }
  let (q, r) := divInts g.kind g.dividend g.divisor
  let s2 :=
    if divOverflows g.kind q then (s1.setW 0 (drawAt s 0)).setW 1 (drawAt s 1)
    else (s1.setW 0 (BitVec.ofInt 16 q)).setW 1 (BitVec.ofInt 16 r)
  { s2 with
    sr := { s.sr with flags :=
      { s.sr.flags with n := drawBit s 2, ov := drawBit s 3, z := drawBit s 4, c := drawBit s 5 } }
    divGhost := none }

/-- `DivStep(kind, m, n)` (R221). A divide by zero does its first execution and requests the trap (R222); its last one
would compute nothing defined (R343). DESIGN CHOICE, notes/assumptions/25.md: a DIV that goes on with the record is
known by its kind and its divisor's value alone, as in R221's pseudocode, which names neither its address nor its Wm;
R221's prose refuses "a different DIV instruction finishing what another began". -/
def divStep (kind : DivKind) (m n : Reg) (s : State) : Except Stop State :=
  match s.divGhost with
  | none =>
    if s.sr.ra && s.rcount = 17 then
      let s1 := scramble ⟨kind, dividendOf kind m s, s.reg n, 1, 0, 0, false, false, false⟩ s
      .ok (if s.reg n = 0 then { s1 with event := some (.trap .arithmeticError) } else s1)
    else .error (.refuse .divideMisuse)
  | some g =>
    if g.kind = kind && 1 ≤ g.done && g.done ≤ 16 && s.sr.ra && s.rcount.toNat + g.done = 17 && intact g n s then
      .ok (scramble { g with done := g.done + 1 } s)
    else if g.kind = kind && g.done = 17 && !s.sr.ra && s.rcount = 0 && intact g n s && g.divisor != 0 then
      .ok (finishDiv g s)
    else .error (.refuse .divideMisuse)

/-- One execution of a divide. DESIGN CHOICE, notes/assumptions/45.md: a bad operand (R220) is refused before the loop
and the record are looked at (R221), an order the spec does not give. -/
def divide (kind : DivKind) (t m n : Reg) (s : State) : Result :=
  settle 1 pcOnly s <|
    if divBadOperand kind t m n then .error (.refuse .divBadOperand)
    else do
      let s1 ← divStep kind m n s
      .ok (advance 1 s1)

/-- `DIV.SW Wm, Wn` (R223). -/
def execDivSW (m n : Reg) (s : State) : Result := divide .sw m m n s

/-- `DIV.SD Wm, Wn` (R224). -/
def execDivSD (t m n : Reg) (s : State) : Result := divide .sd t m n s

/-- `DIV.UW Wm, Wn` (R225). -/
def execDivUW (m n : Reg) (s : State) : Result := divide .uw m m n s

/-- `DIV.UD Wm, Wn` (R226). -/
def execDivUD (t m n : Reg) (s : State) : Result := divide .ud t m n s

end Sys2Proof.Machine
end

