-- ==== Sys2Proof/Machine/Shift.lean ====
section
/-! DEFINITION. Shifts (44_shift.md R241 to R247). -/

namespace Sys2Proof.Machine

/-- The three shifts. -/
inductive ShiftOp where
  | left
  | logical
  | arith
  deriving DecidableEq, Repr

/-- A value shifted by `k` places (R247): `(v * 2^k) mod 2^n`, `floor(unsigned / 2^k)`, `floor(signed / 2^k)`; the
value is held zero-extended in a word. -/
def shifted (op : ShiftOp) (sz : Size) (k : Nat) (v : Word) : Word :=
  match op with
  | .left => sized sz (v <<< k)
  | .logical => sized sz v >>> k
  | .arith =>
    match sz with
    | .word => v.sshiftRight k
    | .byte => ((lowByte v).sshiftRight k).setWidth 16

/-- The bit a single-bit shift moves out to C (R241, R243, R245). -/
def shiftedOut (op : ShiftOp) (sz : Size) (v : Word) : Bool :=
  match op with
  | .left => v.getLsbD (widthOf sz - 1)
  | .logical => v.getLsbD 0
  | .arith => v.getLsbD 0

/-- The single-bit forms: any operands; C, N, Z, and OV a free bit (R241, R243, R245). Two operands that modify one
register are refused before a pointer is looked at (DESIGN CHOICE, notes/assumptions/45.md). -/
def shiftOne (op : ShiftOp) (sz : Size) (src dst : Opnd) (s : State) : Result :=
  settle 1 (opFootprint sz src dst .butDc s) s <|
    if sameTwice src dst then .error (.refuse .sameRegTwiceModified)
    else do
      let (v, s1) ← readOp sz src s
      let r := shifted op sz 1 v
      let s2 ← writeResult sz src dst r s s1
      .ok (advance 1 (shift1Flags sz (shiftedOut op sz v) r s2))

/-- A multi-bit shift's result to Wnd, with N and Z of it (R242, R244, R246). -/
def shiftInto (nd : Reg) (r : Word) (s : State) : State := (shiftFlags r s).setW nd r

/-- The literal forms: 0 to 15 places. -/
def shiftLit (op : ShiftOp) (wb : Reg) (k : BitVec 4) (nd : Reg) (s : State) : Result :=
  settle 1 pcOnly s (.ok (advance 1 (shiftInto nd (shifted op .word k.toNat (s.reg wb)) s)))

/-- The register forms. A count above 15 has no stated result and is refused (R242, R244, R246, D17). -/
def shiftReg (op : ShiftOp) (wb ns nd : Reg) (s : State) : Result :=
  settle 1 pcOnly s <|
    if (s.reg ns).toNat ≤ 15 then
      .ok (advance 1 (shiftInto nd (shifted op .word (s.reg ns).toNat (s.reg wb)) s))
    else .error (.refuse .shiftCountOver15)

/-- `SL{.B} Ws, Wd` (R241). -/
def execSl (sz : Size) (src dst : Opnd) (s : State) : Result := shiftOne .left sz src dst s

/-- `SL Wb, #lit4, Wnd` (R242). -/
def execSlLit (wb : Reg) (k : BitVec 4) (nd : Reg) (s : State) : Result := shiftLit .left wb k nd s

/-- `SL Wb, Wns, Wnd` (R242). -/
def execSlReg (wb ns nd : Reg) (s : State) : Result := shiftReg .left wb ns nd s

/-- `LSR{.B} Ws, Wd` (R243). -/
def execLsr (sz : Size) (src dst : Opnd) (s : State) : Result := shiftOne .logical sz src dst s

/-- `LSR Wb, #lit4, Wnd` (R244). -/
def execLsrLit (wb : Reg) (k : BitVec 4) (nd : Reg) (s : State) : Result := shiftLit .logical wb k nd s

/-- `LSR Wb, Wns, Wnd` (R244). -/
def execLsrReg (wb ns nd : Reg) (s : State) : Result := shiftReg .logical wb ns nd s

/-- `ASR{.B} Ws, Wd` (R245). -/
def execAsr (sz : Size) (src dst : Opnd) (s : State) : Result := shiftOne .arith sz src dst s

/-- `ASR Wb, #lit4, Wnd` (R246). -/
def execAsrLit (wb : Reg) (k : BitVec 4) (nd : Reg) (s : State) : Result := shiftLit .arith wb k nd s

/-- `ASR Wb, Wns, Wnd` (R246). -/
def execAsrReg (wb ns nd : Reg) (s : State) : Result := shiftReg .arith wb ns nd s

end Sys2Proof.Machine
end

