-- ==== Sys2Proof/Machine/Stack.lean ====
section
/-! DEFINITION. Stack, shadow and frame instructions (41_stack.md R171 to R178). -/

namespace Sys2Proof.Machine

/-- `PUSH Wso` (R171): `MOV Wso, [W15++]`. -/
def execPush (src : Opnd) (s : State) : Result :=
  settle 1 (opFootprint .word src (.postInc sp) .keep s) s (transfer .word src (.postInc sp) s)

/-- `POP Wdo` (R172): `MOV [--W15], Wdo`. -/
def execPop (dst : Opnd) (s : State) : Result :=
  settle 1 (opFootprint .word (.preDec sp) dst .keep s) s (transfer .word (.preDec sp) dst s)

/-- `PUSH.S` (R175): W0 to W3 and the five flags to the shadows. -/
def execPushS (s : State) : Result :=
  settle 1 pcOnly s
    (.ok (advance 1 { s with wsh := #v[s.reg 0, s.reg 1, s.reg 2, s.reg 3], srsh := s.sr.flags }))

/-- `POP.S` (R176): the shadows back, four word writes and the five flags. -/
def execPopS (s : State) : Result :=
  settle 1 pcOnly s <| .ok <| advance 1
    { (((s.setW 0 s.wsh[0]).setW 1 s.wsh[1]).setW 2 s.wsh[2]).setW 3 s.wsh[3] with
      sr := { s.sr with flags := s.srsh } }

/-- `LNK #lit14` (R177): push W14; W14 <- W15; W15 <- W15 + lit14, the sum unchecked (D31). -/
def execLnk (lit : BitVec 14) (s : State) : Result :=
  settle 1 ⟨[(fp, .word), (sp, .word)], [], .keep⟩ s <|
    if lit.getLsbD 0 then .error (.refuse .lnkOddLiteral)
    else do
      let s1 ← push16 (s.reg fp) s
      let s2 := s1.setW fp (s1.reg sp)
      .ok (advance 1 (s2.setW sp (s2.reg sp + lit.setWidth 16)))

/-- `ULNK` (R178): W15 <- W14; W14 <- Pop16(). W14 is read as data. With W14 = 0 and the latch off the pop's EA,
0xFFFE, passes the stack checks and the access decides: an address error outside `DataImpl` (V41.18, D13, D38),
although R178's derived sentence says stack error (DEDUCED, notes/assumptions/28.md). -/
def execUlnk (s : State) : Result :=
  settle 1 ⟨[(fp, .word), (sp, .word)], [], .keep⟩ s do
    let (v, s1) ← pop16 (s.setW sp (s.reg fp))
    .ok (advance 1 (s1.setW fp v))

end Sys2Proof.Machine
end

