-- ==== Sys2Proof/Machine/System.lean ====
section
/-! DEFINITION. REPEAT and the system instructions (48_repeat_system.md R311, R312, R317 to R320). How a loop runs
(R313) is in Outer. -/

namespace Sys2Proof.Machine

/-- RCOUNT initialised; RA set where the count is not 0 (R311). -/
def startLoop (c : Word) (s : State) : State :=
  { s with rcount := c, sr := { s.sr with ra := s.sr.ra || c != 0 } }

/-- `REPEAT #lit14` (R311). -/
def execRepeatLit (lit : BitVec 14) (s : State) : Result :=
  settle 1 pcOnly s (.ok (advance 1 (startLoop (lit.setWidth 16) s)))

/-- The count fits RCOUNT (R312): `c < 2^RCOUNT_WIDTH`. -/
def countFits (d : Config.Device) (c : Word) : Bool := d.rcountWide || c.toNat < 0x4000

/-- `REPEAT Wn` (R312). A count that does not fit RCOUNT is refused (D6). -/
def execRepeatW (n : Reg) (s : State) : Result :=
  settle 1 pcOnly s <|
    if countFits s.dev (s.reg n) then .ok (advance 1 (startLoop (s.reg n) s))
    else .error (.refuse .repeatCountTooWide)

/-- `NOP` (R317). -/
def execNop (s : State) : Result := settle 1 pcOnly s (.ok (advance 1 s))

/-- `RESET` (R318): `DeviceReset(Software)`. -/
def execReset (s : State) : Result := settle 1 pcOnly s (.error (.reset .software))

/-- `DISI #lit14` (R319). -/
def execDisi (lit : BitVec 14) (s : State) : Result := settle 1 pcOnly s (.ok (advance 1 { s with disicnt := lit }))

/-- `PWRSAV #lit1` (R320): the spec's `refuse(PowerSave)` (D37). -/
def execPwrsav (_lit : BitVec 1) (_s : State) : Result := .refused .powerSave

end Sys2Proof.Machine
end

