-- ==== Sys2Proof/Machine/Table.lean ====
section
/-! DEFINITION. Table instructions (47_table.md R300 to R303). -/

namespace Sys2Proof.Machine

/-- `TBLPAG[6:0] : t[15:1] : 0` (R300, R301). -/
def tableAddr (s : State) (t : Word) : Nat := s.tblpag.toNat % 128 * 2 ^ 16 + t.toNat / 2 * 2

/-- What a table read takes from the program word (R301, R302): bits 15:0 or the byte of them that `t[0]` selects; or
bits 23:16, of which the odd byte reads 0. -/
def tablePick (high : Bool) (sz : Size) (t : Word) (w : PWord) : Word :=
  if high then
    match sz with
    | .word => (w.extractLsb' 16 8).setWidth 16
    | .byte => if isOdd t then 0 else (w.extractLsb' 16 8).setWidth 16
  else pick sz t (progLow w)

/-- The program word a table pointer names, and the part of it read. -/
def tableValue (high : Bool) (sz : Size) (t : Word) (s : State) : Except Stop Word :=
  if s.tblpag.getLsbD 7 then .error (.refuse .tableTestSpace)
  else if sz = .word ∧ isOdd t then .error (.trap .addressError)
  else
    match progRead s (tableAddr s t) with
    | some w => .ok (tablePick high sz t w)
    | none => .error (.trap .addressError)

/-- The source operand of a table read: the address steps of R150, the access in program space. -/
def tableSource (high : Bool) (sz : Size) (src : Opnd) (s : State) : Except Stop (Word × State) :=
  if isDirect src then .error (.refuse .tableDirectOperand)
  else do
    let (t, s1) ← locate src (bytesOf sz) true s
    let v ← tableValue high sz t s1
    .ok (v, if modifies src then s1.setW src.reg (updOf src (bytesOf sz) s) else s1)

/-- A table read to any destination. Two operands that modify one register are refused before a pointer is looked at
(DESIGN CHOICE, notes/assumptions/45.md). -/
def tableRead (high : Bool) (sz : Size) (src dst : Opnd) (s : State) : Result :=
  settle 1 (opFootprint sz src dst .keep s) s <|
    if sameTwice src dst then .error (.refuse .sameRegTwiceModified)
    else do
      let (v, s1) ← tableSource high sz src s
      let s2 ← writeResult sz src dst v s s1
      .ok (advance 1 s2)

/-- `TBLRDL{.B} [Ws], Wd` (R301). -/
def execTblrdl (sz : Size) (src dst : Opnd) (s : State) : Result := tableRead false sz src dst s

/-- `TBLRDH{.B} [Ws], Wd` (R302). -/
def execTblrdh (sz : Size) (src dst : Opnd) (s : State) : Result := tableRead true sz src dst s

/-- `TBLWTL{.B} Ws, [Wd]` (R303): the spec's `refuse(TableWrite)` (D9). -/
def execTblwtl (_sz : Size) (_src _dst : Opnd) (_s : State) : Result := .refused .tableWrite

/-- `TBLWTH{.B} Ws, [Wd]` (R303): the spec's `refuse(TableWrite)` (D9). -/
def execTblwth (_sz : Size) (_src _dst : Opnd) (_s : State) : Result := .refused .tableWrite

end Sys2Proof.Machine
end

