-- ==== Sys2Proof/Machine/Dispatch.lean ====
section
/-! DEFINITION. exec: one arm per constructor of Instr, one direct call of its meaning. -/

namespace Sys2Proof.Machine

def exec (i : Instr) (s : State) : Host.Outcome State Fault Refusal :=
  match i with
  | .mov sz src dst => Sys2Proof.Machine.execMov sz src dst s
  | .movFWnd f nd => Sys2Proof.Machine.execMovFWnd f nd s
  | .movWnsF ns f => Sys2Proof.Machine.execMovWnsF ns f s
  | .movWregF sz f => Sys2Proof.Machine.execMovWregF sz f s
  | .movLit16 lit nd => Sys2Proof.Machine.execMovLit16 lit nd s
  | .movLit8 lit nd => Sys2Proof.Machine.execMovLit8 lit nd s
  | .movDLoad src nd => Sys2Proof.Machine.execMovDLoad src nd s
  | .movDStore ns dst => Sys2Proof.Machine.execMovDStore ns dst s
  | .push src => Sys2Proof.Machine.execPush src s
  | .pop dst => Sys2Proof.Machine.execPop dst s
  | .pushS => Sys2Proof.Machine.execPushS s
  | .popS => Sys2Proof.Machine.execPopS s
  | .lnk lit => Sys2Proof.Machine.execLnk lit s
  | .ulnk => Sys2Proof.Machine.execUlnk s
  | .addF sz f toFile => Sys2Proof.Machine.execAddF sz f toFile s
  | .add sz wb src dst => Sys2Proof.Machine.execAdd sz wb src dst s
  | .mulUU wb src nd => Sys2Proof.Machine.execMulUU wb src nd s
  | .mulUULit wb lit nd => Sys2Proof.Machine.execMulUULit wb lit nd s
  | .mulUS wb src nd => Sys2Proof.Machine.execMulUS wb src nd s
  | .mulSU wb src nd => Sys2Proof.Machine.execMulSU wb src nd s
  | .mulSULit wb lit nd => Sys2Proof.Machine.execMulSULit wb lit nd s
  | .mulSS wb src nd => Sys2Proof.Machine.execMulSS wb src nd s
  | .mulF sz f => Sys2Proof.Machine.execMulF sz f s
  | .divSW m n => Sys2Proof.Machine.execDivSW m n s
  | .divSD t m n => Sys2Proof.Machine.execDivSD t m n s
  | .divUW m n => Sys2Proof.Machine.execDivUW m n s
  | .divUD t m n => Sys2Proof.Machine.execDivUD t m n s
  | .sl sz src dst => Sys2Proof.Machine.execSl sz src dst s
  | .slLit wb k nd => Sys2Proof.Machine.execSlLit wb k nd s
  | .slReg wb ns nd => Sys2Proof.Machine.execSlReg wb ns nd s
  | .lsr sz src dst => Sys2Proof.Machine.execLsr sz src dst s
  | .lsrLit wb k nd => Sys2Proof.Machine.execLsrLit wb k nd s
  | .lsrReg wb ns nd => Sys2Proof.Machine.execLsrReg wb ns nd s
  | .asr sz src dst => Sys2Proof.Machine.execAsr sz src dst s
  | .asrLit wb k nd => Sys2Proof.Machine.execAsrLit wb k nd s
  | .asrReg wb ns nd => Sys2Proof.Machine.execAsrReg wb ns nd s
  | .bset f bit => Sys2Proof.Machine.execBset f bit s
  | .bclr f bit => Sys2Proof.Machine.execBclr f bit s
  | .btsc f bit => Sys2Proof.Machine.execBtsc f bit s
  | .bra off => Sys2Proof.Machine.execBra off s
  | .goto target => Sys2Proof.Machine.execGoto target s
  | .call target => Sys2Proof.Machine.execCall target s
  | .rcall off => Sys2Proof.Machine.execRcall off s
  | .ret => Sys2Proof.Machine.execRet s
  | .retlw sz lit n => Sys2Proof.Machine.execRetlw sz lit n s
  | .retfie => Sys2Proof.Machine.execRetfie s
  | .tblrdl sz src dst => Sys2Proof.Machine.execTblrdl sz src dst s
  | .tblrdh sz src dst => Sys2Proof.Machine.execTblrdh sz src dst s
  | .tblwtl sz src dst => Sys2Proof.Machine.execTblwtl sz src dst s
  | .tblwth sz src dst => Sys2Proof.Machine.execTblwth sz src dst s
  | .repeatLit lit => Sys2Proof.Machine.execRepeatLit lit s
  | .repeatW n => Sys2Proof.Machine.execRepeatW n s
  | .nop => Sys2Proof.Machine.execNop s
  | .reset => Sys2Proof.Machine.execReset s
  | .disi lit => Sys2Proof.Machine.execDisi lit s
  | .pwrsav lit => Sys2Proof.Machine.execPwrsav lit s

end Sys2Proof.Machine
end

