-- ==== Sys2Proof/Machine/Timing.lean ====
section
/-! DEFINITION. Instruction timing (70_reset_and_hazards.md R410 to R418), which one thing depends on: the DISI counter
counts cycles (R319, R410). -/

namespace Sys2Proof.Machine

/-- The mask of one register. -/
def regBit (n : Reg) : BitVec 16 := 1#16 <<< n.val

/-- The mask of an aligned pair. -/
def pairBits (n : Reg) : BitVec 16 := regBit n ||| regBit (n + 1)

/-- The registers an operand form reads to form an address (R412 `SourceEAUses`). DESIGN CHOICE,
notes/assumptions/35.md: of `[Wn+Wb]` both registers count, where the predicate lists the form for n alone. -/
def eaMask : Opnd → BitVec 16
  | .direct _ => 0
  | .ind n => regBit n
  | .postDec n => regBit n
  | .postInc n => regBit n
  | .preDec n => regBit n
  | .preInc n => regBit n
  | .offset n b => regBit n ||| regBit b

/-- The registers a destination form modifies (R412 `ModifiesW`): a direct one, or an indirect one with modification.
-/
def dstMask (op : Opnd) : BitVec 16 := if isDirect op || modifies op then regBit op.reg else 0

/-- `SourceEAUses(I, n)` (R412) as a mask: an explicit source operand with an address; POP's is `[--W15]` (R172).
RETURN, RETLW, RETFIE and ULNK have none. -/
def sourceEaMask : Instr → BitVec 16
  | .mov _ src _ => eaMask src
  | .movFWnd _ _ => 0
  | .movWnsF _ _ => 0
  | .movWregF _ _ => 0
  | .movLit16 _ _ => 0
  | .movLit8 _ _ => 0
  | .movDLoad src _ => eaMask src
  | .movDStore _ _ => 0
  | .push src => eaMask src
  | .pop _ => regBit sp
  | .pushS => 0
  | .popS => 0
  | .lnk _ => 0
  | .ulnk => 0
  | .addF _ _ _ => 0
  | .add _ _ src _ => eaMask src
  | .mulUU _ src _ => eaMask src
  | .mulUULit _ _ _ => 0
  | .mulUS _ src _ => eaMask src
  | .mulSU _ src _ => eaMask src
  | .mulSULit _ _ _ => 0
  | .mulSS _ src _ => eaMask src
  | .mulF _ _ => 0
  | .divSW _ _ => 0
  | .divSD _ _ _ => 0
  | .divUW _ _ => 0
  | .divUD _ _ _ => 0
  | .sl _ src _ => eaMask src
  | .slLit _ _ _ => 0
  | .slReg _ _ _ => 0
  | .lsr _ src _ => eaMask src
  | .lsrLit _ _ _ => 0
  | .lsrReg _ _ _ => 0
  | .asr _ src _ => eaMask src
  | .asrLit _ _ _ => 0
  | .asrReg _ _ _ => 0
  | .bset _ _ => 0
  | .bclr _ _ => 0
  | .btsc _ _ => 0
  | .bra _ => 0
  | .goto _ => 0
  | .call _ => 0
  | .rcall _ => 0
  | .ret => 0
  | .retlw _ _ _ => 0
  | .retfie => 0
  | .tblrdl _ src _ => eaMask src
  | .tblrdh _ src _ => eaMask src
  | .tblwtl _ _ _ => 0
  | .tblwth _ _ _ => 0
  | .repeatLit _ => 0
  | .repeatW _ => 0
  | .nop => 0
  | .reset => 0
  | .disi _ => 0
  | .pwrsav _ => 0

/-- `ModifiesW(I, n)` (R412, R414) as a mask, but for a store that lands on a register's data address, which the trace
notes. RETURN and RETFIE "can never force an instruction stall". DESIGN CHOICE, notes/assumptions/35.md: W14 and W15
of LNK and ULNK, W0 to W3 of POP.S and the fixed results of MUL f and the divides count as modified too, though the
implicit writers R412 lists are CALL, RCALL and RETLW. -/
def modsMask : Instr → BitVec 16
  | .mov _ _ dst => dstMask dst
  | .movFWnd _ nd => regBit nd
  | .movWnsF _ _ => 0
  | .movWregF _ _ => 0
  | .movLit16 _ nd => regBit nd
  | .movLit8 _ nd => regBit nd
  | .movDLoad _ nd => pairBits nd
  | .movDStore _ dst => if isDirect dst then pairBits dst.reg else dstMask dst
  | .push _ => regBit sp
  | .pop dst => dstMask dst
  | .pushS => 0
  | .popS => 0x000F
  | .lnk _ => regBit fp ||| regBit sp
  | .ulnk => regBit fp ||| regBit sp
  | .addF _ _ toFile => if toFile then 0 else regBit wreg
  | .add _ _ _ dst => dstMask dst
  | .mulUU _ _ nd => pairBits nd
  | .mulUULit _ _ nd => pairBits nd
  | .mulUS _ _ nd => pairBits nd
  | .mulSU _ _ nd => pairBits nd
  | .mulSULit _ _ nd => pairBits nd
  | .mulSS _ _ nd => pairBits nd
  | .mulF sz _ => match sz with | .word => pairBits 2 | .byte => regBit 2
  | .divSW _ _ => pairBits 0
  | .divSD _ _ _ => pairBits 0
  | .divUW _ _ => pairBits 0
  | .divUD _ _ _ => pairBits 0
  | .sl _ _ dst => dstMask dst
  | .slLit _ _ nd => regBit nd
  | .slReg _ _ nd => regBit nd
  | .lsr _ _ dst => dstMask dst
  | .lsrLit _ _ nd => regBit nd
  | .lsrReg _ _ nd => regBit nd
  | .asr _ _ dst => dstMask dst
  | .asrLit _ _ nd => regBit nd
  | .asrReg _ _ nd => regBit nd
  | .bset _ _ => 0
  | .bclr _ _ => 0
  | .btsc _ _ => 0
  | .bra _ => 0
  | .goto _ => 0
  | .call _ => regBit sp
  | .rcall _ => regBit sp
  | .ret => 0
  | .retlw _ _ n => regBit n
  | .retfie => 0
  | .tblrdl _ _ dst => dstMask dst
  | .tblrdh _ _ dst => dstMask dst
  | .tblwtl _ _ _ => 0
  | .tblwth _ _ _ => 0
  | .repeatLit _ => 0
  | .repeatW _ => 0
  | .nop => 0
  | .reset => 0
  | .disi _ => 0
  | .pwrsav _ => 0

/-- The base cycle count `c(I)` (R410); `skipped` is how many words a BTSC passed over. -/
def baseCycles (i : Instr) (skipped : Nat) : Nat :=
  match i with
  | .movDLoad _ _ => 2
  | .movDStore _ _ => 2
  | .btsc _ _ => 1 + skipped
  | .bra _ => 2
  | .goto _ => 2
  | .call _ => 2
  | .rcall _ => 2
  | .ret => 3
  | .retlw _ _ _ => 3
  | .retfie => 3
  | .tblrdl _ _ _ => 2
  | .tblrdh _ _ _ => 2
  | .tblwtl _ _ _ => 2
  | .tblwth _ _ _ => 2
  | .mov _ _ _ | .movFWnd _ _ | .movWnsF _ _ | .movWregF _ _ | .movLit16 _ _ | .movLit8 _ _ | .push _ | .pop _
  | .pushS | .popS | .lnk _ | .ulnk | .addF _ _ _ | .add _ _ _ _ | .mulUU _ _ _ | .mulUULit _ _ _ | .mulUS _ _ _
  | .mulSU _ _ _ | .mulSULit _ _ _ | .mulSS _ _ _ | .mulF _ _ | .divSW _ _ | .divSD _ _ _ | .divUW _ _
  | .divUD _ _ _ | .sl _ _ _ | .slLit _ _ _ | .slReg _ _ _ | .lsr _ _ _ | .lsrLit _ _ _ | .lsrReg _ _ _
  | .asr _ _ _ | .asrLit _ _ _ | .asrReg _ _ _ | .bset _ _ | .bclr _ _ | .repeatLit _ | .repeatW _ | .nop
  | .reset | .disi _ | .pwrsav _ => 1

/-- The words a BTSC executed in `s` and ending in `t` passed over (R264). -/
def skippedWords (s t : State) : Nat := (t.pc - s.pc).toNat / 2 - 1

/-- The stall cycle in front of an instruction (R412 to R416). DEDUCED, notes/assumptions/35.md: R418 counts 5 cycles
for Figure 2-10, whose MOV.D [W0++] reads through the W0 that the MOV before it writes; R412's predicate gives that
pair a stall, and the model follows the predicate and counts 6. -/
def stallCycles (i : Instr) (s : State) : Nat := if s.prev.mods &&& sourceEaMask i = 0 then 0 else 1

/-- The PSV cycles of an instruction executed in `s` and ending in `t` (R415): two, but inside a running loop only for
its first pass and the first after a return from an exception. -/
def psvCycles (s t : State) : Nat := if t.cur.psvRead && !s.prev.midLoop then 2 else 0

/-- All the cycles of an instruction executed in `s` and ending in `t` (R418). -/
def cyclesOf (i : Instr) (s t : State) : Nat := baseCycles i (skippedWords s t) + stallCycles i s + psvCycles s t

end Sys2Proof.Machine
end

