-- ==== Sys2Proof/Machine/Outer.lean ====
section
/-! DEFINITION. The parts of the outer step (60_exceptions.md R350, R351): what the environment presents at a boundary,
the fetch, one pass of an instruction (48_repeat_system.md R313), and the traps it raises. Step.lean puts them
together. -/

namespace Sys2Proof.Machine

/-! ## Step 1 and 2 of R350: the boundary -/

/-- The environment's input at this boundary (an empty schedule is quiet) and the state with it taken off. -/
def takeInput (s : State) : Input × State := (s.inputs.headD .quiet, { s with inputs := s.inputs.tail })

/-- A request of level `p` is taken (R348, R349, R350 step 2). -/
def accepts (p : BitVec 4) (s : State) : Bool :=
  cpuLevel s < p.toNat && !(1 ≤ p.toNat && p.toNat ≤ 6 && s.disicnt != 0)

/-- How a step ends where an exception entry fails (R352, R355): its pushes can trap or be refused, and nothing in an
entry asks for a reset. -/
def entryFailed : Stop → Result
  | .trap k => .fault (faultOf k)
  | .refuse x => .refused x
  | .reset _ => .fault .stackError

/-! ## The fetch -/

/-- A REPEAT loop goes on with this execution (R313). -/
def loopActive (s : State) : Bool := s.sr.ra && s.rcount != 0

/-- The words at the pc: the instruction's own and the one after it; a word outside `ProgImpl` is taken as 0 here, and
`prefetchFails` answers for it. None where the pc itself holds no word (R344 (a)). -/
def fetchWords (s : State) : Option (List PWord) :=
  (progRead s s.pc.toNat).map fun w => [w, (progRead s (s.pc.toNat + 2)).getD 0]

/-- The instruction may not be repeated (R316). -/
def badTarget : Instr → Bool
  | .bra _ => true
  | .goto _ => true
  | .call _ => true
  | .rcall _ => true
  | .ret => true
  | .retlw _ _ _ => true
  | .retfie => true
  | .btsc _ _ => true
  | .repeatLit _ => true
  | .repeatW _ => true
  | .disi _ => true
  | .ulnk => true
  | .lnk _ => true
  | .pwrsav _ => true
  | .reset => true
  | .movDLoad _ _ => true
  | .movDStore _ _ => true
  | .mov _ _ _ | .movFWnd _ _ | .movWnsF _ _ | .movWregF _ _ | .movLit16 _ _ | .movLit8 _ _ | .push _ | .pop _
  | .pushS | .popS | .addF _ _ _ | .add _ _ _ _ | .mulUU _ _ _ | .mulUULit _ _ _ | .mulUS _ _ _ | .mulSU _ _ _
  | .mulSULit _ _ _ | .mulSS _ _ _ | .mulF _ _ | .divSW _ _ | .divSD _ _ _ | .divUW _ _ | .divUD _ _ _ | .sl _ _ _
  | .slLit _ _ _ | .slReg _ _ _ | .lsr _ _ _ | .lsrLit _ _ _ | .lsrReg _ _ _ | .asr _ _ _ | .asrLit _ _ _
  | .asrReg _ _ _ | .bset _ _ | .bclr _ _ | .tblrdl _ _ _ | .tblrdh _ _ _ | .tblwtl _ _ _ | .tblwth _ _ _ | .nop =>
    false

/-- The instruction may not stand here: an excluded target (R316, R405) where SR.RA says that it is a loop's target,
whatever RCOUNT holds (R277, R321), or right after a REPEAT of whatever count (R311 corner case), an exception between
them or not. Which frame is the delayed target's is the model's choice (notes/assumptions/26.md). That such an
instruction is refused before its registers, its literal and its pointer are looked at is another (DESIGN CHOICE,
notes/assumptions/45.md). -/
def barred (i : Instr) (s : State) : Bool := (s.sr.ra || s.prev.afterRepeat) && badTarget i

/-- The instruction asked for a device reset. -/
def asksReset (r : Result) : Bool :=
  match r with
  | .next t => match t.event with
    | some (.reset _) => true
    | some (.trap _) => false
    | none => false
  | .fault _ => false
  | .refused _ => false

/-- A word the instruction prefetches does not exist (R344 (a)): the next one for every instruction but RESET, and the
next but one for the three returns. -/
def prefetchFails (i : Instr) (s : State) : Bool :=
  match i with
  | .reset => false
  | .ret | .retlw _ _ _ | .retfie =>
    !(progImplemented s (s.pc.toNat + 2) && progImplemented s (s.pc.toNat + 4))
  | _ => !progImplemented s (s.pc.toNat + 2)

/-! ## Step 3 and 4 of R350: one execution -/

/-- The state an execution begins in: no event, a fresh trace, and RA cleared unless a loop goes on (R313). -/
def startPass (s : State) : State :=
  { s with event := none, cur := ⟨false, 0, false, false⟩, sr := { s.sr with ra := loopActive s } }

/-- A pass of a running loop is counted, and the PC stays (R313, R314; D14: after the instruction's own operation).
DESIGN CHOICE, notes/assumptions/4.md: a pass that a trap cut short is counted too. -/
def countPass (s t : State) : State :=
  if loopActive s then
    { t with
      rcount := rcountMask t.dev (t.rcount - 1)
      sr := { t.sr with ra := if rcountMask t.dev (t.rcount - 1) = 0 then false else t.sr.ra }
      pc := s.pc }
  else t

/-- DISICNT counted down by the instruction's cycles, DISI itself not counted (R319, R350 step 4). DESIGN CHOICE,
notes/assumptions/35.md: an instruction that a stack or address error trap cut short counts its base cycles and its
stall, and not the two cycles of a PSV read already made. -/
def countDisi (i : Instr) (s t : State) : State :=
  match i with
  | .disi _ => t
  | _ => { t with disicnt := BitVec.ofNat 14 (t.disicnt.toNat - cyclesOf i s t) }

/-- The instruction is a REPEAT. -/
def isRepeat : Instr → Bool
  | .repeatLit _ => true
  | .repeatW _ => true
  | _ => false

/-- What the instruction leaves for the next one's timing, for R401 and for R405. -/
def leaveTrace (i : Instr) (s t : State) : State :=
  { t with
    prev := ⟨modsMask i ||| t.cur.wHit, t.cur.splimHit, loopActive s, isRepeat i || t.cur.toTarget⟩
    cur := ⟨false, 0, false, false⟩ }

/-- An instruction that began in `s` and ended in `t`, of itself or by a trap that cut it short, is over. That a pass
cut short is counted in RCOUNT is the model's choice (notes/assumptions/4.md), and so is which of its cycles DISICNT
loses (notes/assumptions/35.md). -/
def retire (i : Instr) (s t : State) : State := leaveTrace i s (countPass s (countDisi i s t))

/-- The events an instruction raised, after it: a device reset has replaced everything; a trap enters its handler
(R343, R350, R355), but inside a trap handler it is `Fault(kind)` (R357; notes/assumptions/44.md). DESIGN CHOICE,
notes/assumptions/4.md: the instruction is retired first, so that inside a running loop the cut pass is counted in
RCOUNT, RA is 0 in the stacked SRL where the count reached 0, and the instruction itself is the return address. -/
def finish (i : Instr) (s t : State) : Result :=
  match t.event with
  | none => .next (retire i s t)
  | some (.reset _) => .next { t with event := none }
  | some (.trap k) =>
    if s.corcon.ipl3 then .fault (faultOf k)
    else
      match enterTrap k (retire i s t) with
      | .ok u => .next u
      | .error x => entryFailed x

/-- The instruction `i` executed at the pc (R313, R316, R344 (a)). A prefetch that fails is the address error, whatever
else the instruction raised, but for a device reset, which replaces everything (R350, D38; notes/assumptions/19.md).
DESIGN CHOICE, notes/assumptions/19.md: an excluded target is refused before its prefetch is looked at, and so is, in
`runAtPc`, a word that is no instruction; the spec orders neither refusal against the prefetch's address error (R128,
R316, R344 (a), R402). -/
def runInstr (i : Instr) (s : State) : Result :=
  if barred i s then .refused .repeatBadTarget
  else if prefetchFails i s && !asksReset (exec i (startPass s)) then .fault .addressError
  else
    match exec i (startPass s) with
    | .next t => finish i (startPass s) t
    | .fault f => .fault f
    | .refused r => .refused r

/-- The instruction at the pc fetched, decoded and executed; a word that is no instruction is refused (R128) before any
prefetch (DESIGN CHOICE, notes/assumptions/19.md). -/
def runAtPc (s : State) : Result :=
  match fetchWords s with
  | none => .fault .addressError
  | some ws =>
    match decode ws with
    | .ok (i, _) => runInstr i s
    | .error e => .refused (.unknownOpcode e)

/-- One boundary and the instruction after it (R350): a reset ends the step; an accepted request is entered, and the
handler's first instruction is executed. -/
def outerStep (s : State) : Result :=
  match takeInput s with
  | (.quiet, s1) => runAtPc s1
  | (.reset, s1) => .next { deviceReset .environment s1 with event := none }
  | (.request v p, s1) =>
    if accepts p s1 then
      match enter v p s1.pc s1 with
      | .ok s2 => runAtPc s2
      | .error x => entryFailed x
    else runAtPc s1

end Sys2Proof.Machine
end

