-- ==== Sys2Proof/Machine/Step.lean ====
section
/-! DEFINITION. step: one instruction boundary and the instruction after it (R350). What it does stands in Outer. -/

namespace Sys2Proof.Machine

/-- One step of the machine. -/
def step (s : State) : Host.Outcome State Fault Refusal := outerStep s

/-- `s` with an instruction placed where `step` fetches next: its first word at the pc, the bits from 24 up as the
second word; nothing is presented at this boundary. It stands for the load of a program from outside the machine
(notes/assumptions/13.md). -/
def State.withFetchWord (s : State) (nbits w : Nat) : State :=
  { s with
    prog :=
      progSet (progSet s.prog (s.pc.toNat / 2 * 2) (BitVec.ofNat 24 (w % 2 ^ nbits)))
        (s.pc.toNat / 2 * 2 + 2) (BitVec.ofNat 24 (w % 2 ^ nbits / 2 ^ 24))
    inputs := match s.inputs with
      | [] => []
      | l => .quiet :: l }

end Sys2Proof.Machine
end

