-- ==== Sys2Proof/Safety.lean ====
section
/-! DEFINITION. The terms the claims are stated in: what it means that an instruction completed, which operands are
accessible, what is left unchanged, and the invariant of the machine. -/

namespace Sys2Proof.Machine

/-! ## Outcomes -/

/-- The outcome is a next state with the property. -/
def Answers (r : Result) (p : State → Prop) : Prop := ∃ t, r = .next t ∧ p t

/-- The outcome is a next state with the property: the same, as a test that can be evaluated. -/
def answersB (r : Result) (p : State → Bool) : Bool :=
  match r with
  | .next t => p t
  | .fault _ => false
  | .refused _ => false

/-- The instruction ran to its end: a next state, no trap requested and no device reset. -/
def Completed (i : Instr) (s t : State) : Prop := s.event = none ∧ exec i s = .next t ∧ t.event = none

/-! ## What stays as it was -/

/-- No byte of the address is stored to. -/
def outside (stores : List (Size × Word)) (a : Nat) : Prop :=
  ∀ st ∈ stores, a < st.2.toNat ∨ st.2.toNat + bytesOf st.1 ≤ a

/-- Every byte of memory outside the stores reads as before. -/
def MemKept (stores : List (Size × Word)) (s t : State) : Prop :=
  ∀ a : Nat, outside stores a → t.ramByte a = s.ramByte a

/-- No store lands on the word at an even data address. -/
def misses (stores : List (Size × Word)) (c : Word) : Prop := ∀ st ∈ stores, evenWord st.2 ≠ c

/-- Every register but the listed ones, and but those whose data address is stored to, keeps its value and its
initialisation flag. -/
def RegsKept (regs : List Reg) (stores : List (Size × Word)) (s t : State) : Prop :=
  ∀ r : Reg, r ∉ regs → (∀ st ∈ stores, st.2.toNat / 2 ≠ r.val) → t.reg r = s.reg r ∧ t.isInit r = s.isInit r

/-- The five ALU flags are kept, unless SR itself is stored to. -/
def FlagsKept (stores : List (Size × Word)) (s t : State) : Prop :=
  misses stores s.dev.sfr.sr → t.sr.flags = s.sr.flags

/-- Every special register is kept that is not stored to: IPL<2:0> and RA, CORCON, SPLIM, its latch and the mark of a
store to SPLIM's address (R401), the page registers, RCOUNT, DISICNT; the shadows, the divide record, program memory
and the device are kept. -/
def SpecialsKept (stores : List (Size × Word)) (s t : State) : Prop :=
  (misses stores s.dev.sfr.sr → t.sr.ipl = s.sr.ipl) ∧ t.sr.ra = s.sr.ra ∧
  (misses stores s.dev.sfr.corcon → t.corcon = s.corcon) ∧
  (misses stores s.dev.sfr.splim →
    t.splim = s.splim ∧ t.splimen = s.splimen ∧ t.cur.splimHit = s.cur.splimHit) ∧
  (misses stores s.dev.sfr.tblpag → t.tblpag = s.tblpag) ∧
  (misses stores s.dev.sfr.psvpag → t.psvpag = s.psvpag) ∧
  (misses stores s.dev.sfr.rcount → t.rcount = s.rcount) ∧
  (misses stores s.dev.sfr.disicnt → t.disicnt = s.disicnt) ∧
  t.wsh = s.wsh ∧ t.srsh = s.srsh ∧ t.divGhost = s.divGhost ∧
  t.prog = s.prog ∧ t.dev = s.dev ∧ t.inputs = s.inputs ∧ t.ramEpoch = s.ramEpoch

/-- Registers, special registers and memory are kept, but for the listed registers and the stores. -/
def Kept (regs : List Reg) (stores : List (Size × Word)) (s t : State) : Prop :=
  RegsKept regs stores s t ∧ SpecialsKept stores s t ∧ MemKept stores s t

/-! ## Accessible operands -/

/-- A data access of the size at the address falls in RAM, aligned (R83, R84 step 4, R88). -/
def AccessOk (sz : Size) (a : Word) (s : State) : Prop :=
  (sz = .word → isOdd a = false) ∧ region s a = .ram ∧ ramHolds s sz a = true

/-- An address formed from W15 passes the three checks of R100; the hazard of R401 is out of the way. -/
def StackOk (ea : Word) (wraps : Bool) (s : State) : Prop :=
  0x0800 ≤ ea.toNat ∧
    (s.splimen = true → wraps = false ∧ ea.toNat ≤ s.splim.toNat + 2 ∧ s.prev.splim = false)

/-- A form may be used, as a source or as a destination: its pointer is initialised (R27), and its address passes the
checks where W15's contents generate it (R100). -/
def PointerOk (op : Opnd) (step : Nat) (isRead : Bool) (s : State) : Prop :=
  s.isInit op.reg = true ∧ (usesSp op = true → StackOk (eaOf op step s) (wrapsOf op step isRead s) s)

/-- A source operand that is a register, or RAM through a pointer that may be used. -/
def OperandOk (sz : Size) (op : Opnd) (s : State) : Prop :=
  isDirect op = true ∨ (PointerOk op (bytesOf sz) true s ∧ AccessOk sz (eaOf op (bytesOf sz) s) s)

/-- A destination operand that is a register, or RAM through a pointer that may be used. -/
def DestOk (sz : Size) (op : Opnd) (s : State) : Prop :=
  isDirect op = true ∨ (PointerOk op (bytesOf sz) false s ∧ AccessOk sz (eaOf op (bytesOf sz) s) s)

/-- The value of an accessible source operand. -/
def operandValue (sz : Size) (op : Opnd) (s : State) : Word :=
  if isDirect op then sized sz (s.reg op.reg) else ramRead s sz (eaOf op (bytesOf sz) s)

/-- A register's contents after a write of the size: a byte write keeps bits 15:8 (R86), W15<0> is 0 (R24). -/
def written (sz : Size) (n : Reg) (v old : Word) : Word :=
  match sz with
  | .word => regMask n v
  | .byte => regMask n (joinBytes (lowByte v) (highByte old))

/-- The destination took the value: a register as `written` says, or RAM at the address `ea`. -/
def Took (sz : Size) (op : Opnd) (ea v : Word) (s t : State) : Prop :=
  if isDirect op then t.reg op.reg = written sz op.reg v (s.reg op.reg) else ramRead t sz ea = sized sz v

/-- The address a destination form stores to: formed after the source form's update of its register (R92). -/
def dstAddr (sz : Size) (src dst : Opnd) (s : State) : Word := eaOf dst (bytesOf sz) (afterSrc src (bytesOf sz) s)

/-- The store a destination form makes, if it makes one. -/
def dstStore (sz : Size) (src dst : Opnd) (s : State) : List (Size × Word) :=
  if isDirect dst then [] else [(sz, dstAddr sz src dst s)]

/-- The pointers that two operand forms modify have stepped (R90): the source's, unless the destination is that very
register, and the destination's. -/
def Stepped (sz : Size) (src dst : Opnd) (s t : State) : Prop :=
  (modifies src = true → (isDirect dst = true → dst.reg ≠ src.reg) →
    t.reg src.reg = regMask src.reg (updOf src (bytesOf sz) s)) ∧
  (modifies dst = true → t.reg dst.reg = regMask dst.reg (dstUpdOf dst (bytesOf sz) (afterSrc src (bytesOf sz) s)))

/-- The pointer that a source form modifies has stepped, unless the register is in the destination pair. -/
def SteppedPast (step : Nat) (src : Opnd) (nd : Reg) (s t : State) : Prop :=
  modifies src = true → src.reg ≠ nd → src.reg ≠ pairHigh nd → t.reg src.reg = regMask src.reg (updOf src step s)

/-- The registers two operand forms may write: the pointers they modify and a direct destination. -/
def opRegs (src dst : Opnd) : List Reg :=
  (if modifies src then [src.reg] else []) ++ (if isDirect dst || modifies dst then [dst.reg] else [])

/-- The register a source form modifies. -/
def srcReg (src : Opnd) : List Reg := if modifies src then [src.reg] else []

/-! ## The stack -/

/-- Word `k` of a frame pushed from `W15 = base` can be written: even, in RAM, past no limit (R98, R100). -/
def SlotOk (base : Word) (k : Nat) (s : State) : Prop :=
  AccessOk .word (base + BitVec.ofNat 16 (2 * k)) s ∧
    (s.splimen = true → base.toNat + 2 * k + 2 < 0x10000 ∧ base.toNat + 2 * k ≤ s.splim.toNat + 2)

/-- Word `k` below `W15 = top` (the first is the Top-of-Stack) can be popped (R99, R100, R401). -/
def TopOk (top : Word) (k : Nat) (s : State) : Prop :=
  AccessOk .word (top - BitVec.ofNat 16 (2 * k)) s ∧
    (s.splimen = true →
      (top - BitVec.ofNat 16 (2 * k)).toNat ≤ s.splim.toNat + 2 ∧ s.prev.splim = false)

/-- A push at the address fails R100: (c) below 0x0800; with the latch (a) past SPLIM + 2 or (b) W15 + 2 past 0xFFFF.
-/
def PushFault (a : Word) (s : State) : Prop :=
  a.toNat < 0x0800 ∨ (s.splimen = true ∧ (s.splim.toNat + 2 < a.toNat ∨ 0xFFFF < a.toNat + 2))

/-- A pop from below `W15 = top` fails R100: its address is below 0x0800, or, with the latch, past SPLIM + 2; the
hazard of R401 is out of the way. -/
def PopFault (top : Word) (s : State) : Prop :=
  (top - 2).toNat < 0x0800 ∨ (s.splimen = true ∧ s.prev.splim = false ∧ s.splim.toNat + 2 < (top - 2).toNat)

/-- An operand form whose address W15's contents generate fails R100: (c) its address is below 0x0800; with the latch
(a) its address is past SPLIM + 2 or (b) the sum that forms the address or the pointer's new value passes 0xFFFF. -/
def StackFault (op : Opnd) (step : Nat) (isRead : Bool) (s : State) : Prop :=
  usesSp op = true ∧
  ((eaOf op step s).toNat < 0x0800 ∨
    (s.splimen = true ∧
      (s.splim.toNat + 2 < (eaOf op step s).toNat ∨
        0xFFFF < ((s.reg op.reg).toNat : Int) + eaOffset op step s ∨
        0xFFFF < ((s.reg op.reg).toNat : Int) + (if isRead then updOffset op step else dstOffset op step s))))

/-- Data space has no such access: a word at an odd address (R83), no memory there (R84 step 4), or not for all of it.
-/
def AccessFault (sz : Size) (a : Word) (s : State) : Prop :=
  (sz = .word ∧ isOdd a = true) ∨ region s a = .absent ∨ (region s a = .ram ∧ ramHolds s sz a = false)

/-- An indirect form of `step` bytes through an initialised register raises the trap at its first access: W15 fails
R100, or data space has no such access. -/
def FormFault (k : TrapKind) (sz : Size) (step : Nat) (isRead : Bool) (op : Opnd) (s : State) : Prop :=
  isDirect op = false ∧ s.isInit op.reg = true ∧
  ((k = .stackError ∧ (isRead = true → s.prev.splim = false) ∧ StackFault op step isRead s) ∨
    (k = .addressError ∧ PointerOk op step isRead s ∧ AccessFault sz (eaOf op step s) s))

/-- A push at the address raises the trap: R100 fails, or passes where data space has no such word (R88, R272). -/
def PushStops (k : TrapKind) (a : Word) (s : State) : Prop :=
  (k = .stackError ∧ PushFault a s) ∨ (k = .addressError ∧ ¬PushFault a s ∧ AccessFault .word a s)

/-- A pop from below `W15 = top` raises the trap: R100 fails, or passes where data space has no such word (V41.18). -/
def PopStops (k : TrapKind) (top : Word) (s : State) : Prop :=
  (k = .stackError ∧ PopFault top s) ∨
    (k = .addressError ∧ StackOk (top - 2) false s ∧ AccessFault .word (top - 2) s)

/-- One of the two pushes of a return address or an exception frame raises the trap (R101). -/
def FrameStops (k : TrapKind) (s : State) : Prop :=
  PushStops k (s.reg sp) s ∨ (SlotOk (s.reg sp) 0 s ∧ PushStops k (s.reg sp + 2) s)

/-- One of the two pops of a return raises the trap (R275 to R277). -/
def UnframeStops (k : TrapKind) (s : State) : Prop :=
  PopStops k (s.reg sp) s ∨ (TopOk (s.reg sp) 1 s ∧ PopStops k (s.reg sp - 2) s)

/-- The second address of a double-word form that W15's contents generate passes R100 (R158: "both word addresses go
through `StackEA`"). -/
def SecondOk (op : Opnd) (s : State) : Prop :=
  usesSp op = true → StackOk (eaOf op 4 s + 2) false s ∧ (s.splimen = true → (eaOf op 4 s).toNat + 2 < 0x10000)

/-- A double-word form (R89, R157, R158) through an initialised register raises the trap: an address of the two fails
R100, the first or the second; or both pass, and data space has no such first word, or, the first access done in a
state `u`, no such second word. -/
def PairFault (k : TrapKind) (isRead : Bool) (op : Opnd) (s : State) (first : State → Prop) : Prop :=
  isDirect op = false ∧ s.isInit op.reg = true ∧
  ((k = .stackError ∧ (isRead = true → s.prev.splim = false) ∧
      (StackFault op 4 isRead s ∨
        (PointerOk op 4 isRead s ∧ usesSp op = true ∧
          ((eaOf op 4 s + 2).toNat < 0x0800 ∨
            (s.splimen = true ∧
              (0xFFFF < (eaOf op 4 s).toNat + 2 ∨ s.splim.toNat + 2 < (eaOf op 4 s + 2).toNat)))))) ∨
    (k = .addressError ∧ PointerOk op 4 isRead s ∧ SecondOk op s ∧
      (AccessFault .word (eaOf op 4 s) s ∨ ∃ u, first u ∧ AccessFault .word (eaOf op 4 s + 2) u)))

/-- The instruction, of `words` words, raises the trap: `Fault(kind)` where the device record does not say `runOn`;
where it does, a next state that asks for the handler, the PC at the address after the instruction (R355). -/
def RaisesTrap (k : TrapKind) (words : Nat) (i : Instr) (s : State) : Prop :=
  (s.dev.runOn = false → exec i s = .fault (faultOf k)) ∧
  (s.dev.runOn = true → Answers (exec i s) fun t => t.event = some (.trap k) ∧ t.pc = nextPc s words)

/-- A byte store at `ea` into a register: the byte that `ea` selects is the stored one, the other is kept (R82, R86).
-/
def byteStored (ea v old : Word) : Word :=
  if isOdd ea then joinBytes (lowByte old) (lowByte v) else joinBytes (lowByte v) (highByte old)

/-- What a register's word is after a store of the size at `a`: the value, or one byte of it (R82, R86). -/
def storedWord (sz : Size) (a v old : Word) : Word :=
  match sz with
  | .word => v
  | .byte => byteStored a v old

/-- The value `v` that a read of the size at `a` gives in `s`, and the state `u` it leaves: an accessible RAM
location; the word of a CPU register, or the byte of it that `a` selects, PCL and PCH a free value (R31); a free value
at a device address (R84 step 2). Only a free value moves the counter. -/
def FileReads (sz : Size) (a : Word) (s : State) (v : Word) (u : State) : Prop :=
  (AccessOk sz a s ∧ v = ramRead s sz a ∧ u = s) ∨
  ((sz = .word → isOdd a = false) ∧
    match cpuRegAt s.dev.sfr (evenWord a) with
    | some (.w n) => v = pick sz a (s.reg n) ∧ u = s
    | some .splim => v = pick sz a s.splim ∧ u = s
    | some .pcl => v = pick sz a (Config.freeValue s.draws) ∧ u = { s with draws := s.draws + 1 }
    | some .pch => v = pick sz a (Config.freeValue s.draws &&& 0x007F) ∧ u = { s with draws := s.draws + 1 }
    | some .tblpag => v = pick sz a (s.tblpag.setWidth 16) ∧ u = s
    | some .psvpag => v = pick sz a (s.psvpag.setWidth 16) ∧ u = s
    | some .rcount => v = pick sz a s.rcount ∧ u = s
    | some .sr => v = pick sz a (srWord s.sr) ∧ u = s
    | some .corcon => v = pick sz a (corconWord s.corcon) ∧ u = s
    | some .disicnt => v = pick sz a (s.disicnt.setWidth 16) ∧ u = s
    | none => a.toNat < 0x0800 ∧ v = sized sz (Config.freeValue s.draws) ∧ u = { s with draws := s.draws + 1 })

/-- The address is a byte of PCL or PCH. -/
def IsPcAddr (a : Word) (s : State) : Prop :=
  cpuRegAt s.dev.sfr (evenWord a) = some .pcl ∨ cpuRegAt s.dev.sfr (evenWord a) = some .pch

/-- `t` is `s` after a store of `v` of the size at `a`, read at that place: a CPU register under its access rules (R24,
R33, R37, R38, R40 to R45; of SR here IPL<2:0> and RA, not the flags), a device address (R84 step 2), else RAM. -/
def FileStored (sz : Size) (a v : Word) (s t : State) : Prop :=
  match cpuRegAt s.dev.sfr (evenWord a) with
  | some (.w n) => t.reg n = regMask n (storedWord sz a v (s.reg n))
  | some .splim =>
    t.splim.toNat = (storedWord sz a v s.splim).toNat / 2 * 2 ∧ t.splimen = (s.splimen || sz = .word) ∧
      t.cur.splimHit = true
  | some .pcl | some .pch => False
  | some .tblpag => t.tblpag = lowByte (storedWord sz a v (s.tblpag.setWidth 16))
  | some .psvpag => t.psvpag = lowByte (storedWord sz a v (s.psvpag.setWidth 16))
  | some .rcount =>
    t.rcount.toNat = (storedWord sz a v s.rcount).toNat % 2 ^ (if s.dev.rcountWide then 16 else 14)
  | some .sr =>
    t.sr.ra = s.sr.ra ∧ t.sr.ipl =
      if s.dev.nstdis then s.sr.ipl else (storedWord sz a v (srWord s.sr)).extractLsb' 5 3
  | some .corcon =>
    t.corcon.psv = (storedWord sz a v (corconWord s.corcon)).getLsbD 2 ∧
      t.corcon.ipl3 = (s.corcon.ipl3 && (storedWord sz a v (corconWord s.corcon)).getLsbD 3)
  | some .disicnt => t.disicnt.toNat = (storedWord sz a v (s.disicnt.setWidth 16)).toNat % 2 ^ 14
  | none =>
    if a.toNat < 0x0800 then t.devOut = ⟨a, sz, sized sz v⟩ :: s.devOut else ramRead t sz a = sized sz v

/-- Bit `k` of SR as software writes it: DC, IPL<2:0> unless NSTDIS is 1, N, OV, Z and C; RA and the unimplemented bits
are not (R33, R37). -/
def srWritable (s : State) (k : Nat) : Bool := k ≤ 3 || k = 8 || (5 ≤ k && k ≤ 7 && !s.dev.nstdis)

/-- Word `k` below `W15 = top`. -/
def stackWord (top : Word) (k : Nat) (s : State) : Word := ramRead s .word (top - BitVec.ofNat 16 (2 * k))

/-! ## Values -/

/-- A value of the size as a signed number. -/
def signedOf (sz : Size) (v : Word) : Int :=
  match sz with
  | .word => v.toInt
  | .byte => (lowByte v).toInt

/-- The five flags of an addition of width n, as arithmetic (R34, R35): C a carry out of bit n-1, DC a carry out of the
low h bits, Z and N of the n-bit sum, OV a signed sum that does not fit in n bits. -/
def AddFlagsOk (sz : Size) (a b : Word) (f : AluFlags) : Prop :=
  (f.c = true ↔ 2 ^ widthOf sz ≤ operandNat sz a + operandNat sz b) ∧
  (f.dc = true ↔ 2 ^ halfOf sz ≤ operandNat sz a % 2 ^ halfOf sz + operandNat sz b % 2 ^ halfOf sz) ∧
  (f.z = true ↔ (operandNat sz a + operandNat sz b) % 2 ^ widthOf sz = 0) ∧
  (f.n = true ↔ 2 ^ (widthOf sz - 1) ≤ (operandNat sz a + operandNat sz b) % 2 ^ widthOf sz) ∧
  (f.ov = true ↔ signedOf sz a + signedOf sz b < -2 ^ (widthOf sz - 1) ∨
    2 ^ (widthOf sz - 1) ≤ signedOf sz a + signedOf sz b)

/-- The 32-bit value of a register pair W(n+1):Wn. -/
def pairValue (n : Reg) (s : State) : BitVec 32 := s.reg (pairHigh n) ++ s.reg n

/-- The dividend of a divide as a number: 32 bits or 16, signed or unsigned (R223 to R226). -/
def dividendInt (kind : DivKind) (a : BitVec 32) : Int :=
  match kind with
  | .sw => (a.extractLsb' 0 16).toInt
  | .sd => a.toInt
  | .uw => ((a.extractLsb' 0 16).toNat : Int)
  | .ud => (a.toNat : Int)

/-- A 16-bit value as the divide takes it: signed in the signed forms. -/
def divWordInt (kind : DivKind) (v : Word) : Int :=
  match kind with
  | .sw => v.toInt
  | .sd => v.toInt
  | .uw => (v.toNat : Int)
  | .ud => (v.toNat : Int)

/-- The divide instruction of a kind; `t` is the field that names the high dividend register. -/
def divInstr (kind : DivKind) (m n : Reg) : Instr :=
  match kind with
  | .sw => .divSW m n
  | .sd => .divSD (pairHigh m) m n
  | .uw => .divUW m n
  | .ud => .divUD (pairHigh m) m n

/-- `Intact()` (R221): W0, W1, N, C and Z are those the record remembers, and Wn is the divisor. -/
def DivIntact (g : DivGhost) (n : Reg) (s : State) : Prop :=
  s.reg 0 = g.w0 ∧ s.reg 1 = g.w1 ∧ s.sr.flags.n = g.n ∧ s.sr.flags.c = g.c ∧ s.sr.flags.z = g.z ∧ s.reg n = g.divisor

/-- The divide goes on with the record: executions 2 to 17 (R221). -/
def DivGoesOn (kind : DivKind) (g : DivGhost) (n : Reg) (s : State) : Prop :=
  g.kind = kind ∧ 1 ≤ g.done ∧ g.done ≤ 16 ∧ s.sr.ra = true ∧ s.rcount.toNat = 17 - g.done ∧ DivIntact g n s

/-- The divide closes the record: execution 18 (R221), which a divisor 0 has none of (R343). -/
def DivEnds (kind : DivKind) (g : DivGhost) (n : Reg) (s : State) : Prop :=
  g.kind = kind ∧ g.done = 17 ∧ s.sr.ra = false ∧ s.rcount = 0 ∧ DivIntact g n s ∧ g.divisor ≠ 0

/-- The registers a divide may name (R220). -/
def DivRegs (kind : DivKind) (m n : Reg) : Prop :=
  n ≠ 0 ∧ n ≠ 1 ∧ (kind = .sd ∨ kind = .ud → m.val % 2 = 0)

/-! ## REPEAT (R316) -/

/-- The instructions R316 excludes as the target of a REPEAT: BRA, GOTO, CALL, RCALL, RETURN, RETLW, RETFIE, BTSC,
REPEAT, DISI, ULNK, LNK, PWRSAV, RESET and MOV.D. -/
def MayNotFollowRepeat (i : Instr) : Prop :=
  (∃ off, i = .bra off) ∨ (∃ a, i = .goto a) ∨ (∃ a, i = .call a) ∨ (∃ off, i = .rcall off) ∨ i = .ret ∨
  (∃ sz lit n, i = .retlw sz lit n) ∨ i = .retfie ∨ (∃ f bit, i = .btsc f bit) ∨ (∃ lit, i = .repeatLit lit) ∨
  (∃ n, i = .repeatW n) ∨ (∃ lit, i = .disi lit) ∨ i = .ulnk ∨ (∃ lit, i = .lnk lit) ∨ (∃ k, i = .pwrsav k) ∨
  i = .reset ∨ (∃ src nd, i = .movDLoad src nd) ∨ (∃ ns dst, i = .movDStore ns dst)

/-! ## The step (R313, R344 (a), R350) -/

/-- Nothing is presented at this boundary; `s1` is the state with the boundary's input taken off the schedule. -/
def Quietly (s s1 : State) : Prop :=
  (s.inputs = [] ∧ s1 = s) ∨ ∃ l, s.inputs = .quiet :: l ∧ s1 = { s with inputs := l }

/-- The words at the PC and at the address after it, a word outside program memory taken as 0 there (R344 (a)). -/
def WordsAtPc (s : State) (w w2 : PWord) : Prop :=
  progRead s s.pc.toNat = some w ∧
    (progRead s (s.pc.toNat + 2) = some w2 ∨ (progImplemented s (s.pc.toNat + 2) = false ∧ w2 = 0))

/-- The words that the instruction prefetches exist (R344 (a)). -/
def PrefetchOk (i : Instr) (s : State) : Prop :=
  (i ≠ .reset → progImplemented s (s.pc.toNat + 2) = true) ∧
    (i = .ret ∨ (∃ sz lit n, i = .retlw sz lit n) ∨ i = .retfie → progImplemented s (s.pc.toNat + 4) = true)

/-- `s0` is the state in which the execution at the boundary state `s1` begins: RA is 1 there exactly where RA is 1 and
RCOUNT is not 0 (R313, R321), no event is outstanding, the trace is fresh, and nothing else differs. -/
def BeginsIn (s1 s0 : State) : Prop :=
  (s0.sr.ra = true ↔ s1.sr.ra = true ∧ s1.rcount ≠ 0) ∧
    s0 = { s1 with event := none, cur := ⟨false, 0, false, false⟩, sr := { s1.sr with ra := s0.sr.ra } }

/-! ## Cycles (R410 to R415) -/

/-- The form reads the register to form an address (R412); that the offset register of `[Wn+Wb]` counts is the model's
choice (DESIGN CHOICE, notes/assumptions/35.md). -/
def formsAddress : Opnd → Reg → Bool
  | .direct _, _ => false
  | .offset n b, r => r = n || r = b
  | op, r => r = op.reg

/-- `SourceEAUses(I, n)` (R412). -/
def sourceUses (i : Instr) (n : Reg) : Bool :=
  match i with
  | .mov _ src _ | .movDLoad src _ | .push src | .add _ _ src _ | .mulUU _ src _ | .mulUS _ src _ | .mulSU _ src _
  | .mulSS _ src _ | .sl _ src _ | .lsr _ src _ | .asr _ src _ | .tblrdl _ src _ | .tblrdh _ src _ =>
    formsAddress src n
  | .pop _ => n = sp
  | .movFWnd _ _ | .movWnsF _ _ | .movWregF _ _ | .movLit16 _ _ | .movLit8 _ _ | .movDStore _ _ | .pushS | .popS
  | .lnk _ | .ulnk | .addF _ _ _ | .mulUULit _ _ _ | .mulSULit _ _ _ | .mulF _ _ | .divSW _ _ | .divSD _ _ _
  | .divUW _ _ | .divUD _ _ _ | .slLit _ _ _ | .slReg _ _ _ | .lsrLit _ _ _ | .lsrReg _ _ _ | .asrLit _ _ _
  | .asrReg _ _ _ | .bset _ _ | .bclr _ _ | .btsc _ _ | .bra _ | .goto _ | .call _ | .rcall _ | .ret | .retlw _ _ _
  | .retfie | .tblwtl _ _ _ | .tblwth _ _ _ | .repeatLit _ | .repeatW _ | .nop | .reset | .disi _ | .pwrsav _ => false

/-- The instruction, executed in `s` and ending in `t`, took its base count of cycles; one more where the instruction
before it modified a register its source address uses (R412); two more where it read through the PSV window, unless
it is a later pass of a loop (R415). -/
def Takes (base : Nat) (i : Instr) (s t : State) : Prop :=
  cyclesOf i s t =
    base + (if ∃ n : Reg, s.prev.mods.getLsbD n.val = true ∧ sourceUses i n = true then 1 else 0) +
      (if t.cur.psvRead = true ∧ s.prev.midLoop = false then 2 else 0)

/-- The table of R410 in numbers. -/
def CycleTable (s t : State) : Prop :=
  ∀ (sz : Size) (src dst : Opnd) (wb m n : Reg) (f v : Word) (g : BitVec 13) (b : Byte) (l : BitVec 14) (k : BitVec 4)
    (c : BitVec 5) (e : BitVec 10) (p : PAddr) (d : DivKind) (file : Bool),
    (∀ i ∈ [Instr.mov sz src dst, .movFWnd f n, .movWnsF n f, .movWregF sz g, .movLit16 v n, .movLit8 b n, .push src,
        .pop dst, .pushS, .popS, .lnk l, .ulnk, .addF sz g file, .add sz wb src dst, .mulUU wb src n, .mulUULit wb c n,
        .mulUS wb src n, .mulSU wb src n, .mulSULit wb c n, .mulSS wb src n, .mulF sz g, divInstr d m n, .sl sz src dst,
        .slLit wb k n, .slReg wb m n, .lsr sz src dst, .lsrLit wb k n, .lsrReg wb m n, .asr sz src dst, .asrLit wb k n,
        .asrReg wb m n, .bset g k, .bclr g k, .repeatLit l, .repeatW n, .nop, .disi l], Takes 1 i s t) ∧
    (∀ i ∈ [Instr.movDLoad src n, .movDStore n dst, .bra v, .goto p, .call p, .rcall v, .tblrdl sz src dst,
        .tblrdh sz src dst], Takes 2 i s t) ∧
    (∀ i ∈ [Instr.ret, .retlw sz e n, .retfie], Takes 3 i s t) ∧
    (t.pc = s.pc + 2 → Takes 1 (.btsc g k) s t) ∧ (t.pc = s.pc + 4 → Takes 2 (.btsc g k) s t) ∧
    (t.pc = s.pc + 6 → Takes 3 (.btsc g k) s t)

/-- `ModifiesW(I, n)` (R412, R414) of the instruction that ended in `t`, as `u` remembers it for the next one: the
direct or modified destination, CALL's, RCALL's and PUSH's W15, RETLW's Wn, nothing for the other returns; and every
register whose data address a store of it landed on. That W14 and W15 of LNK and ULNK, W0 to W3 of POP.S and the fixed
results of MUL f and the divides count too is the model's choice (DESIGN CHOICE, notes/assumptions/35.md). -/
def ModifiedNoted (i : Instr) (t u : State) : Prop :=
  ∀ (r : Reg) (sz : Size) (src dst : Opnd) (wb m n : Reg) (f v : Word) (g : BitVec 13) (b : Byte) (l : BitVec 14)
    (k : BitVec 4) (c : BitVec 5) (e : BitVec 10) (p : PAddr) (d : DivKind),
    let Hit := t.cur.wHit.getLsbD r.val = true
    (i ∈ [Instr.mov sz src dst, .pop dst, .add sz wb src dst, .sl sz src dst, .lsr sz src dst, .asr sz src dst,
        .tblrdl sz src dst, .tblrdh sz src dst] →
      (u.prev.mods.getLsbD r.val = true ↔ Hit ∨ (r = dst.reg ∧ (isDirect dst = true ∨ modifies dst = true)))) ∧
    (i ∈ [Instr.movFWnd f n, .movLit16 v n, .movLit8 b n, .slLit wb k n, .lsrLit wb k n, .asrLit wb k n, .slReg wb m n,
        .lsrReg wb m n, .asrReg wb m n, .retlw sz e n] → (u.prev.mods.getLsbD r.val = true ↔ Hit ∨ r = n)) ∧
    (i ∈ [Instr.movDLoad src n, .mulUU wb src n, .mulUS wb src n, .mulSU wb src n, .mulSS wb src n, .mulUULit wb c n,
        .mulSULit wb c n] →
      (u.prev.mods.getLsbD r.val = true ↔ Hit ∨ r = n ∨ r = pairHigh n)) ∧
    (i ∈ [Instr.call p, .rcall v, .push src] → (u.prev.mods.getLsbD r.val = true ↔ Hit ∨ r = sp)) ∧
    (i ∈ [Instr.ret, .retfie, .movWnsF n f, .movWregF sz g, .addF sz g true, .pushS, .bset g k, .bclr g k, .btsc g k,
        .bra v, .goto p, .repeatLit l, .repeatW n, .disi l, .nop] → (u.prev.mods.getLsbD r.val = true ↔ Hit)) ∧
    (i = .addF sz g false → (u.prev.mods.getLsbD r.val = true ↔ Hit ∨ r = wreg)) ∧
    (i = .movDStore n dst → (u.prev.mods.getLsbD r.val = true ↔ Hit ∨
      (r = dst.reg ∧ (isDirect dst = true ∨ modifies dst = true)) ∨ (isDirect dst = true ∧ r = pairHigh dst.reg))) ∧
    (i = .mulF sz g → (u.prev.mods.getLsbD r.val = true ↔ Hit ∨ r = 2 ∨ (sz = .word ∧ r = 3))) ∧
    (i = divInstr d m n → (u.prev.mods.getLsbD r.val = true ↔ Hit ∨ r = 0 ∨ r = 1)) ∧
    (i ∈ [Instr.lnk l, .ulnk] → (u.prev.mods.getLsbD r.val = true ↔ Hit ∨ r = fp ∨ r = sp)) ∧
    (i = .popS → (u.prev.mods.getLsbD r.val = true ↔ Hit ∨ r.val < 4))

/-! ## Reset -/

/-- The table of R390: `t` is `s` after a device reset; no request is presented at the boundary that follows. What the
table calls a draw is not named. -/
def IsReset (s t : State) : Prop :=
  (∀ n : Reg, n ≠ sp → t.reg n = 0 ∧ t.isInit n = false) ∧ t.reg sp = 0x0800 ∧ t.isInit sp = true ∧
  t.pc = 0 ∧ srWord t.sr = 0 ∧ corconWord t.corcon = 0 ∧ t.tblpag = 0 ∧ t.psvpag = 0 ∧
  t.splim.toNat % 2 = 0 ∧ t.splimen = false ∧ t.divGhost = none ∧ t.mem = [] ∧ t.ramEpoch = s.ramEpoch + 1 ∧
  t.prog = s.prog ∧ t.dev = s.dev ∧ ∀ v p, t.inputs.head? ≠ some (.request v p)

/-! ## The invariant -/

/-- What holds of the machine between steps, in every state a run can reach: data memory is canonical; the PC, W15 and
SPLIM are even (R24, R29, R40); W15 is initialised (R26); RCOUNT is within its width (R44); no trap is outstanding. -/
structure Inv (s : State) : Prop where
  mem_wf : Memory.wf s.mem = true
  pc_even : s.pc.toNat % 2 = 0
  sp_even : (s.reg sp).toNat % 2 = 0
  splim_even : s.splim.toNat % 2 = 0
  sp_init : s.isInit sp = true
  rcount_width : rcountMask s.dev s.rcount = s.rcount
  no_event : s.event = none

end Sys2Proof.Machine
end

