-- ==== Sys2Proof/Certificates/Slice0/Obligations.lean ====
section
/-! DEFINITION. The statements for the provers. Each docstring names the rules of spec/ it formalises; where it rests on
a choice of the model it names the log entry. -/

open Sys2Proof Sys2Proof.Machine

/-! ## Encoding (30_encoding.md) -/

/-- Every well-formed instruction, followed by any words, decodes from its encoding (R124 to R127): no bit of an
encoding is dropped. The encodings are the spec's advisory ones (notes/assumptions/6.md). -/
def Obligations.DecodeOfEncode : Prop :=
  ∀ (i : Instr) (rest : List PWord), i.wf = true → decode (encode i ++ rest) = .ok (i, rest)

/-- Every instruction the decoder reads is well formed, so its encoding decodes to it again (R124 to R127). -/
def Obligations.DecodedIsWellFormed : Prop :=
  ∀ (ws rest : List PWord) (i : Instr), decode ws = .ok (i, rest) → i.wf = true

/-- Words written out from the rows of R127 and the worked words of 95_test_vectors.md decode to their instructions. -/
def Obligations.WrittenWordsDecode : Prop :=
  decodeTableWord 24 0x780080 = some (.mov .word (.direct 0) (.direct 1)) ∧
  decodeTableWord 24 0x781F80 = some (.push (.direct 0)) ∧
  decodeTableWord 24 0x7801CF = some (.pop (.direct 3)) ∧
  decodeTableWord 24 0x400294 = some (.add .word 0 (.ind 4) (.direct 5)) ∧
  decodeTableWord 24 0xB82105 = some (.mulUU 4 (.direct 5) 2) ∧
  decodeTableWord 24 0xD89945 = some (.divUD 3 2 5) ∧
  decodeTableWord 24 0xDD0342 = some (.slLit 0 2 6) ∧
  decodeTableWord 24 0xAF2042 = some (.btsc 0x0042 1) ∧
  decodeTableWord 48 0x040200 = some (.goto 0x000200) ∧
  decodeTableWord 24 0x07007E = some (.rcall 0x007E) ∧
  decodeTableWord 24 0x064000 = some (.retfie) ∧
  decodeTableWord 24 0x090011 = some (.repeatLit 17)

/-- The second word of a GOTO or CALL, decoded on its own, is a NOP, whatever the target; executed, it goes on at the
next word and changes nothing else (R122). -/
def Obligations.SecondWordDecodesAsNop : Prop :=
  ∀ (target : PAddr) (rest : List PWord) (s : State),
    decode ((encode (.goto target)).drop 1 ++ rest) = .ok (.nop, rest) ∧
    decode ((encode (.call target)).drop 1 ++ rest) = .ok (.nop, rest) ∧
    exec .nop s = .next { s with pc := s.pc + 2 }

/-! ## The step (60_exceptions.md R350, 48_repeat_system.md R313) -/

/-- With nothing presented at the boundary, the words at the PC and after it (a GOTO's or CALL's second word) decoding
to `i`, `i` allowed where it stands (R316) and its prefetch inside program memory (R344 (a)), a step is `exec` of `i`
on the state in which RA is 1 exactly where RA is 1 and RCOUNT is not 0 (R313, R321) and the trace is fresh, followed
by `finish`; an instruction that resets the device needs no prefetch (R350, D38). -/
def Obligations.StepRunsDecodedInstruction : Prop :=
  ∀ (s s1 s0 : State) (w w2 : PWord) (rest : List PWord) (i : Instr),
    Quietly s s1 → WordsAtPc s1 w w2 → decode [w, w2] = .ok (i, rest) → barred i s1 = false → BeginsIn s1 s0 →
    PrefetchOk i s1 ∨ (∃ t c, exec i s0 = .next t ∧ t.event = some (.reset c)) →
    (∀ t, exec i s0 = .next t → step s = finish i s0 t) ∧
    (∀ f, exec i s0 = .fault f → step s = .fault f) ∧
    (∀ r, exec i s0 = .refused r → step s = .refused r)

/-- What a step adds around an instruction that completes with next state `t`: it keeps every register, memory and the
flags of `t`; inside a running loop the PC stays, RCOUNT goes down by one and RA is cleared when it reaches 0,
otherwise the PC, RCOUNT and SR are those of `t` (R313, R314; D14: after the instruction's own operation); that it was
a REPEAT is noted for the next instruction (R316, R405), and so is whether a store of it landed on SPLIM's address
(R401); DISICNT is counted down by the instruction's cycles, DISI itself not counted (R319). The cycles are the
numbers of R410, R412 and R415, and what the next instruction's stall asks about is the registers R412 and R414 call
modified. The order of the decrement is the spec's decision D14 (notes/assumptions/26.md); how R412's operands are
read off POP and the returns, that the offset register of [Wn+Wb] counts, and that LNK, ULNK, POP.S, MUL f and the
divides count as modifying what they write, are the model's choice (DESIGN CHOICE, notes/assumptions/35.md). -/
def Obligations.FinishCountsThePass : Prop :=
  ∀ (i : Instr) (s t : State), t.event = none →
    Answers (finish i s t) fun u =>
      u.w = t.w ∧ u.winit = t.winit ∧ u.mem = t.mem ∧ u.corcon = t.corcon ∧ u.sr.flags = t.sr.flags ∧
      u.sr.ipl = t.sr.ipl ∧ u.splim = t.splim ∧ u.splimen = t.splimen ∧ u.tblpag = t.tblpag ∧ u.psvpag = t.psvpag ∧
      u.wsh = t.wsh ∧ u.srsh = t.srsh ∧ u.divGhost = t.divGhost ∧ u.prog = t.prog ∧ u.dev = t.dev ∧
      u.inputs = t.inputs ∧ u.devOut = t.devOut ∧ u.draws = t.draws ∧ u.ramEpoch = t.ramEpoch ∧ u.event = none ∧
      (s.sr.ra = true ∧ s.rcount ≠ 0 →
        u.pc = s.pc ∧ u.rcount = rcountMask t.dev (t.rcount - 1) ∧
          (u.sr.ra = true ↔ t.sr.ra = true ∧ u.rcount ≠ 0)) ∧
      (¬(s.sr.ra = true ∧ s.rcount ≠ 0) → u.pc = t.pc ∧ u.rcount = t.rcount ∧ u.sr.ra = t.sr.ra) ∧
      (u.prev.afterRepeat = true ↔ (∃ lit, i = .repeatLit lit) ∨ (∃ n, i = .repeatW n) ∨ t.cur.toTarget = true) ∧
      (u.prev.midLoop = true ↔ s.sr.ra = true ∧ s.rcount ≠ 0) ∧ u.prev.splim = t.cur.splimHit ∧
      ((∃ lit, i = .disi lit) → u.disicnt = t.disicnt) ∧
      ((∀ lit, i ≠ .disi lit) → u.disicnt.toNat = t.disicnt.toNat - cyclesOf i s t) ∧
      CycleTable s t ∧ ModifiedNoted i t u

/-- A repeated NOP runs RCOUNT + 1 times (R310, R313, R314): after RCOUNT steps the PC still stands at the NOP, with
RCOUNT and RA 0; the next step is an ordinary one and advances the PC. -/
def Obligations.RepeatedNopRunsCountPlusOneTimes : Prop :=
  ∀ s : State, s.inputs = [] → s.sr.ra = true → s.rcount ≠ 0 → rcountMask s.dev s.rcount = s.rcount →
    progRead s s.pc.toNat = some 0 → progImplemented s (s.pc.toNat + 2) = true →
    (∃ t, Host.Core.run Sys2Proof.core s.rcount.toNat s = .next t ∧ t.pc = s.pc ∧ t.rcount = 0 ∧ t.sr.ra = false ∧
      t.w = s.w ∧ t.mem = s.mem) ∧
    (∃ t, Host.Core.run Sys2Proof.core (s.rcount.toNat + 1) s = .next t ∧ t.pc = s.pc + 2 ∧ t.rcount = 0 ∧
      t.sr.ra = false ∧ t.w = s.w ∧ t.mem = s.mem)

/-- Words that are no instruction are refused by name (R128, D2), and so is BRA, GOTO, CALL, RCALL, RETURN, RETLW,
RETFIE, BTSC, REPEAT, DISI, ULNK, LNK, PWRSAV, RESET or MOV.D, and no other instruction (R316), right after a REPEAT,
even one whose count was 0 (R311 corner case, R405, D34), and wherever RA is 1. That it is refused under RA = 1 with
RCOUNT 0 too, where R313's second branch would run it, is the model's reading of R277 and R321 (DEDUCED,
notes/assumptions/26.md). That both refusals come before a prefetch that fails is the model's choice
(notes/assumptions/19.md), and so is that an excluded instruction is refused so whatever its operands and its
registers hold (notes/assumptions/45.md). -/
def Obligations.StepRefusesByName : Prop :=
  ∀ (s s1 : State) (w w2 : PWord), Quietly s s1 → WordsAtPc s1 w w2 →
    (∀ e, decode [w, w2] = .error e → step s = .refused (.unknownOpcode e)) ∧
    (∀ i rest, decode [w, w2] = .ok (i, rest) → MayNotFollowRepeat i →
      s1.sr.ra = true ∨ s1.prev.afterRepeat = true →
      step s = .refused .repeatBadTarget) ∧
    (∀ i, barred i s1 = true ↔ (s1.sr.ra = true ∨ s1.prev.afterRepeat = true) ∧ MayNotFollowRepeat i)

/-- TBLWTL, TBLWTH and PWRSAV stop by name, on every operand (R303 `refuse(TableWrite)`, R320 `refuse(PowerSave)`). -/
def Obligations.TableWritesAndPowerSaveStop : Prop :=
  ∀ (s : State) (sz : Size) (src dst : Opnd) (k : BitVec 1),
    exec (.tblwtl sz src dst) s = .refused .tableWrite ∧ exec (.tblwth sz src dst) s = .refused .tableWrite ∧
    exec (.pwrsav k) s = .refused .powerSave

/-! ## Reset (70_reset_and_hazards.md R390 to R392) -/

/-- RESET answers the reset state of R390 (R318: that the mnemonic resets the device is general knowledge), and so
does a reset the environment presents, which ends the step (R350 step 1, R391; notes/assumptions/14.md). No request is
pending then: unless the environment presents a reset at the next boundary too, the next step runs the instruction at
0x000000. The rest of the environment's schedule stays (notes/assumptions/15.md). -/
def Obligations.ResetGivesTheResetState : Prop :=
  ∀ s : State,
    (Answers (exec .reset s) fun t => IsReset s t ∧
      ∀ u, u = { t with event := none } → s.inputs.head? ≠ some .reset →
        step u = runAtPc { u with inputs := s.inputs.tail }) ∧
    (∀ l, s.inputs = .reset :: l → Answers (step s) fun t => IsReset s t ∧ t.event = none ∧
      (l.head? = some .reset → t.inputs = l) ∧
      (l.head? ≠ some .reset → step t = runAtPc { t with inputs := l.tail }))

/-- An indirect operand through a register that was never word-written resets the device (R27, R345, R392), before any
access: as a source of any instruction that has one, or as a destination after a source that could be read. That the
reset is performed and not reported as a fault is the model's choice (notes/assumptions/18.md). That a form the model
refuses (R92, R157, R158, R212) is refused and does not reset is its choice too (notes/assumptions/45.md). -/
def Obligations.UninitialisedPointerResets : Prop :=
  ∀ (s : State) (sz : Size) (src dst : Opnd) (wb nd : Reg),
    let Resets := fun i : Instr => Answers (exec i s) fun t => IsReset s t
    (isDirect src = false → s.isInit src.reg = false →
      (sameTwice src dst = false →
        Resets (.mov sz src dst) ∧ Resets (.add sz wb src dst) ∧ Resets (.sl sz src dst) ∧ Resets (.lsr sz src dst) ∧
        Resets (.asr sz src dst) ∧ Resets (.tblrdl sz src dst) ∧ Resets (.tblrdh sz src dst) ∧
        (dst = .postInc sp → Resets (.push src)) ∧ (src = .preDec sp → Resets (.pop dst))) ∧
      (mulBadDest nd = false →
        Resets (.mulUU wb src nd) ∧ Resets (.mulUS wb src nd) ∧ Resets (.mulSU wb src nd) ∧ Resets (.mulSS wb src nd)) ∧
      (oddReg nd = false → Resets (.movDLoad src nd))) ∧
    (isDirect dst = false → s.isInit dst.reg = false →
      (sameTwice src dst = false →
        (∀ v s1, readOp sz src s = .ok (v, s1) →
          Resets (.mov sz src dst) ∧ Resets (.add sz wb src dst) ∧ Resets (.sl sz src dst) ∧ Resets (.lsr sz src dst) ∧
          Resets (.asr sz src dst) ∧ (sz = .word → dst = .postInc sp → Resets (.push src)) ∧
          (sz = .word → src = .preDec sp → Resets (.pop dst))) ∧
        (∀ v s1, tableSource false sz src s = .ok (v, s1) → Resets (.tblrdl sz src dst)) ∧
        (∀ v s1, tableSource true sz src s = .ok (v, s1) → Resets (.tblrdh sz src dst))) ∧
      (oddReg nd = false → Resets (.movDStore nd dst)))

/-! ## Rules of the whole machine -/

/-- Every step keeps the invariant. -/
def Obligations.StepKeepsInvariant : Prop :=
  ∀ s t : State, Inv s → step s = .next t → Inv t

/-- The reset state has the invariant. -/
def Obligations.ResetHasInvariant : Prop := Inv State.reset

/-- No step changes program memory (R95, R107: it "holds program memory constant") or the parameters of the device. -/
def Obligations.StepKeepsProgramMemory : Prop :=
  ∀ s t : State, step s = .next t → t.prog = s.prog ∧ t.dev = s.dev

/-- Only a reset clears an initialisation flag (R26: "No instruction clears a flag; only reset does") or the stack
limit latch (R41). A step that resets the device raises the number of resets; every other step keeps what was set. -/
def Obligations.OnlyResetClearsTheLatches : Prop :=
  ∀ s t : State, step s = .next t → t.ramEpoch = s.ramEpoch →
    (∀ n : Reg, s.isInit n = true → t.isInit n = true) ∧ (s.splimen = true → t.splimen = true)

/-- No instruction but RETFIE sets IPL3 (R38, R349): whatever it writes, IPL3 clear before is clear after. -/
def Obligations.SoftwareCannotSetIpl3 : Prop :=
  ∀ (i : Instr) (s t : State), i ≠ .retfie → exec i s = .next t → s.corcon.ipl3 = false → t.corcon.ipl3 = false

/-- RA is read-only to software (R33, R37): no instruction but REPEAT and RETFIE changes it, short of a device reset.
-/
def Obligations.RepeatActiveIsReadOnly : Prop :=
  ∀ (i : Instr) (s t : State), i ≠ .retfie → (∀ lit, i ≠ .repeatLit lit) → (∀ n, i ≠ .repeatW n) →
    exec i s = .next t → t.sr.ra = s.sr.ra ∨ ∃ c, t.event = some (.reset c)

/-! ## Exceptions (60_exceptions.md) -/

/-- Taking an exception (R352, R353, R101): the return address and SRL with IPL3 pushed, W15 up by 4, RA cleared, the
level raised (7 for an interrupt under NSTDIS), the PC at the handler; the other registers, DC, N, OV, Z, C, RCOUNT,
DISICNT, SPLIM and its latch, the page registers, PSV, the shadows, the divide record, program memory, the device and
the rest of data memory not touched. The handler's address (R354) is the program word at base + 2v without bit 23 and
bit 0, or what the device's own list gives the source, without bit 0; a table word outside program memory is an
address error (notes/assumptions/17.md). IPL3 in bit 7 and the level on entry are general knowledge
(notes/assumptions/20.md), the vector table too (notes/assumptions/21.md). -/
def Obligations.EnterSavesAndRedirects : Prop :=
  ∀ (s : State) (v : Nat) (p : BitVec 4) (ret target : PAddr),
    (∀ base w, s.dev.vectors = .table base → progRead s (base + 2 * v) = some w →
      ∃ a : PAddr, vectorOf v s = .ok a ∧ a.toNat = w.toNat % 2 ^ 23 / 2 * 2) ∧
    (∀ base, s.dev.vectors = .table base → progImplemented s (base + 2 * v) = false →
      vectorOf v s = .error (.trap .addressError)) ∧
    (∀ l1 h l2 other, s.dev.vectors = .listed (l1 ++ (v, h) :: l2) other → (∀ e ∈ l1, e.1 ≠ v) →
      ∃ a : PAddr, vectorOf v s = .ok a ∧ a.toNat = h.toNat / 2 * 2) ∧
    (∀ l other, s.dev.vectors = .listed l other → (∀ e ∈ l, e.1 ≠ v) →
      ∃ a : PAddr, vectorOf v s = .ok a ∧ a.toNat = other.toNat / 2 * 2) ∧
    (SlotOk (s.reg sp) 0 s → SlotOk (s.reg sp) 1 s → vectorOf v s = .ok target →
    ∃ t, enter v p ret s = .ok t ∧
      ramRead t .word (s.reg sp) = ret.extractLsb' 0 16 ∧
      (ramRead t .word (s.reg sp + 2)).extractLsb' 0 7 = ret.extractLsb' 16 7 ∧
      (ramRead t .word (s.reg sp + 2)).getLsbD 7 = s.corcon.ipl3 ∧
      highByte (ramRead t .word (s.reg sp + 2)) = lowByte (srWord s.sr) ∧
      t.reg sp = s.reg sp + 4 ∧ t.sr.ra = false ∧ t.sr.flags = s.sr.flags ∧ t.corcon.psv = s.corcon.psv ∧
      t.corcon.ipl3 = p.getLsbD 3 ∧
      (8 ≤ p.toNat → cpuLevel t = p.toNat) ∧
      (p.toNat < 8 → cpuLevel t = if s.dev.nstdis then 7 else p.toNat) ∧
      t.pc = target ∧ t.rcount = s.rcount ∧ t.tblpag = s.tblpag ∧ t.psvpag = s.psvpag ∧ t.wsh = s.wsh ∧
      t.srsh = s.srsh ∧ t.disicnt = s.disicnt ∧ t.splim = s.splim ∧ t.splimen = s.splimen ∧ t.divGhost = s.divGhost ∧
      t.prog = s.prog ∧ t.dev = s.dev ∧ t.inputs = s.inputs ∧ t.devOut = s.devOut ∧ t.draws = s.draws ∧
      t.ramEpoch = s.ramEpoch ∧ t.isInit sp = true ∧ RegsKept [sp] [] s t ∧
      MemKept [(.word, s.reg sp), (.word, s.reg sp + 2)] s t)

/-- RETFIE right after an exception entry undoes it (R277, R356): the PC is the return address, SRL, IPL3 and W15 are
those before the entry; an instruction that followed a REPEAT does so again (R316; notes/assumptions/26.md). -/
def Obligations.RetfieUndoesEnter : Prop :=
  ∀ (s t : State) (v : Nat) (p : BitVec 4) (ret : PAddr),
    SlotOk (s.reg sp) 0 s → SlotOk (s.reg sp) 1 s → s.prev.splim = false → ret.toNat % 2 = 0 →
    enter v p ret s = .ok t →
    Answers (exec .retfie t) fun u =>
      u.pc = ret ∧ u.sr = s.sr ∧ u.corcon = s.corcon ∧ u.reg sp = s.reg sp ∧ RegsKept [sp] [] s u ∧
      u.cur.toTarget = s.prev.afterRepeat

/-- RETFIE (R277): the two words at the top of the stack give SR<7:0>, IPL3 and the PC; DC and PSV are kept. IPL3 in
bit 7 is general knowledge (notes/assumptions/20.md). -/
def Obligations.RetfieRestoresTheFrame : Prop :=
  ∀ s : State, TopOk (s.reg sp) 1 s → TopOk (s.reg sp) 2 s →
    Answers (exec .retfie s) fun t =>
      lowByte (srWord t.sr) = highByte (stackWord (s.reg sp) 1 s) ∧ t.sr.flags.dc = s.sr.flags.dc ∧
      t.corcon.ipl3 = (stackWord (s.reg sp) 1 s).getLsbD 7 ∧ t.corcon.psv = s.corcon.psv ∧
      t.pc.toNat = (stackWord (s.reg sp) 1 s).toNat % 128 * 65536 + (stackWord (s.reg sp) 2 s).toNat / 2 * 2 ∧
      t.reg sp = s.reg sp - 4

/-- A request is taken when its level is above the CPU's and DISI does not mask it (R348, R349, R350 step 2): then the
step enters its handler and runs the handler's first instruction; a request that is not taken leaves the step as if
nothing were presented. An accepted request whose frame fails R100, at the first word or the second, ends in the stack
error, and one whose frame has a word that data space does not hold (R88), or whose vector word lies outside program
memory, in the address error (R352, R355): that the run ends there is the model's choice (notes/assumptions/17.md).
That entry and first instruction are one step, and that a request passed over is gone, are the model's choices too
(notes/assumptions/15.md, 16.md). -/
def Obligations.RequestsAreMaskedByLevelAndDisi : Prop :=
  ∀ (s : State) (v : Nat) (p : BitVec 4) (l : List Input),
    (cpuLevel s < p.toNat ∧ (p.toNat = 0 ∨ 6 < p.toNat ∨ s.disicnt = 0) →
      (∀ t, enter v p s.pc { s with inputs := l } = .ok t →
        step { s with inputs := .request v p :: l } = runAtPc t) ∧
      (∀ k, FrameStops k s → step { s with inputs := .request v p :: l } = .fault (faultOf k)) ∧
      (SlotOk (s.reg sp) 0 s → SlotOk (s.reg sp) 1 s → ∀ base, s.dev.vectors = .table base →
        progImplemented s (base + 2 * v) = false →
        step { s with inputs := .request v p :: l } = .fault .addressError)) ∧
    (p.toNat ≤ cpuLevel s ∨ (1 ≤ p.toNat ∧ p.toNat ≤ 6 ∧ s.disicnt ≠ 0) →
      step { s with inputs := .request v p :: l } = step { s with inputs := .quiet :: l })

/-- A divide by zero does its first execution and requests the arithmetic error trap (R222, R343); finishing that
execution enters the handler with the DIV's own address, all 23 bits of it, as the return address, W15 up by 4, RA = 1
in the stacked SRL and RA = 0 afterwards, RCOUNT 16. Inside a trap handler it is `Fault(ArithmeticError)` (R357). That
the handler is entered, and the run not ended there, is the model's choice of the two readings of D11
(notes/assumptions/18.md). -/
def Obligations.DivideByZeroTraps : Prop :=
  ∀ (s : State) (kind : DivKind) (m n : Reg), DivRegs kind m n → s.reg n = 0 → s.divGhost = none →
    s.sr.ra = true → s.rcount = 17 →
    Answers (exec (divInstr kind m n) s) fun t =>
      t.event = some (.trap .arithmeticError) ∧ t.sr.ra = true ∧ t.sr.flags.dc = s.sr.flags.dc ∧
      t.sr.flags.ov = s.sr.flags.ov ∧ Kept [0, 1] [] s { t with divGhost := s.divGhost } ∧
      (s.corcon.ipl3 = true → finish (divInstr kind m n) s t = .fault .arithmeticError) ∧
      ∀ target, s.corcon.ipl3 = false → SlotOk (s.reg sp) 0 s → SlotOk (s.reg sp) 1 s →
        vectorOf (trapLine s.dev .arithmeticError).source s = .ok target →
        Answers (finish (divInstr kind m n) s t) fun u =>
          u.pc = target ∧ u.sr.ra = false ∧ u.rcount = 16 ∧ u.event = none ∧
          ramRead u .word (s.reg sp) = s.pc.extractLsb' 0 16 ∧
          (ramRead u .word (s.reg sp + 2)).extractLsb' 0 7 = s.pc.extractLsb' 16 7 ∧
          (ramRead u .word (s.reg sp + 2)).getLsbD 12 = true ∧ u.reg sp = s.reg sp + 4

/-- The three checks of an address formed from W15 (R100, D12, D13): below 0x0800 always; past SPLIM + 2 or a carry
out of the address arithmetic where the latch is set. A read right after a write to SPLIM's address compares with a
free value instead of SPLIM (R401). A push, a pop and an operand form whose address W15's contents generate, as
pointer or as the offset register of [Wn+W15], raise the trap by these numbers; no other form does. The comparisons
are the spec's decisions D12, D13 and D39. Three things here are the model's: that a borrow, of [--W15] or [W15--], is
no carry (DEDUCED, notes/assumptions/11.md); that of R401's two readings the limit is drawn and the read not refused
(DESIGN CHOICE, notes/assumptions/36.md); and that R100 holds of the offset register (DEDUCED,
notes/assumptions/43.md). -/
def Obligations.StackCheckRule : Prop :=
  ∀ (s : State) (ea : Word) (wraps isRead : Bool),
    (stackCheck ea wraps isRead s = .error (.trap .stackError) ↔
      ea.toNat < 0x0800 ∨
      (s.splimen = true ∧
        (wraps = true ∨
          (if isRead = true ∧ s.prev.splim = true then
              (Config.freeValue s.draws).toNat / 2 * 2 + 2 < ea.toNat
            else s.splim.toNat + 2 < ea.toNat)))) ∧
    (stackCheck ea wraps isRead s ≠ .error (.trap .stackError) →
      ∃ d, stackCheck ea wraps isRead s = .ok { s with draws := d }) ∧
    (∀ v, PushFault (s.reg sp) s → push16 v s = .error (.trap .stackError)) ∧
    (PopFault (s.reg sp) s → pop16 s = .error (.trap .stackError)) ∧
    (∀ (op : Opnd) (step : Nat), usesSp op = true → s.isInit op.reg = true → (isRead = true → s.prev.splim = false) →
      (locate op step isRead s = .error (.trap .stackError) ↔ StackFault op step isRead s)) ∧
    (∀ n b, usesSp (.offset n b) = true ↔ n = sp ∨ b = sp) ∧
    (∀ n, ∀ op ∈ [Opnd.ind n, .postDec n, .postInc n, .preDec n, .preInc n], (usesSp op = true ↔ n = sp)) ∧
    (∀ (op : Opnd) (step : Nat), usesSp op = false → s.isInit op.reg = true →
      locate op step isRead s = .ok (eaOf op step s, s))

/-- A source or destination form that fails a check raises the stack error or the address error trap (R83, R84, R100,
R342, R344 (b), (c), (d)), in every instruction that has general operands: `Fault(kind)` where the device record does
not say `runOn`; where it does, the trap is requested with the PC at the address after the instruction, which is the
model's choice (R355 [general knowledge]; notes/assumptions/4.md). A table read of an odd word, or outside program
memory, raises the address error (R301). A PUSH fails where W15 is below 0x0800 and, with the latch, past SPLIM + 2 or
at 0xFFFE and above. A MOV.D fails so at its first word or at its second (R157, R158). That R100 holds of W15 as the
offset register of [Wn+W15] is the model's reading (DEDUCED, notes/assumptions/43.md), and so is that a borrow is no
carry (notes/assumptions/11.md). The traps for odd and absent addresses are general knowledge
(notes/assumptions/33.md). -/
def Obligations.BadAccessesRaiseTheirTrap : Prop :=
  ∀ (s : State) (sz : Size) (src dst : Opnd) (wb nd : Reg) (k : TrapKind),
    let TwoOperands :=
      RaisesTrap k 1 (.mov sz src dst) s ∧ RaisesTrap k 1 (.add sz wb src dst) s ∧ RaisesTrap k 1 (.sl sz src dst) s ∧
      RaisesTrap k 1 (.lsr sz src dst) s ∧ RaisesTrap k 1 (.asr sz src dst) s ∧
      (sz = .word → dst = .postInc sp → RaisesTrap k 1 (.push src) s) ∧
      (sz = .word → src = .preDec sp → RaisesTrap k 1 (.pop dst) s)
    (sameTwice src dst = false →
      (FormFault k sz (bytesOf sz) true src s → TwoOperands) ∧
      (∀ v s1, readOp sz src s = .ok (v, s1) → FormFault k sz (bytesOf sz) false dst s1 → TwoOperands) ∧
      (FormFault .stackError sz (bytesOf sz) true src s →
        RaisesTrap .stackError 1 (.tblrdl sz src dst) s ∧ RaisesTrap .stackError 1 (.tblrdh sz src dst) s) ∧
      (isDirect src = false → PointerOk src 2 true s → isOdd (eaOf src 2 s) = true → s.tblpag.getLsbD 7 = false →
        RaisesTrap .addressError 1 (.tblrdl .word src dst) s ∧ RaisesTrap .addressError 1 (.tblrdh .word src dst) s) ∧
      (isDirect src = false → PointerOk src (bytesOf sz) true s → s.tblpag.getLsbD 7 = false →
        progImplemented s (s.tblpag.toNat * 0x10000 + (eaOf src (bytesOf sz) s).toNat / 2 * 2) = false →
        RaisesTrap .addressError 1 (.tblrdl sz src dst) s ∧ RaisesTrap .addressError 1 (.tblrdh sz src dst) s) ∧
      (∀ v s1, tableSource false sz src s = .ok (v, s1) → FormFault k sz (bytesOf sz) false dst s1 →
        RaisesTrap k 1 (.tblrdl sz src dst) s) ∧
      (∀ v s1, tableSource true sz src s = .ok (v, s1) → FormFault k sz (bytesOf sz) false dst s1 →
        RaisesTrap k 1 (.tblrdh sz src dst) s)) ∧
    (mulBadDest nd = false → FormFault k .word 2 true src s →
      RaisesTrap k 1 (.mulUU wb src nd) s ∧ RaisesTrap k 1 (.mulUS wb src nd) s ∧ RaisesTrap k 1 (.mulSU wb src nd) s ∧
      RaisesTrap k 1 (.mulSS wb src nd) s) ∧
    (oddReg nd = false →
      PairFault k true src s (fun u => ∃ v, memRead .word (eaOf src 4 s) s = .ok (v, u)) →
      RaisesTrap k 1 (.movDLoad src nd) s) ∧
    (oddReg nd = false → PairFault k false dst s (fun u => memWrite .word (eaOf dst 4 s) (s.reg nd) s = .ok u) →
      RaisesTrap k 1 (.movDStore nd dst) s) ∧
    (∀ v s1, sameTwice src (.postInc sp) = false → readOp .word src s = .ok (v, s1) → s.isInit sp = true →
      PushFault (s.reg sp) s → RaisesTrap .stackError 1 (.push src) s) ∧
    (sameTwice (.preDec sp) dst = false → s.isInit sp = true → PopFault (s.reg sp) s →
      RaisesTrap .stackError 1 (.pop dst) s)

/-- A trap an instruction requests is entered when the instruction is over, with the trap's own source and level
(R341, R350 step 3), unless the CPU is inside a trap handler, where it is `Fault(kind)` (R357). That the handler of a
stack or address error, or of the arithmetic error, is entered at all is the model's choice (R355 allows it under a
further assumption; notes/assumptions/4.md, 18.md), and so is that an entry whose own push traps ends in that trap's
fault (notes/assumptions/17.md): W15 below 0x0800, or with the latch past SPLIM + 2 or carrying past 0xFFFF, or no
data memory there (R88), at either word. -/
def Obligations.RequestedTrapEntersItsHandler : Prop :=
  ∀ (i : Instr) (s t : State) (k : TrapKind), t.event = some (.trap k) →
    (s.corcon.ipl3 = true → finish i s t = .fault (faultOf k)) ∧
    (s.corcon.ipl3 = false →
      let Entry := enter (trapLine t.dev k).source (trapLine t.dev k).level (retire i s t).pc
        { retire i s t with event := none }
      (∀ u, Entry = .ok u → finish i s t = .next u ∧ u.event = none ∧ u.sr.ra = false) ∧
      (∀ k', Entry = .error (.trap k') → finish i s t = .fault (faultOf k')) ∧
      (∀ k', FrameStops k' t → finish i s t = .fault (faultOf k')))

/-- A PC that holds no program word, and an instruction whose prefetch leaves program memory, end in the address error
(R344 (a), R402): one word ahead for every instruction but RESET, two for RETURN, RETLW and RETFIE. RESET resets the
device whatever follows it, and so does an instruction that resets it by an uninitialised pointer (R350, D38). That
the run ends there is the model's choice (notes/assumptions/19.md), the prefetch of ordinary instructions the spec's
inference. -/
def Obligations.MissingProgramWordFaults : Prop :=
  ∀ (s s1 : State), Quietly s s1 →
    (progImplemented s1 s1.pc.toNat = false → step s = .fault .addressError) ∧
    (∀ (s0 : State) (w w2 : PWord) (rest : List PWord) (i : Instr), WordsAtPc s1 w w2 → decode [w, w2] = .ok (i, rest) →
      barred i s1 = false → BeginsIn s1 s0 →
      (i = .reset → Answers (step s) fun t => IsReset s t ∧ t.event = none) ∧
      (∀ t c, exec i s0 = .next t → t.event = some (.reset c) → step s = .next { t with event := none }) ∧
      ((∀ t c, exec i s0 = .next t → t.event ≠ some (.reset c)) →
        (i ≠ .reset → progImplemented s1 (s1.pc.toNat + 2) = false → step s = .fault .addressError) ∧
        (i = .ret ∨ (∃ sz lit n, i = .retlw sz lit n) ∨ i = .retfie →
          progImplemented s1 (s1.pc.toNat + 4) = false → step s = .fault .addressError)))

/-! ## Memory (20_memory.md) -/

/-- What MOV Wns,f stores, MOV f,Wnd loads (R82, R152, R153): through RAM, at every even address. -/
def Obligations.StoreThenLoadGivesItBack : Prop :=
  ∀ (s : State) (f : Word) (ns nd : Reg), AccessOk .word f s →
    Answers (exec (.movWnsF ns f) s) fun t =>
      Answers (exec (.movFWnd f nd) t) fun u => u.reg nd = regMask nd (s.reg ns)

/-- The W registers stand at data address 2n (R23, R85): a load from there is a register move, a word store there is a
word write of the register, which initialises it (R26, D18), and a byte store there writes the byte and initialises
nothing (R86). "The data write dominates" (R85, Example 2-4): where the store of an instruction lands on the register
that its destination form modifies, or its source form, the register ends with the stored data and the modification is
lost. That after a byte store the other byte is the one from before the instruction is the model's reading
(notes/assumptions/42.md). Through W15 such an address fails R100 (c). A source form that modifies its pointer and
reads a W register, or two for MOV.D, sees that pointer modified: "Source effective address and its modification, then
the read" (R92, D27). R150 puts the read of [Wn++] and [Wn--] first, and that the device record chooses between the two
is the model's choice (DESIGN CHOICE, notes/assumptions/46.md). -/
def Obligations.MappedRegistersAreTheRegisters : Prop :=
  ∀ (s : State) (n m : Reg) (sz : Size) (src dst : Opnd) (f : BitVec 13),
    let seen := fun (step : Nat) (r : Reg) =>
      if r = src.reg ∧ ¬(s.dev.readThenUpdate = true ∧ (src = .postInc r ∨ src = .postDec r)) then updOf src step s
      else s.reg r
    exec (.movFWnd (BitVec.ofNat 16 (2 * n.val)) m) s = exec (.mov .word (.direct n) (.direct m)) s ∧
    (Answers (exec (.movWnsF m (BitVec.ofNat 16 (2 * n.val))) s) fun t =>
      t.reg n = regMask n (s.reg m) ∧ t.isInit n = true ∧ Kept [n] [] s t ∧ t.sr.flags = s.sr.flags) ∧
    (f.toNat / 2 = n.val → Answers (exec (.movWregF .byte f) s) fun t =>
      t.reg n = regMask n (byteStored (f.setWidth 16) (s.reg wreg) (s.reg n)) ∧ t.winit = s.winit ∧
      Kept [n] [] s t ∧ t.sr.flags = s.sr.flags ∧ t.pc = s.pc + 2) ∧
    (modifies dst = true → dst.reg ≠ sp → s.isInit dst.reg = true → (eaOf dst (bytesOf sz) s).toNat / 2 = dst.reg.val →
      (sz = .word → isOdd (eaOf dst (bytesOf sz) s) = false) →
      Answers (exec (.mov sz (.direct m) dst) s) fun t =>
        (sz = .word → t.reg dst.reg = s.reg m) ∧
        (sz = .byte → t.reg dst.reg = byteStored (eaOf dst (bytesOf sz) s) (s.reg m) (s.reg dst.reg)) ∧
        t.pc = s.pc + 2) ∧
    (modifies src = true → OperandOk sz src s → isDirect dst = false → sameTwice src dst = false →
      usesSp dst = false → s.isInit dst.reg = true → (dstAddr sz src dst s).toNat / 2 = src.reg.val →
      (sz = .word → isOdd (dstAddr sz src dst s) = false) →
      Answers (exec (.mov sz src dst) s) fun t =>
        (sz = .word → t.reg src.reg = regMask src.reg (operandValue sz src s)) ∧
        (sz = .byte → t.reg src.reg =
          regMask src.reg (byteStored (dstAddr sz src dst s) (operandValue sz src s) (s.reg src.reg))) ∧
        t.pc = s.pc + 2) ∧
    (∀ r : Reg, modifies src = true → src.reg ≠ sp → s.isInit src.reg = true →
      ((eaOf src (bytesOf sz) s).toNat / 2 = r.val → (sz = .word → isOdd (eaOf src (bytesOf sz) s) = false) →
        Answers (exec (.mov sz src (.direct m)) s) fun t =>
          (m ≠ src.reg → t.reg src.reg = updOf src (bytesOf sz) s ∧
            t.reg m = written sz m (pick sz (eaOf src (bytesOf sz) s) (seen (bytesOf sz) r)) (s.reg m)) ∧
          (m = src.reg → sz = .word → t.reg m = seen 2 r) ∧ t.pc = s.pc + 2) ∧
      ((eaOf src 4 s).toNat = 2 * r.val → r ≠ sp → oddReg m = false →
        Answers (exec (.movDLoad src m) s) fun t =>
          t.reg m = seen 4 r ∧ t.reg (pairHigh m) = regMask (pairHigh m) (seen 4 (r + 1)) ∧ t.pc = s.pc + 2))

/-- A load from a special register's address gives its word (R33, R38, R40, R42 to R45, R50): at the default addresses,
which are general knowledge (notes/assumptions/3.md). PCL and PCH give a free value, PCH<15:7> reading 0: R31 calls
the value a draw (notes/assumptions/9.md). -/
def Obligations.SpecialRegisterReads : Prop :=
  ∀ (s : State) (nd : Reg), s.dev.sfr = Config.SfrMap.default → nd ≠ sp →
    (Answers (exec (.movFWnd 0x0020 nd) s) fun t => t.reg nd = s.splim) ∧
    (Answers (exec (.movFWnd 0x002E nd) s) fun t => t.reg nd = Config.freeValue s.draws ∧ t.draws = s.draws + 1) ∧
    (Answers (exec (.movFWnd 0x0030 nd) s) fun t =>
      (t.reg nd).toNat = (Config.freeValue s.draws).toNat % 128 ∧ t.draws = s.draws + 1) ∧
    (Answers (exec (.movFWnd 0x0032 nd) s) fun t => (t.reg nd).toNat = s.tblpag.toNat) ∧
    (Answers (exec (.movFWnd 0x0034 nd) s) fun t => (t.reg nd).toNat = s.psvpag.toNat) ∧
    (Answers (exec (.movFWnd 0x0036 nd) s) fun t => t.reg nd = s.rcount) ∧
    (Answers (exec (.movFWnd 0x0052 nd) s) fun t => (t.reg nd).toNat = s.disicnt.toNat) ∧
    (Answers (exec (.movFWnd 0x0042 nd) s) fun t =>
      (∀ k, 9 ≤ k → (t.reg nd).getLsbD k = false) ∧ (t.reg nd).getLsbD 8 = s.sr.flags.dc ∧
      (t.reg nd).extractLsb' 5 3 = s.sr.ipl ∧ (t.reg nd).getLsbD 4 = s.sr.ra ∧
      (t.reg nd).getLsbD 3 = s.sr.flags.n ∧ (t.reg nd).getLsbD 2 = s.sr.flags.ov ∧
      (t.reg nd).getLsbD 1 = s.sr.flags.z ∧ (t.reg nd).getLsbD 0 = s.sr.flags.c) ∧
    (Answers (exec (.movFWnd 0x0044 nd) s) fun t =>
      (t.reg nd).getLsbD 3 = s.corcon.ipl3 ∧ (t.reg nd).getLsbD 2 = s.corcon.psv ∧
      ∀ k, k ≠ 2 → k ≠ 3 → (t.reg nd).getLsbD k = false)

/-- A store to a special register's address writes it under its access rules (R33, R38, R40 to R45, R50): RA
read-only, IPL<2:0> read-only under NSTDIS, IPL3 only cleared, SPLIM<0> dropped and the latch set by a word write
only, PCL and PCH refused (R31); a byte store writes its half of the word. A store to SPLIM's address, of a word or of
a byte, leaves the mark that R401 asks about. The default addresses are general knowledge (notes/assumptions/3.md).
That a store to 0x0052 writes DISICNT is the model's choice: R45 has no sentence on software writing it
(notes/assumptions/27.md). -/
def Obligations.SpecialRegisterWrites : Prop :=
  ∀ (s : State) (ns : Reg), s.dev.sfr = Config.SfrMap.default →
    (Answers (exec (.movWnsF ns 0x0042) s) fun t =>
      t.sr.flags = ⟨(s.reg ns).getLsbD 8, (s.reg ns).getLsbD 3, (s.reg ns).getLsbD 2, (s.reg ns).getLsbD 1,
        (s.reg ns).getLsbD 0⟩ ∧ t.sr.ra = s.sr.ra ∧
      (s.dev.nstdis = false → t.sr.ipl = (s.reg ns).extractLsb' 5 3) ∧ (s.dev.nstdis = true → t.sr.ipl = s.sr.ipl)) ∧
    (Answers (exec (.movWnsF ns 0x0044) s) fun t =>
      t.corcon.psv = (s.reg ns).getLsbD 2 ∧ (t.corcon.ipl3 = true ↔ s.corcon.ipl3 = true ∧ (s.reg ns).getLsbD 3 = true)) ∧
    (Answers (exec (.movWregF .byte 0x0042) s) fun t =>
      t.sr.flags = ⟨s.sr.flags.dc, (s.reg wreg).getLsbD 3, (s.reg wreg).getLsbD 2, (s.reg wreg).getLsbD 1,
        (s.reg wreg).getLsbD 0⟩ ∧ t.sr.ra = s.sr.ra ∧
      (s.dev.nstdis = false → t.sr.ipl = (s.reg wreg).extractLsb' 5 3) ∧
      (s.dev.nstdis = true → t.sr.ipl = s.sr.ipl)) ∧
    (Answers (exec (.movWregF .byte 0x0043) s) fun t =>
      t.sr = { s.sr with flags := { s.sr.flags with dc := (s.reg wreg).getLsbD 0 } }) ∧
    (Answers (exec (.movWregF .byte 0x0044) s) fun t =>
      t.corcon.psv = (s.reg wreg).getLsbD 2 ∧
      (t.corcon.ipl3 = true ↔ s.corcon.ipl3 = true ∧ (s.reg wreg).getLsbD 3 = true)) ∧
    (Answers (exec (.movWregF .byte 0x0045) s) fun t => t.corcon = s.corcon) ∧
    (Answers (exec (.movWnsF ns 0x0020) s) fun t =>
      t.splim.toNat = (s.reg ns).toNat / 2 * 2 ∧ t.splimen = true ∧ t.cur.splimHit = true) ∧
    (Answers (exec (.movWregF .byte 0x0020) s) fun t =>
      t.splimen = s.splimen ∧ highByte t.splim = highByte s.splim ∧
      (lowByte t.splim).toNat = (s.reg wreg).toNat % 256 / 2 * 2 ∧ t.cur.splimHit = true) ∧
    (Answers (exec (.movWregF .byte 0x0021) s) fun t =>
      t.splimen = s.splimen ∧ highByte t.splim = lowByte (s.reg wreg) ∧ t.cur.splimHit = true) ∧
    (Answers (exec (.movWnsF ns 0x0032) s) fun t => t.tblpag = lowByte (s.reg ns)) ∧
    (Answers (exec (.movWnsF ns 0x0034) s) fun t => t.psvpag = lowByte (s.reg ns)) ∧
    (Answers (exec (.movWnsF ns 0x0036) s) fun t =>
      t.rcount.toNat = (s.reg ns).toNat % 2 ^ (if s.dev.rcountWide then 16 else 14)) ∧
    (Answers (exec (.movWnsF ns 0x0052) s) fun t => t.disicnt.toNat = (s.reg ns).toNat % 2 ^ 14) ∧
    (Answers (exec (.movWregF .byte 0x0032) s) fun t => t.tblpag = lowByte (s.reg wreg)) ∧
    (Answers (exec (.movWregF .byte 0x0033) s) fun t => t.tblpag = s.tblpag) ∧
    (Answers (exec (.movWregF .byte 0x0034) s) fun t => t.psvpag = lowByte (s.reg wreg)) ∧
    (Answers (exec (.movWregF .byte 0x0035) s) fun t => t.psvpag = s.psvpag) ∧
    (Answers (exec (.movWregF .byte 0x0036) s) fun t =>
      t.rcount.toNat = (s.rcount.toNat / 256 * 256 + (s.reg wreg).toNat % 256) %
        2 ^ (if s.dev.rcountWide then 16 else 14)) ∧
    (Answers (exec (.movWregF .byte 0x0037) s) fun t =>
      t.rcount.toNat = ((s.reg wreg).toNat % 256 * 256 + s.rcount.toNat % 256) %
        2 ^ (if s.dev.rcountWide then 16 else 14)) ∧
    (Answers (exec (.movWregF .byte 0x0052) s) fun t =>
      t.disicnt.toNat = s.disicnt.toNat / 256 * 256 + (s.reg wreg).toNat % 256) ∧
    (Answers (exec (.movWregF .byte 0x0053) s) fun t =>
      t.disicnt.toNat = ((s.reg wreg).toNat % 256 * 256 + s.disicnt.toNat % 256) % 2 ^ 14) ∧
    exec (.movWnsF ns 0x002E) s = .refused .pcWrite ∧ exec (.movWnsF ns 0x0030) s = .refused .pcWrite ∧
    ∀ f ∈ [(0x002E : BitVec 13), 0x002F, 0x0030, 0x0031], exec (.movWregF .byte f) s = .refused .pcWrite

/-- Below 0x0800 and outside the CPU's registers, a read gives a free value and a write is handed to the device and
changes no state of the CPU (R84 step 2, D26); at an address that is no RAM and not in the PSV window both raise the
address error (R84 step 4, R88, D8; `runOn`: notes/assumptions/4.md). A word access at an odd address, or one that data
space does not hold, raises it in every instruction with a file-register operand (R83, R152 to R154, R191, R217, R261
to R263), where `runOn` with the PC at the address after the instruction (DESIGN CHOICE, notes/assumptions/4.md). The
device's part is notes/assumptions/30.md and 33.md. -/
def Obligations.DeviceAndAbsentAddresses : Prop :=
  ∀ (s : State) (f : Word) (ns nd : Reg) (sz : Size) (g : BitVec 13) (bit : BitVec 4) (file : Bool),
    (isOdd f = false → cpuRegAt s.dev.sfr f = none → f.toNat < 0x0800 →
      (Answers (exec (.movFWnd f nd) s) fun t => t.reg nd = regMask nd (Config.freeValue s.draws) ∧ Kept [nd] [] s t) ∧
      (Answers (exec (.movWnsF ns f) s) fun t =>
        Kept [] [] s t ∧ t.sr.flags = s.sr.flags ∧ t.devOut = ⟨f, .word, s.reg ns⟩ :: s.devOut)) ∧
    ((sz = .word → isOdd (g.setWidth 16) = false) → cpuRegAt s.dev.sfr (evenWord (g.setWidth 16)) = none →
      g.toNat < 0x0800 →
      Answers (exec (.movWregF sz g) s) fun t =>
        Kept [] [] s t ∧ t.sr.flags = s.sr.flags ∧ t.pc = s.pc + 2 ∧
        t.devOut = ⟨g.setWidth 16, sz, sized sz (s.reg wreg)⟩ :: s.devOut) ∧
    (isOdd f = false → cpuRegAt s.dev.sfr f = none →
      0x0800 ≤ f.toNat → ¬(0x8000 ≤ f.toNat ∧ s.corcon.psv = true) → dataImplemented s f.toNat = false →
      (s.dev.runOn = false →
        exec (.movFWnd f nd) s = .fault .addressError ∧ exec (.movWnsF ns f) s = .fault .addressError) ∧
      (s.dev.runOn = true →
        (Answers (exec (.movFWnd f nd) s) fun t => t.event = some (.trap .addressError)) ∧
        (Answers (exec (.movWnsF ns f) s) fun t => t.event = some (.trap .addressError) ∧ Kept [] [] s t))) ∧
    (AccessFault .word f s →
      RaisesTrap .addressError 1 (.movFWnd f nd) s ∧ RaisesTrap .addressError 1 (.movWnsF ns f) s) ∧
    (AccessFault sz (g.setWidth 16) s →
      RaisesTrap .addressError 1 (.movWregF sz g) s ∧ RaisesTrap .addressError 1 (.addF sz g file) s ∧
      RaisesTrap .addressError 1 (.mulF sz g) s) ∧
    (AccessFault .byte (bitAddr g bit) s →
      RaisesTrap .addressError 1 (.bset g bit) s ∧ RaisesTrap .addressError 1 (.bclr g bit) s ∧
      RaisesTrap .addressError 1 (.btsc g bit) s)

/-- With PSV on, a read from the upper half of data space, by MOV f,Wnd or through a pointer, gives bits 15:0 of the
program word at `PSVPAG : f[14:1] : 0`, or the byte of them that f[0] selects (R93, R94); a store there, by MOV Wns,f
or through a pointer, is refused (R94, D28). Where that program word does not exist, the read raises the address
error: the model's inference from R301 (notes/assumptions/32.md), the PC of a requested trap being the choice of
notes/assumptions/4.md. The mapping is the spec's inference in R93 and general knowledge in R94 (GK7). -/
def Obligations.PsvWindow : Prop :=
  ∀ (s : State) (f : Word) (ns nd wb : Reg) (sz : Size) (src dst : Opnd),
    0x8000 ≤ f.toNat → s.corcon.psv = true → cpuRegAt s.dev.sfr (evenWord f) = none → (sz = .word → isOdd f = false) →
    let paddr := s.psvpag.toNat * 0x8000 + (f.toNat - 0x8000) / 2 * 2
    (∀ w, progRead s paddr = some w →
      (isOdd f = false →
        Answers (exec (.movFWnd f nd) s) fun t => t.reg nd = regMask nd (w.extractLsb' 0 16) ∧ Kept [nd] [] s t) ∧
      (isDirect src = false → PointerOk src (bytesOf sz) true s → eaOf src (bytesOf sz) s = f →
        Answers (exec (.mov sz src (.direct nd)) s) fun t =>
          (∃ v : Word, t.reg nd = written sz nd v ((afterSrc src (bytesOf sz) s).reg nd) ∧
            (sz = .word → v = w.extractLsb' 0 16) ∧
            (sz = .byte → v.toNat = if isOdd f then w.toNat / 256 % 256 else w.toNat % 256)) ∧
          Stepped sz src (.direct nd) s t ∧ t.pc = s.pc + 2)) ∧
    (progImplemented s paddr = false →
      (isOdd f = false → RaisesTrap .addressError 1 (.movFWnd f nd) s) ∧
      (sameTwice src dst = false → isDirect src = false → PointerOk src (bytesOf sz) true s →
        eaOf src (bytesOf sz) s = f → RaisesTrap .addressError 1 (.mov sz src dst) s)) ∧
    (isOdd f = false → exec (.movWnsF ns f) s = .refused .psvWrite) ∧
    (∀ v s1, sameTwice src dst = false → readOp sz src s = .ok (v, s1) → isDirect dst = false →
      PointerOk dst (bytesOf sz) false s1 → eaOf dst (bytesOf sz) s1 = f →
      exec (.mov sz src dst) s = .refused .psvWrite ∧ exec (.add sz wb src dst) s = .refused .psvWrite ∧
      exec (.sl sz src dst) s = .refused .psvWrite ∧ exec (.lsr sz src dst) s = .refused .psvWrite ∧
      exec (.asr sz src dst) s = .refused .psvWrite)

/-- A PSV read and a table read of the same program word agree (R304). R304 is the spec's own inference
(notes/assumptions/34.md). -/
def Obligations.TableReadMatchesPsv : Prop :=
  ∀ (s : State) (n nd : Reg) (f : Word), s.isInit n = true → n ≠ sp → nd ≠ sp →
    isOdd f = false → 0x8000 ≤ f.toNat → s.corcon.psv = true → cpuRegAt s.dev.sfr f = none →
    s.tblpag.getLsbD 7 = false →
    s.tblpag.toNat * 0x10000 + (s.reg n).toNat = s.psvpag.toNat * 0x8000 + (f.toNat - 0x8000) →
    progImplemented s (s.psvpag.toNat * 0x8000 + (f.toNat - 0x8000)) = true →
    Answers (exec (.tblrdl .word (.ind n) (.direct nd)) s) fun t =>
      Answers (exec (.movFWnd f nd) s) fun u => t.reg nd = u.reg nd

/-! ## Data movement (40_move.md) and the stack instructions (41_stack.md) -/

/-- Every general-operand instruction completes for every operand form whose read and write complete (R150, R151,
R157, R158, R171, R172, R192, R211 to R216, R241 to R245, R301, R302): the source is read first, the destination
written after it. Two operands that modify the same register are refused by name (R92, D27), whatever their pointers
hold (the model's choice, notes/assumptions/45.md). -/
def Obligations.EveryOperandFormCompletes : Prop :=
  ∀ (s s2 : State) (sz : Size) (src dst : Opnd) (wb nd : Reg),
    (sameTwice src dst = true →
      exec (.mov sz src dst) s = .refused .sameRegTwiceModified ∧
      exec (.add sz wb src dst) s = .refused .sameRegTwiceModified ∧
      exec (.sl sz src dst) s = .refused .sameRegTwiceModified ∧
      exec (.lsr sz src dst) s = .refused .sameRegTwiceModified ∧
      exec (.asr sz src dst) s = .refused .sameRegTwiceModified ∧
      exec (.tblrdl sz src dst) s = .refused .sameRegTwiceModified ∧
      exec (.tblrdh sz src dst) s = .refused .sameRegTwiceModified ∧
      (dst = .postInc sp → exec (.push src) s = .refused .sameRegTwiceModified) ∧
      (src = .preDec sp → exec (.pop dst) s = .refused .sameRegTwiceModified)) ∧
    (sameTwice src dst = false → ∀ v s1, readOp sz src s = .ok (v, s1) →
      (writeResult sz src dst v s s1 = .ok s2 → exec (.mov sz src dst) s = .next { s2 with pc := s2.pc + 2 }) ∧
      (sz = .word → dst = .postInc sp → writeResult sz src dst v s s1 = .ok s2 →
        exec (.push src) s = .next { s2 with pc := s2.pc + 2 }) ∧
      (sz = .word → src = .preDec sp → writeResult sz src dst v s s1 = .ok s2 →
        exec (.pop dst) s = .next { s2 with pc := s2.pc + 2 }) ∧
      (writeResult sz src dst (addResult sz (s.reg wb) v) s s1 = .ok s2 →
        Answers (exec (.add sz wb src dst) s) fun t =>
          AddFlagsOk sz (s.reg wb) v t.sr.flags ∧ t.mem = s2.mem ∧ t.w = s2.w ∧ t.pc = s2.pc + 2) ∧
      (writeResult sz src dst (shifted .left sz 1 v) s s1 = .ok s2 →
        Answers (exec (.sl sz src dst) s) fun t => t.mem = s2.mem ∧ t.w = s2.w ∧ t.pc = s2.pc + 2) ∧
      (writeResult sz src dst (shifted .logical sz 1 v) s s1 = .ok s2 →
        Answers (exec (.lsr sz src dst) s) fun t => t.mem = s2.mem ∧ t.w = s2.w ∧ t.pc = s2.pc + 2) ∧
      (writeResult sz src dst (shifted .arith sz 1 v) s s1 = .ok s2 →
        Answers (exec (.asr sz src dst) s) fun t => t.mem = s2.mem ∧ t.w = s2.w ∧ t.pc = s2.pc + 2)) ∧
    (sameTwice src dst = false →
      (∀ v s1, tableSource false sz src s = .ok (v, s1) → writeResult sz src dst v s s1 = .ok s2 →
        exec (.tblrdl sz src dst) s = .next { s2 with pc := s2.pc + 2 }) ∧
      (∀ v s1, tableSource true sz src s = .ok (v, s1) → writeResult sz src dst v s s1 = .ok s2 →
        exec (.tblrdh sz src dst) s = .next { s2 with pc := s2.pc + 2 })) ∧
    (mulBadDest nd = false → ∀ v s1, readOp .word src s = .ok (v, s1) →
      (Answers (exec (.mulUU wb src nd) s) fun t =>
        (pairValue nd t).toNat = (s.reg wb).toNat * v.toNat ∧ t.mem = s1.mem ∧ t.pc = s1.pc + 2) ∧
      (Answers (exec (.mulUS wb src nd) s) fun t =>
        (pairValue nd t).toInt = (s.reg wb).toNat * v.toInt ∧ t.mem = s1.mem ∧ t.pc = s1.pc + 2) ∧
      (Answers (exec (.mulSU wb src nd) s) fun t =>
        (pairValue nd t).toInt = (s.reg wb).toInt * v.toNat ∧ t.mem = s1.mem ∧ t.pc = s1.pc + 2) ∧
      (Answers (exec (.mulSS wb src nd) s) fun t =>
        (pairValue nd t).toInt = (s.reg wb).toInt * v.toInt ∧ t.mem = s1.mem ∧ t.pc = s1.pc + 2)) ∧
    (oddReg nd = false → (isDirect src = true → oddReg src.reg = false) →
      ∀ lo hi, readPair src s = .ok (lo, hi, s2) →
        Answers (exec (.movDLoad src nd) s) fun t =>
          t.reg nd = lo ∧ t.reg (pairHigh nd) = regMask (pairHigh nd) hi ∧ t.mem = s2.mem ∧ t.pc = s2.pc + 2) ∧
    (oddReg nd = false → (isDirect dst = true → oddReg dst.reg = false) →
      writePair dst (s.reg nd) (s.reg (pairHigh nd)) s = .ok s2 →
        exec (.movDStore nd dst) s = .next { s2 with pc := s2.pc + 2 })

/-- MOV between registers and RAM in every addressing mode (R90, R151): the destination takes the source's value, and
each pointer that a form modifies steps by the size. The set of modes is general knowledge (notes/assumptions/23.md),
what a destination `[++Wn]` leaves is notes/assumptions/12.md; that [Wn+W15] is checked by R100 is
notes/assumptions/43.md. -/
def Obligations.MovMovesItsOperand : Prop :=
  ∀ (s : State) (sz : Size) (src dst : Opnd), sameTwice src dst = false →
    OperandOk sz src s → DestOk sz dst (afterSrc src (bytesOf sz) s) →
    Answers (exec (.mov sz src dst) s) fun t =>
      Took sz dst (dstAddr sz src dst s) (operandValue sz src s) (afterSrc src (bytesOf sz) s) t ∧
      t.pc = s.pc + 2 ∧ t.event = s.event ∧ t.sr = s.sr ∧
      Stepped sz src dst s t ∧ (isDirect dst = true → sz = .word → t.isInit dst.reg = true)

/-- The file-register and literal moves (R152 to R156): RAM to Wnd, Wns and WREG to RAM, and the two literals; a byte
literal keeps bits 15:8 and the initialisation flag. -/
def Obligations.FileAndLiteralMoves : Prop :=
  ∀ (s : State) (n : Reg) (f lit : Word) (g : BitVec 13) (sz : Size) (b : Byte),
    (AccessOk .word f s →
      (Answers (exec (.movFWnd f n) s) fun t =>
        t.reg n = regMask n (ramRead s .word f) ∧ t.isInit n = true ∧ t.pc = s.pc + 2) ∧
      (Answers (exec (.movWnsF n f) s) fun t => ramRead t .word f = s.reg n ∧ t.pc = s.pc + 2)) ∧
    (AccessOk sz (g.setWidth 16) s →
      Answers (exec (.movWregF sz g) s) fun t =>
        ramRead t sz (g.setWidth 16) = sized sz (s.reg wreg) ∧ t.pc = s.pc + 2) ∧
    (Answers (exec (.movLit16 lit n) s) fun t => t.reg n = regMask n lit ∧ t.isInit n = true ∧ t.pc = s.pc + 2) ∧
    (Answers (exec (.movLit8 b n) s) fun t =>
      t.reg n = regMask n (joinBytes b (highByte (s.reg n))) ∧ t.isInit n = s.isInit n ∧ t.pc = s.pc + 2)

/-- MOV.D from RAM or a register pair to a pair (R157): the word at the lower address to the even register; a pointer
that is modified steps by 4, unless it is in the pair. An odd register is refused, as destination or as a direct
source, whatever the pointer holds (the model's choice, notes/assumptions/45.md). -/
def Obligations.MovDLoadsAPair : Prop :=
  ∀ (s : State) (src : Opnd) (nd : Reg),
    (oddReg nd = true ∨ (isDirect src = true ∧ oddReg src.reg = true) →
      exec (.movDLoad src nd) s = .refused .movDOddRegister) ∧
    (oddReg nd = false → ∀ n : Reg, src = .direct n → oddReg n = false →
      Answers (exec (.movDLoad src nd) s) fun t =>
        t.reg nd = s.reg n ∧ t.reg (pairHigh nd) = regMask (pairHigh nd) (s.reg (pairHigh n)) ∧ t.pc = s.pc + 2) ∧
    (oddReg nd = false → isDirect src = false → PointerOk src 4 true s →
      (usesSp src = true → StackOk (eaOf src 4 s + 2) false s ∧ (eaOf src 4 s).toNat + 2 < 0x10000) →
      AccessOk .word (eaOf src 4 s) s → AccessOk .word (eaOf src 4 s + 2) s →
      Answers (exec (.movDLoad src nd) s) fun t =>
        t.reg nd = ramRead s .word (eaOf src 4 s) ∧
        t.reg (pairHigh nd) = regMask (pairHigh nd) (ramRead s .word (eaOf src 4 s + 2)) ∧
        SteppedPast 4 src nd s t ∧ t.pc = s.pc + 2)

/-- MOV.D from a pair to RAM or a pair (R158): the even register to the lower address; a pointer that is modified
steps by 4. An odd register is refused, as source or as a direct destination, whatever the pointer holds (the model's
choice, notes/assumptions/45.md). What `[++Wn]` leaves is notes/assumptions/12.md. -/
def Obligations.MovDStoresAPair : Prop :=
  ∀ (s : State) (ns : Reg) (dst : Opnd),
    (oddReg ns = true ∨ (isDirect dst = true ∧ oddReg dst.reg = true) →
      exec (.movDStore ns dst) s = .refused .movDOddRegister) ∧
    (oddReg ns = false → ∀ n : Reg, dst = .direct n → oddReg n = false →
      Answers (exec (.movDStore ns dst) s) fun t =>
        t.reg n = s.reg ns ∧ t.reg (pairHigh n) = regMask (pairHigh n) (s.reg (pairHigh ns)) ∧ t.pc = s.pc + 2) ∧
    (oddReg ns = false → isDirect dst = false → PointerOk dst 4 false s →
      (usesSp dst = true → StackOk (eaOf dst 4 s + 2) false s ∧ (eaOf dst 4 s).toNat + 2 < 0x10000) →
      AccessOk .word (eaOf dst 4 s) s → AccessOk .word (eaOf dst 4 s + 2) s →
      Answers (exec (.movDStore ns dst) s) fun t =>
        ramRead t .word (eaOf dst 4 s) = s.reg ns ∧ ramRead t .word (eaOf dst 4 s + 2) = s.reg (pairHigh ns) ∧
        (modifies dst = true → t.reg dst.reg = regMask dst.reg (dstUpdOf dst 4 s)) ∧ t.pc = s.pc + 2)

/-- PUSH stores its operand at W15, which rises by 2 (R98, R171); POP reads the word at W15 - 2, to which W15 falls
(R99, R172), and writes its operand after that; POP W15 keeps the popped word. -/
def Obligations.PushAndPop : Prop :=
  ∀ (s : State) (op : Opnd),
    (modifies op = false ∨ op.reg ≠ sp → s.isInit sp = true → OperandOk .word op s → SlotOk (s.reg sp) 0 s →
      Answers (exec (.push op) s) fun t =>
        ramRead t .word (s.reg sp) = operandValue .word op s ∧ t.reg sp = s.reg sp + 2 ∧ t.pc = s.pc + 2) ∧
    (modifies op = false ∨ op.reg ≠ sp → s.isInit sp = true → TopOk (s.reg sp) 1 s →
      DestOk .word op (s.putW sp (s.reg sp - 2)) →
      Answers (exec (.pop op) s) fun t =>
        Took .word op (eaOf op 2 (s.putW sp (s.reg sp - 2))) (stackWord (s.reg sp) 1 s) s t ∧
        (op ≠ .direct sp → t.reg sp = s.reg sp - 2) ∧ t.pc = s.pc + 2)

/-- PUSH.S copies W0 to W3 and the five flags to the shadows (R175); POP.S copies them back, as word writes, and
leaves IPL<2:0>, RA and the shadows (R176, D19); both go on at the next address. That POP.S initialises W0 to W3 is
the spec's decision D19 (notes/assumptions/39.md). -/
def Obligations.ShadowsCopyBothWays : Prop :=
  ∀ s : State,
    (Answers (exec .pushS s) fun t =>
      (∀ k : Fin 4, t.wsh.get k = s.reg ⟨k.val, by omega⟩) ∧ t.srsh = s.sr.flags ∧ t.w = s.w ∧ t.winit = s.winit ∧
      t.mem = s.mem ∧ t.sr = s.sr ∧ t.pc = s.pc + 2) ∧
    (Answers (exec .popS s) fun t =>
      (∀ k : Fin 4, t.reg ⟨k.val, by omega⟩ = s.wsh.get k ∧ t.isInit ⟨k.val, by omega⟩ = true) ∧
      t.sr.flags = s.srsh ∧ t.sr.ipl = s.sr.ipl ∧ t.sr.ra = s.sr.ra ∧ t.wsh = s.wsh ∧ t.srsh = s.srsh ∧
      t.pc = s.pc + 2)

/-- LNK pushes W14, makes W14 the frame pointer and allocates the literal's bytes; an odd literal is refused (R177,
D31). ULNK takes W15 from W14 and pops W14 (R178). A push or pop that fails R100 raises the stack error, one that
passes it where data space has no such word the address error (R88). Their operations are general knowledge, and what
ULNK does with W14 = 0 and the latch off is DEDUCED from V41.18 (notes/assumptions/28.md). That under `runOn` the trap
is requested with the PC at the address after the instruction is the model's choice (R355; DESIGN CHOICE,
notes/assumptions/4.md). -/
def Obligations.LinkAndUnlink : Prop :=
  ∀ (s : State) (lit : BitVec 14),
    (lit.toNat % 2 = 1 → exec (.lnk lit) s = .refused .lnkOddLiteral) ∧
    (lit.toNat % 2 = 0 → SlotOk (s.reg sp) 0 s →
      Answers (exec (.lnk lit) s) fun t =>
        ramRead t .word (s.reg sp) = s.reg fp ∧ t.reg fp = s.reg sp + 2 ∧
        t.reg sp = s.reg sp + 2 + lit.setWidth 16 ∧ t.pc = s.pc + 2) ∧
    (TopOk (evenWord (s.reg fp)) 1 s →
      Answers (exec .ulnk s) fun t =>
        t.reg fp = stackWord (evenWord (s.reg fp)) 1 s ∧ t.reg sp = evenWord (s.reg fp) - 2 ∧ t.pc = s.pc + 2) ∧
    ∀ k,
      (lit.toNat % 2 = 0 → PushStops k (s.reg sp) s → RaisesTrap k 1 (.lnk lit) s) ∧
      (PopStops k (evenWord (s.reg fp)) s → RaisesTrap k 1 .ulnk s)

/-! ## Addition (42_alu_add.md) -/

/-- ADD Wb,Ws,Wd in every addressing mode over registers and RAM (R192, R193): the sum modulo 2^n goes to the
destination, the five flags are those of the exact sums, IPL<2:0> and RA are kept, and the pointers step (R90). What a
destination `[++Wn]` leaves, by R90 or by R150, is notes/assumptions/12.md. The laws R193 are the spec's own inference
from R34, R191 and R192. -/
def Obligations.AddRegisterForm : Prop :=
  ∀ (s : State) (sz : Size) (wb : Reg) (src dst : Opnd), sameTwice src dst = false →
    OperandOk sz src s → DestOk sz dst (afterSrc src (bytesOf sz) s) →
    Answers (exec (.add sz wb src dst) s) fun t =>
      (∃ r : Word, r.toNat = (operandNat sz (s.reg wb) + operandNat sz (operandValue sz src s)) % 2 ^ widthOf sz ∧
        Took sz dst (dstAddr sz src dst s) r (afterSrc src (bytesOf sz) s) t) ∧
      AddFlagsOk sz (s.reg wb) (operandValue sz src s) t.sr.flags ∧ t.sr.ipl = s.sr.ipl ∧ t.sr.ra = s.sr.ra ∧
      t.pc = s.pc + 2 ∧ Stepped sz src dst s t

/-- ADD f and ADD f,WREG wherever the file register lies (R191, R193): RAM, a W register, a special register, a device
address. The sum goes there or to WREG, the other is kept, and the five flags are those of the exact sums, on SR's own
address after the store (D32); a sum to PCL or PCH is refused (R31). The laws R193 are the spec's own inference from
R34, R191 and R192. Which special register stands where and the device's part are notes/assumptions/3.md and 30.md. -/
def Obligations.AddFileForm : Prop :=
  ∀ (s u : State) (sz : Size) (f : BitVec 13) (v : Word), FileReads sz (f.setWidth 16) s v u →
    ∃ r : Word, r.toNat = (operandNat sz (s.reg wreg) + operandNat sz v) % 2 ^ widthOf sz ∧
      (Answers (exec (.addF sz f false) s) fun t =>
        t.reg wreg = written sz wreg r (s.reg wreg) ∧ t.mem = s.mem ∧ AddFlagsOk sz (s.reg wreg) v t.sr.flags ∧
        t.sr.ipl = s.sr.ipl ∧ t.sr.ra = s.sr.ra ∧ t.pc = s.pc + 2) ∧
      (IsPcAddr (f.setWidth 16) s → exec (.addF sz f true) s = .refused .pcWrite) ∧
      (¬IsPcAddr (f.setWidth 16) s → Answers (exec (.addF sz f true) s) fun t =>
        FileStored sz (f.setWidth 16) r s t ∧ (f.toNat / 2 ≠ wreg.val → t.reg wreg = s.reg wreg) ∧
        AddFlagsOk sz (s.reg wreg) v t.sr.flags ∧
        (cpuRegAt s.dev.sfr (evenWord (f.setWidth 16)) ≠ some .sr → t.sr.ipl = s.sr.ipl) ∧
        t.sr.ra = s.sr.ra ∧ t.pc = s.pc + 2)

/-! ## Multiply and divide (43_multiply_divide.md) -/

/-- The register multiplies give the exact 32-bit product in W(nd+1):Wnd, each operand signed or unsigned as the
mnemonic says and a literal unsigned (R211 to R216), and step the pointer a source form modifies (R90); a destination
that is odd or W14 is refused (R212, R406), whatever the pointer holds (the model's choice, notes/assumptions/45.md).
The product is the spec's inference from the extension rule it quotes; the order of the mixed operands is
notes/assumptions/24.md. -/
def Obligations.MultiplyIsExact : Prop :=
  ∀ (s : State) (wb nd : Reg) (src : Opnd) (lit : BitVec 5),
    (nd.val % 2 = 1 ∨ nd = 14 →
      exec (.mulUU wb src nd) s = .refused .mulBadDest ∧ exec (.mulUULit wb lit nd) s = .refused .mulBadDest ∧
      exec (.mulUS wb src nd) s = .refused .mulBadDest ∧ exec (.mulSU wb src nd) s = .refused .mulBadDest ∧
      exec (.mulSULit wb lit nd) s = .refused .mulBadDest ∧ exec (.mulSS wb src nd) s = .refused .mulBadDest) ∧
    (nd.val % 2 = 0 → nd ≠ 14 →
      (Answers (exec (.mulUULit wb lit nd) s) fun t => (pairValue nd t).toNat = (s.reg wb).toNat * lit.toNat ∧
        t.pc = s.pc + 2) ∧
      (Answers (exec (.mulSULit wb lit nd) s) fun t => (pairValue nd t).toInt = (s.reg wb).toInt * lit.toNat ∧
        t.pc = s.pc + 2) ∧
      (OperandOk .word src s →
        (Answers (exec (.mulUU wb src nd) s) fun t =>
          (pairValue nd t).toNat = (s.reg wb).toNat * (operandValue .word src s).toNat ∧ t.pc = s.pc + 2 ∧
          SteppedPast 2 src nd s t) ∧
        (Answers (exec (.mulUS wb src nd) s) fun t =>
          (pairValue nd t).toInt = (s.reg wb).toNat * (operandValue .word src s).toInt ∧ t.pc = s.pc + 2 ∧
          SteppedPast 2 src nd s t) ∧
        (Answers (exec (.mulSU wb src nd) s) fun t =>
          (pairValue nd t).toInt = (s.reg wb).toInt * (operandValue .word src s).toNat ∧ t.pc = s.pc + 2 ∧
          SteppedPast 2 src nd s t) ∧
        (Answers (exec (.mulSS wb src nd) s) fun t =>
          (pairValue nd t).toInt = (s.reg wb).toInt * (operandValue .word src s).toInt ∧ t.pc = s.pc + 2 ∧
          SteppedPast 2 src nd s t)))

/-- MUL f (R217) wherever the file register lies: RAM, a W register, a special register, a device address. WREG times
the file register, unsigned; 32 bits to W3:W2, or in byte mode 16 bits to W2 with W3 unchanged. That the register
operand is W0 is conflict C12's choice. See notes/assumptions/24.md; which special register stands where and the
device's part are notes/assumptions/3.md and 30.md. -/
def Obligations.MultiplyFile : Prop :=
  ∀ (s u : State) (f : BitVec 13) (v : Word),
    (FileReads .word (f.setWidth 16) s v u →
      Answers (exec (.mulF .word f) s) fun t =>
        (pairValue 2 t).toNat = (s.reg wreg).toNat * v.toNat ∧ t.pc = s.pc + 2) ∧
    (FileReads .byte (f.setWidth 16) s v u →
      Answers (exec (.mulF .byte f) s) fun t =>
        (t.reg 2).toNat = (s.reg wreg).toNat % 256 * v.toNat ∧ t.reg 3 = s.reg 3 ∧ t.pc = s.pc + 2)

/-- The executions of a divide (R220, R221, R228): the first records the operands; the next ones, up to the
seventeenth, count; the last gives the quotient in W0 and the remainder in W1 (dividend = quotient * divisor +
remainder, the remainder smaller than the divisor and of the dividend's sign), where the quotient fits; DC is kept
throughout and OV until the last. Anything else is refused (R221): with no record all but RA = 1 and RCOUNT = 17; with
one all but these continuing executions, undisturbed, and the last of a divide by zero (R343). So are the divisors W0
and W1 and a 32-bit dividend in an odd register (R220). The truncation is general knowledge and the record of the
executions the spec's decision D15. That a word whose field t is not the register after Wm is refused is the model's
choice, and so is that a record is gone on with by kind and divisor value alone, also by a DIV other than the one that
began, which the prose of R221 would refuse (DESIGN CHOICE, notes/assumptions/25.md); that a bad operand is refused as
that, also outside the loop, is another (notes/assumptions/45.md). -/
def Obligations.DivideExecutions : Prop :=
  ∀ (s : State) (kind : DivKind) (t m n : Reg),
    (¬DivRegs kind m n → exec (divInstr kind m n) s = .refused .divBadOperand) ∧
    (t ≠ pairHigh m → exec (.divSD t m n) s = .refused .divBadOperand ∧ exec (.divUD t m n) s = .refused .divBadOperand) ∧
    (DivRegs kind m n →
      (s.reg n ≠ 0 → s.divGhost = none → s.sr.ra = true → s.rcount = 17 →
        Answers (exec (divInstr kind m n) s) fun t =>
          t.pc = s.pc + 2 ∧ t.event = s.event ∧ t.sr.flags.dc = s.sr.flags.dc ∧ t.sr.flags.ov = s.sr.flags.ov ∧
          ∃ g, t.divGhost = some g ∧ g.kind = kind ∧ g.done = 1 ∧ g.divisor = s.reg n ∧
            dividendInt kind g.dividend =
              (match kind with
                | .sw => (s.reg m).toInt
                | .uw => ((s.reg m).toNat : Int)
                | .sd => (pairValue m s).toInt
                | .ud => ((pairValue m s).toNat : Int)) ∧ DivIntact g n t) ∧
      (∀ g, s.divGhost = some g →
        (DivGoesOn kind g n s →
          Answers (exec (divInstr kind m n) s) fun t =>
            t.pc = s.pc + 2 ∧ t.event = s.event ∧ t.sr.flags.dc = s.sr.flags.dc ∧ t.sr.flags.ov = s.sr.flags.ov ∧
            ∃ h, t.divGhost = some h ∧ h.kind = kind ∧ h.done = g.done + 1 ∧ h.divisor = g.divisor ∧
              h.dividend = g.dividend ∧ DivIntact h n t) ∧
        (DivEnds kind g n s →
          Answers (exec (divInstr kind m n) s) fun t =>
            t.pc = s.pc + 2 ∧ t.event = s.event ∧ t.sr.flags.dc = s.sr.flags.dc ∧ t.divGhost = none ∧
            ∀ q r : Int, dividendInt kind g.dividend = q * divWordInt kind g.divisor + r →
              r.natAbs < (divWordInt kind g.divisor).natAbs →
              (r = 0 ∨ (r < 0 ↔ dividendInt kind g.dividend < 0)) →
              (match kind with
                | .sw => -32768 ≤ q ∧ q ≤ 32767
                | .sd => -32768 ≤ q ∧ q ≤ 32767
                | .uw => q ≤ 65535
                | .ud => q ≤ 65535) →
              divWordInt kind (t.reg 0) = q ∧ divWordInt kind (t.reg 1) = r) ∧
        (¬DivGoesOn kind g n s → ¬DivEnds kind g n s → exec (divInstr kind m n) s = .refused .divideMisuse)) ∧
      (s.divGhost = none → ¬(s.sr.ra = true ∧ s.rcount = 17) →
        exec (divInstr kind m n) s = .refused .divideMisuse))

/-! ## Shifts (44_shift.md) -/

/-- The single-bit shifts in every addressing mode over registers and RAM (R241, R243, R245, R247): doubled modulo
2^n, halved unsigned, halved signed toward minus infinity; C the bit shifted out, N and Z of the result, DC kept; the
pointers step (R90). What a destination `[++Wn]` leaves, by R90 or by R150, is notes/assumptions/12.md. R247 is the
spec's own inference; OV is free (notes/assumptions/22.md). -/
def Obligations.ShiftByOne : Prop :=
  ∀ (s : State) (sz : Size) (src dst : Opnd), sameTwice src dst = false →
    OperandOk sz src s → DestOk sz dst (afterSrc src (bytesOf sz) s) →
    (Answers (exec (.sl sz src dst) s) fun t =>
      ∃ r : Word, r.toNat = 2 * operandNat sz (operandValue sz src s) % 2 ^ widthOf sz ∧
        Took sz dst (dstAddr sz src dst s) r (afterSrc src (bytesOf sz) s) t ∧
        (t.sr.flags.c = true ↔ 2 ^ widthOf sz ≤ 2 * operandNat sz (operandValue sz src s)) ∧
        (t.sr.flags.z = true ↔ r.toNat = 0) ∧ (t.sr.flags.n = true ↔ 2 ^ (widthOf sz - 1) ≤ r.toNat) ∧
        t.sr.flags.dc = s.sr.flags.dc ∧ t.pc = s.pc + 2 ∧ Stepped sz src dst s t) ∧
    (Answers (exec (.lsr sz src dst) s) fun t =>
      ∃ r : Word, r.toNat = operandNat sz (operandValue sz src s) / 2 ∧
        Took sz dst (dstAddr sz src dst s) r (afterSrc src (bytesOf sz) s) t ∧
        (t.sr.flags.c = true ↔ operandNat sz (operandValue sz src s) % 2 = 1) ∧
        (t.sr.flags.z = true ↔ r.toNat = 0) ∧ t.sr.flags.n = false ∧
        t.sr.flags.dc = s.sr.flags.dc ∧ t.pc = s.pc + 2 ∧ Stepped sz src dst s t) ∧
    (Answers (exec (.asr sz src dst) s) fun t =>
      ∃ r : Word, r.toNat < 2 ^ widthOf sz ∧ signedOf sz r = signedOf sz (operandValue sz src s) / 2 ∧
        Took sz dst (dstAddr sz src dst s) r (afterSrc src (bytesOf sz) s) t ∧
        (t.sr.flags.c = true ↔ operandNat sz (operandValue sz src s) % 2 = 1) ∧
        (t.sr.flags.z = true ↔ r.toNat = 0) ∧ (t.sr.flags.n = true ↔ 2 ^ (widthOf sz - 1) ≤ r.toNat) ∧
        t.sr.flags.dc = s.sr.flags.dc ∧ t.pc = s.pc + 2 ∧ Stepped sz src dst s t)

/-- The multi-bit shifts by a literal or by a register of at most 15 (R242, R244, R246, R247): times 2^k modulo 2^16,
the unsigned and the signed quotient by 2^k rounded down; N and Z of the result, C, OV and DC kept. A register count
above 15 has no stated result and is refused (R242, R244, R246, D17). -/
def Obligations.ShiftByCount : Prop :=
  ∀ (s : State) (wb ns nd : Reg) (lit : BitVec 4),
    let Left := fun (k : Nat) (t : State) => ∃ r : Word, t.reg nd = regMask nd r ∧
      r.toNat = (s.reg wb).toNat * 2 ^ k % 65536 ∧ (t.sr.flags.z = true ↔ r = 0) ∧
      (t.sr.flags.n = true ↔ r.toInt < 0) ∧ t.sr.flags.c = s.sr.flags.c ∧ t.sr.flags.ov = s.sr.flags.ov ∧
      t.sr.flags.dc = s.sr.flags.dc ∧ t.pc = s.pc + 2
    let Logical := fun (k : Nat) (t : State) => ∃ r : Word, t.reg nd = regMask nd r ∧
      r.toNat = (s.reg wb).toNat / 2 ^ k ∧ (t.sr.flags.z = true ↔ r = 0) ∧
      (t.sr.flags.n = true ↔ r.toInt < 0) ∧ t.sr.flags.c = s.sr.flags.c ∧ t.sr.flags.ov = s.sr.flags.ov ∧
      t.sr.flags.dc = s.sr.flags.dc ∧ t.pc = s.pc + 2
    let Arith := fun (k : Nat) (t : State) => ∃ r : Word, t.reg nd = regMask nd r ∧
      r.toInt = (s.reg wb).toInt / 2 ^ k ∧ (t.sr.flags.z = true ↔ r = 0) ∧
      (t.sr.flags.n = true ↔ r.toInt < 0) ∧ t.sr.flags.c = s.sr.flags.c ∧ t.sr.flags.ov = s.sr.flags.ov ∧
      t.sr.flags.dc = s.sr.flags.dc ∧ t.pc = s.pc + 2
    Answers (exec (.slLit wb lit nd) s) (Left lit.toNat) ∧
    Answers (exec (.lsrLit wb lit nd) s) (Logical lit.toNat) ∧
    Answers (exec (.asrLit wb lit nd) s) (Arith lit.toNat) ∧
    ((s.reg ns).toNat ≤ 15 →
      Answers (exec (.slReg wb ns nd) s) (Left (s.reg ns).toNat) ∧
      Answers (exec (.lsrReg wb ns nd) s) (Logical (s.reg ns).toNat) ∧
      Answers (exec (.asrReg wb ns nd) s) (Arith (s.reg ns).toNat)) ∧
    (15 < (s.reg ns).toNat → ∀ i, i = .slReg wb ns nd ∨ i = .lsrReg wb ns nd ∨ i = .asrReg wb ns nd →
      exec i s = .refused .shiftCountOver15)

/-! ## Bits and the skip (45_bit_skip.md) -/

/-- BSET sets and BCLR clears the one bit and leaves the byte's other bits (R260 to R262), in RAM, in SR, in CORCON
and in a W register through its data address: RA and the unimplemented bits of SR stay, and IPL<2:0> under NSTDIS
(R33, R37); of CORCON PSV is set and cleared, IPL3 only cleared (R38); a W register is not initialised (R86) and
W15<0> stays 0 (R24). At every other place, a further special register or a device address, the byte read goes back
with that bit changed, and at PCL and PCH the store is refused (R31; notes/assumptions/3.md, 30.md). Which byte holds
the bit is general knowledge (notes/assumptions/6.md, 8.md). -/
def Obligations.BitSetAndClear : Prop :=
  ∀ (s : State) (f : BitVec 13) (bit : BitVec 4),
    let j := bit.toNat % 8 + if isOdd (bitAddr f bit) then 8 else 0
    let At := fun r => cpuRegAt s.dev.sfr (evenWord (bitAddr f bit)) = some r
    (AccessOk .byte (bitAddr f bit) s →
      (Answers (exec (.bset f bit) s) fun t => t.pc = s.pc + 2 ∧ ∀ k, k < 8 →
        (t.ramByte (bitAddr f bit).toNat).getLsbD k =
          (decide (k = bit.toNat % 8) || (s.ramByte (bitAddr f bit).toNat).getLsbD k)) ∧
      (Answers (exec (.bclr f bit) s) fun t => t.pc = s.pc + 2 ∧ ∀ k, k < 8 →
        (t.ramByte (bitAddr f bit).toNat).getLsbD k =
          (!decide (k = bit.toNat % 8) && (s.ramByte (bitAddr f bit).toNat).getLsbD k))) ∧
    (At .sr →
      (Answers (exec (.bset f bit) s) fun t => t.pc = s.pc + 2 ∧ ∀ k,
        (srWord t.sr).getLsbD k = ((decide (k = j) && srWritable s k) || (srWord s.sr).getLsbD k)) ∧
      (Answers (exec (.bclr f bit) s) fun t => t.pc = s.pc + 2 ∧ ∀ k,
        (srWord t.sr).getLsbD k = (!(decide (k = j) && srWritable s k) && (srWord s.sr).getLsbD k))) ∧
    (At .corcon →
      (Answers (exec (.bset f bit) s) fun t => t.pc = s.pc + 2 ∧ ∀ k,
        (corconWord t.corcon).getLsbD k = ((decide (k = j) && k == 2) || (corconWord s.corcon).getLsbD k)) ∧
      (Answers (exec (.bclr f bit) s) fun t => t.pc = s.pc + 2 ∧ ∀ k,
        (corconWord t.corcon).getLsbD k = (!decide (k = j) && (corconWord s.corcon).getLsbD k))) ∧
    (∀ n, At (.w n) →
      (Answers (exec (.bset f bit) s) fun t => t.pc = s.pc + 2 ∧ t.winit = s.winit ∧ ∀ k,
        (t.reg n).getLsbD k = (!decide (n = sp ∧ k = 0) && (decide (k = j) || (s.reg n).getLsbD k))) ∧
      (Answers (exec (.bclr f bit) s) fun t => t.pc = s.pc + 2 ∧ t.winit = s.winit ∧ ∀ k,
        (t.reg n).getLsbD k = (!decide (n = sp ∧ k = 0) && !decide (k = j) && (s.reg n).getLsbD k))) ∧
    (∀ v u, FileReads .byte (bitAddr f bit) s v u →
      (IsPcAddr (bitAddr f bit) s →
        exec (.bset f bit) s = .refused .pcWrite ∧ exec (.bclr f bit) s = .refused .pcWrite) ∧
      (¬IsPcAddr (bitAddr f bit) s →
        (Answers (exec (.bset f bit) s) fun t => t.pc = s.pc + 2 ∧
          ∃ r : Word, (∀ k, r.getLsbD k = (decide (k = bit.toNat % 8) || v.getLsbD k)) ∧
            FileStored .byte (bitAddr f bit) r s t) ∧
        (Answers (exec (.bclr f bit) s) fun t => t.pc = s.pc + 2 ∧
          ∃ r : Word, (∀ k, r.getLsbD k = (!decide (k = bit.toNat % 8) && v.getLsbD k)) ∧
            FileStored .byte (bitAddr f bit) r s t)))

/-- BTSC goes on with the next instruction where the bit is set and passes over it, one word or two, where it is clear
(R263, R264), wherever the byte lies: RAM, a W register, SR or another special register, a device address
(notes/assumptions/3.md, 30.md). A skip over a word of no row has no length and is refused (DEDUCED,
notes/assumptions/32.md); one over a word that does not exist, or that leads past the end of program space, raises the
address error (R344, D5), under `runOn` with the PC at pc + 2 (DESIGN CHOICE, notes/assumptions/4.md). -/
def Obligations.BitTestSkipsIfClear : Prop :=
  ∀ (s u : State) (f : BitVec 13) (bit : BitVec 4) (v : Word), FileReads .byte (bitAddr f bit) s v u →
    (v.getLsbD (bit.toNat % 8) = true → exec (.btsc f bit) s = .next { u with pc := s.pc + 2 }) ∧
    (v.getLsbD (bit.toNat % 8) = false →
      (progImplemented s (s.pc.toNat + 2) = false → RaisesTrap .addressError 1 (.btsc f bit) s) ∧
      ∀ w, progRead s (s.pc.toNat + 2) = some w →
        (lengthOf w = none → exec (.btsc f bit) s = .refused (.unknownOpcode .unknownOpcode)) ∧
        ∀ len, lengthOf w = some len →
          (s.pc.toNat + 2 + 2 * len < 0x800000 → Answers (exec (.btsc f bit) s) fun t =>
            t = { u with pc := t.pc } ∧ t.pc.toNat = s.pc.toNat + 2 + 2 * len) ∧
          (0x800000 ≤ s.pc.toNat + 2 + 2 * len → RaisesTrap .addressError 1 (.btsc f bit) s))

/-! ## Program flow (46_control_flow.md) -/

/-- BRA and GOTO set the PC and nothing else (R270, R271, R126); a BRA whose target lies outside the program space
raises the address error (D5). The scaling of the offset is general knowledge (notes/assumptions/6.md). That under
`runOn` the trap is requested with the PC at the address after the BRA is the model's choice (R355; DESIGN CHOICE,
notes/assumptions/4.md). -/
def Obligations.JumpsSetThePc : Prop :=
  ∀ (s : State) (off : Word) (target : PAddr),
    (s.pc.toNat % 2 = 0 → 0 ≤ (s.pc.toNat : Int) + 2 + 2 * off.toInt → (s.pc.toNat : Int) + 2 + 2 * off.toInt < 0x800000 →
      Answers (exec (.bra off) s) fun t =>
        t = { s with pc := t.pc } ∧ (t.pc.toNat : Int) = (s.pc.toNat : Int) + 2 + 2 * off.toInt) ∧
    ((s.pc.toNat : Int) + 2 + 2 * off.toInt < 0 ∨ 0x800000 ≤ (s.pc.toNat : Int) + 2 + 2 * off.toInt →
      RaisesTrap .addressError 1 (.bra off) s) ∧
    (target.toNat % 2 = 0 → exec (.goto target) s = .next { s with pc := target })

/-- CALL and RCALL push the address of the next instruction, low word first, W15 rising by 4, and go to the target
(R101, R272 to R274). A push that fails R100, the first or the second, raises the stack error, and one where data
space has no such word the address error (R272, R88), which in an RCALL comes before its target is looked at (R274); a
target of an RCALL, or the address after a call, outside the program space raises the address error (D5), and under
`runOn` a CALL at 0x7FFFFC has 0x000000 as the address after it (DESIGN CHOICE, notes/assumptions/32.md). Which
address is pushed is general knowledge (notes/assumptions/29.md). That under `runOn` the trap is requested with the PC
at pc + 4 or pc + 2, the address after the call, is the model's choice (R355; DESIGN CHOICE, notes/assumptions/4.md).
-/
def Obligations.CallsPushTheReturnAddress : Prop :=
  ∀ (s : State) (off : Word) (target : PAddr),
    (∀ k, FrameStops k s →
      (s.pc.toNat + 4 < 0x800000 → RaisesTrap k 2 (.call target) s) ∧
      (s.pc.toNat + 2 < 0x800000 → RaisesTrap k 1 (.rcall off) s)) ∧
    (SlotOk (s.reg sp) 0 s → SlotOk (s.reg sp) 1 s →
      ((s.pc.toNat : Int) + 2 + 2 * off.toInt < 0 ∨ 0x800000 ≤ (s.pc.toNat : Int) + 2 + 2 * off.toInt →
        RaisesTrap .addressError 1 (.rcall off) s)) ∧
    (0x800000 ≤ s.pc.toNat + 4 → RaisesTrap .addressError 2 (.call target) s) ∧
    (s.pc.toNat % 2 = 0 → SlotOk (s.reg sp) 0 s → SlotOk (s.reg sp) 1 s →
      (target.toNat % 2 = 0 → s.pc.toNat + 4 < 0x800000 →
        Answers (exec (.call target) s) fun t => t.pc = target ∧ t.reg sp = s.reg sp + 4 ∧
          (ramRead t .word (s.reg sp + 2)).toNat * 65536 + (ramRead t .word (s.reg sp)).toNat = s.pc.toNat + 4) ∧
      (s.pc.toNat + 2 < 0x800000 → 0 ≤ (s.pc.toNat : Int) + 2 + 2 * off.toInt →
        (s.pc.toNat : Int) + 2 + 2 * off.toInt < 0x800000 →
        Answers (exec (.rcall off) s) fun t => (t.pc.toNat : Int) = (s.pc.toNat : Int) + 2 + 2 * off.toInt ∧
          t.reg sp = s.reg sp + 4 ∧
          (ramRead t .word (s.reg sp + 2)).toNat * 65536 + (ramRead t .word (s.reg sp)).toNat = s.pc.toNat + 2))

/-- RETURN and RETLW pop the return address, high word first, W15 falling by 4; RETLW then writes its literal (R275,
R276). A pop that fails R100, the first or the second, raises the stack error, and one where data space has no such
word the address error (R88), in RETFIE too. RETLW's operands are general knowledge (notes/assumptions/28.md). That
under `runOn` the trap is requested with the PC at pc + 2, the address after the return, is the model's choice (R355;
DESIGN CHOICE, notes/assumptions/4.md). -/
def Obligations.ReturnsPopTheReturnAddress : Prop :=
  ∀ (s : State) (sz : Size) (lit : BitVec 10) (n : Reg),
    (∀ k, UnframeStops k s →
      RaisesTrap k 1 .ret s ∧ RaisesTrap k 1 (.retlw sz lit n) s ∧ RaisesTrap k 1 .retfie s) ∧
    (TopOk (s.reg sp) 1 s → TopOk (s.reg sp) 2 s →
      (Answers (exec .ret s) fun t => t.reg sp = s.reg sp - 4 ∧
        t.pc.toNat = (stackWord (s.reg sp) 1 s).toNat % 128 * 65536 + (stackWord (s.reg sp) 2 s).toNat / 2 * 2) ∧
      (Answers (exec (.retlw sz lit n) s) fun t =>
        t.reg n = written sz n (lit.setWidth 16) (if n = sp then s.reg sp - 4 else s.reg n) ∧
        (n ≠ sp → t.reg sp = s.reg sp - 4) ∧
        t.pc.toNat = (stackWord (s.reg sp) 1 s).toNat % 128 * 65536 + (stackWord (s.reg sp) 2 s).toNat / 2 * 2))

/-! ## Table reads (47_table.md) -/

/-- TBLRDL and TBLRDH over every source form and every destination in a register or RAM (R300 to R302): bits 15:0 or
the byte of them the pointer's bit 0 selects; bits 23:16, of which an odd byte reads 0; the pointers step (R90). A
register-direct source is refused (notes/assumptions/31.md), and so is test space (TBLPAG<7>, R300). What a destination
`[++Wn]` leaves, by R90 or by R150, is notes/assumptions/12.md. What a table read
returns is general knowledge (notes/assumptions/34.md). -/
def Obligations.TableReads : Prop :=
  ∀ (s : State) (sz : Size) (src dst : Opnd) (w : PWord), sameTwice src dst = false →
    (isDirect src = true → exec (.tblrdl sz src dst) s = .refused .tableDirectOperand ∧
      exec (.tblrdh sz src dst) s = .refused .tableDirectOperand) ∧
    (isDirect src = false → PointerOk src (bytesOf sz) true s → s.tblpag.getLsbD 7 = true →
      exec (.tblrdl sz src dst) s = .refused .tableTestSpace ∧ exec (.tblrdh sz src dst) s = .refused .tableTestSpace) ∧
    (isDirect src = false → PointerOk src (bytesOf sz) true s → s.tblpag.getLsbD 7 = false →
      (sz = .word → isOdd (eaOf src (bytesOf sz) s) = false) →
      progRead s (s.tblpag.toNat * 0x10000 + (eaOf src (bytesOf sz) s).toNat / 2 * 2) = some w →
      DestOk sz dst (afterSrc src (bytesOf sz) s) →
      (Answers (exec (.tblrdl sz src dst) s) fun t =>
        (∃ r : Word, Took sz dst (dstAddr sz src dst s) r (afterSrc src (bytesOf sz) s) t ∧
          (sz = .word → r.toNat = w.toNat % 65536) ∧
          (sz = .byte → r.toNat =
            if isOdd (eaOf src (bytesOf sz) s) then w.toNat / 256 % 256 else w.toNat % 256)) ∧
        t.pc = s.pc + 2 ∧ t.sr = s.sr ∧ Stepped sz src dst s t) ∧
      (Answers (exec (.tblrdh sz src dst) s) fun t =>
        (∃ r : Word, Took sz dst (dstAddr sz src dst s) r (afterSrc src (bytesOf sz) s) t ∧
          (sz = .word → r.toNat = w.toNat / 65536) ∧
          (sz = .byte → r.toNat = if isOdd (eaOf src (bytesOf sz) s) then 0 else w.toNat / 65536)) ∧
        t.pc = s.pc + 2 ∧ t.sr = s.sr ∧ Stepped sz src dst s t))

/-! ## REPEAT, NOP, DISI (48_repeat_system.md) -/

/-- REPEAT loads RCOUNT and sets RA where the count is not 0 (R311, R312); a register count that does not fit RCOUNT is
refused (D6). NOP only advances the PC (R317). DISI loads DISICNT (R319). DISI's count is notes/assumptions/28.md. -/
def Obligations.RepeatNopAndDisi : Prop :=
  ∀ (s : State) (lit : BitVec 14) (n : Reg),
    (Answers (exec (.repeatLit lit) s) fun t =>
      t.rcount.toNat = lit.toNat ∧ (t.sr.ra = true ↔ s.sr.ra = true ∨ lit ≠ 0) ∧ t.pc = s.pc + 2) ∧
    (s.dev.rcountWide = true ∨ (s.reg n).toNat < 16384 →
      Answers (exec (.repeatW n) s) fun t =>
        t.rcount = s.reg n ∧ (t.sr.ra = true ↔ s.sr.ra = true ∨ s.reg n ≠ 0) ∧ t.pc = s.pc + 2) ∧
    (s.dev.rcountWide = false → 16384 ≤ (s.reg n).toNat → exec (.repeatW n) s = .refused .repeatCountTooWide) ∧
    exec .nop s = .next { s with pc := s.pc + 2 } ∧
    exec (.disi lit) s = .next { s with disicnt := lit, pc := s.pc + 2 }

/-! ## Frames: what an instruction leaves unchanged -/

/-- The frame of the two-operand instructions MOV, PUSH, POP, ADD, SL, LSR, ASR, TBLRDL and TBLRDH, in every
addressing mode and wherever the destination lies: the registers kept but for the modified pointers and a direct
destination, every byte of memory kept outside the one store, every special register kept that the store does not land
on; no flag written by the moves and table reads, DC kept by the shifts (GK4, R92, R151, R171, R172, R192, R241, R243,
R245, R301, R302). Which flags are written is general knowledge (notes/assumptions/22.md). -/
def Obligations.TwoOperandFrame : Prop :=
  ∀ (s t : State) (sz : Size) (wb : Reg) (src dst : Opnd),
    (Completed (.mov sz src dst) s t →
      Kept (opRegs src dst) (dstStore sz src dst s) s t ∧ FlagsKept (dstStore sz src dst s) s t) ∧
    (Completed (.push src) s t →
      Kept (opRegs src (.postInc sp)) (dstStore .word src (.postInc sp) s) s t ∧
      FlagsKept (dstStore .word src (.postInc sp) s) s t) ∧
    (Completed (.pop dst) s t →
      Kept (opRegs (.preDec sp) dst) (dstStore .word (.preDec sp) dst s) s t ∧
      FlagsKept (dstStore .word (.preDec sp) dst s) s t) ∧
    (Completed (.add sz wb src dst) s t → Kept (opRegs src dst) (dstStore sz src dst s) s t) ∧
    (Completed (.sl sz src dst) s t ∨ Completed (.lsr sz src dst) s t ∨ Completed (.asr sz src dst) s t →
      Kept (opRegs src dst) (dstStore sz src dst s) s t ∧
      (misses (dstStore sz src dst s) s.dev.sfr.sr → t.sr.flags.dc = s.sr.flags.dc)) ∧
    (Completed (.tblrdl sz src dst) s t ∨ Completed (.tblrdh sz src dst) s t →
      Kept (opRegs src dst) (dstStore sz src dst s) s t ∧ FlagsKept (dstStore sz src dst s) s t)

/-- The frame of the instructions whose only destinations are registers: the listed registers change, and the pointer
a source form modifies; all of memory and every special register is kept, but for the shadows (PUSH.S) and the divide
record (R152, R155 to R157, R175, R176, R191, R213 to R217, R223 to R226, R242, R244, R246; GK4). Which flags are
written is general knowledge (notes/assumptions/22.md). -/
def Obligations.RegisterResultFrame : Prop :=
  ∀ (s t : State) (sz : Size) (f lit : Word) (g : BitVec 13) (b : Byte) (m n nd : Reg) (src : Opnd) (l5 : BitVec 5)
    (k : BitVec 4) (kind : DivKind),
    (Completed (.movFWnd f nd) s t ∨ Completed (.movLit16 lit nd) s t ∨ Completed (.movLit8 b nd) s t →
      Kept [nd] [] s t ∧ t.sr.flags = s.sr.flags) ∧
    (Completed (.movDLoad src nd) s t → Kept (srcReg src ++ [nd, pairHigh nd]) [] s t ∧ t.sr.flags = s.sr.flags) ∧
    (Completed (.mulUU m src nd) s t ∨ Completed (.mulUS m src nd) s t ∨ Completed (.mulSU m src nd) s t ∨
      Completed (.mulSS m src nd) s t → Kept (srcReg src ++ [nd, pairHigh nd]) [] s t ∧ t.sr.flags = s.sr.flags) ∧
    (Completed (.mulUULit m l5 nd) s t ∨ Completed (.mulSULit m l5 nd) s t →
      Kept [nd, pairHigh nd] [] s t ∧ t.sr.flags = s.sr.flags) ∧
    (Completed (.mulF sz g) s t → Kept (if sz = .word then [2, 3] else [2]) [] s t ∧ t.sr.flags = s.sr.flags) ∧
    (Completed (.addF sz g false) s t → Kept [wreg] [] s t) ∧
    (Completed (.slLit m k nd) s t ∨ Completed (.lsrLit m k nd) s t ∨ Completed (.asrLit m k nd) s t ∨
      Completed (.slReg m n nd) s t ∨ Completed (.lsrReg m n nd) s t ∨ Completed (.asrReg m n nd) s t →
      Kept [nd] [] s t ∧ t.sr.flags.dc = s.sr.flags.dc ∧ t.sr.flags.ov = s.sr.flags.ov ∧
      t.sr.flags.c = s.sr.flags.c) ∧
    (Completed (divInstr kind m n) s t →
      Kept [0, 1] [] s { t with divGhost := s.divGhost } ∧ t.sr.flags.dc = s.sr.flags.dc) ∧
    (Completed .pushS s t → Kept [] [] s { t with wsh := s.wsh, srsh := s.srsh } ∧ t.sr.flags = s.sr.flags) ∧
    (Completed .popS s t → Kept [0, 1, 2, 3] [] s t)

/-- The frame of the instructions that store to a fixed place: MOV Wns,f, MOV WREG,f, ADD f, BSET, BCLR and MOV.D to
memory or a pair. Wherever the store lands, everything else is kept; ADD writes the flags besides (R153, R154, R158,
R191, R261, R262; GK4). Which flags are written is general knowledge (notes/assumptions/22.md). -/
def Obligations.FileStoreFrame : Prop :=
  ∀ (s t : State) (sz : Size) (f : Word) (g : BitVec 13) (ns : Reg) (bit : BitVec 4) (dst : Opnd),
    (Completed (.movWnsF ns f) s t → Kept [] [(.word, f)] s t ∧ FlagsKept [(.word, f)] s t) ∧
    (Completed (.movWregF sz g) s t → Kept [] [(sz, g.setWidth 16)] s t ∧ FlagsKept [(sz, g.setWidth 16)] s t) ∧
    (Completed (.addF sz g true) s t → Kept [] [(sz, g.setWidth 16)] s t) ∧
    (Completed (.bset g bit) s t ∨ Completed (.bclr g bit) s t →
      Kept [] [(.byte, bitAddr g bit)] s t ∧ FlagsKept [(.byte, bitAddr g bit)] s t) ∧
    (Completed (.movDStore ns dst) s t → isDirect dst = true →
      Kept [dst.reg, pairHigh dst.reg] [] s t ∧ t.sr.flags = s.sr.flags) ∧
    (Completed (.movDStore ns dst) s t → isDirect dst = false →
      Kept (srcReg dst) [(.word, eaOf dst 4 s), (.word, eaOf dst 4 s + 2)] s t ∧
      FlagsKept [(.word, eaOf dst 4 s), (.word, eaOf dst 4 s + 2)] s t)

/-- The frame of the flow, stack and system instructions (R177, R178, R263, R270 to R277, R311, R312, R317, R319;
GK4): BRA, GOTO, BTSC and NOP change the PC only; REPEAT changes RCOUNT and RA, DISI changes DISICNT; the calls change
W15 and two stack words, the returns W15 and what they restore; LNK and ULNK change W14, W15 and LNK's one stack word.
Which flags are written is general knowledge (notes/assumptions/22.md). -/
def Obligations.FlowAndStackFrame : Prop :=
  ∀ (s t : State) (sz : Size) (off : Word) (target : PAddr) (g : BitVec 13) (bit : BitVec 4) (lit : BitVec 14)
    (l10 : BitVec 10) (n : Reg),
    (Completed (.bra off) s t ∨ Completed (.goto target) s t ∨ Completed (.btsc g bit) s t ∨ Completed .nop s t →
      Kept [] [] s t ∧ t.sr.flags = s.sr.flags) ∧
    (Completed (.repeatLit lit) s t ∨ Completed (.repeatW n) s t →
      Kept [] [] s { t with rcount := s.rcount, sr := { t.sr with ra := s.sr.ra } } ∧ t.sr.flags = s.sr.flags) ∧
    (Completed (.disi lit) s t → Kept [] [] s { t with disicnt := s.disicnt } ∧ t.sr.flags = s.sr.flags) ∧
    (Completed (.call target) s t ∨ Completed (.rcall off) s t →
      Kept [sp] [(.word, s.reg sp), (.word, s.reg sp + 2)] s t ∧
      FlagsKept [(.word, s.reg sp), (.word, s.reg sp + 2)] s t) ∧
    (Completed .ret s t → Kept [sp] [] s t ∧ t.sr.flags = s.sr.flags) ∧
    (Completed (.retlw sz l10 n) s t → Kept [sp, n] [] s t ∧ t.sr.flags = s.sr.flags) ∧
    (Completed .retfie s t →
      Kept [sp] [] s { t with sr := s.sr, corcon := s.corcon } ∧ t.sr.flags.dc = s.sr.flags.dc ∧
      t.corcon.psv = s.corcon.psv) ∧
    (Completed (.lnk lit) s t → Kept [fp, sp] [(.word, s.reg sp)] s t ∧ FlagsKept [(.word, s.reg sp)] s t) ∧
    (Completed .ulnk s t → Kept [fp, sp] [] s t ∧ t.sr.flags = s.sr.flags)

/-! ## The addressing modes -/

/-- The table of R90 in numbers, for steps of 1, 2 and 4 bytes: each indirect form's address, what it leaves in the
register, modulo 2^16, and which forms modify it; and which sums carry past 0xFFFF, [--Wn] and [Wn--] never: that a
borrow is no carry for R100 (b) is the model's reading (DEDUCED, notes/assumptions/11.md). A destination `[++Wn]`
leaves Wn + s, or Wn + 2s where the device record takes R150's line for it: that both are offered is the model's
choice (notes/assumptions/12.md). The modes `[Wn--]`, `[++Wn]` and `[Wn+Wb]` are general knowledge
(notes/assumptions/23.md). -/
def Obligations.AddressingModesFollowTheTable : Prop :=
  ∀ (s : State) (n b : Reg) (k : Nat) (r : Bool), k = 1 ∨ k = 2 ∨ k = 4 →
    let w := s.reg n
    let x := (s.reg n).toNat
    let d := BitVec.ofNat 16 k
    (eaOf (.ind n) k s = w ∧ modifies (.ind n) = false ∧ wrapsOf (.ind n) k r s = false) ∧
    (eaOf (.postInc n) k s = w ∧ modifies (.postInc n) = true ∧ updOf (.postInc n) k s = w + d ∧
      dstUpdOf (.postInc n) k s = w + d ∧ (wrapsOf (.postInc n) k r s = true ↔ 0xFFFF < x + k)) ∧
    (eaOf (.postDec n) k s = w ∧ modifies (.postDec n) = true ∧ updOf (.postDec n) k s = w - d ∧
      dstUpdOf (.postDec n) k s = w - d ∧ wrapsOf (.postDec n) k r s = false) ∧
    (eaOf (.preDec n) k s = w - d ∧ modifies (.preDec n) = true ∧ updOf (.preDec n) k s = w - d ∧
      dstUpdOf (.preDec n) k s = w - d ∧ wrapsOf (.preDec n) k r s = false) ∧
    (eaOf (.preInc n) k s = w + d ∧ modifies (.preInc n) = true ∧ updOf (.preInc n) k s = w + d ∧
      (s.dev.preIncTwice = false →
        dstUpdOf (.preInc n) k s = w + d ∧ (wrapsOf (.preInc n) k r s = true ↔ 0xFFFF < x + k)) ∧
      (s.dev.preIncTwice = true → dstUpdOf (.preInc n) k s = w + d + d ∧
        (wrapsOf (.preInc n) k false s = true ↔ 0xFFFF < x + 2 * k) ∧
        (wrapsOf (.preInc n) k true s = true ↔ 0xFFFF < x + k))) ∧
    (eaOf (.offset n b) k s = w + s.reg b ∧ modifies (.offset n b) = false ∧
      (wrapsOf (.offset n b) k r s = true ↔ 0xFFFF < x + (s.reg b).toNat)) ∧
    modifies (.direct n) = false
end

