-- ==== Sys2Proof/Laws/State.lean ====
section
/-! SUPPORT. The small lemmas of the state updates: what each leaves as it was and what it changes, one a field. -/

namespace Sys2Proof.Machine


/-! ## putW -/

@[simp] theorem State.putW_winit (s : State) (n : Reg) (v : Word) : (s.putW n v).winit = s.winit := rfl
@[simp] theorem State.putW_wsh (s : State) (n : Reg) (v : Word) : (s.putW n v).wsh = s.wsh := rfl
@[simp] theorem State.putW_srsh (s : State) (n : Reg) (v : Word) : (s.putW n v).srsh = s.srsh := rfl
@[simp] theorem State.putW_pc (s : State) (n : Reg) (v : Word) : (s.putW n v).pc = s.pc := rfl
@[simp] theorem State.putW_sr (s : State) (n : Reg) (v : Word) : (s.putW n v).sr = s.sr := rfl
@[simp] theorem State.putW_corcon (s : State) (n : Reg) (v : Word) : (s.putW n v).corcon = s.corcon := rfl
@[simp] theorem State.putW_splim (s : State) (n : Reg) (v : Word) : (s.putW n v).splim = s.splim := rfl
@[simp] theorem State.putW_splimen (s : State) (n : Reg) (v : Word) : (s.putW n v).splimen = s.splimen := rfl
@[simp] theorem State.putW_tblpag (s : State) (n : Reg) (v : Word) : (s.putW n v).tblpag = s.tblpag := rfl
@[simp] theorem State.putW_psvpag (s : State) (n : Reg) (v : Word) : (s.putW n v).psvpag = s.psvpag := rfl
@[simp] theorem State.putW_rcount (s : State) (n : Reg) (v : Word) : (s.putW n v).rcount = s.rcount := rfl
@[simp] theorem State.putW_disicnt (s : State) (n : Reg) (v : Word) : (s.putW n v).disicnt = s.disicnt := rfl
@[simp] theorem State.putW_divGhost (s : State) (n : Reg) (v : Word) : (s.putW n v).divGhost = s.divGhost := rfl
@[simp] theorem State.putW_mem (s : State) (n : Reg) (v : Word) : (s.putW n v).mem = s.mem := rfl
@[simp] theorem State.putW_prog (s : State) (n : Reg) (v : Word) : (s.putW n v).prog = s.prog := rfl
@[simp] theorem State.putW_event (s : State) (n : Reg) (v : Word) : (s.putW n v).event = s.event := rfl
@[simp] theorem State.putW_cur (s : State) (n : Reg) (v : Word) : (s.putW n v).cur = s.cur := rfl
@[simp] theorem State.putW_prev (s : State) (n : Reg) (v : Word) : (s.putW n v).prev = s.prev := rfl
@[simp] theorem State.putW_draws (s : State) (n : Reg) (v : Word) : (s.putW n v).draws = s.draws := rfl
@[simp] theorem State.putW_ramEpoch (s : State) (n : Reg) (v : Word) : (s.putW n v).ramEpoch = s.ramEpoch := rfl
@[simp] theorem State.putW_devOut (s : State) (n : Reg) (v : Word) : (s.putW n v).devOut = s.devOut := rfl
@[simp] theorem State.putW_inputs (s : State) (n : Reg) (v : Word) : (s.putW n v).inputs = s.inputs := rfl
@[simp] theorem State.putW_delayed (s : State) (n : Reg) (v : Word) : (s.putW n v).delayed = s.delayed := rfl
@[simp] theorem State.putW_dev (s : State) (n : Reg) (v : Word) : (s.putW n v).dev = s.dev := rfl

/-! ## setW -/

@[simp] theorem State.setW_wsh (s : State) (n : Reg) (v : Word) : (s.setW n v).wsh = s.wsh := rfl
@[simp] theorem State.setW_srsh (s : State) (n : Reg) (v : Word) : (s.setW n v).srsh = s.srsh := rfl
@[simp] theorem State.setW_pc (s : State) (n : Reg) (v : Word) : (s.setW n v).pc = s.pc := rfl
@[simp] theorem State.setW_sr (s : State) (n : Reg) (v : Word) : (s.setW n v).sr = s.sr := rfl
@[simp] theorem State.setW_corcon (s : State) (n : Reg) (v : Word) : (s.setW n v).corcon = s.corcon := rfl
@[simp] theorem State.setW_splim (s : State) (n : Reg) (v : Word) : (s.setW n v).splim = s.splim := rfl
@[simp] theorem State.setW_splimen (s : State) (n : Reg) (v : Word) : (s.setW n v).splimen = s.splimen := rfl
@[simp] theorem State.setW_tblpag (s : State) (n : Reg) (v : Word) : (s.setW n v).tblpag = s.tblpag := rfl
@[simp] theorem State.setW_psvpag (s : State) (n : Reg) (v : Word) : (s.setW n v).psvpag = s.psvpag := rfl
@[simp] theorem State.setW_rcount (s : State) (n : Reg) (v : Word) : (s.setW n v).rcount = s.rcount := rfl
@[simp] theorem State.setW_disicnt (s : State) (n : Reg) (v : Word) : (s.setW n v).disicnt = s.disicnt := rfl
@[simp] theorem State.setW_divGhost (s : State) (n : Reg) (v : Word) : (s.setW n v).divGhost = s.divGhost := rfl
@[simp] theorem State.setW_mem (s : State) (n : Reg) (v : Word) : (s.setW n v).mem = s.mem := rfl
@[simp] theorem State.setW_prog (s : State) (n : Reg) (v : Word) : (s.setW n v).prog = s.prog := rfl
@[simp] theorem State.setW_event (s : State) (n : Reg) (v : Word) : (s.setW n v).event = s.event := rfl
@[simp] theorem State.setW_cur (s : State) (n : Reg) (v : Word) : (s.setW n v).cur = s.cur := rfl
@[simp] theorem State.setW_prev (s : State) (n : Reg) (v : Word) : (s.setW n v).prev = s.prev := rfl
@[simp] theorem State.setW_draws (s : State) (n : Reg) (v : Word) : (s.setW n v).draws = s.draws := rfl
@[simp] theorem State.setW_ramEpoch (s : State) (n : Reg) (v : Word) : (s.setW n v).ramEpoch = s.ramEpoch := rfl
@[simp] theorem State.setW_devOut (s : State) (n : Reg) (v : Word) : (s.setW n v).devOut = s.devOut := rfl
@[simp] theorem State.setW_inputs (s : State) (n : Reg) (v : Word) : (s.setW n v).inputs = s.inputs := rfl
@[simp] theorem State.setW_delayed (s : State) (n : Reg) (v : Word) : (s.setW n v).delayed = s.delayed := rfl
@[simp] theorem State.setW_dev (s : State) (n : Reg) (v : Word) : (s.setW n v).dev = s.dev := rfl

/-! ## setFlags -/

@[simp] theorem State.setFlags_w (s : State) (f : AluFlags) : (s.setFlags f).w = s.w := rfl
@[simp] theorem State.setFlags_winit (s : State) (f : AluFlags) : (s.setFlags f).winit = s.winit := rfl
@[simp] theorem State.setFlags_wsh (s : State) (f : AluFlags) : (s.setFlags f).wsh = s.wsh := rfl
@[simp] theorem State.setFlags_srsh (s : State) (f : AluFlags) : (s.setFlags f).srsh = s.srsh := rfl
@[simp] theorem State.setFlags_pc (s : State) (f : AluFlags) : (s.setFlags f).pc = s.pc := rfl
@[simp] theorem State.setFlags_corcon (s : State) (f : AluFlags) : (s.setFlags f).corcon = s.corcon := rfl
@[simp] theorem State.setFlags_splim (s : State) (f : AluFlags) : (s.setFlags f).splim = s.splim := rfl
@[simp] theorem State.setFlags_splimen (s : State) (f : AluFlags) : (s.setFlags f).splimen = s.splimen := rfl
@[simp] theorem State.setFlags_tblpag (s : State) (f : AluFlags) : (s.setFlags f).tblpag = s.tblpag := rfl
@[simp] theorem State.setFlags_psvpag (s : State) (f : AluFlags) : (s.setFlags f).psvpag = s.psvpag := rfl
@[simp] theorem State.setFlags_rcount (s : State) (f : AluFlags) : (s.setFlags f).rcount = s.rcount := rfl
@[simp] theorem State.setFlags_disicnt (s : State) (f : AluFlags) : (s.setFlags f).disicnt = s.disicnt := rfl
@[simp] theorem State.setFlags_divGhost (s : State) (f : AluFlags) : (s.setFlags f).divGhost = s.divGhost := rfl
@[simp] theorem State.setFlags_mem (s : State) (f : AluFlags) : (s.setFlags f).mem = s.mem := rfl
@[simp] theorem State.setFlags_prog (s : State) (f : AluFlags) : (s.setFlags f).prog = s.prog := rfl
@[simp] theorem State.setFlags_event (s : State) (f : AluFlags) : (s.setFlags f).event = s.event := rfl
@[simp] theorem State.setFlags_cur (s : State) (f : AluFlags) : (s.setFlags f).cur = s.cur := rfl
@[simp] theorem State.setFlags_prev (s : State) (f : AluFlags) : (s.setFlags f).prev = s.prev := rfl
@[simp] theorem State.setFlags_draws (s : State) (f : AluFlags) : (s.setFlags f).draws = s.draws := rfl
@[simp] theorem State.setFlags_ramEpoch (s : State) (f : AluFlags) : (s.setFlags f).ramEpoch = s.ramEpoch := rfl
@[simp] theorem State.setFlags_devOut (s : State) (f : AluFlags) : (s.setFlags f).devOut = s.devOut := rfl
@[simp] theorem State.setFlags_inputs (s : State) (f : AluFlags) : (s.setFlags f).inputs = s.inputs := rfl
@[simp] theorem State.setFlags_delayed (s : State) (f : AluFlags) : (s.setFlags f).delayed = s.delayed := rfl
@[simp] theorem State.setFlags_dev (s : State) (f : AluFlags) : (s.setFlags f).dev = s.dev := rfl

/-! ## jump -/

@[simp] theorem State.jump_w (s : State) (a : PAddr) : (s.jump a).w = s.w := rfl
@[simp] theorem State.jump_winit (s : State) (a : PAddr) : (s.jump a).winit = s.winit := rfl
@[simp] theorem State.jump_wsh (s : State) (a : PAddr) : (s.jump a).wsh = s.wsh := rfl
@[simp] theorem State.jump_srsh (s : State) (a : PAddr) : (s.jump a).srsh = s.srsh := rfl
@[simp] theorem State.jump_sr (s : State) (a : PAddr) : (s.jump a).sr = s.sr := rfl
@[simp] theorem State.jump_corcon (s : State) (a : PAddr) : (s.jump a).corcon = s.corcon := rfl
@[simp] theorem State.jump_splim (s : State) (a : PAddr) : (s.jump a).splim = s.splim := rfl
@[simp] theorem State.jump_splimen (s : State) (a : PAddr) : (s.jump a).splimen = s.splimen := rfl
@[simp] theorem State.jump_tblpag (s : State) (a : PAddr) : (s.jump a).tblpag = s.tblpag := rfl
@[simp] theorem State.jump_psvpag (s : State) (a : PAddr) : (s.jump a).psvpag = s.psvpag := rfl
@[simp] theorem State.jump_rcount (s : State) (a : PAddr) : (s.jump a).rcount = s.rcount := rfl
@[simp] theorem State.jump_disicnt (s : State) (a : PAddr) : (s.jump a).disicnt = s.disicnt := rfl
@[simp] theorem State.jump_divGhost (s : State) (a : PAddr) : (s.jump a).divGhost = s.divGhost := rfl
@[simp] theorem State.jump_mem (s : State) (a : PAddr) : (s.jump a).mem = s.mem := rfl
@[simp] theorem State.jump_prog (s : State) (a : PAddr) : (s.jump a).prog = s.prog := rfl
@[simp] theorem State.jump_event (s : State) (a : PAddr) : (s.jump a).event = s.event := rfl
@[simp] theorem State.jump_cur (s : State) (a : PAddr) : (s.jump a).cur = s.cur := rfl
@[simp] theorem State.jump_prev (s : State) (a : PAddr) : (s.jump a).prev = s.prev := rfl
@[simp] theorem State.jump_draws (s : State) (a : PAddr) : (s.jump a).draws = s.draws := rfl
@[simp] theorem State.jump_ramEpoch (s : State) (a : PAddr) : (s.jump a).ramEpoch = s.ramEpoch := rfl
@[simp] theorem State.jump_devOut (s : State) (a : PAddr) : (s.jump a).devOut = s.devOut := rfl
@[simp] theorem State.jump_inputs (s : State) (a : PAddr) : (s.jump a).inputs = s.inputs := rfl
@[simp] theorem State.jump_delayed (s : State) (a : PAddr) : (s.jump a).delayed = s.delayed := rfl
@[simp] theorem State.jump_dev (s : State) (a : PAddr) : (s.jump a).dev = s.dev := rfl

/-! ## setRamByte -/

@[simp] theorem State.setRamByte_w (s : State) (a : Nat) (b : Byte) : (s.setRamByte a b).w = s.w := rfl
@[simp] theorem State.setRamByte_winit (s : State) (a : Nat) (b : Byte) : (s.setRamByte a b).winit = s.winit := rfl
@[simp] theorem State.setRamByte_wsh (s : State) (a : Nat) (b : Byte) : (s.setRamByte a b).wsh = s.wsh := rfl
@[simp] theorem State.setRamByte_srsh (s : State) (a : Nat) (b : Byte) : (s.setRamByte a b).srsh = s.srsh := rfl
@[simp] theorem State.setRamByte_pc (s : State) (a : Nat) (b : Byte) : (s.setRamByte a b).pc = s.pc := rfl
@[simp] theorem State.setRamByte_sr (s : State) (a : Nat) (b : Byte) : (s.setRamByte a b).sr = s.sr := rfl
@[simp] theorem State.setRamByte_corcon (s : State) (a : Nat) (b : Byte) : (s.setRamByte a b).corcon = s.corcon := rfl
@[simp] theorem State.setRamByte_splim (s : State) (a : Nat) (b : Byte) : (s.setRamByte a b).splim = s.splim := rfl
@[simp] theorem State.setRamByte_splimen (s : State) (a : Nat) (b : Byte) : (s.setRamByte a b).splimen = s.splimen := rfl
@[simp] theorem State.setRamByte_tblpag (s : State) (a : Nat) (b : Byte) : (s.setRamByte a b).tblpag = s.tblpag := rfl
@[simp] theorem State.setRamByte_psvpag (s : State) (a : Nat) (b : Byte) : (s.setRamByte a b).psvpag = s.psvpag := rfl
@[simp] theorem State.setRamByte_rcount (s : State) (a : Nat) (b : Byte) : (s.setRamByte a b).rcount = s.rcount := rfl
@[simp] theorem State.setRamByte_disicnt (s : State) (a : Nat) (b : Byte) : (s.setRamByte a b).disicnt = s.disicnt := rfl
@[simp] theorem State.setRamByte_divGhost (s : State) (a : Nat) (b : Byte) : (s.setRamByte a b).divGhost = s.divGhost := rfl
@[simp] theorem State.setRamByte_prog (s : State) (a : Nat) (b : Byte) : (s.setRamByte a b).prog = s.prog := rfl
@[simp] theorem State.setRamByte_event (s : State) (a : Nat) (b : Byte) : (s.setRamByte a b).event = s.event := rfl
@[simp] theorem State.setRamByte_cur (s : State) (a : Nat) (b : Byte) : (s.setRamByte a b).cur = s.cur := rfl
@[simp] theorem State.setRamByte_prev (s : State) (a : Nat) (b : Byte) : (s.setRamByte a b).prev = s.prev := rfl
@[simp] theorem State.setRamByte_draws (s : State) (a : Nat) (b : Byte) : (s.setRamByte a b).draws = s.draws := rfl
@[simp] theorem State.setRamByte_ramEpoch (s : State) (a : Nat) (b : Byte) : (s.setRamByte a b).ramEpoch = s.ramEpoch := rfl
@[simp] theorem State.setRamByte_devOut (s : State) (a : Nat) (b : Byte) : (s.setRamByte a b).devOut = s.devOut := rfl
@[simp] theorem State.setRamByte_inputs (s : State) (a : Nat) (b : Byte) : (s.setRamByte a b).inputs = s.inputs := rfl
@[simp] theorem State.setRamByte_delayed (s : State) (a : Nat) (b : Byte) : (s.setRamByte a b).delayed = s.delayed := rfl
@[simp] theorem State.setRamByte_dev (s : State) (a : Nat) (b : Byte) : (s.setRamByte a b).dev = s.dev := rfl

/-! ## advance -/

@[simp] theorem advance_w (s : State) (k : Nat) : (advance k s).w = s.w := rfl
@[simp] theorem advance_winit (s : State) (k : Nat) : (advance k s).winit = s.winit := rfl
@[simp] theorem advance_wsh (s : State) (k : Nat) : (advance k s).wsh = s.wsh := rfl
@[simp] theorem advance_srsh (s : State) (k : Nat) : (advance k s).srsh = s.srsh := rfl
@[simp] theorem advance_sr (s : State) (k : Nat) : (advance k s).sr = s.sr := rfl
@[simp] theorem advance_corcon (s : State) (k : Nat) : (advance k s).corcon = s.corcon := rfl
@[simp] theorem advance_splim (s : State) (k : Nat) : (advance k s).splim = s.splim := rfl
@[simp] theorem advance_splimen (s : State) (k : Nat) : (advance k s).splimen = s.splimen := rfl
@[simp] theorem advance_tblpag (s : State) (k : Nat) : (advance k s).tblpag = s.tblpag := rfl
@[simp] theorem advance_psvpag (s : State) (k : Nat) : (advance k s).psvpag = s.psvpag := rfl
@[simp] theorem advance_rcount (s : State) (k : Nat) : (advance k s).rcount = s.rcount := rfl
@[simp] theorem advance_disicnt (s : State) (k : Nat) : (advance k s).disicnt = s.disicnt := rfl
@[simp] theorem advance_divGhost (s : State) (k : Nat) : (advance k s).divGhost = s.divGhost := rfl
@[simp] theorem advance_mem (s : State) (k : Nat) : (advance k s).mem = s.mem := rfl
@[simp] theorem advance_prog (s : State) (k : Nat) : (advance k s).prog = s.prog := rfl
@[simp] theorem advance_event (s : State) (k : Nat) : (advance k s).event = s.event := rfl
@[simp] theorem advance_cur (s : State) (k : Nat) : (advance k s).cur = s.cur := rfl
@[simp] theorem advance_prev (s : State) (k : Nat) : (advance k s).prev = s.prev := rfl
@[simp] theorem advance_draws (s : State) (k : Nat) : (advance k s).draws = s.draws := rfl
@[simp] theorem advance_ramEpoch (s : State) (k : Nat) : (advance k s).ramEpoch = s.ramEpoch := rfl
@[simp] theorem advance_devOut (s : State) (k : Nat) : (advance k s).devOut = s.devOut := rfl
@[simp] theorem advance_inputs (s : State) (k : Nat) : (advance k s).inputs = s.inputs := rfl
@[simp] theorem advance_delayed (s : State) (k : Nat) : (advance k s).delayed = s.delayed := rfl
@[simp] theorem advance_dev (s : State) (k : Nat) : (advance k s).dev = s.dev := rfl

/-! ## startLoop -/

@[simp] theorem startLoop_w (s : State) (c : Word) : (startLoop c s).w = s.w := rfl
@[simp] theorem startLoop_winit (s : State) (c : Word) : (startLoop c s).winit = s.winit := rfl
@[simp] theorem startLoop_wsh (s : State) (c : Word) : (startLoop c s).wsh = s.wsh := rfl
@[simp] theorem startLoop_srsh (s : State) (c : Word) : (startLoop c s).srsh = s.srsh := rfl
@[simp] theorem startLoop_pc (s : State) (c : Word) : (startLoop c s).pc = s.pc := rfl
@[simp] theorem startLoop_corcon (s : State) (c : Word) : (startLoop c s).corcon = s.corcon := rfl
@[simp] theorem startLoop_splim (s : State) (c : Word) : (startLoop c s).splim = s.splim := rfl
@[simp] theorem startLoop_splimen (s : State) (c : Word) : (startLoop c s).splimen = s.splimen := rfl
@[simp] theorem startLoop_tblpag (s : State) (c : Word) : (startLoop c s).tblpag = s.tblpag := rfl
@[simp] theorem startLoop_psvpag (s : State) (c : Word) : (startLoop c s).psvpag = s.psvpag := rfl
@[simp] theorem startLoop_disicnt (s : State) (c : Word) : (startLoop c s).disicnt = s.disicnt := rfl
@[simp] theorem startLoop_divGhost (s : State) (c : Word) : (startLoop c s).divGhost = s.divGhost := rfl
@[simp] theorem startLoop_mem (s : State) (c : Word) : (startLoop c s).mem = s.mem := rfl
@[simp] theorem startLoop_prog (s : State) (c : Word) : (startLoop c s).prog = s.prog := rfl
@[simp] theorem startLoop_event (s : State) (c : Word) : (startLoop c s).event = s.event := rfl
@[simp] theorem startLoop_cur (s : State) (c : Word) : (startLoop c s).cur = s.cur := rfl
@[simp] theorem startLoop_prev (s : State) (c : Word) : (startLoop c s).prev = s.prev := rfl
@[simp] theorem startLoop_draws (s : State) (c : Word) : (startLoop c s).draws = s.draws := rfl
@[simp] theorem startLoop_ramEpoch (s : State) (c : Word) : (startLoop c s).ramEpoch = s.ramEpoch := rfl
@[simp] theorem startLoop_devOut (s : State) (c : Word) : (startLoop c s).devOut = s.devOut := rfl
@[simp] theorem startLoop_inputs (s : State) (c : Word) : (startLoop c s).inputs = s.inputs := rfl
@[simp] theorem startLoop_delayed (s : State) (c : Word) : (startLoop c s).delayed = s.delayed := rfl
@[simp] theorem startLoop_dev (s : State) (c : Word) : (startLoop c s).dev = s.dev := rfl

/-! ## startPass -/

@[simp] theorem startPass_w (s : State) : (startPass s).w = s.w := rfl
@[simp] theorem startPass_winit (s : State) : (startPass s).winit = s.winit := rfl
@[simp] theorem startPass_wsh (s : State) : (startPass s).wsh = s.wsh := rfl
@[simp] theorem startPass_srsh (s : State) : (startPass s).srsh = s.srsh := rfl
@[simp] theorem startPass_pc (s : State) : (startPass s).pc = s.pc := rfl
@[simp] theorem startPass_corcon (s : State) : (startPass s).corcon = s.corcon := rfl
@[simp] theorem startPass_splim (s : State) : (startPass s).splim = s.splim := rfl
@[simp] theorem startPass_splimen (s : State) : (startPass s).splimen = s.splimen := rfl
@[simp] theorem startPass_tblpag (s : State) : (startPass s).tblpag = s.tblpag := rfl
@[simp] theorem startPass_psvpag (s : State) : (startPass s).psvpag = s.psvpag := rfl
@[simp] theorem startPass_rcount (s : State) : (startPass s).rcount = s.rcount := rfl
@[simp] theorem startPass_disicnt (s : State) : (startPass s).disicnt = s.disicnt := rfl
@[simp] theorem startPass_divGhost (s : State) : (startPass s).divGhost = s.divGhost := rfl
@[simp] theorem startPass_mem (s : State) : (startPass s).mem = s.mem := rfl
@[simp] theorem startPass_prog (s : State) : (startPass s).prog = s.prog := rfl
@[simp] theorem startPass_prev (s : State) : (startPass s).prev = s.prev := rfl
@[simp] theorem startPass_draws (s : State) : (startPass s).draws = s.draws := rfl
@[simp] theorem startPass_ramEpoch (s : State) : (startPass s).ramEpoch = s.ramEpoch := rfl
@[simp] theorem startPass_devOut (s : State) : (startPass s).devOut = s.devOut := rfl
@[simp] theorem startPass_inputs (s : State) : (startPass s).inputs = s.inputs := rfl
@[simp] theorem startPass_delayed (s : State) : (startPass s).delayed = s.delayed := rfl
@[simp] theorem startPass_dev (s : State) : (startPass s).dev = s.dev := rfl

/-! ## setLevel -/

@[simp] theorem setLevel_w (s : State) (p : BitVec 4) : (setLevel p s).w = s.w := rfl
@[simp] theorem setLevel_winit (s : State) (p : BitVec 4) : (setLevel p s).winit = s.winit := rfl
@[simp] theorem setLevel_wsh (s : State) (p : BitVec 4) : (setLevel p s).wsh = s.wsh := rfl
@[simp] theorem setLevel_srsh (s : State) (p : BitVec 4) : (setLevel p s).srsh = s.srsh := rfl
@[simp] theorem setLevel_pc (s : State) (p : BitVec 4) : (setLevel p s).pc = s.pc := rfl
@[simp] theorem setLevel_splim (s : State) (p : BitVec 4) : (setLevel p s).splim = s.splim := rfl
@[simp] theorem setLevel_splimen (s : State) (p : BitVec 4) : (setLevel p s).splimen = s.splimen := rfl
@[simp] theorem setLevel_tblpag (s : State) (p : BitVec 4) : (setLevel p s).tblpag = s.tblpag := rfl
@[simp] theorem setLevel_psvpag (s : State) (p : BitVec 4) : (setLevel p s).psvpag = s.psvpag := rfl
@[simp] theorem setLevel_rcount (s : State) (p : BitVec 4) : (setLevel p s).rcount = s.rcount := rfl
@[simp] theorem setLevel_disicnt (s : State) (p : BitVec 4) : (setLevel p s).disicnt = s.disicnt := rfl
@[simp] theorem setLevel_divGhost (s : State) (p : BitVec 4) : (setLevel p s).divGhost = s.divGhost := rfl
@[simp] theorem setLevel_mem (s : State) (p : BitVec 4) : (setLevel p s).mem = s.mem := rfl
@[simp] theorem setLevel_prog (s : State) (p : BitVec 4) : (setLevel p s).prog = s.prog := rfl
@[simp] theorem setLevel_event (s : State) (p : BitVec 4) : (setLevel p s).event = s.event := rfl
@[simp] theorem setLevel_cur (s : State) (p : BitVec 4) : (setLevel p s).cur = s.cur := rfl
@[simp] theorem setLevel_prev (s : State) (p : BitVec 4) : (setLevel p s).prev = s.prev := rfl
@[simp] theorem setLevel_draws (s : State) (p : BitVec 4) : (setLevel p s).draws = s.draws := rfl
@[simp] theorem setLevel_ramEpoch (s : State) (p : BitVec 4) : (setLevel p s).ramEpoch = s.ramEpoch := rfl
@[simp] theorem setLevel_devOut (s : State) (p : BitVec 4) : (setLevel p s).devOut = s.devOut := rfl
@[simp] theorem setLevel_inputs (s : State) (p : BitVec 4) : (setLevel p s).inputs = s.inputs := rfl
@[simp] theorem setLevel_delayed (s : State) (p : BitVec 4) : (setLevel p s).delayed = s.delayed := rfl
@[simp] theorem setLevel_dev (s : State) (p : BitVec 4) : (setLevel p s).dev = s.dev := rfl

/-! ## restoreFrame -/

@[simp] theorem restoreFrame_w (s : State) (hi lo : Word) : (restoreFrame hi lo s).w = s.w := rfl
@[simp] theorem restoreFrame_winit (s : State) (hi lo : Word) : (restoreFrame hi lo s).winit = s.winit := rfl
@[simp] theorem restoreFrame_wsh (s : State) (hi lo : Word) : (restoreFrame hi lo s).wsh = s.wsh := rfl
@[simp] theorem restoreFrame_srsh (s : State) (hi lo : Word) : (restoreFrame hi lo s).srsh = s.srsh := rfl
@[simp] theorem restoreFrame_splim (s : State) (hi lo : Word) : (restoreFrame hi lo s).splim = s.splim := rfl
@[simp] theorem restoreFrame_splimen (s : State) (hi lo : Word) : (restoreFrame hi lo s).splimen = s.splimen := rfl
@[simp] theorem restoreFrame_tblpag (s : State) (hi lo : Word) : (restoreFrame hi lo s).tblpag = s.tblpag := rfl
@[simp] theorem restoreFrame_psvpag (s : State) (hi lo : Word) : (restoreFrame hi lo s).psvpag = s.psvpag := rfl
@[simp] theorem restoreFrame_rcount (s : State) (hi lo : Word) : (restoreFrame hi lo s).rcount = s.rcount := rfl
@[simp] theorem restoreFrame_disicnt (s : State) (hi lo : Word) : (restoreFrame hi lo s).disicnt = s.disicnt := rfl
@[simp] theorem restoreFrame_divGhost (s : State) (hi lo : Word) : (restoreFrame hi lo s).divGhost = s.divGhost := rfl
@[simp] theorem restoreFrame_mem (s : State) (hi lo : Word) : (restoreFrame hi lo s).mem = s.mem := rfl
@[simp] theorem restoreFrame_prog (s : State) (hi lo : Word) : (restoreFrame hi lo s).prog = s.prog := rfl
@[simp] theorem restoreFrame_event (s : State) (hi lo : Word) : (restoreFrame hi lo s).event = s.event := rfl
@[simp] theorem restoreFrame_cur (s : State) (hi lo : Word) : (restoreFrame hi lo s).cur = s.cur := rfl
@[simp] theorem restoreFrame_prev (s : State) (hi lo : Word) : (restoreFrame hi lo s).prev = s.prev := rfl
@[simp] theorem restoreFrame_draws (s : State) (hi lo : Word) : (restoreFrame hi lo s).draws = s.draws := rfl
@[simp] theorem restoreFrame_ramEpoch (s : State) (hi lo : Word) : (restoreFrame hi lo s).ramEpoch = s.ramEpoch := rfl
@[simp] theorem restoreFrame_devOut (s : State) (hi lo : Word) : (restoreFrame hi lo s).devOut = s.devOut := rfl
@[simp] theorem restoreFrame_inputs (s : State) (hi lo : Word) : (restoreFrame hi lo s).inputs = s.inputs := rfl
@[simp] theorem restoreFrame_delayed (s : State) (hi lo : Word) : (restoreFrame hi lo s).delayed = s.delayed := rfl
@[simp] theorem restoreFrame_dev (s : State) (hi lo : Word) : (restoreFrame hi lo s).dev = s.dev := rfl

/-! ## leaveTrace -/

@[simp] theorem leaveTrace_w (s : State) (i : Instr) (u : State) : (leaveTrace i u s).w = s.w := rfl
@[simp] theorem leaveTrace_winit (s : State) (i : Instr) (u : State) : (leaveTrace i u s).winit = s.winit := rfl
@[simp] theorem leaveTrace_wsh (s : State) (i : Instr) (u : State) : (leaveTrace i u s).wsh = s.wsh := rfl
@[simp] theorem leaveTrace_srsh (s : State) (i : Instr) (u : State) : (leaveTrace i u s).srsh = s.srsh := rfl
@[simp] theorem leaveTrace_pc (s : State) (i : Instr) (u : State) : (leaveTrace i u s).pc = s.pc := rfl
@[simp] theorem leaveTrace_sr (s : State) (i : Instr) (u : State) : (leaveTrace i u s).sr = s.sr := rfl
@[simp] theorem leaveTrace_corcon (s : State) (i : Instr) (u : State) : (leaveTrace i u s).corcon = s.corcon := rfl
@[simp] theorem leaveTrace_splim (s : State) (i : Instr) (u : State) : (leaveTrace i u s).splim = s.splim := rfl
@[simp] theorem leaveTrace_splimen (s : State) (i : Instr) (u : State) : (leaveTrace i u s).splimen = s.splimen := rfl
@[simp] theorem leaveTrace_tblpag (s : State) (i : Instr) (u : State) : (leaveTrace i u s).tblpag = s.tblpag := rfl
@[simp] theorem leaveTrace_psvpag (s : State) (i : Instr) (u : State) : (leaveTrace i u s).psvpag = s.psvpag := rfl
@[simp] theorem leaveTrace_rcount (s : State) (i : Instr) (u : State) : (leaveTrace i u s).rcount = s.rcount := rfl
@[simp] theorem leaveTrace_disicnt (s : State) (i : Instr) (u : State) : (leaveTrace i u s).disicnt = s.disicnt := rfl
@[simp] theorem leaveTrace_divGhost (s : State) (i : Instr) (u : State) : (leaveTrace i u s).divGhost = s.divGhost := rfl
@[simp] theorem leaveTrace_mem (s : State) (i : Instr) (u : State) : (leaveTrace i u s).mem = s.mem := rfl
@[simp] theorem leaveTrace_prog (s : State) (i : Instr) (u : State) : (leaveTrace i u s).prog = s.prog := rfl
@[simp] theorem leaveTrace_event (s : State) (i : Instr) (u : State) : (leaveTrace i u s).event = s.event := rfl
@[simp] theorem leaveTrace_draws (s : State) (i : Instr) (u : State) : (leaveTrace i u s).draws = s.draws := rfl
@[simp] theorem leaveTrace_ramEpoch (s : State) (i : Instr) (u : State) : (leaveTrace i u s).ramEpoch = s.ramEpoch := rfl
@[simp] theorem leaveTrace_devOut (s : State) (i : Instr) (u : State) : (leaveTrace i u s).devOut = s.devOut := rfl
@[simp] theorem leaveTrace_inputs (s : State) (i : Instr) (u : State) : (leaveTrace i u s).inputs = s.inputs := rfl
@[simp] theorem leaveTrace_delayed (s : State) (i : Instr) (u : State) : (leaveTrace i u s).delayed = s.delayed := rfl
@[simp] theorem leaveTrace_dev (s : State) (i : Instr) (u : State) : (leaveTrace i u s).dev = s.dev := rfl

/-! ## scramble -/

@[simp] theorem scramble_wsh (s : State) (g : DivGhost) : (scramble g s).wsh = s.wsh := rfl
@[simp] theorem scramble_srsh (s : State) (g : DivGhost) : (scramble g s).srsh = s.srsh := rfl
@[simp] theorem scramble_pc (s : State) (g : DivGhost) : (scramble g s).pc = s.pc := rfl
@[simp] theorem scramble_corcon (s : State) (g : DivGhost) : (scramble g s).corcon = s.corcon := rfl
@[simp] theorem scramble_splim (s : State) (g : DivGhost) : (scramble g s).splim = s.splim := rfl
@[simp] theorem scramble_splimen (s : State) (g : DivGhost) : (scramble g s).splimen = s.splimen := rfl
@[simp] theorem scramble_tblpag (s : State) (g : DivGhost) : (scramble g s).tblpag = s.tblpag := rfl
@[simp] theorem scramble_psvpag (s : State) (g : DivGhost) : (scramble g s).psvpag = s.psvpag := rfl
@[simp] theorem scramble_rcount (s : State) (g : DivGhost) : (scramble g s).rcount = s.rcount := rfl
@[simp] theorem scramble_disicnt (s : State) (g : DivGhost) : (scramble g s).disicnt = s.disicnt := rfl
@[simp] theorem scramble_mem (s : State) (g : DivGhost) : (scramble g s).mem = s.mem := rfl
@[simp] theorem scramble_prog (s : State) (g : DivGhost) : (scramble g s).prog = s.prog := rfl
@[simp] theorem scramble_event (s : State) (g : DivGhost) : (scramble g s).event = s.event := rfl
@[simp] theorem scramble_cur (s : State) (g : DivGhost) : (scramble g s).cur = s.cur := rfl
@[simp] theorem scramble_prev (s : State) (g : DivGhost) : (scramble g s).prev = s.prev := rfl
@[simp] theorem scramble_ramEpoch (s : State) (g : DivGhost) : (scramble g s).ramEpoch = s.ramEpoch := rfl
@[simp] theorem scramble_devOut (s : State) (g : DivGhost) : (scramble g s).devOut = s.devOut := rfl
@[simp] theorem scramble_inputs (s : State) (g : DivGhost) : (scramble g s).inputs = s.inputs := rfl
@[simp] theorem scramble_delayed (s : State) (g : DivGhost) : (scramble g s).delayed = s.delayed := rfl
@[simp] theorem scramble_dev (s : State) (g : DivGhost) : (scramble g s).dev = s.dev := rfl

/-! ## shiftFlags -/

@[simp] theorem shiftFlags_w (s : State) (r : Word) : (shiftFlags r s).w = s.w := rfl
@[simp] theorem shiftFlags_winit (s : State) (r : Word) : (shiftFlags r s).winit = s.winit := rfl
@[simp] theorem shiftFlags_wsh (s : State) (r : Word) : (shiftFlags r s).wsh = s.wsh := rfl
@[simp] theorem shiftFlags_srsh (s : State) (r : Word) : (shiftFlags r s).srsh = s.srsh := rfl
@[simp] theorem shiftFlags_pc (s : State) (r : Word) : (shiftFlags r s).pc = s.pc := rfl
@[simp] theorem shiftFlags_corcon (s : State) (r : Word) : (shiftFlags r s).corcon = s.corcon := rfl
@[simp] theorem shiftFlags_splim (s : State) (r : Word) : (shiftFlags r s).splim = s.splim := rfl
@[simp] theorem shiftFlags_splimen (s : State) (r : Word) : (shiftFlags r s).splimen = s.splimen := rfl
@[simp] theorem shiftFlags_tblpag (s : State) (r : Word) : (shiftFlags r s).tblpag = s.tblpag := rfl
@[simp] theorem shiftFlags_psvpag (s : State) (r : Word) : (shiftFlags r s).psvpag = s.psvpag := rfl
@[simp] theorem shiftFlags_rcount (s : State) (r : Word) : (shiftFlags r s).rcount = s.rcount := rfl
@[simp] theorem shiftFlags_disicnt (s : State) (r : Word) : (shiftFlags r s).disicnt = s.disicnt := rfl
@[simp] theorem shiftFlags_divGhost (s : State) (r : Word) : (shiftFlags r s).divGhost = s.divGhost := rfl
@[simp] theorem shiftFlags_mem (s : State) (r : Word) : (shiftFlags r s).mem = s.mem := rfl
@[simp] theorem shiftFlags_prog (s : State) (r : Word) : (shiftFlags r s).prog = s.prog := rfl
@[simp] theorem shiftFlags_event (s : State) (r : Word) : (shiftFlags r s).event = s.event := rfl
@[simp] theorem shiftFlags_cur (s : State) (r : Word) : (shiftFlags r s).cur = s.cur := rfl
@[simp] theorem shiftFlags_prev (s : State) (r : Word) : (shiftFlags r s).prev = s.prev := rfl
@[simp] theorem shiftFlags_draws (s : State) (r : Word) : (shiftFlags r s).draws = s.draws := rfl
@[simp] theorem shiftFlags_ramEpoch (s : State) (r : Word) : (shiftFlags r s).ramEpoch = s.ramEpoch := rfl
@[simp] theorem shiftFlags_devOut (s : State) (r : Word) : (shiftFlags r s).devOut = s.devOut := rfl
@[simp] theorem shiftFlags_inputs (s : State) (r : Word) : (shiftFlags r s).inputs = s.inputs := rfl
@[simp] theorem shiftFlags_delayed (s : State) (r : Word) : (shiftFlags r s).delayed = s.delayed := rfl
@[simp] theorem shiftFlags_dev (s : State) (r : Word) : (shiftFlags r s).dev = s.dev := rfl

/-! ## shift1Flags -/

@[simp] theorem shift1Flags_w (s : State) (sz : Size) (b : Bool) (r : Word) : (shift1Flags sz b r s).w = s.w := rfl
@[simp] theorem shift1Flags_winit (s : State) (sz : Size) (b : Bool) (r : Word) : (shift1Flags sz b r s).winit = s.winit := rfl
@[simp] theorem shift1Flags_wsh (s : State) (sz : Size) (b : Bool) (r : Word) : (shift1Flags sz b r s).wsh = s.wsh := rfl
@[simp] theorem shift1Flags_srsh (s : State) (sz : Size) (b : Bool) (r : Word) : (shift1Flags sz b r s).srsh = s.srsh := rfl
@[simp] theorem shift1Flags_pc (s : State) (sz : Size) (b : Bool) (r : Word) : (shift1Flags sz b r s).pc = s.pc := rfl
@[simp] theorem shift1Flags_corcon (s : State) (sz : Size) (b : Bool) (r : Word) : (shift1Flags sz b r s).corcon = s.corcon := rfl
@[simp] theorem shift1Flags_splim (s : State) (sz : Size) (b : Bool) (r : Word) : (shift1Flags sz b r s).splim = s.splim := rfl
@[simp] theorem shift1Flags_splimen (s : State) (sz : Size) (b : Bool) (r : Word) : (shift1Flags sz b r s).splimen = s.splimen := rfl
@[simp] theorem shift1Flags_tblpag (s : State) (sz : Size) (b : Bool) (r : Word) : (shift1Flags sz b r s).tblpag = s.tblpag := rfl
@[simp] theorem shift1Flags_psvpag (s : State) (sz : Size) (b : Bool) (r : Word) : (shift1Flags sz b r s).psvpag = s.psvpag := rfl
@[simp] theorem shift1Flags_rcount (s : State) (sz : Size) (b : Bool) (r : Word) : (shift1Flags sz b r s).rcount = s.rcount := rfl
@[simp] theorem shift1Flags_disicnt (s : State) (sz : Size) (b : Bool) (r : Word) : (shift1Flags sz b r s).disicnt = s.disicnt := rfl
@[simp] theorem shift1Flags_divGhost (s : State) (sz : Size) (b : Bool) (r : Word) : (shift1Flags sz b r s).divGhost = s.divGhost := rfl
@[simp] theorem shift1Flags_mem (s : State) (sz : Size) (b : Bool) (r : Word) : (shift1Flags sz b r s).mem = s.mem := rfl
@[simp] theorem shift1Flags_prog (s : State) (sz : Size) (b : Bool) (r : Word) : (shift1Flags sz b r s).prog = s.prog := rfl
@[simp] theorem shift1Flags_event (s : State) (sz : Size) (b : Bool) (r : Word) : (shift1Flags sz b r s).event = s.event := rfl
@[simp] theorem shift1Flags_cur (s : State) (sz : Size) (b : Bool) (r : Word) : (shift1Flags sz b r s).cur = s.cur := rfl
@[simp] theorem shift1Flags_prev (s : State) (sz : Size) (b : Bool) (r : Word) : (shift1Flags sz b r s).prev = s.prev := rfl
@[simp] theorem shift1Flags_ramEpoch (s : State) (sz : Size) (b : Bool) (r : Word) : (shift1Flags sz b r s).ramEpoch = s.ramEpoch := rfl
@[simp] theorem shift1Flags_devOut (s : State) (sz : Size) (b : Bool) (r : Word) : (shift1Flags sz b r s).devOut = s.devOut := rfl
@[simp] theorem shift1Flags_inputs (s : State) (sz : Size) (b : Bool) (r : Word) : (shift1Flags sz b r s).inputs = s.inputs := rfl
@[simp] theorem shift1Flags_delayed (s : State) (sz : Size) (b : Bool) (r : Word) : (shift1Flags sz b r s).delayed = s.delayed := rfl
@[simp] theorem shift1Flags_dev (s : State) (sz : Size) (b : Bool) (r : Word) : (shift1Flags sz b r s).dev = s.dev := rfl

@[simp] theorem State.backToTarget_w (s : State) (a : Word) : (s.backToTarget a).w = s.w := rfl
@[simp] theorem State.backToTarget_winit (s : State) (a : Word) : (s.backToTarget a).winit = s.winit := rfl
@[simp] theorem State.backToTarget_wsh (s : State) (a : Word) : (s.backToTarget a).wsh = s.wsh := rfl
@[simp] theorem State.backToTarget_srsh (s : State) (a : Word) : (s.backToTarget a).srsh = s.srsh := rfl
@[simp] theorem State.backToTarget_pc (s : State) (a : Word) : (s.backToTarget a).pc = s.pc := rfl
@[simp] theorem State.backToTarget_sr (s : State) (a : Word) : (s.backToTarget a).sr = s.sr := rfl
@[simp] theorem State.backToTarget_corcon (s : State) (a : Word) : (s.backToTarget a).corcon = s.corcon := rfl
@[simp] theorem State.backToTarget_splim (s : State) (a : Word) : (s.backToTarget a).splim = s.splim := rfl
@[simp] theorem State.backToTarget_splimen (s : State) (a : Word) : (s.backToTarget a).splimen = s.splimen := rfl
@[simp] theorem State.backToTarget_tblpag (s : State) (a : Word) : (s.backToTarget a).tblpag = s.tblpag := rfl
@[simp] theorem State.backToTarget_psvpag (s : State) (a : Word) : (s.backToTarget a).psvpag = s.psvpag := rfl
@[simp] theorem State.backToTarget_rcount (s : State) (a : Word) : (s.backToTarget a).rcount = s.rcount := rfl
@[simp] theorem State.backToTarget_disicnt (s : State) (a : Word) : (s.backToTarget a).disicnt = s.disicnt := rfl
@[simp] theorem State.backToTarget_divGhost (s : State) (a : Word) : (s.backToTarget a).divGhost = s.divGhost := rfl
@[simp] theorem State.backToTarget_mem (s : State) (a : Word) : (s.backToTarget a).mem = s.mem := rfl
@[simp] theorem State.backToTarget_prog (s : State) (a : Word) : (s.backToTarget a).prog = s.prog := rfl
@[simp] theorem State.backToTarget_event (s : State) (a : Word) : (s.backToTarget a).event = s.event := rfl
@[simp] theorem State.backToTarget_prev (s : State) (a : Word) : (s.backToTarget a).prev = s.prev := rfl
@[simp] theorem State.backToTarget_draws (s : State) (a : Word) : (s.backToTarget a).draws = s.draws := rfl
@[simp] theorem State.backToTarget_ramEpoch (s : State) (a : Word) : (s.backToTarget a).ramEpoch = s.ramEpoch := rfl
@[simp] theorem State.backToTarget_devOut (s : State) (a : Word) : (s.backToTarget a).devOut = s.devOut := rfl
@[simp] theorem State.backToTarget_inputs (s : State) (a : Word) : (s.backToTarget a).inputs = s.inputs := rfl
@[simp] theorem State.backToTarget_dev (s : State) (a : Word) : (s.backToTarget a).dev = s.dev := rfl

/-! ## What changes -/

@[simp] theorem State.setFlags_sr (s : State) (f : AluFlags) : (s.setFlags f).sr = { s.sr with flags := f } := rfl
@[simp] theorem State.jump_pc (s : State) (a : PAddr) : (s.jump a).pc = a := rfl
@[simp] theorem State.setRamByte_mem (s : State) (a : Nat) (b : Byte) :
    (s.setRamByte a b).mem = insertAt s.mem a b := rfl
@[simp] theorem advance_pc (s : State) (k : Nat) : (advance k s).pc = nextPc s k := rfl
@[simp] theorem startLoop_rcount (s : State) (c : Word) : (startLoop c s).rcount = c := rfl
@[simp] theorem startLoop_sr (s : State) (c : Word) :
    (startLoop c s).sr = { s.sr with ra := s.sr.ra || c != 0 } := rfl
@[simp] theorem startPass_event (s : State) : (startPass s).event = none := rfl
@[simp] theorem startPass_cur (s : State) : (startPass s).cur = ⟨false, 0, false, false⟩ := rfl
@[simp] theorem startPass_sr (s : State) : (startPass s).sr = { s.sr with ra := loopActive s } := rfl
@[simp] theorem restoreFrame_pc (s : State) (hi lo : Word) : (restoreFrame hi lo s).pc = poppedAddr hi lo := rfl
@[simp] theorem restoreFrame_sr (s : State) (hi lo : Word) :
    (restoreFrame hi lo s).sr = srRestored s.sr (highByte hi) := rfl
@[simp] theorem restoreFrame_corcon (s : State) (hi lo : Word) :
    (restoreFrame hi lo s).corcon = { s.corcon with ipl3 := hi.getLsbD 7 } := rfl
@[simp] theorem State.backToTarget_cur (s : State) (a : Word) :
    (s.backToTarget a).cur = { s.cur with toTarget := findAt s.delayed a.toNat = some s.pc } := rfl
@[simp] theorem State.backToTarget_delayed (s : State) (a : Word) :
    (s.backToTarget a).delayed = dropFrame a s.delayed := rfl

/-! ## Registers -/

@[simp] theorem State.reg_putW (s : State) (n m : Reg) (v : Word) :
    (s.putW n v).reg m = if n = m then regMask n v else s.reg m := by
  simp only [State.reg, State.putW, Vector.get_eq_getElem, Vector.getElem_set, Fin.val_inj]

@[simp] theorem State.isInit_putW (s : State) (n m : Reg) (v : Word) : (s.putW n v).isInit m = s.isInit m := rfl

@[simp] theorem State.reg_setW (s : State) (n m : Reg) (v : Word) :
    (s.setW n v).reg m = if n = m then regMask n v else s.reg m := State.reg_putW s n m v

@[simp] theorem State.isInit_setW (s : State) (n m : Reg) (v : Word) :
    (s.setW n v).isInit m = if n = m then true else s.isInit m := by
  simp only [State.isInit, State.setW, Vector.get_eq_getElem, Vector.getElem_set, Fin.val_inj]

/-- The register reads and the byte reads of RAM look at the register array and at memory alone. -/
theorem State.reg_congr {s t : State} (h : t.w = s.w) (n : Reg) : t.reg n = s.reg n := by
  simp only [State.reg, h]

theorem State.isInit_congr {s t : State} (h : t.winit = s.winit) (n : Reg) : t.isInit n = s.isInit n := by
  simp only [State.isInit, h]

theorem State.ramByte_congr {s t : State} (h : t.mem = s.mem) (he : t.ramEpoch = s.ramEpoch) (a : Nat) :
    t.ramByte a = s.ramByte a := by
  simp only [State.ramByte, h, he]

@[simp] theorem State.setFlags_reg (s : State) (f : AluFlags) (m : Reg) : (s.setFlags f).reg m = s.reg m := rfl
@[simp] theorem State.setFlags_isInit (s : State) (f : AluFlags) (m : Reg) : (s.setFlags f).isInit m = s.isInit m := rfl
@[simp] theorem State.setFlags_ramByte (s : State) (f : AluFlags) (b : Nat) : (s.setFlags f).ramByte b = s.ramByte b := rfl
@[simp] theorem State.jump_reg (s : State) (a : PAddr) (m : Reg) : (s.jump a).reg m = s.reg m := rfl
@[simp] theorem State.jump_isInit (s : State) (a : PAddr) (m : Reg) : (s.jump a).isInit m = s.isInit m := rfl
@[simp] theorem State.backToTarget_reg (s : State) (a : Word) (m : Reg) : (s.backToTarget a).reg m = s.reg m := rfl
@[simp] theorem State.backToTarget_isInit (s : State) (a : Word) (m : Reg) :
    (s.backToTarget a).isInit m = s.isInit m := rfl
@[simp] theorem State.backToTarget_ramByte (s : State) (a : Word) (b : Nat) :
    (s.backToTarget a).ramByte b = s.ramByte b := rfl
@[simp] theorem State.jump_ramByte (s : State) (a : PAddr) (b : Nat) : (s.jump a).ramByte b = s.ramByte b := rfl
@[simp] theorem State.putW_ramByte (s : State) (n : Reg) (v : Word) (b : Nat) : (s.putW n v).ramByte b = s.ramByte b := rfl
@[simp] theorem State.setW_ramByte (s : State) (n : Reg) (v : Word) (b : Nat) : (s.setW n v).ramByte b = s.ramByte b := rfl
@[simp] theorem State.setRamByte_reg (s : State) (a : Nat) (b : Byte) (m : Reg) : (s.setRamByte a b).reg m = s.reg m := rfl
@[simp] theorem State.setRamByte_isInit (s : State) (a : Nat) (b : Byte) (m : Reg) :
    (s.setRamByte a b).isInit m = s.isInit m := rfl
@[simp] theorem advance_reg (s : State) (k : Nat) (m : Reg) : (advance k s).reg m = s.reg m := rfl
@[simp] theorem advance_isInit (s : State) (k : Nat) (m : Reg) : (advance k s).isInit m = s.isInit m := rfl
@[simp] theorem advance_ramByte (s : State) (k : Nat) (b : Nat) : (advance k s).ramByte b = s.ramByte b := rfl
@[simp] theorem startLoop_reg (s : State) (c : Word) (m : Reg) : (startLoop c s).reg m = s.reg m := rfl
@[simp] theorem startLoop_isInit (s : State) (c : Word) (m : Reg) : (startLoop c s).isInit m = s.isInit m := rfl
@[simp] theorem startLoop_ramByte (s : State) (c : Word) (b : Nat) : (startLoop c s).ramByte b = s.ramByte b := rfl
@[simp] theorem startPass_reg (s : State) (m : Reg) : (startPass s).reg m = s.reg m := rfl
@[simp] theorem startPass_isInit (s : State) (m : Reg) : (startPass s).isInit m = s.isInit m := rfl
@[simp] theorem startPass_ramByte (s : State) (b : Nat) : (startPass s).ramByte b = s.ramByte b := rfl
@[simp] theorem setLevel_reg (s : State) (p : BitVec 4) (m : Reg) : (setLevel p s).reg m = s.reg m := rfl
@[simp] theorem setLevel_isInit (s : State) (p : BitVec 4) (m : Reg) : (setLevel p s).isInit m = s.isInit m := rfl
@[simp] theorem setLevel_ramByte (s : State) (p : BitVec 4) (b : Nat) : (setLevel p s).ramByte b = s.ramByte b := rfl
@[simp] theorem restoreFrame_reg (s : State) (hi lo : Word) (m : Reg) : (restoreFrame hi lo s).reg m = s.reg m := rfl
@[simp] theorem restoreFrame_isInit (s : State) (hi lo : Word) (m : Reg) : (restoreFrame hi lo s).isInit m = s.isInit m := rfl
@[simp] theorem restoreFrame_ramByte (s : State) (hi lo : Word) (b : Nat) : (restoreFrame hi lo s).ramByte b = s.ramByte b := rfl
@[simp] theorem leaveTrace_reg (s : State) (i : Instr) (u : State) (m : Reg) : (leaveTrace i u s).reg m = s.reg m := rfl
@[simp] theorem leaveTrace_isInit (s : State) (i : Instr) (u : State) (m : Reg) : (leaveTrace i u s).isInit m = s.isInit m := rfl
@[simp] theorem leaveTrace_ramByte (s : State) (i : Instr) (u : State) (b : Nat) : (leaveTrace i u s).ramByte b = s.ramByte b := rfl
@[simp] theorem shiftFlags_reg (s : State) (r : Word) (m : Reg) : (shiftFlags r s).reg m = s.reg m := rfl
@[simp] theorem shiftFlags_isInit (s : State) (r : Word) (m : Reg) : (shiftFlags r s).isInit m = s.isInit m := rfl
@[simp] theorem shiftFlags_ramByte (s : State) (r : Word) (b : Nat) : (shiftFlags r s).ramByte b = s.ramByte b := rfl
@[simp] theorem shift1Flags_reg (s : State) (sz : Size) (c : Bool) (r : Word) (m : Reg) : (shift1Flags sz c r s).reg m = s.reg m := rfl
@[simp] theorem shift1Flags_isInit (s : State) (sz : Size) (c : Bool) (r : Word) (m : Reg) : (shift1Flags sz c r s).isInit m = s.isInit m := rfl
@[simp] theorem shift1Flags_ramByte (s : State) (sz : Size) (c : Bool) (r : Word) (b : Nat) : (shift1Flags sz c r s).ramByte b = s.ramByte b := rfl

end Sys2Proof.Machine
end

