-- ==== Sys2Proof/Laws/Memory.lean ====
section
/-! SUPPORT. The address lists, the canonical form of memory, and what one data access can do. -/

namespace Sys2Proof.Machine

/-! ## Address lists -/

variable {α : Type}

theorem findAt_insertAt_self (l : List (Nat × α)) (a : Nat) (v : α) : findAt (insertAt l a v) a = some v := by
  induction l with
  | nil => simp [insertAt, findAt]
  | cons c r ih =>
    obtain ⟨b, x⟩ := c
    simp only [insertAt]
    split
    · simp [findAt]
    · split
      · simp [findAt]
      · simp [findAt, *]

theorem findAt_insertAt_ne (l : List (Nat × α)) {a b : Nat} (v : α) (h : b ≠ a) :
    findAt (insertAt l a v) b = findAt l b := by
  induction l with
  | nil => simp [insertAt, findAt, h]
  | cons c r ih =>
    obtain ⟨d, x⟩ := c
    simp only [insertAt]
    split
    · simp [findAt, h]
    · split
      · rename_i h1 h2; subst h2; simp [findAt, h]
      · simp [findAt, ih]

theorem risingFrom_mono {l : List (Nat × α)} {lo lo' : Nat} (h : risingFrom lo l = true) (hl : lo' ≤ lo) :
    risingFrom lo' l = true := by
  cases l with
  | nil => rfl
  | cons c r =>
    obtain ⟨a, x⟩ := c
    simp only [risingFrom, Bool.and_eq_true, decide_eq_true_eq] at h ⊢
    exact ⟨by omega, h.2⟩

theorem risingFrom_insertAt {l : List (Nat × α)} {lo a : Nat} {v : α} (h : risingFrom lo l = true) (ha : lo ≤ a) :
    risingFrom lo (insertAt l a v) = true := by
  induction l generalizing lo with
  | nil => simp [insertAt, risingFrom, ha]
  | cons c r ih =>
    obtain ⟨b, x⟩ := c
    simp only [risingFrom, Bool.and_eq_true, decide_eq_true_eq] at h
    simp only [insertAt]
    split
    · simp only [risingFrom, Bool.and_eq_true, decide_eq_true_eq]
      exact ⟨ha, by omega, h.2⟩
    · split
      · rename_i h1 h2; subst h2
        simp only [risingFrom, Bool.and_eq_true, decide_eq_true_eq]; exact ⟨ha, h.2⟩
      · simp only [risingFrom, Bool.and_eq_true, decide_eq_true_eq]
        exact ⟨h.1, ih h.2 (by omega)⟩

theorem risingFrom_eraseAt {l : List (Nat × α)} {lo a : Nat} (h : risingFrom lo l = true) :
    risingFrom lo (eraseAt l a) = true := by
  induction l generalizing lo with
  | nil => rfl
  | cons c r ih =>
    obtain ⟨b, x⟩ := c
    simp only [risingFrom, Bool.and_eq_true, decide_eq_true_eq] at h
    simp only [eraseAt]
    split
    · exact risingFrom_mono h.2 (by omega)
    · simp only [risingFrom, Bool.and_eq_true, decide_eq_true_eq]; exact ⟨h.1, ih h.2⟩

theorem all_insertAt {l : List (Nat × α)} {p : Nat × α → Bool} {a : Nat} {v : α} (h : l.all p = true)
    (ha : p (a, v) = true) : (insertAt l a v).all p = true := by
  induction l with
  | nil => simp [insertAt, ha]
  | cons c r ih =>
    obtain ⟨b, x⟩ := c
    simp only [List.all_cons, Bool.and_eq_true] at h
    simp only [insertAt]
    split
    · simp [ha, h]
    · split
      · simp [ha, h]
      · simp [h.1, ih h.2]

/-- Every write of one byte of RAM keeps memory canonical. -/
theorem Memory.wf_insertAt {m : List Host.Cell} {a : Nat} {b : Byte} (h : Memory.wf m = true) (h1 : 0x0800 ≤ a)
    (h2 : a < 0x10000) : Memory.wf (insertAt m a b) = true := by
  simp only [Memory.wf, Bool.and_eq_true] at h ⊢
  exact ⟨risingFrom_insertAt h.1 h1, all_insertAt h.2 (by simpa using h2)⟩

/-- Memory after reset is canonical. -/
theorem Memory.wf_reset : Memory.wf State.reset.mem = true := by decide

/-- Placing a program word keeps the words of program memory in order. -/
theorem risingFrom_progSet {p : List (Nat × PWord)} {lo a : Nat} {w : PWord} (h : risingFrom lo p = true)
    (ha : lo ≤ a) : risingFrom lo (progSet p a w) = true := by
  simp only [progSet]
  split
  · exact risingFrom_eraseAt h
  · exact risingFrom_insertAt h ha

/-! ## Bytes of RAM -/

theorem ramByte_setRamByte_self (s : State) (a : Nat) (b : Byte) : (s.setRamByte a b).ramByte a = b := by
  simp [State.ramByte, State.setRamByte, findAt_insertAt_self]

theorem ramByte_setRamByte_ne (s : State) {a c : Nat} (b : Byte) (h : c ≠ a) :
    (s.setRamByte a b).ramByte c = s.ramByte c := by
  simp [State.ramByte, State.setRamByte, findAt_insertAt_ne _ _ h]

@[simp] theorem joinBytes_low_high (v : Word) : joinBytes (lowByte v) (highByte v) = v := by
  simp only [joinBytes, lowByte, highByte]; ext i hi
  simp only [BitVec.getElem_append, BitVec.getElem_extractLsb']
  split <;> simp_all [BitVec.getLsbD_eq_getElem]

@[simp] theorem lowByte_joinBytes (lo hi : Byte) : lowByte (joinBytes lo hi) = lo := by
  simp only [joinBytes, lowByte]; ext i hi'
  simp only [BitVec.getElem_extractLsb', Nat.zero_add]
  rw [BitVec.getLsbD_append]; simp [hi', BitVec.getLsbD_eq_getElem]

@[simp] theorem highByte_joinBytes (lo hi : Byte) : highByte (joinBytes lo hi) = hi := by
  simp only [joinBytes, highByte]; ext i hi'
  simp only [BitVec.getElem_extractLsb']
  rw [BitVec.getLsbD_append]; simp [hi', BitVec.getLsbD_eq_getElem]

/-- RAM read where it was just written, at the same size. -/
theorem ramRead_ramWrite_self (s : State) (sz : Size) (a v : Word) :
    ramRead (ramWrite s sz a v) sz a = sized sz v := by
  cases sz with
  | word =>
    simp only [ramRead, ramWrite, sized, ramByte_setRamByte_self]
    rw [ramByte_setRamByte_ne _ _ (by omega), ramByte_setRamByte_self, joinBytes_low_high]
  | byte => simp [ramRead, ramWrite, sized, ramByte_setRamByte_self]

/-- A store leaves every byte it does not cover. -/
theorem ramByte_ramWrite_outside (s : State) (sz : Size) (a v : Word) {c : Nat}
    (h : c < a.toNat ∨ a.toNat + bytesOf sz ≤ c) : (ramWrite s sz a v).ramByte c = s.ramByte c := by
  cases sz with
  | word =>
    simp only [bytesOf] at h
    simp only [ramWrite]
    rw [ramByte_setRamByte_ne _ _ (by omega), ramByte_setRamByte_ne _ _ (by omega)]
  | byte =>
    simp only [bytesOf] at h
    exact ramByte_setRamByte_ne _ _ (by omega)

/-! ## One data access -/

/-- Where RAM answers, the address is a RAM address. -/
theorem region_ram {s : State} {a : Word} (h : region s a = .ram) :
    0x0800 ≤ a.toNat ∧ dataImplemented s a.toNat = true ∧ cpuRegAt s.dev.sfr (evenWord a) = none := by
  simp only [region] at h
  split at h
  · cases h
  · split at h
    · cases h
    · split at h
      · cases h
      · split at h
        · exact ⟨by omega, by assumption, by assumption⟩
        · cases h

/-- A read of RAM gives its bytes and changes nothing. -/
theorem memRead_ram {sz : Size} {a : Word} {s : State} (h : AccessOk sz a s) :
    memRead sz a s = .ok (ramRead s sz a, s) := by
  obtain ⟨h1, h2, h3⟩ := h
  simp only [memRead]
  rw [if_neg (by rintro ⟨hs, ho⟩; simp [h1 hs] at ho), h2]
  simp [h3]

/-- A write of RAM writes its bytes. -/
theorem memWrite_ram {sz : Size} {a v : Word} {s : State} (h : AccessOk sz a s) :
    memWrite sz a v s = .ok (ramWrite s sz a v) := by
  obtain ⟨h1, h2, h3⟩ := h
  simp only [memWrite]
  rw [if_neg (by rintro ⟨hs, ho⟩; simp [h1 hs] at ho), h2]
  simp [h3]

/-- All that a data read can change: the count of free values used, and the trace. -/
theorem memRead_state {sz : Size} {a v : Word} {s t : State} (h : memRead sz a s = .ok (v, t)) :
    ∃ d p, t = { s with draws := d, cur := { s.cur with psvRead := p } } := by
  simp only [memRead] at h
  split at h
  · cases h
  · split at h
    · rename_i r _
      cases r <;> simp only [readCpu, draw, Except.ok.injEq, Prod.mk.injEq] at h <;> obtain ⟨-, rfl⟩ := h <;>
        exact ⟨_, s.cur.psvRead, rfl⟩
    · simp only [draw, Except.ok.injEq, Prod.mk.injEq] at h; obtain ⟨-, rfl⟩ := h; exact ⟨_, s.cur.psvRead, rfl⟩
    · split at h
      · simp only [Except.ok.injEq, Prod.mk.injEq] at h; obtain ⟨-, rfl⟩ := h; exact ⟨s.draws, true, rfl⟩
      · cases h
    · split at h
      · simp only [Except.ok.injEq, Prod.mk.injEq] at h; obtain ⟨-, rfl⟩ := h; exact ⟨_, s.cur.psvRead, rfl⟩
      · cases h
    · cases h

/-! ## Even words and the register map -/

theorem evenWord_eq (v : Word) : evenWord v = (v >>> 1) <<< 1 := by
  unfold evenWord
  ext i hi
  interval_cases i <;> simp
theorem evenWord_toNat (v : Word) : (evenWord v).toNat = v.toNat / 2 * 2 := by
  rw [evenWord_eq, BitVec.toNat_shiftLeft, BitVec.toNat_ushiftRight, Nat.shiftLeft_eq, Nat.shiftRight_eq_div_pow]
  have := v.isLt; omega
theorem evenAddr_toNat (v : PAddr) : (evenAddr v).toNat = v.toNat / 2 * 2 := by
  have h : evenAddr v = (v >>> 1) <<< 1 := by
    unfold evenAddr
    ext i hi
    interval_cases i <;> simp
  rw [h, BitVec.toNat_shiftLeft, BitVec.toNat_ushiftRight, Nat.shiftLeft_eq, Nat.shiftRight_eq_div_pow]
  have := v.isLt; omega
theorem isOdd_eq (a : Word) : isOdd a = decide (a.toNat % 2 = 1) := by
  simp [isOdd, BitVec.getLsbD, Nat.testBit_zero]

theorem evenWord_of_even {v : Word} (h : v.toNat % 2 = 0) : evenWord v = v := by
  apply BitVec.eq_of_toNat_eq; rw [evenWord_toNat]; omega
theorem evenAddr_of_even {v : PAddr} (h : v.toNat % 2 = 0) : evenAddr v = v := by
  apply BitVec.eq_of_toNat_eq; rw [evenAddr_toNat]; omega

theorem cpuRegAt_w {m : Config.SfrMap} {c : Word} {n : Reg} (h : cpuRegAt m c = some (.w n)) : c.toNat / 2 = n.val := by
  simp only [cpuRegAt] at h
  split at h
  · cases h; rfl
  · repeat' (split at h <;> try cases h)

/-- Which address a CPU register answers at. -/
theorem cpuRegAt_addr {m : Config.SfrMap} {c : Word} {r : CpuReg} (h : cpuRegAt m c = some r) :
    match r with
    | .w n => c.toNat / 2 = n.val
    | .splim => c = m.splim
    | .pcl => c = m.pcl
    | .pch => c = m.pch
    | .tblpag => c = m.tblpag
    | .psvpag => c = m.psvpag
    | .rcount => c = m.rcount
    | .sr => c = m.sr
    | .corcon => c = m.corcon
    | .disicnt => c = m.disicnt := by
  simp only [cpuRegAt] at h
  repeat' (split at h)
  all_goals first | (cases h; done) | (cases h; first | rfl | assumption)

theorem cpuRegAt_some_w {m : Config.SfrMap} {c : Word} {r : CpuReg} (h : cpuRegAt m c = some r) (hc : ∀ n, r ≠ .w n) :
    16 ≤ c.toNat / 2 := by
  simp only [cpuRegAt] at h
  split at h
  · cases h; exact absurd rfl (hc _)
  · omega

/-! ## One data write -/

theorem misses_one {sz : Size} {a c : Word} : misses [(sz, a)] c ↔ evenWord a ≠ c := by simp [misses]

/-- What a write to a CPU register keeps. -/
theorem writeCpu_kept {r : CpuReg} {sz : Size} {odd : Bool} {a v : Word} {s t : State}
    (hr : cpuRegAt s.dev.sfr (evenWord a) = some r) (h : writeCpu r sz odd v s = .ok t) :
    Kept [] [(sz, a)] s t ∧ FlagsKept [(sz, a)] s t ∧ t.pc = s.pc ∧ t.event = s.event ∧ t.prev = s.prev ∧
      t.mem = s.mem := by
  have haddr := cpuRegAt_addr hr
  have hw : ∀ n : Reg, (∀ st ∈ [(sz, a)], st.2.toNat / 2 ≠ n.val) → r ≠ .w n := by
    intro n hn hrn
    subst hrn
    simp only [evenWord_toNat] at haddr
    have := hn _ (List.mem_singleton.2 rfl)
    simp only at this; omega
  simp only [Kept, RegsKept, SpecialsKept, MemKept, FlagsKept, misses_one, List.not_mem_nil, not_false_eq_true,
    forall_true_left]
  cases sz <;> cases r <;>
    simp only [writeCpu, putCpu, noteWordWrite, Except.map, Except.ok.injEq, reduceCtorEq] at h <;>
    subst h <;> simp only at haddr <;>
    refine ⟨⟨fun n hn => ?_, ?_, fun c _ => rfl⟩, ?_, rfl, rfl, rfl, rfl⟩
  all_goals first
    | exact ⟨rfl, rfl⟩
    | (refine ⟨?_, rfl, ?_, ?_, ?_, ?_, ?_, ?_, rfl, rfl, rfl, rfl, rfl, rfl, rfl⟩ <;>
        (intro hm; first | rfl | exact ⟨rfl, rfl, rfl⟩ | exact absurd haddr hm))
    | (intro hm; first | rfl | exact absurd haddr hm)
    | skip
  all_goals
    have hne := fun hk => hw n hn (congrArg CpuReg.w hk)
    simp only [State.reg, State.isInit, State.putW, Vector.get_eq_getElem, Vector.getElem_set, Fin.val_inj,
      if_neg hne, and_self]

/-- What a store of RAM keeps. -/
theorem ramWrite_kept (s : State) (sz : Size) (a v : Word) :
    Kept [] [(sz, a)] s (ramWrite s sz a v) ∧ FlagsKept [(sz, a)] s (ramWrite s sz a v) ∧
      (ramWrite s sz a v).pc = s.pc ∧ (ramWrite s sz a v).event = s.event ∧ (ramWrite s sz a v).prev = s.prev := by
  refine ⟨⟨?_, ?_, ?_⟩, ?_, ?_, ?_, ?_⟩
  · intro r _ _; cases sz <;> exact ⟨rfl, rfl⟩
  · cases sz <;> simp [SpecialsKept, ramWrite]
  · intro c hc
    exact ramByte_ramWrite_outside s sz a v (hc _ (List.mem_singleton.2 rfl))
  all_goals cases sz <;> simp [FlagsKept, ramWrite]

/-- What a data write keeps: everything but what stands at its address. -/
theorem memWrite_kept {sz : Size} {a v : Word} {s t : State} (h : memWrite sz a v s = .ok t) :
    Kept [] [(sz, a)] s t ∧ FlagsKept [(sz, a)] s t ∧ t.pc = s.pc ∧ t.event = s.event ∧ t.prev = s.prev := by
  simp only [memWrite] at h
  split at h
  · cases h
  · split at h
    · rename_i r hr
      have hr' : cpuRegAt s.dev.sfr (evenWord a) = some r := by
        simp only [region] at hr
        split at hr
        · cases hr; assumption
        · repeat' (split at hr <;> try cases hr)
      obtain ⟨h1, h2, h3, h4, h5, -⟩ := writeCpu_kept hr' h
      exact ⟨h1, h2, h3, h4, h5⟩
    · cases h
      refine ⟨⟨fun _ _ _ => ⟨rfl, rfl⟩, by simp [SpecialsKept], fun _ _ => rfl⟩, fun _ => rfl, rfl, rfl, rfl⟩
    · cases h
    · split at h
      · cases h; exact ramWrite_kept s sz a v
      · cases h
    · cases h

end Sys2Proof.Machine
end

