-- ==== Sys2Proof/Laws/Frame.lean ====
section
/-! SUPPORT. How the frames of Safety compose. -/

namespace Sys2Proof.Machine

theorem misses_append {S1 S2 : List (Size × Word)} {c : Word} :
    misses (S1 ++ S2) c ↔ misses S1 c ∧ misses S2 c := by
  simp only [misses, List.mem_append]
  exact ⟨fun h => ⟨fun st hs => h st (.inl hs), fun st hs => h st (.inr hs)⟩,
    fun h st hs => hs.elim (h.1 st) (h.2 st)⟩

theorem misses_mono {S1 S2 : List (Size × Word)} {c : Word} (hs : ∀ st ∈ S1, st ∈ S2) (h : misses S2 c) :
    misses S1 c := fun st h1 => h st (hs st h1)

theorem outside_append {S1 S2 : List (Size × Word)} {a : Nat} :
    outside (S1 ++ S2) a ↔ outside S1 a ∧ outside S2 a := by
  simp only [outside, List.mem_append]
  exact ⟨fun h => ⟨fun st hs => h st (.inl hs), fun st hs => h st (.inr hs)⟩,
    fun h st hs => hs.elim (h.1 st) (h.2 st)⟩

theorem Kept.refl (s : State) : Kept [] [] s s :=
  ⟨fun _ _ _ => ⟨rfl, rfl⟩, by simp [SpecialsKept], fun _ _ => rfl⟩

theorem Kept.trans {R1 R2 : List Reg} {S1 S2 : List (Size × Word)} {s t u : State} (h : Kept R1 S1 s t)
    (k : Kept R2 S2 t u) : Kept (R1 ++ R2) (S1 ++ S2) s u := by
  obtain ⟨hr, hs, hm⟩ := h
  obtain ⟨kr, ks, km⟩ := k
  refine ⟨fun r h1 h2 => ?_, ?_, fun a ha => ?_⟩
  · simp only [List.mem_append, not_or] at h1 h2
    have a1 := hr r h1.1 fun st h => h2 st (.inl h)
    have a2 := kr r h1.2 fun st h => h2 st (.inr h)
    exact ⟨a2.1.trans a1.1, a2.2.trans a1.2⟩
  · obtain ⟨h1, h2, h3, h4, h5, h6, h7, h8, h9, h10, h11, h12, h13, h14, h15⟩ := hs
    obtain ⟨k1, k2, k3, k4, k5, k6, k7, k8, k9, k10, k11, k12, k13, k14, k15⟩ := ks
    simp only [h13] at k1 k3 k4 k5 k6 k7 k8
    simp only [SpecialsKept, misses_append]
    refine ⟨fun m => (k1 m.2).trans (h1 m.1), k2.trans h2, fun m => (k3 m.2).trans (h3 m.1), fun m => ?_,
      fun m => (k5 m.2).trans (h5 m.1), fun m => (k6 m.2).trans (h6 m.1), fun m => (k7 m.2).trans (h7 m.1),
      fun m => (k8 m.2).trans (h8 m.1), k9.trans h9, k10.trans h10, k11.trans h11, k12.trans h12, k13.trans h13,
      k14.trans h14, k15.trans h15⟩
    exact ⟨(k4 m.2).1.trans (h4 m.1).1, (k4 m.2).2.1.trans (h4 m.1).2.1, (k4 m.2).2.2.trans (h4 m.1).2.2⟩
  · rw [outside_append] at ha
    exact (km a ha.2).trans (hm a ha.1)

theorem Kept.mono {R1 R2 : List Reg} {S1 S2 : List (Size × Word)} {s t : State} (h : Kept R1 S1 s t)
    (hR : ∀ r ∈ R1, r ∈ R2) (hS : ∀ st ∈ S1, st ∈ S2) : Kept R2 S2 s t := by
  obtain ⟨hr, hs, hm⟩ := h
  refine ⟨fun r h1 h2 => hr r (fun h => h1 (hR r h)) fun st h => h2 st (hS st h), ?_,
    fun a ha => hm a fun st h => ha st (hS st h)⟩
  obtain ⟨h1, h2, h3, h4, h5, h6, h7, h8, hrest⟩ := hs
  exact ⟨fun m => h1 (misses_mono hS m), h2, fun m => h3 (misses_mono hS m), fun m => h4 (misses_mono hS m),
    fun m => h5 (misses_mono hS m), fun m => h6 (misses_mono hS m), fun m => h7 (misses_mono hS m),
    fun m => h8 (misses_mono hS m), hrest⟩

theorem FlagsKept.trans {S1 S2 : List (Size × Word)} {s t u : State} (hd : t.dev = s.dev) (h : FlagsKept S1 s t)
    (k : FlagsKept S2 t u) : FlagsKept (S1 ++ S2) s u := by
  simp only [FlagsKept, misses_append, hd] at *
  exact fun m => (k m.2).trans (h m.1)

/-- A register written. -/
theorem Kept.setW (s : State) (n : Reg) (v : Word) : Kept [n] [] s (s.setW n v) := by
  refine ⟨fun r h _ => ?_, by simp [SpecialsKept], fun _ _ => rfl⟩
  have : n ≠ r := fun e => h (by simp [e])
  simp [this]

theorem Kept.putW (s : State) (n : Reg) (v : Word) : Kept [n] [] s (s.putW n v) := by
  refine ⟨fun r h _ => ?_, by simp [SpecialsKept], fun _ _ => rfl⟩
  have : n ≠ r := fun e => h (by simp [e])
  simp [this]

theorem Kept.setSized (s : State) (sz : Size) (n : Reg) (v : Word) : Kept [n] [] s (s.setSized sz n v) := by
  cases sz
  · exact Kept.setW s n v
  · exact Kept.putW s n _

/-- Only the free values used, the trace but for the mark of SPLIM, the flags and the PC differ. -/
theorem Kept.of_eq {s t : State} {d : Nat} {c : Trace} (hc : c.splimHit = s.cur.splimHit) {f : AluFlags} {p : PAddr} {e : Option Event}
    (h : t = { s with draws := d, cur := c, sr := { s.sr with flags := f }, pc := p, event := e }) :
    Kept [] [] s t := by
  subst h
  exact ⟨fun _ _ _ => ⟨rfl, rfl⟩, by simp [SpecialsKept, hc], fun _ _ => rfl⟩

end Sys2Proof.Machine
end

