-- ==== Sys2Proof/Laws/Operands.lean ====
section
/-! SUPPORT. What reading and writing an operand can do (R150), and how an instruction ends (`settle`). -/

namespace Sys2Proof.Machine

/-! ## How an instruction ends -/

@[simp] theorem settle_ok (words : Nat) (f : Footprint) (s t : State) : settle words f s (.ok t) = .next t := rfl

@[simp] theorem settle_refuse (words : Nat) (f : Footprint) (s : State) (x : Refusal) :
    settle words f s (.error (.refuse x)) = .refused x := rfl

theorem trapped_event (k : TrapKind) (words : Nat) (f : Footprint) (s : State) :
    (trapped k words f s).event = some (.trap k) := rfl

theorem deviceReset_event (c : ResetCause) (s : State) : (deviceReset c s).event = some (.reset c) := rfl

/-- An instruction whose next state has no event outstanding ran its own effect. -/
theorem settle_completed {words : Nat} {f : Footprint} {s t : State} {r : Except Stop State}
    (h : settle words f s r = .next t) (he : t.event = none) : r = .ok t := by
  unfold settle at h
  split at h
  · injection h with h; rw [h]
  · cases h
  · injection h with h; subst h; cases he
  · split at h
    · injection h with h; subst h; cases he
    · cases h

/-! ## What an operation leaves alone -/

/-- The operation changed at most the registers `R`, what the stores `S` cover, the free values used and the trace. -/
structure Quiet (R : List Reg) (S : List (Size × Word)) (s t : State) : Prop where
  kept : Kept R S s t
  flags : FlagsKept S s t
  pc : t.pc = s.pc
  event : t.event = s.event
  prev : t.prev = s.prev

theorem Kept.dev {R : List Reg} {S : List (Size × Word)} {s t : State} (h : Kept R S s t) : t.dev = s.dev :=
  h.2.1.2.2.2.2.2.2.2.2.2.2.2.2.1

theorem Quiet.refl (s : State) : Quiet [] [] s s := ⟨Kept.refl s, fun _ => rfl, rfl, rfl, rfl⟩

theorem Quiet.trans {R1 R2 : List Reg} {S1 S2 : List (Size × Word)} {s t u : State} (h : Quiet R1 S1 s t)
    (k : Quiet R2 S2 t u) : Quiet (R1 ++ R2) (S1 ++ S2) s u :=
  ⟨h.kept.trans k.kept, h.flags.trans h.kept.dev k.flags, k.pc.trans h.pc, k.event.trans h.event, k.prev.trans h.prev⟩

theorem Quiet.mono {R1 R2 : List Reg} {S1 S2 : List (Size × Word)} {s t : State} (h : Quiet R1 S1 s t)
    (hR : ∀ r ∈ R1, r ∈ R2) (hS : ∀ st ∈ S1, st ∈ S2) : Quiet R2 S2 s t :=
  ⟨h.kept.mono hR hS, fun m => h.flags (misses_mono hS m), h.pc, h.event, h.prev⟩

theorem Quiet.setW (s : State) (n : Reg) (v : Word) : Quiet [n] [] s (s.setW n v) :=
  ⟨Kept.setW s n v, fun _ => rfl, rfl, rfl, rfl⟩

theorem Quiet.putW (s : State) (n : Reg) (v : Word) : Quiet [n] [] s (s.putW n v) :=
  ⟨Kept.putW s n v, fun _ => rfl, rfl, rfl, rfl⟩

theorem Quiet.setSized (s : State) (sz : Size) (n : Reg) (v : Word) : Quiet [n] [] s (s.setSized sz n v) :=
  ⟨Kept.setSized s sz n v, fun _ => by cases sz <;> rfl, by cases sz <;> rfl, by cases sz <;> rfl, by cases sz <;> rfl⟩

theorem Quiet.draws {s t : State} {d : Nat} {p : Bool} (h : t = { s with draws := d, cur := { s.cur with psvRead := p } }) :
    Quiet [] [] s t := by
  subst h
  exact ⟨⟨fun _ _ _ => ⟨rfl, rfl⟩, by simp [SpecialsKept], fun _ _ => rfl⟩, fun _ => rfl, rfl, rfl, rfl⟩

theorem memRead_quiet {sz : Size} {a v : Word} {s t : State} (h : memRead sz a s = .ok (v, t)) : Quiet [] [] s t := by
  obtain ⟨d, c, h⟩ := memRead_state h
  exact Quiet.draws h

theorem memWrite_quiet {sz : Size} {a v : Word} {s t : State} (h : memWrite sz a v s = .ok t) :
    Quiet [] [(sz, a)] s t := by
  obtain ⟨h1, h2, h3, h4, h5⟩ := memWrite_kept h
  exact ⟨h1, h2, h3, h4, h5⟩

/-! ## The Except monad -/

theorem bind_ok {ε α β : Type} {x : Except ε α} {f : α → Except ε β} {b : β} (h : x >>= f = .ok b) :
    ∃ a, x = .ok a ∧ f a = .ok b := by
  cases x with
  | error e => cases h
  | ok a => exact ⟨a, rfl, h⟩

@[simp] theorem ok_bind {ε α β : Type} (a : α) (f : α → Except ε β) : ((Except.ok a : Except ε α) >>= f) = f a := rfl

@[simp] theorem error_bind {ε α β : Type} (e : ε) (f : α → Except ε β) :
    ((Except.error e : Except ε α) >>= f) = .error e := rfl

/-! ## The stack check and the address of a form -/

/-- The stack check changes nothing but the count of free values used. -/
theorem stackCheck_state {ea : Word} {w r : Bool} {s t : State} (h : stackCheck ea w r s = .ok t) :
    ∃ d, t = { s with draws := d } := by
  simp only [stackCheck, limitFor, draw] at h
  repeat' (split at h)
  all_goals first
    | cases h; done
    | (cases h; exact ⟨_, rfl⟩)

theorem stackCheck_ok {ea : Word} {w r : Bool} {s : State} (h : StackOk ea w s) : stackCheck ea w r s = .ok s := by
  obtain ⟨h1, h2⟩ := h
  simp only [stackCheck, if_neg (Nat.not_lt.2 h1)]
  by_cases hl : s.splimen = true
  · obtain ⟨h3, h4, h5⟩ := h2 hl
    simp [hl, h3, limitFor, h5, Nat.not_lt.2 h4]
  · simp [hl]

theorem locate_state {op : Opnd} {step : Nat} {r : Bool} {s t : State} {ea : Word}
    (h : locate op step r s = .ok (ea, t)) : ea = eaOf op step s ∧ s.isInit op.reg = true ∧ ∃ d, t = { s with draws := d } := by
  unfold locate at h
  obtain ⟨p, hp, h⟩ := bind_ok h
  obtain ⟨s1, h1, h⟩ := bind_ok h
  simp only [Except.ok.injEq, Prod.mk.injEq] at h
  obtain ⟨rfl, rfl⟩ := h
  refine ⟨rfl, ?_, ?_⟩
  · simp only [ptr] at hp; split at hp
    · assumption
    · cases hp
  · simp only [spCheck] at h1
    split at h1
    · exact stackCheck_state h1
    · cases h1; exact ⟨_, rfl⟩

theorem locate_ok {op : Opnd} {step : Nat} {r : Bool} {s : State} (h : PointerOk op step r s) :
    locate op step r s = .ok (eaOf op step s, s) := by
  obtain ⟨h1, h2⟩ := h
  simp only [locate, ptr, h1, if_true, ok_bind, spCheck]
  by_cases hsp : usesSp op = true
  · simp [hsp, stackCheck_ok (h2 hsp)]
  · simp [hsp]

/-! ## Reading an operand -/

/-- The registers after a source form. -/
def afterRead (op : Opnd) (step : Nat) (s : State) : State :=
  if modifies op then s.setW op.reg (updOf op step s) else s

@[simp] theorem afterRead_cur (op : Opnd) (step : Nat) (s : State) : (afterRead op step s).cur = s.cur := by
  simp only [afterRead]; split <;> rfl

/-- Reading an operand changes its pointer, where the form modifies it, the free values used and the trace. -/
theorem readOp_state {sz : Size} {op : Opnd} {s t : State} {v : Word} (h : readOp sz op s = .ok (v, t)) :
    ∃ d p, t = { afterRead op (bytesOf sz) s with draws := d, cur := { s.cur with psvRead := p } } := by
  unfold readOp at h
  split at h
  · rename_i hd
    simp only [Except.ok.injEq, Prod.mk.injEq] at h
    obtain ⟨-, rfl⟩ := h
    refine ⟨s.draws, s.cur.psvRead, ?_⟩
    cases op <;> simp_all [afterRead, modifies, isDirect]
  · obtain ⟨⟨ea, s1⟩, h1, h⟩ := bind_ok h
    obtain ⟨-, -, d, rfl⟩ := locate_state h1
    dsimp only at h
    split at h
    · rename_i hp
      obtain ⟨d, c, rfl⟩ := memRead_state h
      refine ⟨d, c, ?_⟩
      have hm : modifies op = true := by cases op <;> simp_all [updatesFirst, modifies]
      simp only [afterRead, hm, if_true]
      rfl
    · rename_i hp
      obtain ⟨⟨v', s2⟩, h2, h⟩ := bind_ok h
      obtain ⟨d, c, rfl⟩ := memRead_state h2
      simp only [Except.ok.injEq, Prod.mk.injEq] at h
      obtain ⟨-, rfl⟩ := h
      refine ⟨d, c, ?_⟩
      simp only [afterRead]
      split <;> rfl

theorem afterRead_quiet (op : Opnd) (step : Nat) (s : State) : Quiet (srcReg op) [] s (afterRead op step s) := by
  simp only [afterRead, srcReg]
  split
  · exact Quiet.setW s _ _
  · exact Quiet.refl s

theorem readOp_quiet {sz : Size} {op : Opnd} {s t : State} {v : Word} (h : readOp sz op s = .ok (v, t)) :
    Quiet (srcReg op) [] s t := by
  obtain ⟨d, c, rfl⟩ := readOp_state h
  refine ((afterRead_quiet op (bytesOf sz) s).trans (Quiet.draws (d := d) (p := c) ?_)).mono (by simp) (by simp)
  rw [afterRead_cur]

theorem AccessOk.congr {sz : Size} {a : Word} {s t : State} (h : AccessOk sz a s) (hd : t.dev = s.dev)
    (hc : t.corcon = s.corcon) : AccessOk sz a t := by
  obtain ⟨h1, h2, h3⟩ := h
  refine ⟨h1, ?_, ?_⟩
  · simpa [region, dataImplemented, hd, hc] using h2
  · cases sz
    · simpa [ramHolds, dataImplemented, hd] using h3
    · rfl

/-- An accessible operand reads as its value, and its pointer is updated. -/
theorem readOp_ok {sz : Size} {op : Opnd} {s : State} (h : OperandOk sz op s) :
    readOp sz op s = .ok (operandValue sz op s, afterRead op (bytesOf sz) s) := by
  unfold readOp operandValue
  by_cases hd : isDirect op = true
  · simp only [hd, if_true]
    cases op <;> simp_all [afterRead, modifies, isDirect]
  · simp only [hd]
    obtain ⟨hp, ha⟩ := h.resolve_left hd
    rw [locate_ok hp]
    simp only [ok_bind]
    by_cases hpre : updatesFirst op s = true
    · simp only [hpre, if_true]
      rw [memRead_ram (AccessOk.congr (t := s.setW op.reg (updOf op (bytesOf sz) s)) ha rfl rfl)]
      have hm : modifies op = true := by cases op <;> simp_all [updatesFirst, modifies]
      simp only [afterRead, hm, if_true]
      rfl
    · simp only [hpre, memRead_ram ha, ok_bind, afterRead, Bool.false_eq_true, if_false]

/-! ## Writing an operand -/

theorem updateDst_quiet (op : Opnd) (c : Bool) (v : Word) (s : State) :
    Quiet (srcReg op) [] s (updateDst op c v s) := by
  simp only [updateDst, srcReg]
  by_cases hm : modifies op = true
  · simp only [hm, Bool.true_and, if_true]
    split
    · exact Quiet.setW s _ _
    · exact (Quiet.refl s).mono (by simp) (by simp)
  · simp only [hm, Bool.false_and, Bool.false_eq_true, if_false]
    exact Quiet.refl s

/-- The registers a destination form may write. -/
def dstReg (op : Opnd) : List Reg := if isDirect op || modifies op then [op.reg] else []

/-- Writing an operand changes the register it names or modifies and what it stores to. -/
theorem writeOp_quiet {sz : Size} {op : Opnd} {v : Word} {s t : State} (h : writeOp sz op v s = .ok t) :
    Quiet (dstReg op) (if isDirect op then [] else [(sz, eaOf op (bytesOf sz) s)]) s t := by
  unfold writeOp at h
  split at h
  · rename_i hd
    cases h
    simp only [dstReg, hd, Bool.true_or, if_true]
    exact Quiet.setSized s sz _ v
  · rename_i hd
    obtain ⟨⟨ea, s1⟩, h1, h⟩ := bind_ok h
    obtain ⟨rfl, -, d, rfl⟩ := locate_state h1
    obtain ⟨s2, h2, h⟩ := bind_ok h
    cases h
    simp only [hd]
    refine (((Quiet.draws (d := d) (p := s.cur.psvRead) rfl).trans (memWrite_quiet h2)).trans
      (updateDst_quiet op _ _ _)).mono ?_ ?_
    · simp only [dstReg, srcReg, hd, Bool.false_or]
      split <;> simp
    · simp

theorem covers_ram {sz : Size} {op : Opnd} {a : Word} {s : State} (h : AccessOk sz a s) : covers op a = false := by
  have := (region_ram h.2.1).1
  simp only [covers, decide_eq_false_iff_not]
  have := op.reg.isLt
  omega

/-- The state after an accessible destination took a value. -/
def afterWrite (sz : Size) (op : Opnd) (v : Word) (s : State) : State :=
  if isDirect op then s.setSized sz op.reg v
  else if modifies op then (ramWrite s sz (eaOf op (bytesOf sz) s) v).setW op.reg (dstUpdOf op (bytesOf sz) s)
  else ramWrite s sz (eaOf op (bytesOf sz) s) v

theorem writeOp_ok {sz : Size} {op : Opnd} {v : Word} {s : State} (h : DestOk sz op s) :
    writeOp sz op v s = .ok (afterWrite sz op v s) := by
  unfold writeOp afterWrite
  by_cases hd : isDirect op = true
  · simp only [hd, if_true]
  · simp only [hd]
    obtain ⟨hp, ha⟩ := h.resolve_left hd
    rw [locate_ok hp]
    simp only [ok_bind, memWrite_ram ha, updateDst, covers_ram ha, Bool.not_false, Bool.and_true, Bool.false_eq_true,
      if_false]

/-! ## The result of an instruction (R85, R92) -/

theorem dominate_quiet (sz : Size) (src : Opnd) (ea old : Word) (s : State) :
    Quiet (srcReg src) [] s (dominate sz src ea old s) := by
  cases sz
  · exact (Quiet.refl s).mono (by simp) (by simp)
  · simp only [dominate]
    split
    · rename_i h
      simp only [srcReg, (Bool.and_eq_true _ _ ▸ h).1, if_true]
      exact Quiet.putW s _ _
    · exact (Quiet.refl s).mono (by simp) (by simp)

/-- Writing a result changes what `writeOp` may change, and the source's pointer at most. -/
theorem writeResult_quiet {sz : Size} {src dst : Opnd} {v : Word} {s0 s t : State}
    (h : writeResult sz src dst v s0 s = .ok t) :
    Quiet (dstReg dst ++ srcReg src) (if isDirect dst then [] else [(sz, eaOf dst (bytesOf sz) s)]) s t := by
  unfold writeResult at h
  obtain ⟨t1, h1, h⟩ := bind_ok h
  cases h
  split
  · rename_i hd
    have := writeOp_quiet h1
    rw [if_pos hd] at this
    exact this.mono (by simp +contextual) (by simp)
  · rename_i hd
    have := writeOp_quiet h1
    rw [if_neg hd] at this
    exact (this.trans (dominate_quiet sz src _ _ _)).mono (by simp) (by simp)

/-- A store to memory that is not a pointer's own address leaves the source's update. -/
theorem dominate_of_not_covers {sz : Size} {src : Opnd} {ea old : Word} {s : State} (h : covers src ea = false) :
    dominate sz src ea old s = s := by
  cases sz <;> simp [dominate, h]

/-- An accessible destination takes the result. -/
theorem writeResult_ok {sz : Size} {src dst : Opnd} {v : Word} {s0 s : State} (h : DestOk sz dst s) :
    writeResult sz src dst v s0 s = .ok (afterWrite sz dst v s) := by
  simp only [writeResult, writeOp_ok h, ok_bind]
  by_cases hd : isDirect dst = true
  · simp [hd]
  · have ha := (h.resolve_left hd).2
    simp [hd, dominate_of_not_covers (covers_ram (op := src) ha)]

/-- A result whose write stops, stops there. -/
theorem writeResult_error {sz : Size} {src dst : Opnd} {v : Word} {s0 s : State} {x : Stop}
    (h : writeOp sz dst v s = .error x) : writeResult sz src dst v s0 s = .error x := by
  simp only [writeResult, h, error_bind]

/-- A word result is written as `writeOp` writes it. -/
theorem writeResult_word (src dst : Opnd) (v : Word) (s0 s : State) :
    writeResult .word src dst v s0 s = writeOp .word dst v s := by
  unfold writeResult
  cases writeOp .word dst v s <;> simp [dominate]

/-! ## Double words -/

/-- The second check of a double-word access changes nothing but the count of free values used. -/
theorem spCheckSecond_state {op : Opnd} {ea : Word} {r : Bool} {s t : State} (h : spCheckSecond op ea r s = .ok t) :
    ∃ d, t = { s with draws := d } := by
  unfold spCheckSecond spCheck at h
  split at h
  · exact stackCheck_state h
  · cases h; exact ⟨_, rfl⟩

/-- Reading a pair changes its pointer at most. -/
theorem readPair_quiet {op : Opnd} {lo hi : Word} {s t : State} (h : readPair op s = .ok (lo, hi, t)) :
    Quiet (srcReg op) [] s t := by
  unfold readPair at h
  split at h
  · cases h; exact (Quiet.refl _).mono (by simp) (by simp)
  · obtain ⟨⟨ea, s1⟩, h1, h⟩ := bind_ok h
    obtain ⟨s2, h2, h⟩ := bind_ok h
    obtain ⟨-, -, d, rfl⟩ := locate_state h1
    obtain ⟨d2, rfl⟩ := spCheckSecond_state h2
    dsimp only at h
    have q0 : Quiet [] [] s { s with draws := d2 } := Quiet.draws (p := s.cur.psvRead) rfl
    split at h
    · rename_i hp
      obtain ⟨⟨l, s3⟩, h3, h⟩ := bind_ok h
      obtain ⟨⟨h', s4⟩, h4, h⟩ := bind_ok h
      cases h
      have hm : modifies op = true := by cases op <;> simp_all [updatesFirst, modifies]
      exact (((q0.trans (Quiet.setW _ _ _)).trans (memRead_quiet h3)).trans (memRead_quiet h4)).mono
        (by simp [srcReg, hm]) (by simp)
    · obtain ⟨⟨l, s3⟩, h3, h⟩ := bind_ok h
      obtain ⟨⟨h', s4⟩, h4, h⟩ := bind_ok h
      cases h
      have b := (q0.trans (memRead_quiet h3)).trans (memRead_quiet h4)
      split
      · rename_i hm; exact (b.trans (Quiet.setW _ _ _)).mono (by simp [srcReg, hm]) (by simp)
      · exact b.mono (by simp) (by simp)

/-- Writing a pair to memory changes its pointer at most, and the two words. -/
theorem writePair_quiet {op : Opnd} {lo hi : Word} {s t : State} (hd : isDirect op = false)
    (h : writePair op lo hi s = .ok t) :
    Quiet (srcReg op) [(.word, eaOf op 4 s), (.word, eaOf op 4 s + 2)] s t := by
  unfold writePair at h
  rw [if_neg (by simp [hd])] at h
  obtain ⟨⟨ea, s1⟩, h1, h⟩ := bind_ok h
  obtain ⟨s2, h2, h⟩ := bind_ok h
  obtain ⟨s3, h3, h⟩ := bind_ok h
  obtain ⟨s4, h4, h⟩ := bind_ok h
  cases h
  obtain ⟨rfl, -, d, rfl⟩ := locate_state h1
  obtain ⟨d2, rfl⟩ := spCheckSecond_state h2
  have q0 : Quiet [] [] s { s with draws := d2 } := Quiet.draws (p := s.cur.psvRead) rfl
  exact (((q0.trans (memWrite_quiet h3)).trans (memWrite_quiet h4)).trans (updateDst_quiet op _ _ _)).mono
    (fun r hr => by simpa using hr) (fun st hs => by simpa using hs)

end Sys2Proof.Machine
end

