-- ==== Sys2Proof/Laws/FileRegister.lean ====
section
/-! SUPPORT. What a read and a store at a file-register address answer, for every place such an address leads to. -/

namespace Sys2Proof.Machine

/-- What `FileReads` says a read gives, the read gives. -/
theorem memRead_of_fileReads {sz : Size} {a v : Word} {s u : State} (h : FileReads sz a s v u) :
    memRead sz a s = .ok (v, u) := by
  obtain ⟨ha, rfl, rfl⟩ | ⟨ho, h⟩ := h
  · exact memRead_ram ha
  · have hn : ¬(sz = .word ∧ isOdd a = true) := fun ⟨e, e'⟩ => by simp [ho e] at e'
    unfold memRead region
    rw [if_neg hn]
    split at h <;> rename_i hc
    all_goals first
      | (obtain ⟨rfl, rfl⟩ := h; simp only [hc, readCpu, draw])
      | (obtain ⟨hl, rfl, rfl⟩ := h; simp only [hc, hl, if_true, draw])

/-- A store to a CPU register writes the word that `storedWord` gives; a word store is noted besides. -/
theorem memWrite_cpu {sz : Size} {a v : Word} {s : State} {r : CpuReg} (ho : ¬(sz = .word ∧ isOdd a = true))
    (hr : cpuRegAt s.dev.sfr (evenWord a) = some r) :
    memWrite sz a v s = (putCpu r (storedWord sz a v (readCpu r s).1) s).map
      fun t => if sz = .word then noteWordWrite r t else t := by
  have h : region s a = .cpu r := by simp only [region, hr]
  unfold memWrite
  rw [if_neg ho, h]
  cases sz
  · rfl
  · show putCpu r _ s = _
    generalize hx : storedWord .byte a v (readCpu r s).1 = x
    rw [show (if isOdd a then _ else _) = x from hx]
    cases putCpu r x s <;> rfl

/-- Where `FileReads` says a read succeeds, a store is done as `FileStored` says, but for PCL and PCH; it changes
neither the PC nor RA, nor IPL<2:0> unless it lands on SR, nor a register it does not land on. -/
theorem memWrite_of_fileReads {sz : Size} {a v r : Word} {s u : State} (h : FileReads sz a s v u) :
    (IsPcAddr a s → memWrite sz a r u = .error (.refuse .pcWrite)) ∧
    (¬IsPcAddr a s → ∃ t, memWrite sz a r u = .ok t ∧ FileStored sz a r s t ∧ t.pc = s.pc ∧ t.sr.ra = s.sr.ra ∧
      (cpuRegAt s.dev.sfr (evenWord a) ≠ some .sr → t.sr.ipl = s.sr.ipl) ∧
      ∀ n : Reg, a.toNat / 2 ≠ n.val → t.reg n = s.reg n) := by
  obtain ⟨ha, rfl, rfl⟩ | ⟨ho, h⟩ := h
  · obtain ⟨hc, hl⟩ : cpuRegAt u.dev.sfr (evenWord a) = none ∧ ¬a.toNat < 0x0800 := by
      have := ha.2.1
      unfold region at this
      split at this
      · cases this
      · exact ⟨by assumption, fun hl => by simp [hl] at this⟩
    refine ⟨fun hp => by simp [IsPcAddr, hc] at hp,
      fun _ => ⟨_, memWrite_ram ha, ?_, by cases sz <;> rfl, by cases sz <;> rfl,
        fun _ => by cases sz <;> rfl, fun _ _ => by cases sz <;> rfl⟩⟩
    simpa only [FileStored, hc, hl, if_false] using ramRead_ramWrite_self u sz a r
  · have hn : ¬(sz = .word ∧ isOdd a = true) := fun ⟨e, e'⟩ => by simp [ho e] at e'
    have hand : ∀ w : Word, (w &&& 0x3FFF).toNat = w.toNat % 2 ^ 14 := fun w => by
      rw [BitVec.toNat_and]; exact Nat.and_two_pow_sub_one_eq_mod _ 14
    have hmask : ∀ w : Word, (rcountMask s.dev w).toNat = w.toNat % 2 ^ (if s.dev.rcountWide then 16 else 14) := by
      intro w
      unfold rcountMask
      cases s.dev.rcountWide
      · exact hand w
      · exact (Nat.mod_eq_of_lt w.isLt).symm
    split at h <;> rename_i hc
    case h_1 n =>
      obtain ⟨-, rfl⟩ := h
      have hna : a.toNat / 2 = n.val := by have := cpuRegAt_w hc; rw [evenWord_toNat] at this; omega
      refine ⟨fun hp => by simp [IsPcAddr, hc] at hp,
        fun _ => ⟨_, (memWrite_cpu hn hc).trans rfl, ?_, ?_, ?_, ?_, ?_⟩⟩
      · simp only [FileStored, hc]
        cases sz <;> (show (u.putW n _).reg n = _; rw [State.reg_putW, if_pos rfl]; rfl)
      · cases sz <;> rfl
      · cases sz <;> rfl
      · cases sz <;> exact fun _ => rfl
      · intro m hm
        have hnm : n ≠ m := fun e => hm (by rw [← e, hna])
        cases sz <;> (show (u.putW n _).reg m = _; rw [State.reg_putW, if_neg hnm])
    case h_3 =>
      obtain ⟨-, rfl⟩ := h
      exact ⟨fun _ => (memWrite_cpu (s := { s with draws := s.draws + 1 }) hn hc).trans rfl, fun h => absurd (.inl hc) h⟩
    case h_4 =>
      obtain ⟨-, rfl⟩ := h
      exact ⟨fun _ => (memWrite_cpu (s := { s with draws := s.draws + 1 }) hn hc).trans rfl, fun h => absurd (.inr hc) h⟩
    case h_11 =>
      obtain ⟨hl, -, rfl⟩ := h
      refine ⟨fun hp => by simp [IsPcAddr, hc] at hp,
        fun _ => ⟨{ s with draws := s.draws + 1, devOut := ⟨a, sz, sized sz r⟩ :: s.devOut }, ?_, ?_, rfl, rfl,
          fun _ => rfl, fun _ _ => rfl⟩⟩
      · unfold memWrite region
        rw [if_neg hn]
        simp only [hc, hl, if_true]
      · simp only [FileStored, hc, hl, if_true]
    all_goals
      obtain ⟨-, rfl⟩ := h
      refine ⟨fun hp => by simp [IsPcAddr, hc] at hp, fun _ => ⟨_, (memWrite_cpu hn hc).trans rfl, ?_, ?_⟩⟩
      · simp only [FileStored, hc]
        cases sz <;> first
          | rfl
          | exact ⟨rfl, rfl⟩
          | exact ⟨evenWord_toNat _, by simp [noteWordWrite]⟩
          | exact hmask _
      · cases sz <;> exact ⟨rfl, rfl, fun h => by first | rfl | exact absurd hc h, fun _ _ => rfl⟩

/-- The store is read the same after the flags are written. -/
theorem FileStored.setFlags {sz : Size} {a v : Word} {s t : State} (h : FileStored sz a v s t) (f : AluFlags) :
    FileStored sz a v s (t.setFlags f) := h

/-- The store is read the same after the PC goes on. -/
theorem FileStored.advance {sz : Size} {a v : Word} {s t : State} (h : FileStored sz a v s t) (k : Nat) :
    FileStored sz a v s (Machine.advance k t) := h

end Sys2Proof.Machine
end

