-- ==== Sys2Proof/Laws/Stack.lean ====
section
/-! SUPPORT. What a push, a pop and taking an exception can do (R98 to R101, R352). -/

namespace Sys2Proof.Machine

/-! ## RAM writes change nothing but RAM -/

theorem ramWrite_state (s : State) (sz : Size) (a v : Word) : ∃ m, ramWrite s sz a v = { s with mem := m } := by
  cases sz <;> exact ⟨_, rfl⟩

@[simp] theorem ramWrite_reg (s : State) (sz : Size) (a v : Word) (n : Reg) : (ramWrite s sz a v).reg n = s.reg n := by
  cases sz <;> rfl

@[simp] theorem ramWrite_isInit (s : State) (sz : Size) (a v : Word) (n : Reg) :
    (ramWrite s sz a v).isInit n = s.isInit n := by
  cases sz <;> rfl

@[simp] theorem ramWrite_sr (s : State) (sz : Size) (a v : Word) : (ramWrite s sz a v).sr = s.sr := by cases sz <;> rfl
@[simp] theorem ramWrite_pc (s : State) (sz : Size) (a v : Word) : (ramWrite s sz a v).pc = s.pc := by cases sz <;> rfl
@[simp] theorem ramWrite_event (s : State) (sz : Size) (a v : Word) : (ramWrite s sz a v).event = s.event := by
  cases sz <;> rfl
@[simp] theorem ramWrite_dev (s : State) (sz : Size) (a v : Word) : (ramWrite s sz a v).dev = s.dev := by
  cases sz <;> rfl
@[simp] theorem ramWrite_corcon (s : State) (sz : Size) (a v : Word) : (ramWrite s sz a v).corcon = s.corcon := by
  cases sz <;> rfl
@[simp] theorem ramWrite_splim (s : State) (sz : Size) (a v : Word) : (ramWrite s sz a v).splim = s.splim := by
  cases sz <;> rfl
@[simp] theorem ramWrite_splimen (s : State) (sz : Size) (a v : Word) : (ramWrite s sz a v).splimen = s.splimen := by
  cases sz <;> rfl
@[simp] theorem ramWrite_prev (s : State) (sz : Size) (a v : Word) : (ramWrite s sz a v).prev = s.prev := by
  cases sz <;> rfl

/-- Reading RAM depends on the bytes read. -/
theorem ramRead_congr {s t : State} {sz : Size} {a : Word}
    (h : ∀ k, k < bytesOf sz → t.ramByte (a.toNat + k) = s.ramByte (a.toNat + k)) : ramRead t sz a = ramRead s sz a := by
  cases sz with
  | word =>
    have h0 := h 0 (by decide)
    have h1 := h 1 (by decide)
    simp only [Nat.add_zero] at h0
    simp only [ramRead, h0, h1]
  | byte =>
    have h0 := h 0 (by decide)
    simp only [Nat.add_zero] at h0
    simp only [ramRead, h0]

/-- A read of bytes that a write does not cover. -/
theorem ramRead_ramWrite_apart (s : State) {sz sz' : Size} {a b : Word} (v : Word)
    (h : a.toNat + bytesOf sz ≤ b.toNat ∨ b.toNat + bytesOf sz' ≤ a.toNat) :
    ramRead (ramWrite s sz' b v) sz a = ramRead s sz a :=
  ramRead_congr fun k hk => ramByte_ramWrite_outside s sz' b v (by omega)

@[simp] theorem ramRead_setW (s : State) (n : Reg) (v : Word) (sz : Size) (a : Word) :
    ramRead (s.setW n v) sz a = ramRead s sz a := by cases sz <;> rfl

@[simp] theorem ramRead_putW (s : State) (n : Reg) (v : Word) (sz : Size) (a : Word) :
    ramRead (s.putW n v) sz a = ramRead s sz a := by cases sz <;> rfl

/-! ## Push and pop -/

theorem push16_quiet {v : Word} {s t : State} (h : push16 v s = .ok t) : Quiet [sp] [(.word, s.reg sp)] s t := by
  obtain ⟨s1, h1, h⟩ := bind_ok h
  obtain ⟨s2, h2, h⟩ := bind_ok h
  cases h
  obtain ⟨d, rfl⟩ := stackCheck_state h1
  exact (((Quiet.draws (d := d) (p := s.cur.psvRead) rfl).trans (memWrite_quiet h2)).trans (Quiet.setW _ sp _)).mono
    (by simp) (by simp)

theorem pop16_quiet {v : Word} {s t : State} (h : pop16 s = .ok (v, t)) : Quiet [sp] [] s t := by
  obtain ⟨s1, h1, h⟩ := bind_ok h
  obtain ⟨d, rfl⟩ := stackCheck_state h1
  exact (((Quiet.draws (d := d) (p := s.cur.psvRead) rfl).trans (Quiet.setW _ sp _)).trans (memRead_quiet h)).mono
    (by simp) (by simp)

/-- A push into RAM that no check stops. -/
theorem push16_ok {v : Word} {s : State} (h : SlotOk (s.reg sp) 0 s) :
    push16 v s = .ok ((ramWrite s .word (s.reg sp) v).setW sp (s.reg sp + 2)) := by
  obtain ⟨ha, hl⟩ := h
  simp only [Nat.mul_zero, BitVec.add_zero, Nat.add_zero] at ha hl
  have h1 := (region_ram ha.2.1).1
  have hc : stackCheck (s.reg sp) (0x10000 ≤ (s.reg sp).toNat + 2) false s = .ok s := by
    simp only [stackCheck, if_neg (Nat.not_lt.2 h1)]
    by_cases hs : s.splimen = true
    · obtain ⟨h2, h3⟩ := hl hs
      simp [hs, limitFor, Nat.not_le.2 h2, Nat.not_lt.2 h3]
    · simp [hs]
  simp only [push16, hc, ok_bind, memWrite_ram ha]

/-- A pop from RAM that no check stops. -/
theorem pop16_ok {s : State} (h : TopOk (s.reg sp) 1 s) :
    pop16 s = .ok (stackWord (s.reg sp) 1 s, s.setW sp (s.reg sp - 2)) := by
  have ha : AccessOk .word (s.reg sp - 2) s := h.1
  have hl := h.2
  have hc : stackCheck (s.reg sp - 2) false true s = .ok s :=
    stackCheck_ok ⟨(region_ram ha.2.1).1, fun hs => ⟨rfl, hl hs⟩⟩
  simp only [pop16, hc, ok_bind]
  rw [memRead_ram (AccessOk.congr (t := s.setW sp (s.reg sp - 2)) ha rfl rfl), ramRead_setW]
  rfl

theorem popFrame_quiet {hi lo : Word} {s t : State} (h : popFrame s = .ok (hi, lo, t)) : Quiet [sp] [] s t := by
  obtain ⟨⟨x, s1⟩, h1, h⟩ := bind_ok h
  obtain ⟨⟨y, s2⟩, h2, h⟩ := bind_ok h
  cases h
  exact ((pop16_quiet h1).trans (pop16_quiet h2)).mono (by simp) (by simp)

theorem regMask_of_even {n : Reg} {v : Word} (h : v.toNat % 2 = 0) : regMask n v = v := by
  simp only [regMask]; split
  · exact evenWord_of_even h
  · rfl

theorem access_even {a : Word} {s : State} (h : AccessOk .word a s) : a.toNat % 2 = 0 := by
  have := h.1 rfl
  simp only [isOdd_eq, decide_eq_false_iff_not] at this
  omega

/-- Two pops from RAM, the high word first. -/
theorem popFrame_ok {s : State} (h1 : TopOk (s.reg sp) 1 s) (h2 : TopOk (s.reg sp) 2 s) :
    popFrame s = .ok (stackWord (s.reg sp) 1 s, stackWord (s.reg sp) 2 s,
      (s.setW sp (s.reg sp - 2)).setW sp (s.reg sp - 4)) := by
  have he : (s.reg sp - 2).toNat % 2 = 0 := access_even h1.1
  have hr : (s.setW sp (s.reg sp - 2)).reg sp = s.reg sp - 2 := by
    rw [State.reg_setW, if_pos rfl]; exact regMask_of_even he
  have e4 : s.reg sp - 2 - 2 = s.reg sp - 4 := BitVec.sub_sub (s.reg sp) 2 2
  have e5 : s.reg sp - 2 - BitVec.ofNat 16 (2 * 1) = s.reg sp - BitVec.ofNat 16 (2 * 2) := e4
  have h3 : TopOk ((s.setW sp (s.reg sp - 2)).reg sp) 1 (s.setW sp (s.reg sp - 2)) := by
    rw [hr]
    unfold TopOk at h2 ⊢
    rw [e5]
    exact ⟨AccessOk.congr h2.1 rfl rfl, h2.2⟩
  simp only [popFrame, pop16_ok h1, pop16_ok h3, ok_bind, hr, e4, stackWord, e5, ramRead_setW]

/-- The exception frame pushed (R101). -/
theorem pushPcExc_quiet {ret : PAddr} {s t : State} (h : pushPcExc ret s = .ok t) :
    ∃ u, push16 (ret.extractLsb' 0 16) s = .ok u ∧ push16 (frameHigh u ret) u = .ok t ∧
      Quiet [sp] [(.word, s.reg sp), (.word, u.reg sp)] s t := by
  obtain ⟨u, h1, h⟩ := bind_ok h
  exact ⟨u, h1, h, ((push16_quiet h1).trans (push16_quiet h)).mono (by simp) (by simp)⟩

/-- A second push from RAM that no check stops. -/
theorem push16_twice_ok {v w : Word} {s : State} (h1 : SlotOk (s.reg sp) 0 s) (h2 : SlotOk (s.reg sp) 1 s) :
    (push16 v s).bind (push16 w) =
      .ok ((ramWrite ((ramWrite s .word (s.reg sp) v).setW sp (s.reg sp + 2)) .word (s.reg sp + 2) w).setW sp
        (s.reg sp + 4)) := by
  have he : (s.reg sp + 2).toNat % 2 = 0 := access_even h2.1
  have hr : ((ramWrite s .word (s.reg sp) v).setW sp (s.reg sp + 2)).reg sp = s.reg sp + 2 := by
    rw [State.reg_setW, if_pos rfl]; exact regMask_of_even he
  have h3 : SlotOk (((ramWrite s .word (s.reg sp) v).setW sp (s.reg sp + 2)).reg sp) 0
      ((ramWrite s .word (s.reg sp) v).setW sp (s.reg sp + 2)) := by
    rw [hr]
    obtain ⟨a, b⟩ := h2
    refine ⟨AccessOk.congr (by simpa using a) (by simp) (by simp), fun hs => ?_⟩
    have b1 := b (by simpa using hs)
    have : (s.reg sp + 2).toNat = (s.reg sp).toNat + 2 := by
      rw [BitVec.toNat_add]; change ((s.reg sp).toNat + 2) % 65536 = _; omega
    simp only [this, State.setW_splim, ramWrite_splim]
    omega
  rw [push16_ok h1]
  simp only [Except.bind, push16_ok h3, hr]
  rw [BitVec.add_assoc]; rfl

end Sys2Proof.Machine
end

