-- ==== Sys2Proof/Laws/Steady.lean ====
section
/-! SUPPORT. What every operation keeps, whatever the instruction: program memory, the device, the latches, the values'
invariant, RA and a clear IPL3. -/

namespace Sys2Proof.Machine

/-- The part of the invariant that concerns values: canonical memory, even W15, SPLIM and PC, RCOUNT in its width. -/
structure Fit (s : State) : Prop where
  mem : Memory.wf s.mem = true
  sp : (s.reg sp).toNat % 2 = 0
  splim : s.splim.toNat % 2 = 0
  rc : rcountMask s.dev s.rcount = s.rcount
  pc : s.pc.toNat % 2 = 0

/-- The operation keeps program memory, the device and the inputs; it clears no latch, resets nothing and keeps `Fit`.
-/
structure Steady (s t : State) : Prop where
  prog : t.prog = s.prog
  dev : t.dev = s.dev
  inputs : t.inputs = s.inputs
  epoch : t.ramEpoch = s.ramEpoch
  init : ∀ n : Reg, s.isInit n = true → t.isInit n = true
  latch : s.splimen = true → t.splimen = true
  good : Fit s → Fit t

/-- ... and it leaves RA and sets no IPL3. -/
structure SteadyMode (s t : State) : Prop extends Steady s t where
  ra : t.sr.ra = s.sr.ra
  ipl3 : s.corcon.ipl3 = false → t.corcon.ipl3 = false

theorem Steady.refl (s : State) : Steady s s := ⟨rfl, rfl, rfl, rfl, fun _ h => h, id, id⟩
theorem SteadyMode.refl (s : State) : SteadyMode s s := ⟨Steady.refl s, rfl, id⟩
theorem Steady.trans {s t u : State} (h : Steady s t) (k : Steady t u) : Steady s u :=
  ⟨k.prog.trans h.prog, k.dev.trans h.dev, k.inputs.trans h.inputs, k.epoch.trans h.epoch,
   fun n hn => k.init n (h.init n hn), fun x => k.latch (h.latch x), fun g => k.good (h.good g)⟩
theorem SteadyMode.trans {s t u : State} (h : SteadyMode s t) (k : SteadyMode t u) : SteadyMode s u :=
  ⟨h.toSteady.trans k.toSteady, k.ra.trans h.ra, fun x => k.ipl3 (h.ipl3 x)⟩

theorem regMask_even (v : Word) : (regMask sp v).toNat % 2 = 0 := by
  simp only [regMask, if_true, evenWord_toNat]; omega

theorem putW_steadyMode (s : State) (n : Reg) (v : Word) : SteadyMode s (s.putW n v) := by
  refine ⟨⟨rfl, rfl, rfl, rfl, fun _ h => h, id, fun g => ⟨g.mem, ?_, g.splim, g.rc, g.pc⟩⟩, rfl, id⟩
  rw [State.reg_putW]; split
  · rename_i h; subst h; exact regMask_even v
  · exact g.sp

theorem setW_steadyMode (s : State) (n : Reg) (v : Word) : SteadyMode s (s.setW n v) := by
  refine ⟨⟨rfl, rfl, rfl, rfl, fun m h => ?_, id, fun g => ⟨g.mem, ?_, g.splim, g.rc, g.pc⟩⟩, rfl, id⟩
  · simp [h]
  · rw [State.reg_setW]; split
    · rename_i h; subst h; exact regMask_even v
    · exact g.sp

theorem setSized_steadyMode (s : State) (sz : Size) (n : Reg) (v : Word) : SteadyMode s (s.setSized sz n v) := by
  cases sz
  · exact setW_steadyMode s n v
  · exact putW_steadyMode s n _

/-- Updates of fields that none of this concerns. -/
theorem misc_steadyMode {s : State} {d : Nat} {c : Trace} {f : AluFlags} {e : Option Event} {o : List DeviceWrite}
   {g : Option DivGhost} {i : BitVec 3} {di : BitVec 14} {tb ps : Byte} {wsh : Vector Word 4} {srsh : AluFlags} {pv : Previous} {x : Bool}
   (hx : x = true → s.corcon.ipl3 = true) {y : Bool} :
    SteadyMode s
     { s with
       draws := d, cur := c, sr := { s.sr with flags := f, ipl := i }, event := e, devOut := o, divGhost := g, disicnt := di,
       tblpag := tb, psvpag := ps, wsh := wsh, srsh := srsh, prev := pv, corcon := ⟨x, y⟩ } :=
  ⟨⟨rfl, rfl, rfl, rfl, fun _ h => h, id, fun g => ⟨g.mem, g.sp, g.splim, g.rc, g.pc⟩⟩, rfl,
    fun h => by cases x; rfl; simp_all⟩

theorem setRam_steadyMode (s : State) (a : Nat) (b : Byte) (h1 : 0x800 ≤ a) (h2 : a < 0x10000) : SteadyMode s (s.setRamByte a b) :=
  ⟨⟨rfl, rfl, rfl, rfl, fun _ h => h, id, fun g => ⟨Memory.wf_insertAt g.mem h1 h2, g.sp, g.splim, g.rc, g.pc⟩⟩, rfl, id⟩

theorem rcountMask_idem (d : Config.Device) (v : Word) : rcountMask d (rcountMask d v) = rcountMask d v := by
  unfold rcountMask; split <;> simp [BitVec.and_assoc]

theorem putCpu_steadyMode {r : CpuReg} {v : Word} {s t : State} (h : putCpu r v s = .ok t) : SteadyMode s t := by
  cases r <;> simp only [putCpu, Except.ok.injEq, reduceCtorEq] at h <;> subst h
  case w n => exact (putW_steadyMode s n v).trans (misc_steadyMode (fun h => h))
  case splim =>
    refine ⟨⟨rfl, rfl, rfl, rfl, fun _ h => h, id, fun g => ⟨g.mem, g.sp, ?_, g.rc, g.pc⟩⟩, rfl, id⟩
    show (evenWord v).toNat % 2 = 0
    rw [evenWord_toNat]; omega
  case rcount =>
    exact ⟨⟨rfl, rfl, rfl, rfl, fun _ h => h, id, fun g => ⟨g.mem, g.sp, g.splim, rcountMask_idem _ _, g.pc⟩⟩, rfl, id⟩
  case corcon => 
    refine misc_steadyMode ?_
    intro h; simp at h; exact h.1
  all_goals exact misc_steadyMode (fun h => h)

theorem note_steadyMode (r : CpuReg) (s : State) : SteadyMode s (noteWordWrite r s) := by
  cases r
  case w n =>
    refine ⟨⟨rfl, rfl, rfl, rfl, fun m h => ?_, id, fun g => ⟨g.mem, g.sp, g.splim, g.rc, g.pc⟩⟩, rfl, id⟩
    simp only [State.isInit, noteWordWrite, Vector.get_eq_getElem, Vector.getElem_set] at *
    split <;> simp_all
  case splim => exact ⟨⟨rfl, rfl, rfl, rfl, fun _ h => h, fun _ => rfl, fun g => ⟨g.mem, g.sp, g.splim, g.rc, g.pc⟩⟩, rfl, id⟩
  all_goals exact SteadyMode.refl s

theorem writeCpu_steadyMode {r : CpuReg} {sz : Size} {o : Bool} {v : Word} {s t : State} (h : writeCpu r sz o v s = .ok t) :
    SteadyMode s t := by
  cases sz
  · simp only [writeCpu] at h
    cases hp : putCpu r v s with
    | error e => rw [hp] at h; cases h
    | ok u => rw [hp] at h; cases h; exact (putCpu_steadyMode hp).trans (note_steadyMode r u)
  · exact putCpu_steadyMode h

theorem memWrite_steadyMode {sz : Size} {a v : Word} {s t : State} (h : memWrite sz a v s = .ok t) : SteadyMode s t := by
  simp only [memWrite] at h
  split at h
  · cases h
  · rename_i ho
    split at h
    · exact writeCpu_steadyMode h
    · cases h; exact misc_steadyMode (fun h => h)
    · cases h
    · rename_i hr
      split at h
      · cases h
        have h1 := (region_ram hr).1
        have h2 := a.isLt
        cases sz
        · have : a.toNat % 2 = 0 := by
            simp [isOdd_eq] at ho; omega
          exact (setRam_steadyMode s _ _ h1 h2).trans (setRam_steadyMode _ _ _ (by omega) (by omega))
        · exact setRam_steadyMode s _ _ h1 h2
      · cases h
    · cases h

theorem memRead_steadyMode {sz : Size} {a v : Word} {s t : State} (h : memRead sz a s = .ok (v, t)) : SteadyMode s t := by
  obtain ⟨d, c, rfl⟩ := memRead_state h
  exact misc_steadyMode (fun h => h)

theorem draws_steadyMode (s : State) (d : Nat) : SteadyMode s { s with draws := d } := misc_steadyMode (fun h => h)

theorem stackCheck_steadyMode {ea : Word} {w r : Bool} {s t : State} (h : stackCheck ea w r s = .ok t) : SteadyMode s t := by
  obtain ⟨d, rfl⟩ := stackCheck_state h; exact draws_steadyMode s d

theorem push16_steadyMode {v : Word} {s t : State} (h : push16 v s = .ok t) : SteadyMode s t := by
  unfold push16 at h
  obtain ⟨s1, h1, h⟩ := bind_ok h
  obtain ⟨s2, h2, h⟩ := bind_ok h
  cases h
  exact ((stackCheck_steadyMode h1).trans (memWrite_steadyMode h2)).trans (setW_steadyMode _ _ _)

theorem pop16_steadyMode {v : Word} {s t : State} (h : pop16 s = .ok (v, t)) : SteadyMode s t := by
  unfold pop16 at h
  obtain ⟨s1, h1, h⟩ := bind_ok h
  exact ((stackCheck_steadyMode h1).trans (setW_steadyMode _ _ _)).trans (memRead_steadyMode h)

theorem readOp_steadyMode {sz : Size} {op : Opnd} {v : Word} {s t : State} (h : readOp sz op s = .ok (v, t)) : SteadyMode s t := by
  obtain ⟨d, c, rfl⟩ := readOp_state h
  refine SteadyMode.trans ?_ (misc_steadyMode (fun h => h))
  unfold afterRead; split
  · exact setW_steadyMode _ _ _
  · exact SteadyMode.refl _

theorem updateDst_steadyMode (op : Opnd) (c : Bool) (v : Word) (s : State) : SteadyMode s (updateDst op c v s) := by
  unfold updateDst; split
  · exact setW_steadyMode _ _ _
  · exact SteadyMode.refl _

theorem locate_steadyMode {op : Opnd} {step : Nat} {r : Bool} {s t : State} {ea : Word}
    (h : locate op step r s = .ok (ea, t)) : SteadyMode s t := by
  obtain ⟨-, -, d, rfl⟩ := locate_state h; exact draws_steadyMode s d

theorem writeOp_steadyMode {sz : Size} {op : Opnd} {v : Word} {s t : State} (h : writeOp sz op v s = .ok t) : SteadyMode s t := by
  unfold writeOp at h
  split at h
  · cases h; exact setSized_steadyMode _ _ _ _
  · obtain ⟨⟨ea, s1⟩, h1, h⟩ := bind_ok h
    obtain ⟨s2, h2, h⟩ := bind_ok h
    cases h
    exact ((locate_steadyMode h1).trans (memWrite_steadyMode h2)).trans (updateDst_steadyMode _ _ _ _)

theorem dominate_steadyMode (sz : Size) (src : Opnd) (ea old : Word) (s : State) :
    SteadyMode s (dominate sz src ea old s) := by
  cases sz
  · exact SteadyMode.refl _
  · simp only [dominate]; split
    · exact putW_steadyMode _ _ _
    · exact SteadyMode.refl _

theorem writeResult_steadyMode {sz : Size} {src dst : Opnd} {v : Word} {s0 s t : State}
    (h : writeResult sz src dst v s0 s = .ok t) : SteadyMode s t := by
  unfold writeResult at h
  obtain ⟨t1, h1, h⟩ := bind_ok h
  cases h
  split
  · exact writeOp_steadyMode h1
  · exact (writeOp_steadyMode h1).trans (dominate_steadyMode _ _ _ _ _)

theorem spCheckSecond_steadyMode {op : Opnd} {ea : Word} {r : Bool} {s t : State} (h : spCheckSecond op ea r s = .ok t) : SteadyMode s t := by
  unfold spCheckSecond spCheck at h
  split at h
  · exact stackCheck_steadyMode h
  · cases h; exact SteadyMode.refl _

theorem readPair_steadyMode {op : Opnd} {lo hi : Word} {s t : State} (h : readPair op s = .ok (lo, hi, t)) : SteadyMode s t := by
  unfold readPair at h
  split at h
  · cases h; exact SteadyMode.refl _
  · obtain ⟨⟨ea, s1⟩, h1, h⟩ := bind_ok h
    obtain ⟨s2, h2, h⟩ := bind_ok h
    have a := (locate_steadyMode h1).trans (spCheckSecond_steadyMode h2)
    dsimp only at h
    split at h
    · obtain ⟨⟨l, s3⟩, h3, h⟩ := bind_ok h
      obtain ⟨⟨h', s4⟩, h4, h⟩ := bind_ok h
      cases h
      exact ((a.trans (setW_steadyMode _ _ _)).trans (memRead_steadyMode h3)).trans (memRead_steadyMode h4)
    · obtain ⟨⟨l, s3⟩, h3, h⟩ := bind_ok h
      obtain ⟨⟨h', s4⟩, h4, h⟩ := bind_ok h
      cases h
      have b := (a.trans (memRead_steadyMode h3)).trans (memRead_steadyMode h4)
      split
      · exact b.trans (setW_steadyMode _ _ _)
      · exact b

theorem writePair_steadyMode {op : Opnd} {lo hi : Word} {s t : State} (h : writePair op lo hi s = .ok t) : SteadyMode s t := by
  unfold writePair at h
  split at h
  · cases h; exact (setW_steadyMode _ _ _).trans (setW_steadyMode _ _ _)
  · obtain ⟨⟨ea, s1⟩, h1, h⟩ := bind_ok h
    obtain ⟨s2, h2, h⟩ := bind_ok h
    obtain ⟨s3, h3, h⟩ := bind_ok h
    obtain ⟨s4, h4, h⟩ := bind_ok h
    cases h
    exact ((((locate_steadyMode h1).trans (spCheckSecond_steadyMode h2)).trans (memWrite_steadyMode h3)).trans (memWrite_steadyMode h4)).trans
      (updateDst_steadyMode _ _ _ _)

theorem even_ofNat (p : PAddr) (k : Nat) (h : p.toNat % 2 = 0) : (p + BitVec.ofNat 23 (2 * k)).toNat % 2 = 0 := by
  rw [BitVec.toNat_add, BitVec.toNat_ofNat]; omega

theorem pc_steadyMode (s : State) {p : PAddr} (h : s.pc.toNat % 2 = 0 → p.toNat % 2 = 0) : SteadyMode s { s with pc := p } :=
  ⟨⟨rfl, rfl, rfl, rfl, fun _ h => h, id, fun g => ⟨g.mem, g.sp, g.splim, g.rc, h g.pc⟩⟩, rfl, id⟩

theorem advance_steadyMode (k : Nat) (s : State) : SteadyMode s (advance k s) := pc_steadyMode s (even_ofNat _ _)

theorem evenAddr_even (p : PAddr) : (evenAddr p).toNat % 2 = 0 := by rw [evenAddr_toNat]; omega

theorem jumpEven_steadyMode (s : State) (p : PAddr) : SteadyMode s (s.jump (evenAddr p)) := pc_steadyMode s (fun _ => evenAddr_even p)

theorem inProgram_even {a : Int} {p : PAddr} (h : inProgram a = .ok p) : p.toNat % 2 = 0 := by
  unfold inProgram at h; split at h
  · cases h; exact evenAddr_even _
  · cases h

theorem setFlags_steadyMode (s : State) (f : AluFlags) : SteadyMode s (s.setFlags f) := misc_steadyMode (fun h => h)

/-! ## Traps and how an instruction ends -/

theorem winit_steadyMode (s : State) (n : Reg) (b : Bool) :
    SteadyMode s { s with winit := s.winit.set n.val (s.isInit n || b) n.isLt } := by
  refine ⟨⟨rfl, rfl, rfl, rfl, fun m h => ?_, id, fun g => ⟨g.mem, g.sp, g.splim, g.rc, g.pc⟩⟩, rfl, id⟩
  simp only [State.isInit, Vector.get_eq_getElem, Vector.getElem_set] at *
  split
  · rename_i h'; simp only [h', Bool.or_eq_true]; left; exact h
  · exact h

theorem loseReg_steadyMode (s : State) (r : Reg × Size) : SteadyMode s (loseReg s r) := by
  obtain ⟨n, sz⟩ := r
  cases sz
  · exact ((draws_steadyMode s (s.draws + 2)).trans (putW_steadyMode { s with draws := s.draws + 2 } n (drawAt s 0))).trans
      (winit_steadyMode (({ s with draws := s.draws + 2 } : State).putW n (drawAt s 0)) n (drawBit s 1))
  · exact (draws_steadyMode s (s.draws + 2)).trans (putW_steadyMode { s with draws := s.draws + 2 } n _)

theorem loseStore_steadyMode (s : State) (st : Size × Word) : SteadyMode s (loseStore s st) := by
  unfold loseStore
  simp only
  split
  · rename_i t h
    split
    · exact (draws_steadyMode s _).trans (memWrite_steadyMode h)
    · exact draws_steadyMode s _
  · exact draws_steadyMode s _

theorem foldl_steadyMode {α : Type} (f : State → α → State) (hf : ∀ s a, SteadyMode s (f s a)) (l : List α) (s : State) :
    SteadyMode s (l.foldl f s) := by
  induction l generalizing s with
  | nil => exact SteadyMode.refl s
  | cons a r ih => exact (hf s a).trans (ih _)

theorem loseFlags_steadyMode (s : State) (f : FlagPart) (hf : f ≠ .frame) : SteadyMode s (loseFlags s f) := by
  cases f
  case frame => exact absurd rfl hf
  case keep => exact SteadyMode.refl s
  all_goals exact misc_steadyMode (fun h => h)

theorem loseFlags_steady (s : State) (f : FlagPart) : Steady s (loseFlags s f) := by
  cases f
  case frame => exact ⟨rfl, rfl, rfl, rfl, fun _ h => h, id, fun g => ⟨g.mem, g.sp, g.splim, g.rc, g.pc⟩⟩
  all_goals exact (loseFlags_steadyMode s _ (by decide)).toSteady

theorem trapped_steadyMode (k : TrapKind) (words : Nat) (f : Footprint) (s : State) (hf : f.flags ≠ .frame) :
    SteadyMode s (trapped k words f s) := by
  have h : SteadyMode s (loseFlags (f.stores.foldl loseStore (f.regs.foldl loseReg { s with draws := s.draws + drawGap })) f.flags) :=
    (((draws_steadyMode s _).trans (foldl_steadyMode _ loseReg_steadyMode _ _)).trans (foldl_steadyMode _ loseStore_steadyMode _ _)).trans
      (loseFlags_steadyMode _ _ hf)
  exact ⟨⟨h.prog, h.dev, h.inputs, h.epoch, h.init, h.latch, fun g =>
    let g' := h.good g; ⟨g'.mem, g'.sp, g'.splim, g'.rc, even_ofNat _ _ g.pc⟩⟩, h.ra, h.ipl3⟩

theorem trapped_steady (k : TrapKind) (words : Nat) (f : Footprint) (s : State) :
    Steady s (trapped k words f s) := by
  have h : Steady s (loseFlags (f.stores.foldl loseStore (f.regs.foldl loseReg { s with draws := s.draws + drawGap })) f.flags) :=
    (((draws_steadyMode s _).trans (foldl_steadyMode _ loseReg_steadyMode _ _)).trans (foldl_steadyMode _ loseStore_steadyMode _ _)).toSteady.trans
      (loseFlags_steady _ _)
  exact ⟨h.prog, h.dev, h.inputs, h.epoch, h.init, h.latch, fun g =>
    let g' := h.good g; ⟨g'.mem, g'.sp, g'.splim, g'.rc, even_ofNat _ _ g.pc⟩⟩

theorem settle_steadyMode {words : Nat} {f : Footprint} {s t : State} {r : Except Stop State} (hf : f.flags ≠ .frame)
    (hr : ∀ u, r = .ok u → SteadyMode s u) (h : settle words f s r = .next t) :
    (∃ c, t = deviceReset c s) ∨ SteadyMode s t := by
  unfold settle at h
  split at h
  · injection h with h; subst h; exact .inr (hr _ rfl)
  · cases h
  · injection h with h; exact .inl ⟨_, h.symm⟩
  · split at h
    · injection h with h; subst h; exact .inr (trapped_steadyMode _ _ _ _ hf)
    · cases h

theorem settle_steady {words : Nat} {f : Footprint} {s t : State} {r : Except Stop State}
    (hr : ∀ u, r = .ok u → Steady s u) (h : settle words f s r = .next t) :
    (∃ c, t = deviceReset c s) ∨ Steady s t := by
  unfold settle at h
  split at h
  · injection h with h; subst h; exact .inr (hr _ rfl)
  · cases h
  · injection h with h; exact .inl ⟨_, h.symm⟩
  · split at h
    · injection h with h; subst h; exact .inr (trapped_steady _ _ _ _)
    · cases h

end Sys2Proof.Machine
end

