-- ==== Sys2Proof/Laws/Traps.lean ====
section
/-! SUPPORT. Which operations stop an instruction, and how it then ends: an uninitialised pointer (R27), the checks of
R100, an access data space does not have (R83, R84). -/

namespace Sys2Proof.Machine

/-! ## How an instruction that stops ends -/

@[simp] theorem settle_reset (words : Nat) (f : Footprint) (s : State) (c : ResetCause) :
    settle words f s (.error (.reset c)) = .next (deviceReset c s) := rfl

/-- An instruction that a trap cut short. -/
theorem raisesTrap_of_settle {k : TrapKind} {words : Nat} {f : Footprint} {s : State} {i : Instr} {r : Except Stop State}
    (hi : exec i s = settle words f s r) (hr : r = .error (.trap k)) : RaisesTrap k words i s := by
  subst hr
  refine ⟨fun h => ?_, fun h => ⟨trapped k words f s, ?_, rfl, rfl⟩⟩ <;> simp [hi, settle, h]

/-! ## An uninitialised pointer -/

theorem locate_uninit {op : Opnd} {step : Nat} {r : Bool} {s : State} (h : s.isInit op.reg = false) :
    locate op step r s = .error (.reset .uninitW) := by
  simp [locate, ptr, h]

theorem readOp_uninit {sz : Size} {op : Opnd} {s : State} (hd : isDirect op = false) (h : s.isInit op.reg = false) :
    readOp sz op s = .error (.reset .uninitW) := by
  simp [readOp, hd, locate_uninit h]

theorem writeOp_uninit {sz : Size} {op : Opnd} {v : Word} {s : State} (hd : isDirect op = false)
    (h : s.isInit op.reg = false) : writeOp sz op v s = .error (.reset .uninitW) := by
  simp [writeOp, hd, locate_uninit h]

theorem writeResult_uninit {sz : Size} {src op : Opnd} {v : Word} {s0 s : State} (hd : isDirect op = false)
    (h : s.isInit op.reg = false) : writeResult sz src op v s0 s = .error (.reset .uninitW) :=
  writeResult_error (writeOp_uninit hd h)

/-- A form that was read through left every initialisation flag as it was. -/
theorem afterRead_isInit {op : Opnd} {step : Nat} {s : State} (h : s.isInit op.reg = true) (n : Reg) :
    (afterRead op step s).isInit n = s.isInit n := by
  simp only [afterRead]
  split
  · rw [State.isInit_setW]
    split
    · rename_i e; rw [← e, h]
    · rfl
  · rfl

theorem readOp_isInit {sz : Size} {op : Opnd} {s t : State} {v : Word} (h : readOp sz op s = .ok (v, t)) (n : Reg) :
    t.isInit n = s.isInit n := by
  obtain ⟨d, c, rfl⟩ := readOp_state h
  show (afterRead op (bytesOf sz) s).isInit n = _
  by_cases hd : isDirect op = true
  · have : modifies op = false := by cases op <;> simp_all [isDirect, modifies]
    simp [afterRead, this]
  · refine afterRead_isInit ?_ n
    unfold readOp at h
    rw [if_neg hd] at h
    obtain ⟨⟨ea, s1⟩, h1, -⟩ := bind_ok h
    exact (locate_state h1).2.1

/-- A table source steps its pointer, where the form modifies it, and uses free values at most. -/
theorem tableSource_state {high : Bool} {sz : Size} {op : Opnd} {s t : State} {v : Word}
    (h : tableSource high sz op s = .ok (v, t)) :
    s.isInit op.reg = true ∧ ∃ d, t = { afterRead op (bytesOf sz) s with draws := d } := by
  unfold tableSource at h
  split at h
  · cases h
  · obtain ⟨⟨ea, s1⟩, h1, h⟩ := bind_ok h
    obtain ⟨v', h2, h⟩ := bind_ok h
    obtain ⟨-, hi, d, rfl⟩ := locate_state h1
    cases h
    refine ⟨hi, d, ?_⟩
    simp only [afterRead]
    split <;> rfl

theorem tableSource_isInit {high : Bool} {sz : Size} {op : Opnd} {s t : State} {v : Word}
    (h : tableSource high sz op s = .ok (v, t)) (n : Reg) : t.isInit n = s.isInit n := by
  obtain ⟨hi, d, rfl⟩ := tableSource_state h
  exact afterRead_isInit hi n

/-! ## Accesses that data space does not have -/

theorem AccessFault.congr {sz : Size} {a : Word} {s t : State} (h : AccessFault sz a s) (hd : t.dev = s.dev)
    (hc : t.corcon = s.corcon) : AccessFault sz a t := by
  have h1 : region t a = region s a := by simp [region, dataImplemented, hd, hc]
  have h2 : ramHolds t sz a = ramHolds s sz a := by cases sz <;> simp [ramHolds, dataImplemented, hd]
  rwa [AccessFault, h1, h2]

theorem memRead_fault {sz : Size} {a : Word} {s : State} (h : AccessFault sz a s) :
    memRead sz a s = .error (.trap .addressError) := by
  unfold memRead
  by_cases ho : sz = .word ∧ isOdd a = true
  · simp [ho]
  · rcases h with h | h | ⟨h, h'⟩
    · exact absurd h ho
    · simp [h]
    · simp [h, h']

theorem memWrite_fault {sz : Size} {a v : Word} {s : State} (h : AccessFault sz a s) :
    memWrite sz a v s = .error (.trap .addressError) := by
  unfold memWrite
  by_cases ho : sz = .word ∧ isOdd a = true
  · simp [ho]
  · rcases h with h | h | ⟨h, h'⟩
    · exact absurd h ho
    · simp [h]
    · simp [h, h']

/-! ## The checks of R100 in numbers -/

/-- Where the hazard of R401 is out of the way, the check fails by its numbers alone. -/
theorem stackCheck_error_iff {ea : Word} {w r : Bool} {s : State} (hr : r = true → s.prev.splim = false) :
    stackCheck ea w r s = .error (.trap .stackError) ↔
      ea.toNat < 0x0800 ∨ (s.splimen = true ∧ (w = true ∨ s.splim.toNat + 2 < ea.toNat)) := by
  have hl : limitFor r s = (s.splim, s) := by
    unfold limitFor
    cases r
    · rfl
    · simp [hr rfl]
  unfold stackCheck
  rw [hl]
  by_cases h1 : ea.toNat < 0x0800
  · simp [h1]
  · by_cases h2 : s.splimen = true
    · by_cases h3 : w = true
      · simp [h1, h2, h3]
      · by_cases h4 : s.splim.toNat + 2 < ea.toNat <;> simp [h1, h2, h3, h4]
    · simp [h1, h2]

theorem stackCheck_no_read {ea : Word} {w : Bool} {s : State} (h1 : 0x0800 ≤ ea.toNat)
    (h2 : s.splimen = true → w = false ∧ ea.toNat ≤ s.splim.toNat + 2) : stackCheck ea w false s = .ok s := by
  simp only [stackCheck, if_neg (Nat.not_lt.2 h1)]
  by_cases hs : s.splimen = true
  · obtain ⟨h3, h4⟩ := h2 hs
    simp [hs, h3, limitFor, Nat.not_lt.2 h4]
  · simp [hs]

theorem wrapsOf_iff (op : Opnd) (step : Nat) (r : Bool) (s : State) :
    wrapsOf op step r s = true ↔
      0xFFFF < ((s.reg op.reg).toNat : Int) + eaOffset op step s ∨
        0xFFFF < ((s.reg op.reg).toNat : Int) + (if r then updOffset op step else dstOffset op step s) := by
  simp [wrapsOf, leaves16]

theorem locate_stackFault {op : Opnd} {step : Nat} {r : Bool} {s : State} (hi : s.isInit op.reg = true)
    (hr : r = true → s.prev.splim = false) (h : StackFault op step r s) :
    locate op step r s = .error (.trap .stackError) := by
  obtain ⟨hsp, h⟩ := h
  have hw := wrapsOf_iff op step r s
  have : stackCheck (eaOf op step s) (wrapsOf op step r s) r s = .error (.trap .stackError) := by
    rw [stackCheck_error_iff hr, hw]
    rcases h with h | ⟨h, h'⟩
    · exact .inl h
    · exact .inr ⟨h, h'.elim .inr .inl⟩
  simp only [locate, ptr, spCheck, hsp, hi, if_true, this, ok_bind, error_bind]

theorem push16_fault {v : Word} {s : State} (h : PushFault (s.reg sp) s) : push16 v s = .error (.trap .stackError) := by
  have : stackCheck (s.reg sp) (0x10000 ≤ (s.reg sp).toNat + 2) false s = .error (.trap .stackError) := by
    rw [stackCheck_error_iff (by simp)]
    rcases h with h | ⟨h, h'⟩
    · exact .inl h
    · refine .inr ⟨h, ?_⟩
      rcases h' with h' | h'
      · exact .inr h'
      · exact .inl (by simp; omega)
  simp only [push16, this, error_bind]

theorem pop16_fault {s : State} (h : PopFault (s.reg sp) s) : pop16 s = .error (.trap .stackError) := by
  have : stackCheck (s.reg sp - 2) false true s = .error (.trap .stackError) := by
    rcases h with h | ⟨h, h', h''⟩
    · simp only [stackCheck, h, if_true]
    · rw [stackCheck_error_iff (by simp [h'])]
      exact .inr ⟨h, .inr h''⟩
  simp only [pop16, this, error_bind]

theorem push16_stops {k : TrapKind} {v : Word} {s : State} (h : PushStops k (s.reg sp) s) :
    push16 v s = .error (.trap k) := by
  obtain ⟨rfl, h⟩ | ⟨rfl, h, hf⟩ := h
  · exact push16_fault h
  · have hc : stackCheck (s.reg sp) (0x10000 ≤ (s.reg sp).toNat + 2) false s = .ok s := by
      simp only [PushFault, not_or, not_and, Nat.not_lt] at h
      refine stackCheck_no_read h.1 fun hs => ?_
      have := h.2 hs
      exact ⟨by simp; omega, this.1⟩
    simp only [push16, hc, ok_bind, memWrite_fault hf, error_bind]

theorem pop16_stops {k : TrapKind} {s : State} (h : PopStops k (s.reg sp) s) : pop16 s = .error (.trap k) := by
  obtain ⟨rfl, h⟩ | ⟨rfl, h, hf⟩ := h
  · exact pop16_fault h
  · simp only [pop16, stackCheck_ok h, ok_bind, memRead_fault (hf.congr (t := s.setW sp (s.reg sp - 2)) rfl rfl)]

theorem sp_after_push {v : Word} {s : State} (h : SlotOk (s.reg sp) 0 s) :
    ((ramWrite s .word (s.reg sp) v).setW sp (s.reg sp + 2)).reg sp = s.reg sp + 2 := by
  have he : (s.reg sp).toNat % 2 = 0 := by simpa using access_even h.1
  rw [State.reg_setW, if_pos rfl]
  apply regMask_of_even
  rw [BitVec.toNat_add]
  change ((s.reg sp).toNat + 2) % 65536 % 2 = 0
  omega

/-- The second push of a two-word push raises its trap. -/
theorem push16_second_stops {k : TrapKind} {v w : Word} {s : State} (h1 : SlotOk (s.reg sp) 0 s)
    (h2 : PushStops k (s.reg sp + 2) s) :
    push16 w ((ramWrite s .word (s.reg sp) v).setW sp (s.reg sp + 2)) = .error (.trap k) := by
  apply push16_stops
  rw [sp_after_push h1]
  obtain ⟨hk, h⟩ | ⟨hk, h, hf⟩ := h2
  · exact .inl ⟨hk, by simpa [PushFault] using h⟩
  · exact .inr ⟨hk, by simpa [PushFault] using h, hf.congr (by simp) (by simp)⟩

theorem pushPcCall_stops {k : TrapKind} {ret : PAddr} {s : State} (h : FrameStops k s) :
    pushPcCall ret s = .error (.trap k) := by
  rcases h with h | ⟨h1, h2⟩
  · simp only [pushPcCall, push16_stops h, error_bind]
  · simp only [pushPcCall, push16_ok h1, ok_bind, push16_second_stops h1 h2]

theorem pushPcExc_stops {k : TrapKind} {ret : PAddr} {s : State} (h : FrameStops k s) :
    pushPcExc ret s = .error (.trap k) := by
  rcases h with h | ⟨h1, h2⟩
  · simp only [pushPcExc, push16_stops h, error_bind]
  · simp only [pushPcExc, push16_ok h1, ok_bind, push16_second_stops h1 h2]

theorem popFrame_stops {k : TrapKind} {s : State} (h : UnframeStops k s) : popFrame s = .error (.trap k) := by
  rcases h with h | ⟨h1, h2⟩
  · simp only [popFrame, pop16_stops h, error_bind]
  · have hr : (s.setW sp (s.reg sp - 2)).reg sp = s.reg sp - 2 := by
      rw [State.reg_setW, if_pos rfl]; exact regMask_of_even (access_even h1.1)
    have h3 : PopStops k ((s.setW sp (s.reg sp - 2)).reg sp) (s.setW sp (s.reg sp - 2)) := by
      rw [hr]
      obtain ⟨hk, h⟩ | ⟨hk, h, hf⟩ := h2
      · exact .inl ⟨hk, h⟩
      · exact .inr ⟨hk, h, hf.congr rfl rfl⟩
    simp only [popFrame, pop16_ok h1, ok_bind, pop16_stops h3, error_bind]

/-! ## Operands -/

/-- A source form that fails a check raises its trap. -/
theorem readOp_fault {k : TrapKind} {sz : Size} {op : Opnd} {s : State} (h : FormFault k sz (bytesOf sz) true op s) :
    readOp sz op s = .error (.trap k) := by
  obtain ⟨hd, hi, ⟨rfl, hp, hf⟩ | ⟨rfl, hp, hf⟩⟩ := h
  · simp [readOp, hd, locate_stackFault hi hp hf]
  · simp only [readOp, hd, Bool.false_eq_true, if_false, locate_ok hp, ok_bind]
    split
    · exact memRead_fault (hf.congr rfl rfl)
    · simp [memRead_fault hf]

/-- A destination form that fails a check raises its trap. -/
theorem writeOp_fault {k : TrapKind} {sz : Size} {op : Opnd} {v : Word} {s : State}
    (h : FormFault k sz (bytesOf sz) false op s) : writeOp sz op v s = .error (.trap k) := by
  obtain ⟨hd, hi, ⟨rfl, hp, hf⟩ | ⟨rfl, hp, hf⟩⟩ := h
  · simp [writeOp, hd, locate_stackFault hi hp hf]
  · simp only [writeOp, hd, Bool.false_eq_true, if_false, locate_ok hp, ok_bind, memWrite_fault hf, error_bind]

theorem writeResult_fault {k : TrapKind} {sz : Size} {src op : Opnd} {v : Word} {s0 s : State}
    (h : FormFault k sz (bytesOf sz) false op s) : writeResult sz src op v s0 s = .error (.trap k) :=
  writeResult_error (writeOp_fault h)

/-! ## Double words -/

theorem spCheckSecond_ok {op : Opnd} {r : Bool} {s : State} (h : SecondOk op s) :
    spCheckSecond op (eaOf op 4 s) r s = .ok s := by
  unfold spCheckSecond spCheck
  split
  · rename_i hu
    obtain ⟨⟨h1, h2⟩, h3⟩ := h hu
    exact stackCheck_ok ⟨h1, fun hs => ⟨by have := h3 hs; simp; omega, (h2 hs).2⟩⟩
  · rfl

/-- Where an address of the two fails R100, the first check stops the access or the second. -/
theorem pair_stackFault {op : Opnd} {r : Bool} {s : State} (hi : s.isInit op.reg = true)
    (hr : r = true → s.prev.splim = false)
    (h : StackFault op 4 r s ∨
      (PointerOk op 4 r s ∧ usesSp op = true ∧
        ((eaOf op 4 s + 2).toNat < 0x0800 ∨
          (s.splimen = true ∧ (0xFFFF < (eaOf op 4 s).toNat + 2 ∨ s.splim.toNat + 2 < (eaOf op 4 s + 2).toNat))))) :
    locate op 4 r s = .error (.trap .stackError) ∨
      (locate op 4 r s = .ok (eaOf op 4 s, s) ∧
        spCheckSecond op (eaOf op 4 s) r s = .error (.trap .stackError)) := by
  rcases h with h | ⟨hp, hu, h⟩
  · exact .inl (locate_stackFault hi hr h)
  · refine .inr ⟨locate_ok hp, ?_⟩
    simp only [spCheckSecond, spCheck, hu, if_true]
    rw [stackCheck_error_iff hr]
    refine h.imp_right fun ⟨h1, h2⟩ => ⟨h1, h2.imp_left fun h => ?_⟩
    simp; omega

/-- Whether a read succeeds depends on the device, PSV, its page and program memory. -/
theorem memRead_succeeds {sz : Size} {a v : Word} {s t u : State} (h : memRead sz a s = .ok (v, u))
    (hd : t.dev = s.dev) (hc : t.corcon = s.corcon) (hp : t.psvpag = s.psvpag) (hg : t.prog = s.prog) :
    ∃ v' u', memRead sz a t = .ok (v', u') := by
  have h1 : region t a = region s a := by simp [region, dataImplemented, hd, hc]
  have h2 : ramHolds t sz a = ramHolds s sz a := by cases sz <;> simp [ramHolds, dataImplemented, hd]
  have h3 : progRead t (psvAddr t a) = progRead s (psvAddr s a) := by
    unfold progRead progImplemented psvAddr; rw [hd, hp, hg]
  unfold memRead at *
  rw [h1, h2, h3]
  split at h
  · cases h
  · rename_i ho
    rw [if_neg ho]
    split at h
    · exact ⟨_, _, rfl⟩
    · exact ⟨_, _, rfl⟩
    · split at h
      · exact ⟨_, _, rfl⟩
      · cases h
    · split at h
      · rename_i hr; simp only [hr, if_true]; exact ⟨_, _, rfl⟩
      · cases h
    · cases h

theorem readPair_fault {k : TrapKind} {op : Opnd} {s : State}
    (h : PairFault k true op s fun u => ∃ v, memRead .word (eaOf op 4 s) s = .ok (v, u)) :
    readPair op s = .error (.trap k) := by
  obtain ⟨hd, hi, ⟨rfl, hr, h⟩ | ⟨rfl, hp, h2, h⟩⟩ := h
  · simp only [readPair, hd, Bool.false_eq_true, if_false]
    rcases pair_stackFault hi hr h with h | ⟨h, h'⟩
    · simp only [h, error_bind]
    · simp only [h, h', ok_bind, error_bind]
  · simp only [readPair, hd, Bool.false_eq_true, if_false, locate_ok hp, ok_bind, spCheckSecond_ok h2]
    rcases h with h | ⟨u, ⟨v, hv⟩, h⟩
    · split
      · simp only [memRead_fault (h.congr (t := s.setW op.reg (updOf op 4 s)) rfl rfl), error_bind]
      · simp only [memRead_fault h, error_bind]
    · have hs : ∀ {t t' : State} {w : Word}, memRead .word (eaOf op 4 s) t = .ok (w, t') →
          t'.dev = t.dev ∧ t'.corcon = t.corcon := fun h => by obtain ⟨d, p, rfl⟩ := memRead_state h; exact ⟨rfl, rfl⟩
      have hf : ∀ {t : State}, t.dev = s.dev → t.corcon = s.corcon → AccessFault .word (eaOf op 4 s + 2) t :=
        fun ht hc => h.congr (ht.trans (hs hv).1.symm) (hc.trans (hs hv).2.symm)
      split
      · obtain ⟨v', u', hu⟩ := memRead_succeeds (t := s.setW op.reg (updOf op 4 s)) hv rfl rfl rfl rfl
        simp only [hu, ok_bind, memRead_fault (hf (hs hu).1 (hs hu).2), error_bind]
      · simp only [hv, ok_bind, memRead_fault (hf (hs hv).1 (hs hv).2), error_bind]

theorem writePair_fault {k : TrapKind} {op : Opnd} {lo hi : Word} {s : State}
    (h : PairFault k false op s fun u => memWrite .word (eaOf op 4 s) lo s = .ok u) :
    writePair op lo hi s = .error (.trap k) := by
  obtain ⟨hd, hi, ⟨rfl, hr, h⟩ | ⟨rfl, hp, h2, h⟩⟩ := h
  · simp only [writePair, hd, Bool.false_eq_true, if_false]
    rcases pair_stackFault hi hr h with h | ⟨h, h'⟩
    · simp only [h, error_bind]
    · simp only [h, h', ok_bind, error_bind]
  · simp only [writePair, hd, Bool.false_eq_true, if_false, locate_ok hp, ok_bind, spCheckSecond_ok h2]
    rcases h with h | ⟨u, hu, h⟩
    · simp only [memWrite_fault h, error_bind]
    · simp only [hu, ok_bind, memWrite_fault h, error_bind]

end Sys2Proof.Machine
end

