-- ==== Sys2Proof/Laws/Steps.lean ====
section
/-! SUPPORT. What the parts of a step answer (R313, R344, R350), in the terms of Safety. -/

namespace Sys2Proof.Machine

theorem takeInput_of_quietly {s s1 : State} (h : Quietly s s1) : takeInput s = (.quiet, s1) := by
  rcases h with ⟨h, rfl⟩ | ⟨l, h, rfl⟩
  · cases s1; simp only at h; subst h; rfl
  · simp [takeInput, h]

theorem fetchWords_of_words {s : State} {w w2 : PWord} (h : WordsAtPc s w w2) : fetchWords s = some [w, w2] := by
  obtain ⟨h1, h2 | ⟨h2, rfl⟩⟩ := h
  · simp [fetchWords, h1, h2]
  · have : progRead s (s.pc.toNat + 2) = none := by simp [progRead, h2]
    simp [fetchWords, h1, this]

theorem startPass_of_begins {s1 s0 : State} (h : BeginsIn s1 s0) : s0 = startPass s1 := by
  obtain ⟨h, e⟩ := h
  have : s0.sr.ra = loopActive s1 := by rw [Bool.eq_iff_iff, h]; simp [loopActive]
  rw [e, this]; rfl

theorem prefetchFails_of_ok {i : Instr} {s : State} (h : PrefetchOk i s) : prefetchFails i s = false := by
  obtain ⟨h1, h2⟩ := h
  cases i <;> simp_all [prefetchFails]

theorem badTarget_iff (i : Instr) : badTarget i = true ↔ MayNotFollowRepeat i := by
  cases i <;> simp [badTarget, MayNotFollowRepeat]

theorem barred_iff (i : Instr) (s : State) :
    barred i s = true ↔ (s.sr.ra = true ∨ s.prev.afterRepeat = true) ∧ MayNotFollowRepeat i := by
  simp [barred, badTarget_iff]

theorem asksReset_iff (r : Result) : asksReset r = true ↔ ∃ t c, r = .next t ∧ t.event = some (.reset c) := by
  cases r with
  | next t =>
    cases h : t.event with
    | none => simp [asksReset, h]
    | some e => cases e <;> simp [asksReset, h]
  | fault f => simp [asksReset]
  | refused r => simp [asksReset]

/-- The step whose boundary is quiet and whose words decode. -/
theorem step_of_words {s s1 : State} {w w2 : PWord} {rest : List PWord} {i : Instr} (h1 : Quietly s s1)
    (h2 : WordsAtPc s1 w w2) (h3 : decode [w, w2] = .ok (i, rest)) : step s = runInstr i s1 := by
  simp [step, outerStep, takeInput_of_quietly h1, runAtPc, fetchWords_of_words h2, h3]

/-! ## Reset -/

theorem withoutPending_head (l : List Input) (v : Nat) (p : BitVec 4) :
    (withoutPending l).head? ≠ some (.request v p) := by
  unfold withoutPending; split
  · simp
  · rename_i h
    cases l with
    | nil => simp
    | cons x l => simp only [List.head?_cons, ne_eq, Option.some.injEq]; rintro rfl; exact h _ _ _ rfl

theorem withoutPending_reset {l : List Input} (h : l.head? = some .reset) : withoutPending l = l := by
  cases l with
  | nil => rfl
  | cons x l => cases h; rfl

/-- What the next boundary takes off the schedule, where no reset is presented there. -/
theorem withoutPending_quiet {l : List Input} (h : l.head? ≠ some .reset) :
    (withoutPending l).headD .quiet = .quiet ∧ (withoutPending l).tail = l.tail := by
  cases l with
  | nil => exact ⟨rfl, rfl⟩
  | cons x l => cases x <;> simp_all [withoutPending]

theorem isReset_deviceReset (c : ResetCause) (s : State) : IsReset s (deviceReset c s) := by
  have hr : ∀ n : Reg, n ≠ sp → State.reset.reg n = 0 ∧ State.reset.isInit n = false := by decide
  refine ⟨hr, rfl, rfl, rfl, (by show srWord State.reset.sr = 0; decide),
    (by show corconWord State.reset.corcon = 0; decide), rfl, rfl, ?_, rfl, rfl, rfl, rfl, rfl, rfl,
    withoutPending_head s.inputs⟩
  show (evenWord _).toNat % 2 = 0
  rw [evenWord_toNat]; omega

end Sys2Proof.Machine
end

