-- ==== Sys2Proof/Tests/Slice0.lean ====
section
/-! SUPPORT. Tests of the model: ill-formed terms refused, a word of every row decoded, vectors of 95_test_vectors.md
(its number beside each; the expected values are that file's), and for each statement with hypotheses a state that meets
them. -/

namespace Sys2Proof.Tests

set_option Elab.async false

open Sys2Proof.Machine

/-! ## WellFormed refuses what no encoding can write (R124 to R127) -/

/-- The two operands of a MOV share one `w` field (R124). -/
theorem test_wf_mov_one_base :
    Instr.wf (.mov .word (.offset 1 2) (.offset 3 4)) = false ∧
    Instr.wf (.mov .word (.offset 1 2) (.offset 3 2)) = true := by decide

/-- `MOV Wso,[W15++]` and `MOV [--W15],Wdo` are the PUSH and POP rows (R127, R130); with a `w` field they are MOV's. -/
theorem test_wf_mov_push_pop :
    Instr.wf (.mov .word (.direct 0) (.postInc 15)) = false ∧
    Instr.wf (.mov .word (.preDec 15) (.direct 0)) = false ∧
    Instr.wf (.mov .byte (.direct 0) (.postInc 15)) = true ∧
    Instr.wf (.mov .word (.offset 0 3) (.postInc 15)) = true ∧
    Instr.wf (.push (.offset 0 3)) = false ∧ Instr.wf (.pop (.offset 0 3)) = false ∧
    Instr.wf (.pop (.postInc 15)) = false := by decide

/-- Word addresses and bit addresses leave out bit 0 (R126). -/
theorem test_wf_even_addresses :
    Instr.wf (.movFWnd 0x0901 0) = false ∧ Instr.wf (.movWnsF 0 0x0901) = false ∧
    Instr.wf (.bset 0x0901 0) = false ∧ Instr.wf (.bclr 0x0901 0) = false ∧ Instr.wf (.btsc 0x0901 0) = false ∧
    Instr.wf (.goto 0x000201) = false ∧ Instr.wf (.call 0x000201) = false := by decide

/-- LNK's literal leaves out bit 0, MOV.D's pair names an even register (R126). -/
theorem test_wf_even_fields :
    Instr.wf (.lnk 3) = false ∧ Instr.wf (.movDLoad (.ind 0) 1) = false ∧
    Instr.wf (.movDStore 1 (.ind 0)) = false := by decide

/-- `[Wn+Wb]` stands in the MOV rows only (R125). -/
theorem test_wf_offset_is_mov_only :
    Instr.wf (.movDLoad (.offset 0 1) 2) = false ∧ Instr.wf (.movDStore 2 (.offset 0 1)) = false ∧
    Instr.wf (.add .word 0 (.offset 0 1) (.direct 2)) = false ∧
    Instr.wf (.add .word 0 (.direct 2) (.offset 0 1)) = false ∧
    Instr.wf (.mulUU 0 (.offset 0 1) 2) = false ∧ Instr.wf (.mulUS 0 (.offset 0 1) 2) = false ∧
    Instr.wf (.mulSU 0 (.offset 0 1) 2) = false ∧ Instr.wf (.mulSS 0 (.offset 0 1) 2) = false ∧
    Instr.wf (.sl .word (.offset 0 1) (.direct 2)) = false ∧
    Instr.wf (.lsr .word (.direct 2) (.offset 0 1)) = false ∧
    Instr.wf (.asr .word (.offset 0 1) (.direct 2)) = false ∧
    Instr.wf (.tblrdl .word (.offset 0 1) (.direct 2)) = false ∧
    Instr.wf (.tblrdh .word (.ind 0) (.offset 0 1)) = false ∧
    Instr.wf (.tblwtl .word (.direct 2) (.offset 0 1)) = false ∧
    Instr.wf (.tblwth .word (.offset 0 1) (.ind 2)) = false := by decide

/-! ## A word of every row of R127, its fields written out in the row's order -/

theorem test_decode_moves :
    decodeTableWord 24 0b01111_0101_1_100_1001_110_0011 = some (.mov .byte (.offset 3 5) (.preDec 9)) ∧
    decodeTableWord 24 0b10000_000010100000011_0100 = some (.movFWnd 0x0A06 4) ∧
    decodeTableWord 24 0b10001_000010010000001_0111 = some (.movWnsF 7 0x0902) ∧
    decodeTableWord 24 0b101101111_1_1_0100000000011 = some (.movWregF .byte 0x0803) ∧
    decodeTableWord 24 0b0010_0001001000110100_1001 = some (.movLit16 0x1234 9) ∧
    decodeTableWord 24 0b101100111100_01011010_0011 = some (.movLit8 0x5A 3) ∧
    decodeTableWord 24 0b1011111000000_011_0_011_0101 = some (.movDLoad (.postInc 5) 6) ∧
    decodeTableWord 24 0b1011111010_100_1001_000_010_0 = some (.movDStore 4 (.preDec 9)) := by decide +kernel

theorem test_decode_stack :
    decodeTableWord 24 0b01111000000111111_011_0011 = some (.push (.postInc 3)) ∧
    decodeTableWord 24 0b0111100000_001_0111_1001111 = some (.pop (.ind 7)) ∧
    decodeTableWord 24 0b111111101010000000000000 = some .pushS ∧
    decodeTableWord 24 0b111111101000000000000000 = some .popS ∧
    decodeTableWord 24 0b1111101000_0000010010010_0 = some (.lnk 0x0124) ∧
    decodeTableWord 24 0b111110101000000000000000 = some .ulnk := by decide +kernel

theorem test_decode_add_and_shifts :
    decodeTableWord 24 0b101101000_1_0_0100000000101 = some (.addF .byte 0x0805 false) ∧
    decodeTableWord 24 0b01000_0110_1_011_1000_010_0111 = some (.add .byte 6 (.postDec 7) (.postInc 8)) ∧
    decodeTableWord 24 0b110100000_0_101_1000_001_0111 = some (.sl .word (.ind 7) (.preInc 8)) ∧
    decodeTableWord 24 0b110111010_0001_0010_100_1101 = some (.slLit 1 13 2) ∧
    decodeTableWord 24 0b110111010_0001_0010_000_0011 = some (.slReg 1 3 2) ∧
    decodeTableWord 24 0b110100010_1_000_1000_100_0111 = some (.lsr .byte (.preDec 7) (.direct 8)) ∧
    decodeTableWord 24 0b110111100_0001_0010_100_1101 = some (.lsrLit 1 13 2) ∧
    decodeTableWord 24 0b110111100_0001_0010_000_0011 = some (.lsrReg 1 3 2) ∧
    decodeTableWord 24 0b110100011_0_010_1000_101_0111 = some (.asr .word (.preInc 7) (.postDec 8)) ∧
    decodeTableWord 24 0b110111101_0001_0010_100_1101 = some (.asrLit 1 13 2) ∧
    decodeTableWord 24 0b110111101_0001_0010_000_0011 = some (.asrReg 1 3 2) := by decide +kernel

theorem test_decode_multiply_divide :
    decodeTableWord 24 0b101110000_1001_0110_100_0101 = some (.mulUU 9 (.preDec 5) 6) ∧
    decodeTableWord 24 0b101110000_1001_0110_11_10101 = some (.mulUULit 9 21 6) ∧
    decodeTableWord 24 0b101110001_1001_0110_001_0101 = some (.mulUS 9 (.ind 5) 6) ∧
    decodeTableWord 24 0b101110010_1001_0110_000_0101 = some (.mulSU 9 (.direct 5) 6) ∧
    decodeTableWord 24 0b101110010_1001_0110_11_01010 = some (.mulSULit 9 10 6) ∧
    decodeTableWord 24 0b101110011_1001_0110_011_0101 = some (.mulSS 9 (.postInc 5) 6) ∧
    decodeTableWord 24 0b101111000_1_0_0100000000101 = some (.mulF .byte 0x0805) ∧
    decodeTableWord 24 0b1101100000000_0100_000_0111 = some (.divSW 4 7) ∧
    decodeTableWord 24 0b110110000_0101_0100_100_0111 = some (.divSD 5 4 7) ∧
    decodeTableWord 24 0b1101100010000_0100_000_0111 = some (.divUW 4 7) ∧
    decodeTableWord 24 0b110110001_0101_0100_100_0111 = some (.divUD 5 4 7) := by decide +kernel

theorem test_decode_bits_and_flow :
    decodeTableWord 24 0b10101000_011_010010000001_1 = some (.bset 0x0902 11) ∧
    decodeTableWord 24 0b10101001_101_010010000001_0 = some (.bclr 0x0902 5) ∧
    decodeTableWord 24 0b10101111_001_000000100001_0 = some (.btsc 0x0042 1) ∧
    decodeTableWord 24 0b00110111_1111111110111111 = some (.bra 0xFFBF) ∧
    decodeTableWord 48 0b00000000000000000_0000001_00000100_001000110100010_0 = some (.goto 0x012344) ∧
    decodeTableWord 48 0b00000000000000000_0000001_00000010_001000110100010_0 = some (.call 0x012344) ∧
    decodeTableWord 24 0b00000111_0000000001111110 = some (.rcall 0x007E) ∧
    decodeTableWord 24 0b000001100000000000000000 = some .ret ∧
    decodeTableWord 24 0b000001010_1_0101010101_0011 = some (.retlw .byte 0x155 3) ∧
    decodeTableWord 24 0b000001100100000000000000 = some .retfie := by decide +kernel

theorem test_decode_table_and_system :
    decodeTableWord 24 0b101110100_0_000_0001_011_0010 = some (.tblrdl .word (.postInc 2) (.direct 1)) ∧
    decodeTableWord 24 0b101110101_1_001_0001_001_0010 = some (.tblrdh .byte (.ind 2) (.ind 1)) ∧
    decodeTableWord 24 0b101110110_0_011_0001_000_0010 = some (.tblwtl .word (.direct 2) (.postInc 1)) ∧
    decodeTableWord 24 0b101110111_1_001_0001_100_0010 = some (.tblwth .byte (.preDec 2) (.ind 1)) ∧
    decodeTableWord 24 0b0000100100_00000000010001 = some (.repeatLit 17) ∧
    decodeTableWord 24 0b00001001100000000000_0011 = some (.repeatW 3) ∧
    decodeTableWord 24 0b00000000_1010101010101010 = some .nop ∧
    decodeTableWord 24 0b111111100000000000000000 = some .reset ∧
    decodeTableWord 24 0b1111110000_10000000000011 = some (.disi 0x2003) ∧
    decodeTableWord 24 0b11111110010000000000000_1 = some (.pwrsav 1) := by decide +kernel

/-- Words of no row (R128), the unused mode codes (R125), a second word with a bit of 23:7 set (R126). -/
theorem test_decode_rejects :
    decodeTableWord 24 0xFFFFFF = none ∧ decodeTableWord 24 0x010000 = none ∧
    decodeTableWord 24 0b01000_0110_1_111_1000_010_0111 = none ∧
    decodeTableWord 24 0b110100000_0_000_1000_110_0111 = none ∧
    decodeTableWord 48 0x000080040200 = none := by decide +kernel


/-! ## Vectors of 95_test_vectors.md -/

/-- The start state of that file: every register word-initialised, W15 = 0x0800, the given registers and data words. -/
def start (ws : List (Reg × Word)) (ms : List (Word × Word)) : State :=
  ms.foldl (fun s m => ramWrite s .word m.1 m.2)
    (ws.foldl (fun s r => s.setW r.1 r.2)
      { State.reset with
        winit := #v[true, true, true, true, true, true, true, true, true, true, true, true, true, true, true, true] })

/-- C Z N OV DC, in the order of V42. -/
def flagsAre (t : State) (c z n ov dc : Bool) : Bool := t.sr.flags = ⟨dc, n, ov, z, c⟩

/-- V40.5 (T4): the data write to the pointer's own address dominates. V40.6: another register's address does not. -/
theorem test_mov_data_write_dominates :
    (answersB (exec (.mov .word (.direct 1) (.postInc 2)) (start [(1, 0x1234), (2, 0x0004)] []))
      fun t => t.reg 2 = 0x1234 && t.pc = 2) = true ∧
    (answersB (exec (.mov .word (.direct 1) (.postInc 2)) (start [(1, 0x1234), (2, 0x0006)] []))
      fun t => t.reg 3 = 0x1234 && t.reg 2 = 0x0008) = true := by decide +kernel

/-- A byte store on the register that the source form steps: the stored byte, and the other byte as it was (R85, R86;
notes/assumptions/42.md). -/
theorem test_mov_data_write_dominates_source :
    (answersB (exec (.mov .byte (.postInc 2) (.ind 3)) (start [(2, 0x09FF), (3, 0x0005)] [(0x09FE, 0xABCD)]))
      fun t => t.reg 2 = 0xABFF && t.reg 3 = 0x0005) = true ∧
    (answersB (exec (.mov .byte (.postInc 2) (.ind 3)) (start [(2, 0x09FF), (3, 0x0004)] [(0x09FE, 0xABCD)]))
      fun t => t.reg 2 = 0x09AB) = true := by decide +kernel

/-- R100 on an address that W15's contents generate as the offset register: below 0x0800, at SPLIM + 2 and past it. -/
theorem test_offset_stack_check :
    let s := { start [(1, 0xFFFE), (2, 2), (3, 4), (15, 0x0800)] [(0x0802, 7)] with splim := 0x0800, splimen := true }
    (answersB (exec (.mov .word (.offset 1 15) (.direct 4)) { s with splimen := false })
      fun t => t.event = some (.trap .stackError)) = true ∧
    (answersB (exec (.mov .word (.offset 2 15) (.direct 4)) s) fun t => t.reg 4 = 7 && t.event = none) = true ∧
    (answersB (exec (.mov .word (.offset 3 15) (.direct 4)) s) fun t => t.event = some (.trap .stackError)) = true := by
  decide +kernel

/-- V40.7, V40.9, V40.11: the pointer forms. -/
theorem test_mov_pointers :
    (answersB (exec (.mov .word (.preDec 1) (.direct 2)) (start [(1, 0x0902)] [(0x0900, 0x7777)]))
      fun t => t.reg 1 = 0x0900 && t.reg 2 = 0x7777) = true ∧
    (answersB (exec (.mov .word (.postDec 1) (.direct 2)) (start [(1, 0x0902)] [(0x0902, 0x9999)]))
      fun t => t.reg 1 = 0x0900 && t.reg 2 = 0x9999) = true ∧
    (answersB (exec (.mov .byte (.postInc 2) (.direct 3)) (start [(2, 0x0901), (3, 0xFF00)] [(0x0900, 0xBEEF)]))
      fun t => t.reg 3 = 0xFFBE && t.reg 2 = 0x0902) = true := by decide +kernel

/-- V40.21 (T3), V40.22, V40.38. -/
theorem test_mov_f_wnd :
    (answersB (exec (.movFWnd 0x0004 10) (start [(2, 0x7777)] [])) fun t => t.reg 10 = 0x7777) = true ∧
    (answersB (exec (.movFWnd 0x27FE 5) (start [] [(0x27FE, 0x4321)])) fun t => t.reg 5 = 0x4321) = true ∧
    (answersB (exec (.movFWnd 0x0042 6) ((start [] []).setFlags ⟨false, false, false, true, true⟩))
      fun t => t.reg 6 = 0x0003) = true := by decide +kernel

/-- V40.23, V40.25, V40.26. -/
theorem test_mov_wns_f :
    (answersB (exec (.movWnsF 3 0x0904) (start [(3, 0xCAFE)] [])) fun t => ramRead t .word 0x0904 = 0xCAFE) = true ∧
    (answersB (exec (.movWnsF 3 0x0020) (start [(3, 0x1FFF)] [])) fun t => t.splim = 0x1FFE && t.splimen) = true ∧
    (answersB (exec (.movWnsF 3 0x001E) (start [(3, 0x0901)] [])) fun t => t.reg 15 = 0x0900) = true := by decide +kernel

/-- V40.27, V40.28: a register through its data address, word and byte. -/
theorem test_mov_wreg_f :
    (answersB (exec (.movWregF .word 0x0006) { start [(0, 0x1234), (3, 0)] [] with winit := State.reset.winit })
      fun t => t.reg 3 = 0x1234 && t.isInit 3) = true ∧
    (answersB (exec (.movWregF .byte 0x0007) { start [(0, 0x1234), (3, 0xAAAA)] [] with winit := State.reset.winit })
      fun t => t.reg 3 = 0x34AA && !t.isInit 3) = true := by decide +kernel

/-- V40.30, V40.32 (W15<0> is 0), V40.31. -/
theorem test_mov_literals :
    (answersB (exec (.movLit16 0xFFFF 5) State.reset) fun t => t.reg 5 = 0xFFFF && t.isInit 5) = true ∧
    (answersB (exec (.movLit16 0x0901 15) State.reset) fun t => t.reg 15 = 0x0900) = true ∧
    (answersB (exec (.movLit8 0x12 5) (start [(5, 0xFFFF)] [])) fun t => t.reg 5 = 0xFF12) = true := by decide +kernel

/-- V40.33, V40.35. -/
theorem test_movD_load :
    (answersB (exec (.movDLoad (.postInc 0) 2) (start [(0, 0x1234)] [(0x1234, 0x1111), (0x1236, 0x2222)]))
      fun t => t.reg 2 = 0x1111 && t.reg 3 = 0x2222 && t.reg 0 = 0x1238) = true ∧
    (answersB (exec (.movDLoad (.direct 4) 6) (start [(4, 0xAAAA), (5, 0xBBBB)] []))
      fun t => t.reg 6 = 0xAAAA && t.reg 7 = 0xBBBB) = true := by decide +kernel

/-- V40.36, V40.37. -/
theorem test_movD_store :
    (answersB (exec (.movDStore 2 (.postInc 15)) (start [(2, 0x1111), (3, 0x2222)] []))
      fun t => ramRead t .word 0x0800 = 0x1111 && ramRead t .word 0x0802 = 0x2222 && t.reg 15 = 0x0804) = true ∧
    (answersB (exec (.movDStore 2 (.preDec 1)) (start [(2, 0x1111), (3, 0x2222), (1, 0x0908)] []))
      fun t => ramRead t .word 0x0904 = 0x1111 && ramRead t .word 0x0906 = 0x2222 && t.reg 1 = 0x0904) = true := by
  decide +kernel

/-- V41.1 (T6), V41.4. -/
theorem test_push :
    (answersB (exec (.push (.direct 0)) (start [(0, 0x5A5A)] []))
      fun t => ramRead t .word 0x0800 = 0x5A5A && t.reg 15 = 0x0802) = true ∧
    (answersB (exec (.push (.direct 15)) (start [(15, 0x0802)] []))
      fun t => ramRead t .word 0x0802 = 0x0802 && t.reg 15 = 0x0804) = true := by decide +kernel

/-- V41.6 to V41.8 (T18): the limit of SPLIM + 2, and the check that is off before SPLIM is written. -/
theorem test_push_limit :
    (answersB (exec (.push (.direct 0)) { start [(0, 7), (15, 0x2000)] [] with splim := 0x1FFE, splimen := true })
      fun t => ramRead t .word 0x2000 = 7 && t.reg 15 = 0x2002 && t.event = none) = true ∧
    (answersB (exec (.push (.direct 0)) { start [(0, 7), (15, 0x2002)] [] with splim := 0x1FFE, splimen := true })
      fun t => t.event = some (.trap .stackError)) = true ∧
    (answersB (exec (.push (.direct 0)) { start [(0, 7), (15, 0x2002)] [] with splim := 0x1FFE })
      fun t => ramRead t .word 0x2002 = 7 && t.reg 15 = 0x2004) = true := by decide +kernel

/-- V41.10: the post-increment of W15 carries out of 16 bits. -/
theorem test_push_carry :
    exec (.push (.direct 0)) { start [(0, 7), (15, 0xFFFE)] [] with
      splim := 0xFFFC, splimen := true
      dev := { State.reset.dev with dataImpl := [(0x0800, 0xFFFF)], runOn := false } } = .fault .stackError := rfl

/-- V41.2 (T6), V41.5. -/
theorem test_pop :
    (answersB (exec (.pop (.direct 3)) (start [(15, 0x0804)] [(0x0802, 0x3636)]))
      fun t => t.reg 3 = 0x3636 && t.reg 15 = 0x0802 && ramRead t .word 0x0802 = 0x3636) = true ∧
    (answersB (exec (.pop (.direct 15)) (start [(15, 0x0804)] [(0x0802, 0x0900)])) fun t => t.reg 15 = 0x0900) = true := by
  decide +kernel

/-- V41.11 and V41.12 together. -/
theorem test_pushS_popS :
    (answersB (exec .pushS ((start [(0, 1), (1, 2), (2, 3), (3, 4)] []).setFlags ⟨true, false, false, true, true⟩))
      fun t => t.wsh = #v[1, 2, 3, 4] && t.srsh = ⟨true, false, false, true, true⟩ && t.reg 15 = 0x0800) = true ∧
    (answersB (exec .popS { start [(0, 9), (1, 9), (2, 9), (3, 9)] [] with
        wsh := #v[1, 2, 3, 4], srsh := ⟨true, false, false, true, true⟩
        sr := ⟨⟨false, true, false, false, false⟩, 7, false⟩ })
      fun t => t.reg 0 = 1 && t.reg 1 = 2 && t.reg 2 = 3 && t.reg 3 = 4 && srWord t.sr = 0x01E3) = true := by decide +kernel

/-- V41.15, V41.16. -/
theorem test_lnk_ulnk :
    (answersB (exec (.lnk 4) (start [(15, 0x0810), (14, 0xAAAA)] []))
      fun t => ramRead t .word 0x0810 = 0xAAAA && t.reg 14 = 0x0812 && t.reg 15 = 0x0816) = true ∧
    (answersB (exec .ulnk (start [(15, 0x0816), (14, 0x0812)] [(0x0810, 0xAAAA)]))
      fun t => t.reg 15 = 0x0810 && t.reg 14 = 0xAAAA) = true := by decide +kernel

/-- V41.18: W14 = 0 with the stack limit never written, and W14 = 0x0800. -/
theorem test_ulnk_w14_zero :
    (answersB (exec .ulnk (start [(14, 0)] [])) fun t => t.event = some (.trap .addressError)) = true ∧
    (answersB (exec .ulnk (start [(14, 0x0800)] [])) fun t => t.event = some (.trap .stackError)) = true := by
  decide +kernel

/-- V42.14, V42.16, V42.17. -/
theorem test_add_f :
    (answersB (exec (.addF .word 0x0900 true) (start [(0, 0x0003)] [(0x0900, 0xFFFD)]))
      fun t => ramRead t .word 0x0900 = 0 && t.reg 0 = 3 && flagsAre t true true false false true) = true ∧
    (answersB (exec (.addF .byte 0x0900 false) (start [(0, 0x12FF)] [(0x0900, 0x0001)]))
      fun t => t.reg 0 = 0x1200 && flagsAre t true true false false true) = true ∧
    (answersB (exec (.addF .word 0x0000 true) (start [(0, 0x4000)] []))
      fun t => t.reg 0 = 0x8000 && flagsAre t false false true true false) = true := by decide +kernel

/-- ADD on SR's own address writes the sum first and the flags after (R191, D32): the IPL<2:0> of the sum 0x00E8 stays, its
bit 3 gives way to the flag N of the sum. -/
theorem test_add_f_on_sr :
    (answersB (exec (.addF .word 0x0042 true) { start [(0, 0x00E8)] [] with pc := 0x200 })
      fun t => t.sr.ipl = 7 && flagsAre t false false false false false && t.pc = 0x202) = true := by decide +kernel

/-- V42.1, V42.6, V42.20. -/
theorem test_add_words :
    (answersB (exec (.add .word 0 (.direct 1) (.direct 2)) (start [(0, 0x7FFF), (1, 1)] []))
      fun t => t.reg 2 = 0x8000 && flagsAre t false false true true true) = true ∧
    (answersB (exec (.add .word 0 (.direct 1) (.direct 2)) (start [(0, 0x8000), (1, 0xFFFF)] []))
      fun t => t.reg 2 = 0x7FFF && flagsAre t true false false true false) = true ∧
    (answersB (exec (.add .word 0 (.postInc 4) (.postInc 5)) (start [(0, 1), (4, 0x0900), (5, 0x0910)] [(0x0900, 0x00FF)]))
      fun t => ramRead t .word 0x0910 = 0x0100 && t.reg 4 = 0x0902 && t.reg 5 = 0x0912 &&
        flagsAre t false false false false true) = true := by decide +kernel

/-- V42.19, V42.13. -/
theorem test_add_bytes :
    (answersB (exec (.add .byte 0 (.direct 1) (.direct 2)) (start [(0, 0x12F0), (1, 0x3410), (2, 0xAAAA)] []))
      fun t => t.reg 2 = 0xAA00 && flagsAre t true true false false false) = true ∧
    (answersB (exec (.add .byte 0 (.direct 1) (.direct 2)) (start [(0, 0x7F), (1, 0x01), (2, 0)] []))
      fun t => t.reg 2 = 0x0080 && flagsAre t false false true true true) = true := by decide +kernel

/-- V43.1 to V43.4, V43.8, V43.10, V43.11. -/
theorem test_multiply :
    (answersB (exec (.mulUU 0 (.direct 1) 2) (start [(0, 0xFFFF), (1, 0xFFFF)] []))
      fun t => pairValue 2 t = 0xFFFE0001) = true ∧
    (answersB (exec (.mulSS 0 (.direct 1) 2) (start [(0, 0x8000), (1, 0x7FFF)] []))
      fun t => pairValue 2 t = 0xC0008000) = true ∧
    (answersB (exec (.mulSU 0 (.direct 1) 2) (start [(0, 0x0002), (1, 0xFFFF)] []))
      fun t => pairValue 2 t = 0x0001FFFE) = true ∧
    (answersB (exec (.mulUS 0 (.direct 1) 2) (start [(0, 0x0002), (1, 0xFFFF)] []))
      fun t => pairValue 2 t = 0xFFFFFFFE) = true ∧
    (answersB (exec (.mulUULit 0 16 2) (start [(0, 0x1234)] [])) fun t => pairValue 2 t = 0x00012340) = true ∧
    (answersB (exec (.mulSULit 0 31 2) (start [(0, 0xFFFE)] [])) fun t => pairValue 2 t = 0xFFFFFFC2) = true := by
  decide +kernel

/-- V43.16: the source pointer steps. -/
theorem test_multiply_pointer :
    (answersB (exec (.mulUU 0 (.postInc 1) 2) (start [(0, 2), (1, 0x0900)] [(0x0900, 3)]))
      fun t => pairValue 2 t = 6 && t.reg 1 = 0x0902) = true := by decide +kernel

/-- V43.17, V43.18. -/
theorem test_multiply_file :
    (answersB (exec (.mulF .word 0x0900) (start [(0, 0xFFFF)] [(0x0900, 0xFFFF)]))
      fun t => pairValue 2 t = 0xFFFE0001) = true ∧
    (answersB (exec (.mulF .byte 0x0900) (start [(0, 0x12FF), (3, 0x7777)] [(0x0900, 0x00FF)]))
      fun t => t.reg 2 = 0xFE01 && t.reg 3 = 0x7777) = true := by decide +kernel

/-- A divide about to do its last execution: seventeen done, undisturbed. -/
def lastPass (kind : DivKind) (a : BitVec 32) (d : Word) (n : Reg) : State :=
  { start [(n, d), (0, 0), (1, 0)] [] with divGhost := some ⟨kind, a, d, 17, 0, 0, false, false, false⟩ }

/-- V43.20, V43.26, V43.28, V43.31: quotient and remainder. -/
theorem test_divide_results :
    (answersB (exec (.divSW 4 5) (lastPass .sw 0x0000FFF9 0x0002 5))
      fun t => t.reg 0 = 0xFFFD && t.reg 1 = 0xFFFF) = true ∧
    (answersB (exec (.divUW 3 2) (lastPass .uw 0x0000FFFF 0x0010 2))
      fun t => t.reg 0 = 0x0FFF && t.reg 1 = 0x000F) = true ∧
    (answersB (exec (.divSD 5 4 2) (lastPass .sd 0x00010000 0x0003 2))
      fun t => t.reg 0 = 0x5555 && t.reg 1 = 0x0001) = true ∧
    (answersB (exec (.divUD 5 4 6) (lastPass .ud 0x00012345 0x0100 6))
      fun t => t.reg 0 = 0x0123 && t.reg 1 = 0x0045) = true := by decide +kernel

/-- V44.2, V44.3, V44.4, V44.7, V44.9. -/
theorem test_shift_by_one :
    (answersB (exec (.sl .word (.direct 1) (.direct 2)) (start [(1, 0x8000)] []))
      fun t => t.reg 2 = 0 && t.sr.flags.c && !t.sr.flags.n && t.sr.flags.z) = true ∧
    (answersB (exec (.sl .byte (.direct 1) (.direct 2)) (start [(1, 0x12C1), (2, 0xAA00)] []))
      fun t => t.reg 2 = 0xAA82 && t.sr.flags.c && t.sr.flags.n && !t.sr.flags.z) = true ∧
    (answersB (exec (.lsr .word (.direct 1) (.direct 2)) (start [(1, 0x8003)] []))
      fun t => t.reg 2 = 0x4001 && t.sr.flags.c && !t.sr.flags.n && !t.sr.flags.z) = true ∧
    (answersB (exec (.asr .word (.direct 1) (.direct 2)) (start [(1, 0xFFFF)] []))
      fun t => t.reg 2 = 0xFFFF && t.sr.flags.c && t.sr.flags.n && !t.sr.flags.z) = true ∧
    (answersB (exec (.asr .byte (.direct 1) (.direct 2)) (start [(1, 0x0081), (2, 0)] []))
      fun t => t.reg 2 = 0x00C0 && t.sr.flags.c && t.sr.flags.n && !t.sr.flags.z) = true := by decide +kernel

/-- V44.13, V44.15, V44.17, V44.18, V44.20, V44.21. -/
theorem test_shift_by_count :
    (answersB (exec (.slLit 0 15 1) (start [(0, 0x0002)] []))
      fun t => t.reg 1 = 0 && !t.sr.flags.n && t.sr.flags.z) = true ∧
    (answersB (exec (.slReg 0 2 1) (start [(0, 0x0001), (2, 0x000F)] []))
      fun t => t.reg 1 = 0x8000 && t.sr.flags.n && !t.sr.flags.z) = true ∧
    (answersB (exec (.lsrLit 0 4 1) (start [(0, 0xF00F)] [])) fun t => t.reg 1 = 0x0F00) = true ∧
    (answersB (exec (.lsrReg 0 2 1) (start [(0, 0x8000), (2, 15)] [])) fun t => t.reg 1 = 0x0001) = true ∧
    (answersB (exec (.asrLit 0 4 1) (start [(0, 0xFF00)] [])) fun t => t.reg 1 = 0xFFF0 && t.sr.flags.n) = true ∧
    (answersB (exec (.asrReg 0 2 1) (start [(0, 0x8000), (2, 15)] [])) fun t => t.reg 1 = 0xFFFF) = true := by
  decide +kernel

/-- V45.2, V45.4 to V45.7, V45.9, V45.10, V45.12. -/
theorem test_bset :
    (answersB (exec (.bset 0x0042 0) (start [] [])) fun t => srWord t.sr = 0x0001) = true ∧
    (answersB (exec (.bset 0x0042 9) (start [] [])) fun t => srWord t.sr = 0x0000) = true ∧
    (answersB (exec (.bset 0x0044 3) (start [] [])) fun t => corconWord t.corcon = 0x0000) = true ∧
    (answersB (exec (.bset 0x0044 2) (start [] [])) fun t => corconWord t.corcon = 0x0004) = true ∧
    (answersB (exec (.bset 0x001E 0) (start [] [])) fun t => t.reg 15 = 0x0800) = true ∧
    (answersB (exec (.bset 0x0900 9) (start [] [(0x0900, 0)])) fun t => ramRead t .word 0x0900 = 0x0200) = true ∧
    (answersB (exec (.bset 0x0042 4) (start [] [])) fun t => srWord t.sr = 0x0000) = true ∧
    (answersB (exec (.bset 0x0042 8) (start [] [])) fun t => srWord t.sr = 0x0100) = true := by decide +kernel

/-- V45.3, V45.8, V45.11. -/
theorem test_bclr :
    (answersB (exec (.bclr 0x0900 15) (start [] [(0x0900, 0xFFFF)])) fun t => ramRead t .word 0x0900 = 0x7FFF) = true ∧
    (answersB (exec (.bclr 0x0044 3) { start [] [] with corcon := ⟨true, false⟩ })
      fun t => corconWord t.corcon = 0) = true ∧
    (answersB (exec (.bclr 0x0004 0) { start [(2, 3)] [] with winit := State.reset.winit })
      fun t => t.reg 2 = 2 && !t.isInit 2) = true := by decide +kernel

/-- A CALL whose return address would leave program space asks for the address error (R32, D5; notes/assumptions/32.md). -/
theorem test_call_at_the_end :
    (answersB (exec (.call 0x000300) { start [] [] with pc := 0x7FFFFC })
      fun t => t.event = some (.trap .addressError) && t.pc = 0) = true := by decide +kernel

/-- V45.13 to V45.15. -/
theorem test_btsc :
    (answersB (exec (.btsc 0x0042 1) { (start [] []).setFlags ⟨false, false, false, true, false⟩ with pc := 0x200 })
      fun t => t.pc = 0x202) = true ∧
    (answersB (exec (.btsc 0x0042 1) { start [] [] with pc := 0x200 }) fun t => t.pc = 0x204) = true ∧
    (answersB (exec (.btsc 0x0042 1) { start [] [] with pc := 0x200, prog := [(0x202, 0x040300)] })
      fun t => t.pc = 0x206) = true := by decide +kernel

/-- V46.1, V46.2, V46.3, V46.5. -/
theorem test_bra_goto :
    (answersB (exec (.bra 0x0007) { start [] [] with pc := 0x200 }) fun t => t.pc = 0x210) = true ∧
    (answersB (exec (.bra 0xFFFF) { start [] [] with pc := 0x200 }) fun t => t.pc = 0x200) = true ∧
    (answersB (exec (.bra 0x8000) { start [] [] with pc := 0x10000 }) fun t => t.pc = 0x000002) = true ∧
    (answersB (exec (.goto 0x012344) { start [] [] with pc := 0x200 }) fun t => t.pc = 0x012344) = true := by
  decide +kernel

/-- V46.7, V46.8. -/
theorem test_call_rcall :
    (answersB (exec (.call 0x000300) { start [] [] with pc := 0x01FFFC }) fun t =>
      ramRead t .word 0x0800 = 0x0000 && ramRead t .word 0x0802 = 0x0002 && t.reg 15 = 0x0804 && t.pc = 0x300) = true ∧
    (answersB (exec (.rcall 0xFFBF) { start [(15, 0x0810)] [] with pc := 0x300 }) fun t =>
      ramRead t .word 0x0810 = 0x0302 && ramRead t .word 0x0812 = 0 && t.reg 15 = 0x0814 && t.pc = 0x280) = true := by
  decide +kernel

/-- V46.10, V46.12, V46.13, V46.14. -/
theorem test_returns :
    (answersB (exec .ret (start [(15, 0x0804)] [(0x0800, 0x0205), (0x0802, 0xFF81)]))
      fun t => t.pc = 0x010204 && t.reg 15 = 0x0800) = true ∧
    (answersB (exec (.retlw .word 0x55 0) (start [(15, 0x0804), (0, 0xFFFF)] [(0x0800, 0x0204), (0x0802, 0)]))
      fun t => t.reg 0 = 0x0055 && t.pc = 0x204 && t.reg 15 = 0x0800) = true ∧
    (answersB (exec (.retlw .byte 0x155 0) (start [(15, 0x0804), (0, 0xFFFF)] [(0x0800, 0x0204), (0x0802, 0)]))
      fun t => t.reg 0 = 0xFF55) = true ∧
    (answersB (exec .retfie { start [(15, 0x0804)] [(0x0800, 0x0210), (0x0802, 0x8A01)] with
        sr := ⟨⟨true, false, false, false, false⟩, 0, false⟩, corcon := ⟨true, false⟩ })
      fun t => t.pc = 0x010210 && srWord t.sr = 0x018A && corconWord t.corcon = 0 && t.reg 15 = 0x0800) = true := by
  decide +kernel

/-- The program memory of V47. -/
def tables (ws : List (Reg × Word)) (page : Byte) : State :=
  { start ws [] with prog := [(0x001234, 0xABCDEF), (0x011234, 0x123456)], tblpag := page }

/-- V47.1, V47.4, V47.8. -/
theorem test_tblrdl :
    (answersB (exec (.tblrdl .word (.postInc 0) (.direct 1)) (tables [(0, 0x1234)] 0))
      fun t => t.reg 1 = 0xCDEF && t.reg 0 = 0x1236) = true ∧
    (answersB (exec (.tblrdl .byte (.ind 0) (.direct 1)) (tables [(0, 0x1235), (1, 0xFF00)] 0))
      fun t => t.reg 1 = 0xFFCD) = true ∧
    (answersB (exec (.tblrdl .word (.ind 0) (.direct 1)) (tables [(0, 0x1234)] 1)) fun t => t.reg 1 = 0x3456) = true := by
  decide +kernel

/-- V47.2, V47.5, V47.6. -/
theorem test_tblrdh :
    (answersB (exec (.tblrdh .word (.ind 0) (.direct 2)) (tables [(0, 0x1234)] 0)) fun t => t.reg 2 = 0x00AB) = true ∧
    (answersB (exec (.tblrdh .byte (.ind 0) (.direct 1)) (tables [(0, 0x1234), (1, 0xFF00)] 0))
      fun t => t.reg 1 = 0xFFAB) = true ∧
    (answersB (exec (.tblrdh .byte (.ind 0) (.direct 1)) (tables [(0, 0x1235), (1, 0xFFFF)] 0))
      fun t => t.reg 1 = 0xFF00) = true := by decide +kernel

/-- V48.1, V48.2, V48.10. -/
theorem test_repeat_disi :
    (answersB (exec (.repeatLit 2) { start [] [] with rcount := 0x1234 }) fun t => t.rcount = 2 && t.sr.ra && t.pc = 2) =
      true ∧
    (answersB (exec (.repeatLit 0) { start [] [] with rcount := 0x1234 }) fun t => t.rcount = 0 && !t.sr.ra) = true ∧
    (answersB (exec (.repeatW 3) (start [(3, 0x3FFF)] [])) fun t => t.rcount = 0x3FFF && t.sr.ra) = true ∧
    (answersB (exec (.disi 0) { start [] [] with disicnt := 5 }) fun t => t.disicnt = 0) = true := by decide +kernel

/-- V48.7: RA = 1 with RCOUNT = 0 is no loop. V48.9, V48.11: DISICNT counts cycles, one for a MOV, three for a RETURN. -/
theorem test_step_counts :
    (answersB (step (({ start [] [] with sr := ⟨⟨false, false, false, false, false⟩, 0, true⟩ }).withFetchWord 24 0))
      fun t => t.pc = 2 && !t.sr.ra) = true ∧
    (answersB (step (({ start [] [] with disicnt := 3 }).withFetchWord 24 0x780080)) fun t => t.disicnt = 2) = true ∧
    (answersB (step (({ start [(15, 0x0804)] [(0x0800, 0x0204), (0x0802, 0)] with disicnt := 2 }).withFetchWord 24 0x060000))
      fun t => t.disicnt = 0 && t.pc = 0x204) = true := by decide +kernel

/-- The cycles of V70.7 (a MOV whose source address register the instruction before modified), of V70.8 (the same
after a CALL), of a BTSC that skips two words, of a read through the PSV window, and of its later passes in a loop. -/
theorem test_cycles :
    let stalled := fun n : Reg => { start [] [] with prev := ⟨1 <<< n.val, false, false, false⟩ }
    let psv := fun mid => { start [] [] with cur := ⟨true, 0, false, false⟩, prev := ⟨0, false, mid, false⟩ }
    cyclesOf (.mov .word (.ind 1) (.ind 4)) (stalled 1) (start [] []) = 2 ∧
    cyclesOf (.mov .word (.preDec 15) (.direct 0)) (stalled 15) (start [] []) = 2 ∧
    cyclesOf (.mov .word (.direct 2) (.ind 1)) (stalled 1) (start [] []) = 1 ∧
    cyclesOf (.btsc 0x0900 0) (start [] []) { start [] [] with pc := 6 } = 3 ∧
    cyclesOf (.mov .word (.ind 1) (.direct 2)) (psv false) (psv false) = 3 ∧
    cyclesOf (.mov .word (.ind 1) (.direct 2)) (psv true) (psv true) = 1 := by decide +kernel

/-- After a REPEAT #0 there is no loop, and the next instruction still knows of the REPEAT (R311, R405). -/
theorem test_repeat_zero_is_noted :
    (answersB (step ((start [] []).withFetchWord 24 0x090000)) fun t => t.prev.afterRepeat && !t.sr.ra && t.pc = 2) =
      true := by decide +kernel

/-- V60.1: an interrupt at a REPEAT target. V60.4: one at level 6. -/
theorem test_enter :
    (match enter 20 4 0x000204 { start [(15, 0x0900)] [] with
        sr := ⟨⟨false, false, false, false, true⟩, 0, true⟩, rcount := 5, prog := [(0x00002C, 0x001000)] } with
      | .ok t => ramRead t .word 0x0900 = 0x0204 && ramRead t .word 0x0902 = 0x1100 && t.reg 15 = 0x0904 &&
          srWord t.sr = 0x0081 && t.rcount = 5 && t.pc = 0x001000
      | .error _ => false) = true ∧
    (match enter 31 6 0x012346 { start [(15, 0x0900)] [] with
        sr := ⟨⟨false, false, false, false, false⟩, 5, false⟩, prog := [(0x000042, 0x002000)] } with
      | .ok t => ramRead t .word 0x0900 = 0x2346 && ramRead t .word 0x0902 = 0xA001 && srWord t.sr = 0x00C0 &&
          t.pc = 0x002000
      | .error _ => false) = true := by decide +kernel

/-- An excluded target that an exception delayed is refused after the RETFIE too, although RA and RCOUNT say of no
loop (R277, R316; notes/assumptions/26.md). -/
theorem test_delayed_target_is_noted :
    (match enter 20 4 0x000202 { start [] [] with prev := ⟨0, false, false, true⟩ } with
      | .ok t => answersB (step (t.withFetchWord 24 0x064000)) fun u =>
          u.pc = 0x000202 && u.prev.afterRepeat && !u.sr.ra && u.delayed = [] &&
            (match step (u.withFetchWord 24 0x370007) with
              | .refused e => e = .repeatBadTarget
              | .next _ => false
              | .fault _ => false)
      | .error _ => false) = true ∧
    step (({ start [] [] with sr := ⟨⟨false, false, false, false, false⟩, 0, true⟩ }).withFetchWord 24 0x370007) =
      .refused .repeatBadTarget :=
  ⟨by decide +kernel, rfl⟩

/-- V40.19, V40.20, V40.34, V41.19, V43.14, V43.34, V43.36, V43.37, V44.16, V47.9, V48.5: the refusals. -/
theorem test_refusals :
    exec (.mov .word (.direct 2) (.ind 1)) { start [(1, 0x8002)] [] with corcon := ⟨false, true⟩ } = .refused .psvWrite ∧
    exec (.mov .word (.postInc 0) (.postInc 0)) (start [(0, 0x0900)] []) = .refused .sameRegTwiceModified ∧
    exec (.movDLoad (.postInc 0) 1) (start [(0, 0x1234)] []) = .refused .movDOddRegister ∧
    exec (.lnk 3) (start [] []) = .refused .lnkOddLiteral ∧
    exec (.mulUU 0 (.direct 1) 14) (start [] []) = .refused .mulBadDest ∧
    exec (.divSW 4 5) (start [] []) = .refused .divideMisuse ∧
    exec (.divSD 4 3 2) (start [] []) = .refused .divBadOperand ∧
    exec (.divUW 4 1) (start [] []) = .refused .divBadOperand ∧
    exec (.slReg 0 2 1) (start [(2, 0x0010)] []) = .refused .shiftCountOver15 ∧
    exec (.repeatW 3) (start [(3, 0x4000)] []) = .refused .repeatCountTooWide ∧
    exec (.tblrdl .word (.ind 0) (.direct 1)) { start [] [] with tblpag := 0x80 } = .refused .tableTestSpace :=
  ⟨rfl, rfl, rfl, rfl, rfl, rfl, rfl, rfl, rfl, rfl, rfl⟩

/-- V40.12, V40.14: an uninitialised pointer resets the device; an odd word address asks for the trap's handler. -/
theorem test_bad_pointers :
    (answersB (exec (.mov .word (.ind 1) (.direct 2)) State.reset) fun t =>
      t.event = some (.reset .uninitW) && t.reg 15 = 0x0800 && t.pc = 0) = true ∧
    (answersB (exec (.mov .word (.ind 1) (.direct 2)) (start [(1, 0x0901)] [])) fun t =>
      t.event = some (.trap .addressError) && t.pc = 2) = true := by decide +kernel

/-! ## A state that meets the hypotheses of each statement -/

/-- Helper: an outcome that is a next state with a property gives that state. -/
theorem next_of {r : Result} {p : State → Bool} (h : answersB r p = true) : ∃ t, r = .next t ∧ p t = true := by
  unfold answersB at h
  split at h
  · exact ⟨_, rfl, h⟩
  · cases h
  · cases h

/-- Helper: an operation that does not stop has a result. -/
theorem ok_of {α ε : Type} {x : Except ε α} (h : x.isOk = true) : ∃ a, x = .ok a := by
  cases x with
  | ok a => exact ⟨a, rfl⟩
  | error e => cases h

/-- Every register initialised; W15 = SPLIM = 0x0804 with the limit latch on, so that two words can be pushed (the second
at SPLIM + 2) and two popped (the second at 0x0800); W1 to W3 pointers into RAM. -/
def ready : State :=
  { start [(0, 3), (1, 0x0900), (2, 0x27FE), (3, 0x0904), (4, 0x1000), (5, 0xFFFF), (14, 0x0804), (15, 0x0804)]
      [(0x0800, 0x0204), (0x0802, 0x0001), (0x0900, 0x1234)] with
    splim := 0x0804, splimen := true, pc := 0x200 }

/-- `ready` with an instruction under the PC. -/
def readyAt (w : Nat) : State := ready.withFetchWord 24 w

/-- `ready` with the PC at 0x0003FE, the last word of program memory (V46.16), and an instruction there. -/
def lastWord (w : PWord) : State :=
  { ready with dev := { ready.dev with progImpl := [(0, 0x3FF)] }, prog := [(0x3FE, w)], pc := 0x3FE }

/-- `lastWord` one word before: the next word exists, the next but one does not. -/
def lastButOne (w : PWord) : State := { lastWord 0 with prog := [(0x3FC, w)], pc := 0x3FC }

/-- `ready` with W15 at an address. -/
def stackAt (a : Word) : State := { ready with w := ready.w.set 15 a }

/-- Helper: the ways a frame and an unstacking fail, at either word. -/
theorem frame_first {s : State} (h : PushFault (s.reg sp) s) : FrameStops .stackError s := .inl (.inl ⟨rfl, h⟩)
theorem frame_second {s : State} (h : SlotOk (s.reg sp) 0 s) (hp : PushFault (s.reg sp + 2) s) :
    FrameStops .stackError s := .inr ⟨h, .inl ⟨rfl, hp⟩⟩
theorem frame_absent {s : State} (h : ¬PushFault (s.reg sp) s) (ha : AccessFault .word (s.reg sp) s) :
    FrameStops .addressError s := .inl (.inr ⟨rfl, h, ha⟩)
theorem frame_absent_second {s : State} (h0 : SlotOk (s.reg sp) 0 s) (h : ¬PushFault (s.reg sp + 2) s)
    (ha : AccessFault .word (s.reg sp + 2) s) : FrameStops .addressError s := .inr ⟨h0, .inr ⟨rfl, h, ha⟩⟩
theorem unframe_absent {s : State} (h : StackOk (s.reg sp - 2) false s) (ha : AccessFault .word (s.reg sp - 2) s) :
    UnframeStops .addressError s := .inl (.inr ⟨rfl, h, ha⟩)
theorem unframe_absent_second {s : State} (h0 : TopOk (s.reg sp) 1 s) (h : StackOk (s.reg sp - 2 - 2) false s)
    (ha : AccessFault .word (s.reg sp - 2 - 2) s) : UnframeStops .addressError s := .inr ⟨h0, .inr ⟨rfl, h, ha⟩⟩

theorem frames_that_fail :
    FrameStops .stackError (stackAt 0x07FE) ∧ FrameStops .stackError (stackAt 0x0806) ∧
    FrameStops .addressError { stackAt 0x2800 with splim := 0x3000 } ∧
    FrameStops .addressError { stackAt 0x27FE with splim := 0x3000 } :=
  ⟨frame_first (by unfold PushFault; decide +kernel), frame_second (by unfold SlotOk AccessOk; decide +kernel) (by unfold PushFault; decide +kernel),
    frame_absent (by unfold PushFault; decide +kernel) (by unfold AccessFault; decide +kernel),
    frame_absent_second (by unfold SlotOk AccessOk; decide +kernel) (by unfold PushFault; decide +kernel) (by unfold AccessFault; decide +kernel)⟩

theorem witness_DecodeOfEncode :
    (Instr.mov .byte (.offset 3 15) (.preInc 15)).wf = true ∧ (Instr.goto 0x7FFFFE).wf = true ∧
    (Instr.lnk 0x3FFE).wf = true := by decide

theorem witness_DecodedIsWellFormed :
    decode [0x781F80, 0] = .ok (.push (.direct 0), [0]) ∧ decode [0x040200, 0x7F] = .ok (.goto 0x7F0200, []) :=
  ⟨rfl, rfl⟩

/-- A MOV, an instruction that faults, one that is refused; one that begins under RA = 1 with RCOUNT 0; and, at the end
of program memory, one whose uninitialised pointer resets the device. -/
theorem witness_StepRunsDecodedInstruction :
    (∀ w, w = 0x780080 ∨ w = 0xBB0000 → Quietly (readyAt w) (readyAt w) ∧ WordsAtPc (readyAt w) (BitVec.ofNat 24 w) 0 ∧
      BeginsIn (readyAt w) (startPass (readyAt w))) ∧
    Quietly { readyAt 0x780080 with inputs := [.quiet, .reset] } { readyAt 0x780080 with inputs := [.reset] } ∧
    decode [0x780080, 0] = .ok (.mov .word (.direct 0) (.direct 1), [0]) ∧
    barred (.mov .word (.direct 0) (.direct 1)) (readyAt 0x780080) = false ∧
    PrefetchOk (.mov .word (.direct 0) (.direct 1)) (readyAt 0x780080) ∧
    (let s := { readyAt 0x780080 with sr := { ready.sr with ra := true } }
     s.sr.ra = true ∧ s.rcount = 0 ∧ BeginsIn s (startPass s) ∧ (startPass s).sr.ra = false) ∧
    (answersB (exec (.mov .word (.direct 0) (.direct 1)) (startPass (readyAt 0x780080))) fun _ => true) = true ∧
    exec (.mov .word (.ind 5) (.direct 1)) (startPass { readyAt 0x780095 with dev := { ready.dev with runOn := false } }) =
      .fault .addressError ∧
    exec (.tblwtl .word (.direct 0) (.direct 0)) (startPass (readyAt 0xBB0000)) = .refused .tableWrite ∧
    (let s := { lastWord 0x780111 with winit := State.reset.winit }
     Quietly s s ∧ WordsAtPc s 0x780111 0 ∧ decode [0x780111, 0] = .ok (.mov .word (.ind 1) (.direct 2), [0]) ∧
     barred (.mov .word (.ind 1) (.direct 2)) s = false ∧
     ∃ t c, exec (.mov .word (.ind 1) (.direct 2)) (startPass s) = .next t ∧ t.event = some (.reset c)) := by
  refine ⟨?_, .inr ⟨_, rfl, rfl⟩, rfl, by decide, ⟨fun _ => by decide +kernel, fun h => by rcases h with h | ⟨_, _, _, h⟩ | h <;> cases h⟩,
    ⟨rfl, rfl, ⟨by decide, rfl⟩, rfl⟩, by decide +kernel, rfl, rfl, .inl ⟨rfl, rfl⟩, ⟨rfl, .inr ⟨by decide +kernel, rfl⟩⟩, rfl, by decide, _, .uninitW, rfl, rfl⟩
  rintro w (rfl | rfl) <;> exact ⟨.inl ⟨rfl, rfl⟩, ⟨rfl, .inl rfl⟩, by decide, rfl⟩

theorem witness_FinishCountsThePass :
    ready.event = none ∧ ¬(ready.sr.ra = true ∧ ready.rcount ≠ 0) ∧
    (let s := { ready with sr := { ready.sr with ra := true }, rcount := 1 }
     s.event = none ∧ s.sr.ra = true ∧ s.rcount ≠ 0) ∧
    (∀ d : PAddr, d = 2 ∨ d = 4 ∨ d = 6 → ({ ready with pc := ready.pc + d } : State).pc = ready.pc + d) ∧
    (ready.prev.mods.getLsbD 1 = false ∧ ready.cur.psvRead = false) ∧
    (let s := { ready with prev := ⟨2, false, false, false⟩, cur := ⟨true, 4, false, true⟩ }
     s.prev.mods.getLsbD 1 = true ∧ sourceUses (.mov .word (.ind 1) (.direct 2)) 1 = true ∧ s.cur.psvRead = true ∧
     s.prev.midLoop = false ∧ s.cur.wHit.getLsbD 2 = true ∧ s.cur.toTarget = true) := by
  refine ⟨rfl, by decide +kernel, by decide +kernel, fun _ _ => rfl, by decide +kernel, by decide +kernel⟩

theorem witness_RepeatedNopRunsCountPlusOneTimes :
    let s := { State.reset with sr := { State.reset.sr with ra := true }, rcount := 1 }
    s.inputs = [] ∧ s.sr.ra = true ∧ s.rcount ≠ 0 ∧ rcountMask s.dev s.rcount = s.rcount ∧
    rcountMask s.dev 0x3FFF = 0x3FFF ∧
    progRead s s.pc.toNat = some 0 ∧ progImplemented s (s.pc.toNat + 2) = true := by decide +kernel

/-- A word of no row; a BRA that is a loop's target, with passes to go and with RCOUNT 0, and one right after a REPEAT
whose count was 0. -/
theorem witness_StepRefusesByName :
    Quietly (readyAt 0xFFFFFF) (readyAt 0xFFFFFF) ∧ WordsAtPc (readyAt 0xFFFFFF) 0xFFFFFF 0 ∧
    decode [0xFFFFFF, 0] = .error .unknownOpcode ∧
    (∀ k : Word, k = 0 ∨ k = 1 →
     let s := { readyAt 0x370007 with sr := { ready.sr with ra := true }, rcount := k }
     Quietly s s ∧ WordsAtPc s 0x370007 0 ∧ decode [0x370007, 0] = .ok (.bra 7, [0]) ∧ s.sr.ra = true ∧
     MayNotFollowRepeat (.bra 7)) ∧
    (let s := { readyAt 0x370007 with prev := ⟨0, false, false, true⟩ }
     Quietly s s ∧ WordsAtPc s 0x370007 0 ∧ s.prev.afterRepeat = true) := by
  refine ⟨.inl ⟨rfl, rfl⟩, ⟨rfl, .inl rfl⟩, rfl, ?_, .inl ⟨rfl, rfl⟩, ⟨rfl, .inl rfl⟩, rfl⟩
  rintro k (rfl | rfl) <;> exact ⟨.inl ⟨rfl, rfl⟩, ⟨rfl, .inl rfl⟩, rfl, rfl, .inl ⟨_, rfl⟩⟩

/-- A request at the boundary after RESET, and after a reset that the environment presents; and a second reset there. -/
theorem witness_ResetGivesTheResetState :
    ({ ready with inputs := [.request 20 4] }).inputs.head? ≠ some .reset ∧
    ({ ready with inputs := [.reset, .request 20 4] }).inputs = .reset :: [.request 20 4] ∧
    [Input.request 20 4].head? ≠ some .reset ∧ [Input.reset].head? = some .reset := by decide

/-- A source and a destination pointer never written (W1 after reset, W15 in a state that no run reaches), and reads that
complete before them. -/
theorem witness_UninitialisedPointerResets :
    (sameTwice (.postInc 1) (.postInc 15) = false ∧ isDirect (.postInc 1) = false ∧ State.reset.isInit 1 = false ∧
      mulBadDest 2 = false ∧ oddReg 2 = false) ∧
    (let s := { ready with winit := State.reset.winit }
     s.isInit 1 = false ∧ sameTwice (.preDec 15) (.postInc 1) = false ∧ isDirect (.postInc 1) = false ∧
     (readOp .word (.preDec 15) s).isOk = true ∧ (readOp .byte (.direct 2) s).isOk = true ∧
     (tableSource false .word (.ind 15) s).isOk = true ∧ (tableSource true .byte (.postInc 15) s).isOk = true) ∧
    (let s := { ready with winit := Vector.replicate 16 false }
     s.isInit 15 = false ∧ isDirect (.preDec 15) = false ∧ sameTwice (.preDec 15) (.direct 2) = false ∧
     sameTwice (.direct 2) (.postInc 15) = false ∧ (readOp .word (.direct 2) s).isOk = true) := by
  decide +kernel

theorem reset_inv : Inv State.reset := by constructor <;> decide +kernel

theorem witness_StepKeepsInvariant :
    Inv State.reset ∧ ∃ t, step State.reset = .next t ∧ (t.pc = 2) = true :=
  ⟨reset_inv, by
    obtain ⟨t, h, hp⟩ := next_of (r := step State.reset) (p := fun t => t.pc = 2) (by decide +kernel)
    exact ⟨t, h, by simpa using hp⟩⟩

/-- Also for StepKeepsProgramMemory. -/
theorem witness_OnlyResetClearsTheLatches :
    ∃ t, step ready = .next t ∧ (t.ramEpoch = ready.ramEpoch && ready.isInit 1 && ready.splimen) = true :=
  next_of (p := fun t => t.ramEpoch = ready.ramEpoch && ready.isInit 1 && ready.splimen) (by decide +kernel)

theorem witness_SoftwareCannotSetIpl3 :
    Instr.bset 0x0044 3 ≠ .retfie ∧ (∃ t, exec (.bset 0x0044 3) ready = .next t ∧ (true = true)) ∧
    ready.corcon.ipl3 = false := by
  refine ⟨by decide, ?_, rfl⟩
  exact next_of (p := fun _ => true) (by decide +kernel)

theorem witness_RepeatActiveIsReadOnly :
    Instr.movWnsF 5 0x0042 ≠ .retfie ∧ (∀ lit, Instr.movWnsF 5 0x0042 ≠ .repeatLit lit) ∧
    (∀ n, Instr.movWnsF 5 0x0042 ≠ .repeatW n) ∧
    ∃ t, exec (.movWnsF 5 0x0042) ready = .next t ∧ (!t.sr.ra) = true :=
  ⟨by decide, fun _ => by simp, fun _ => by simp, next_of (p := fun t => !t.sr.ra) (by decide +kernel)⟩

/-- Two words fit above W15, at the limit: for EnterSavesAndRedirects, RetfieUndoesEnter and CallsPushTheReturnAddress. -/
theorem witness_frame_fits :
    SlotOk (ready.reg sp) 0 ready ∧ SlotOk (ready.reg sp) 1 ready ∧ ready.prev.splim = false ∧
    (ready.reg sp).toNat + 2 = ready.splim.toNat + 2 := by
  unfold SlotOk AccessOk; decide +kernel

/-- Two words lie below W15, the lower at 0x0800: for RetfieRestoresTheFrame, ReturnsPopTheReturnAddress, PushAndPop. -/
theorem witness_frame_below :
    TopOk (ready.reg sp) 1 ready ∧ TopOk (ready.reg sp) 2 ready ∧ ready.reg sp - 4 = 0x0800 := by
  unfold TopOk AccessOk; decide +kernel

/-- `ready` with a vector table whose entry 20 is the first address past program memory. -/
def noVector : State := { ready with dev := { ready.dev with progImpl := [(0, 0x02B)], vectors := .table 4 } }

/-- `ready` with a list of handlers: the second entry's source, and one for every source that is not listed. -/
def listedVectors : State :=
  { ready with dev := { ready.dev with vectors := .listed ([(19, 0x100)] ++ (20, 0x201) :: []) 0x301 } }

/-- A vector in the table, one outside program memory, a listed one and one that is not listed. -/
theorem witness_EnterSavesAndRedirects :
    (vectorOf 20 ready = .ok 0 ∧ 8 ≤ (8#4).toNat ∧ (7#4).toNat < 8) ∧
    (ready.dev.vectors = .table 4 ∧ progRead ready (4 + 2 * 20) = some 0) ∧
    (noVector.dev.vectors = .table 4 ∧ progImplemented noVector (4 + 2 * 20) = false) ∧
    (listedVectors.dev.vectors = .listed ([(19, 0x100)] ++ (20, 0x201) :: []) 0x301 ∧
      (∀ e ∈ [((19 : Nat), (0x100 : PAddr))], e.1 ≠ 20) ∧
      ∀ e ∈ [((19 : Nat), (0x100 : PAddr))] ++ (20, 0x201) :: [], e.1 ≠ 21) ∧
    (vectorOf 20 listedVectors = .ok 0x200 ∧ vectorOf 21 listedVectors = .ok 0x300) := by decide +kernel

/-- From any state, and from one where the return address is the target of a REPEAT. -/
theorem witness_RetfieUndoesEnter :
    (∃ t, enter 20 4 0x012346 ready = .ok t ∧ (0x012346#23).toNat % 2 = 0) ∧
    ∃ t, enter 20 4 0x012346 { ready with prev := ⟨0, false, false, true⟩ } = .ok t := by
  obtain ⟨t, h⟩ := ok_of (x := enter 20 4 0x012346 ready) (by decide +kernel)
  exact ⟨⟨t, h, by decide⟩, ok_of (by decide +kernel)⟩

/-- Level 1 against 0 is taken and 1 against 1 is not; DISI masks level 6 and not level 7. Entries that fail: by R100 at
the first push and at the second, past the end of RAM at either (RAM ends at 0x27FF), and at the vector's word. -/
theorem witness_RequestsAreMaskedByLevelAndDisi :
    (FrameStops .stackError (stackAt 0x07FE) ∧ FrameStops .stackError (stackAt 0x0806) ∧
      FrameStops .addressError { stackAt 0x2800 with splim := 0x3000 } ∧
      FrameStops .addressError { stackAt 0x27FE with splim := 0x3000 } ∧ cpuLevel (stackAt 0x0806) < (1#4).toNat) ∧
    (SlotOk (noVector.reg sp) 0 noVector ∧ SlotOk (noVector.reg sp) 1 noVector ∧ noVector.dev.vectors = .table 4 ∧
      progImplemented noVector (4 + 2 * 20) = false ∧ cpuLevel noVector < (1#4).toNat ∧ noVector.disicnt = 0) ∧
    (cpuLevel ready < (1#4).toNat ∧ ready.disicnt = 0) ∧ (∃ t, enter 20 1 ready.pc ready = .ok t) ∧
    (let s := { ready with sr := { ready.sr with ipl := 1 }, disicnt := 2 }
     (1#4).toNat ≤ cpuLevel s ∧ (6#4).toNat ≤ 6 ∧ s.disicnt ≠ 0 ∧ cpuLevel s < (7#4).toNat ∧ 6 < (7#4).toNat) :=
  ⟨⟨frames_that_fail.1, frames_that_fail.2.1, frames_that_fail.2.2.1, frames_that_fail.2.2.2, by decide +kernel⟩,
    by unfold SlotOk AccessOk; decide +kernel, by decide +kernel, ok_of (by decide +kernel), by decide +kernel⟩

/-- A first execution of every divide by zero: its operands, its place in the loop and the frame of its trap; and the
same inside a trap handler. -/
theorem witness_DivideByZeroTraps :
    let s := { ready with w := ready.w.set 6 0, sr := { ready.sr with ra := true }, rcount := 17 }
    (∀ kind, DivRegs kind 4 6) ∧ s.reg 6 = 0 ∧ s.divGhost = none ∧ s.sr.ra = true ∧ s.rcount = 17 ∧
    s.corcon.ipl3 = false ∧ ({ s with corcon := ⟨true, false⟩ } : State).corcon.ipl3 = true ∧
    SlotOk (s.reg sp) 0 s ∧ SlotOk (s.reg sp) 1 s ∧ vectorOf (trapLine s.dev .arithmeticError).source s = .ok 0 := by
  refine ⟨fun kind => ⟨by decide, by decide, fun _ => by decide⟩, by decide +kernel, rfl, rfl, rfl, rfl, rfl, ?_, ?_,
    rfl⟩ <;> (unfold SlotOk AccessOk; decide +kernel)

/-- Pushes that fail: just below 0x0800, just past SPLIM + 2, and at 0xFFFE, whose increment carries; the address
SPLIM + 2 passes. Pops that fail: below 0x0800 and past SPLIM + 2. -/
theorem witness_StackCheckRule :
    (PushFault 0x07FE ready ∧ PushFault 0x0808 ready ∧ PushFault 0xFFFE { ready with splim := 0xFFFC } ∧
      ¬PushFault 0x0806 ready) ∧
    (PopFault 0x0800 ready ∧ PopFault 0x080A ready ∧ ¬PopFault 0x0808 ready) ∧
    (stackCheck 0x0806 false true ready).isOk = true ∧ ready.isInit sp = true ∧ ready.prev.splim = false ∧
    (usesSp (.ind 15) = true ∧ usesSp (.offset 1 15) = true ∧ usesSp (.offset 15 1) = true ∧
      usesSp (.offset 1 2) = false ∧ usesSp (.ind 1) = false ∧ ready.isInit 1 = true) := by
  unfold PushFault PopFault; decide +kernel

/-- Double-word forms that fail: by R100 at the first word, at the second and by its carry; no data memory at the first
and at the second (RAM ends at 0x27FF). -/
theorem witness_pairFaults :
    let Load := fun op s => fun u => ∃ v, memRead .word (eaOf op 4 s) s = .ok (v, u)
    let Store := fun op s => fun u => memWrite .word (eaOf op 4 s) 7 s = .ok u
    (∀ first, PairFault .stackError true (.preDec 15) (stackAt 0x0802) first ∧
      PairFault .stackError true (.ind 15) (stackAt 0x0806) first ∧
      PairFault .stackError false (.ind 15) (stackAt 0x0808) first ∧
      PairFault .stackError false (.ind 15) (stackAt 0x0806) first ∧
      PairFault .stackError false (.ind 15) { stackAt 0xFFFE with splim := 0xFFFC } first ∧
      PairFault .addressError true (.ind 5) ready first ∧ PairFault .addressError false (.ind 5) ready first) ∧
    PairFault .addressError true (.ind 2) ready (Load (.ind 2) ready) ∧
    PairFault .addressError false (.ind 2) ready (Store (.ind 2) ready) := by
  have stack : ∀ (b : Bool) (op : Opnd) (s : State) (first : State → Prop), isDirect op = false → s.isInit op.reg = true →
      (b = true → s.prev.splim = false) → StackFault op 4 b s → PairFault .stackError b op s first :=
    fun _ _ _ _ h1 h2 h3 h4 => ⟨h1, h2, .inl ⟨rfl, h3, .inl h4⟩⟩
  have stack2 : ∀ (b : Bool) (op : Opnd) (s : State) (first : State → Prop), isDirect op = false →
      s.isInit op.reg = true → (b = true → s.prev.splim = false) → PointerOk op 4 b s → usesSp op = true →
      ((eaOf op 4 s + 2).toNat < 0x0800 ∨ (s.splimen = true ∧ (0xFFFF < (eaOf op 4 s).toNat + 2 ∨
        s.splim.toNat + 2 < (eaOf op 4 s + 2).toNat))) → PairFault .stackError b op s first :=
    fun _ _ _ _ h1 h2 h3 h4 h5 h6 => ⟨h1, h2, .inl ⟨rfl, h3, .inr ⟨h4, h5, h6⟩⟩⟩
  have pointer : ∀ b, PointerOk (.ind 5) 4 b ready ∧ PointerOk (.ind 2) 4 b ready := fun b => by
    cases b <;> unfold PointerOk StackOk <;> decide +kernel
  have second : SecondOk (.ind 5) ready ∧ SecondOk (.ind 2) ready := by
    unfold SecondOk StackOk; decide +kernel
  obtain ⟨u, hu⟩ := ok_of (x := memWrite .word (eaOf (.ind 2) 4 ready) 7 ready) (by decide +kernel)
  refine ⟨fun first => ⟨stack _ _ _ _ rfl rfl (fun _ => rfl) (by unfold StackFault; decide +kernel),
    stack2 _ _ _ _ rfl rfl (fun _ => rfl) (by unfold PointerOk StackOk; decide +kernel) rfl (by decide +kernel),
    stack _ _ _ _ rfl rfl (fun _ => rfl) (by unfold StackFault; decide +kernel),
    stack2 _ _ _ _ rfl rfl (fun _ => rfl) (by unfold PointerOk StackOk; decide +kernel) rfl (by decide +kernel),
    stack2 _ _ _ _ rfl rfl (fun _ => rfl) (by unfold PointerOk StackOk; decide +kernel) rfl (by decide +kernel),
    ⟨rfl, rfl, .inr ⟨rfl, (pointer _).1, second.1, .inl (by unfold AccessFault; decide +kernel)⟩⟩,
    ⟨rfl, rfl, .inr ⟨rfl, (pointer _).1, second.1, .inl (by unfold AccessFault; decide +kernel)⟩⟩⟩,
    ⟨rfl, rfl, .inr ⟨rfl, (pointer _).2, second.2, .inr ⟨_, ⟨_, rfl⟩, ?_⟩⟩⟩,
    ⟨rfl, rfl, .inr ⟨rfl, (pointer _).2, second.2, .inr ⟨_, rfl, ?_⟩⟩⟩⟩ <;>
  (unfold AccessFault; decide +kernel)

/-- A request listed behind a device reset is not entered: the word at 0x000000 runs first, at level 0 (R390). -/
theorem test_reset_drops_the_request_at_its_boundary :
    let s := { ready with inputs := [.reset, .request 20 4] }
    (answersB (step s) fun t => t.pc == 0 && t.inputs == [.quiet] &&
      answersB (step t) fun u => u.pc == 2 && cpuLevel u == 0) = true := by decide +kernel

/-- Forms that fail a check at its boundary, as source and as destination: W15 below 0x0800, past SPLIM + 2, carrying past
0xFFFF (V41.10), an odd address, an address that is no memory; and reads that complete before a bad destination. -/
theorem witness_BadAccessesRaiseTheirTrap :
    (FormFault .stackError .word 2 true (.preDec 15) (stackAt 0x0800) ∧
      FormFault .stackError .word 2 true (.ind 15) (stackAt 0x0808) ∧
      FormFault .stackError .byte 1 true (.postInc 15) { stackAt 0xFFFF with splim := 0xFFFE } ∧
      FormFault .stackError .byte 1 true (.offset 5 15) { stackAt 0x0800 with splimen := false } ∧
      FormFault .stackError .word 2 false (.offset 15 0) { stackAt 0x0804 with w := (stackAt 0x0804).w.set 0 4 } ∧
      FormFault .addressError .word 2 true (.ind 5) ready ∧ FormFault .addressError .byte 1 true (.ind 5) ready) ∧
    (FormFault .stackError .word 2 false (.postInc 15) (stackAt 0x07FE) ∧
      FormFault .stackError .word 2 false (.postInc 15) (stackAt 0x0808) ∧
      FormFault .stackError .word 2 false (.postInc 15) { stackAt 0xFFFE with splim := 0xFFFC } ∧
      FormFault .addressError .word 2 false (.ind 5) ready) ∧
    (sameTwice (.preDec 15) (.ind 5) = false ∧ sameTwice (.ind 4) (.postInc 15) = false ∧ mulBadDest 2 = false ∧
      oddReg 2 = false ∧ isDirect (.ind 5) = false ∧ PointerOk (.ind 5) 2 true ready ∧ isOdd (eaOf (.ind 5) 2 ready) = true ∧
      ready.tblpag.getLsbD 7 = false) ∧
    (isDirect (.ind 4) = false ∧ PointerOk (.ind 4) 2 true noVector ∧ noVector.tblpag.getLsbD 7 = false ∧
      progImplemented noVector (noVector.tblpag.toNat * 0x10000 + (eaOf (.ind 4) 2 noVector).toNat / 2 * 2) = false) ∧
    ((readOp .word (.preDec 15) ready).isOk = true ∧ (readOp .word (.direct 1) (stackAt 0x0808)).isOk = true ∧
      (tableSource false .word (.ind 4) ready).isOk = true ∧ (tableSource true .word (.ind 4) ready).isOk = true) ∧
    ((stackAt 0x07FE).isInit sp = true ∧ PushFault ((stackAt 0x07FE).reg sp) (stackAt 0x07FE) ∧
      PushFault ((stackAt 0x0808).reg sp) (stackAt 0x0808) ∧ PopFault ((stackAt 0x0800).reg sp) (stackAt 0x0800)) := by
  and_intros <;> (try unfold StackFault) <;> (try unfold AccessFault) <;> (try unfold PointerOk) <;> (try unfold StackOk) <;>
    (try unfold PushFault) <;> (try unfold PopFault) <;> decide +kernel

/-- In a trap handler and outside; an entry that completes, one whose first push fails, ones whose second does. -/
theorem witness_RequestedTrapEntersItsHandler :
    let asks := fun s : State => { s with event := some (.trap .stackError) }
    let entry := fun t : State => enter (trapLine t.dev .stackError).source (trapLine t.dev .stackError).level
      (retire .nop ready t).pc { retire .nop ready t with event := none }
    (asks ready).event = some (.trap .stackError) ∧ ready.corcon.ipl3 = false ∧
    ({ ready with corcon := ⟨true, false⟩ } : State).corcon.ipl3 = true ∧ (∃ u, entry (asks ready) = .ok u) ∧
    entry (asks (stackAt 0x07FE)) = .error (.trap .stackError) ∧
    FrameStops .stackError (asks (stackAt 0x07FE)) ∧ FrameStops .stackError (asks (stackAt 0x0806)) ∧
    FrameStops .addressError { asks (stackAt 0x27FE) with splim := 0x3000 } := by
  refine ⟨rfl, rfl, rfl, ok_of (by decide +kernel), rfl, frame_first (by unfold PushFault; decide +kernel),
    frame_second (by unfold SlotOk AccessOk; decide +kernel) (by unfold PushFault; decide +kernel),
    frame_absent_second (by unfold SlotOk AccessOk; decide +kernel) (by unfold PushFault; decide +kernel) (by unfold AccessFault; decide +kernel)⟩

/-- Program memory that ends at 0x0003FE (V46.16): the PC past it; a NOP and a RESET in its last word; the three returns
one word before the end; an instruction in the last word that resets the device by its pointer. -/
theorem witness_MissingProgramWordFaults :
    (let s := { lastWord 0 with pc := 0x400 }
     Quietly s s ∧ progImplemented s s.pc.toNat = false) ∧
    (∀ w i, (w, i) = (0x000000, .nop) ∨ (w, i) = (0xFE0000, .reset) ∨
        (w, i) = (0x780111, .mov .word (.ind 1) (.direct 2)) →
      Quietly (lastWord w) (lastWord w) ∧ WordsAtPc (lastWord w) w 0 ∧ decode [w, 0] = .ok (i, [0]) ∧
      barred i (lastWord w) = false ∧ BeginsIn (lastWord w) (startPass (lastWord w)) ∧
      progImplemented (lastWord w) (0x3FE + 2) = false) ∧
    (Instr.nop ≠ .reset ∧ asksReset (exec .nop (startPass (lastWord 0))) = false) ∧
    (∀ w i, (w, i) = (0x060000, .ret) ∨ (w, i) = (0x050013, .retlw .word 1 3) ∨ (w, i) = (0x064000, .retfie) →
      Quietly (lastButOne w) (lastButOne w) ∧ WordsAtPc (lastButOne w) w 0 ∧ decode [w, 0] = .ok (i, [0]) ∧
      barred i (lastButOne w) = false ∧ asksReset (exec i (startPass (lastButOne w))) = false ∧
      progImplemented (lastButOne w) (0x3FC + 4) = false) ∧
    (answersB (exec (.mov .word (.ind 1) (.direct 2)) (startPass { lastWord 0x780111 with winit := State.reset.winit }))
      fun t => t.event = some (.reset .uninitW)) = true := by
  refine ⟨⟨.inl ⟨rfl, rfl⟩, by decide +kernel⟩, ?_, by decide +kernel, ?_, by decide +kernel⟩
  · rintro w i (h | h | h) <;> cases h <;>
      exact ⟨.inl ⟨rfl, rfl⟩, ⟨rfl, .inr ⟨by decide +kernel, rfl⟩⟩, by decide +kernel, by decide +kernel,
        ⟨by decide, rfl⟩, by decide +kernel⟩
  · rintro w i (h | h | h) <;> cases h <;>
      exact ⟨.inl ⟨rfl, rfl⟩, ⟨rfl, .inl rfl⟩, by decide +kernel, by decide +kernel, by decide +kernel, by decide +kernel⟩

/-- The first and the last word of the RAM of Device.default: for StoreThenLoadGivesItBack, FileAndLiteralMoves. -/
theorem witness_access :
    AccessOk .word 0x0800 ready ∧ AccessOk .word 0x27FE ready ∧ AccessOk .byte 0x27FF ready ∧
    AccessOk .byte (BitVec.setWidth 16 (0x1FFF#13)) ready ∧ AccessOk .word (BitVec.setWidth 16 (0x1FFE#13)) ready := by
  unfold AccessOk; decide +kernel

/-- `MOV [W2++],W3` with W2 = 0x0004, its own data address: the modification before the read (D27), and after it where
the device record takes R150's line. -/
theorem test_post_modified_source_on_its_own_register :
    let s := start [(2, 0x0004)] []
    (answersB (exec (.mov .word (.postInc 2) (.direct 3)) s) fun t => t.reg 3 == 0x0006 && t.reg 2 == 0x0006) = true ∧
    (answersB (exec (.mov .word (.postInc 2) (.direct 3)) { s with dev := { s.dev with readThenUpdate := true } }) fun t =>
      t.reg 3 == 0x0004 && t.reg 2 == 0x0006) = true := by decide +kernel

/-- Destination forms that step the register their store lands on, at the two addresses of W2; source forms that do,
through W3, and through W2 itself after its step; MOV.B WREG,f at the first and the last register; and source forms that
read the register they step, and another. -/
theorem witness_MappedRegistersAreTheRegisters :
    ((0x0000#13).toNat / 2 = (0 : Reg).val ∧ (0x001F#13).toNat / 2 = (15 : Reg).val) ∧
    (let s := start [(2, 0x0004), (3, 0x0005)] []
     modifies (.postInc 2) = true ∧ (Opnd.postInc 2).reg ≠ sp ∧ s.isInit 2 = true ∧
     (eaOf (.postInc 2) 2 s).toNat / 2 = (2 : Reg).val ∧ isOdd (eaOf (.postInc 2) 2 s) = false ∧
     (eaOf (.preInc 2) 1 s).toNat / 2 = (2 : Reg).val ∧ isOdd (eaOf (.preInc 2) 1 s) = true) ∧
    (let s := start [(2, 0x0900), (3, 0x0005), (4, 0x0004)] []
     modifies (.postInc 2) = true ∧ OperandOk .byte (.postInc 2) s ∧ OperandOk .word (.postInc 2) s ∧
     isDirect (.ind 3) = false ∧ sameTwice (.postInc 2) (.ind 3) = false ∧ usesSp (.ind 3) = false ∧ s.isInit 3 = true ∧
     (dstAddr .byte (.postInc 2) (.ind 3) s).toNat / 2 = (2 : Reg).val ∧
     (dstAddr .word (.postInc 2) (.ind 4) s).toNat / 2 = (2 : Reg).val ∧
     isOdd (dstAddr .word (.postInc 2) (.ind 4) s) = false) ∧
    (let s := start [(2, 0x0004), (3, 0x0009)] []
     s.dev.readThenUpdate = false ∧ ({ s.dev with readThenUpdate := true }).readThenUpdate = true ∧
     modifies (.postInc 2) = true ∧ (Opnd.postInc 2).reg ≠ sp ∧ s.isInit 2 = true ∧
     (eaOf (.postInc 2) 2 s).toNat / 2 = (2 : Reg).val ∧ isOdd (eaOf (.postInc 2) 2 s) = false ∧
     (eaOf (.preDec 3) 1 s).toNat / 2 = (4 : Reg).val ∧ s.isInit 3 = true ∧
     (eaOf (.postDec 2) 4 s).toNat = 2 * (2 : Reg).val ∧ (2 : Reg) ≠ sp ∧ oddReg 6 = false) := by
  refine ⟨by decide, by decide +kernel, ?_⟩
  and_intros <;> (try unfold OperandOk) <;> (try unfold PointerOk) <;> (try unfold AccessOk) <;>
    (try unfold StackOk) <;> decide +kernel

/-- For SpecialRegisterReads and SpecialRegisterWrites. -/
theorem witness_SpecialRegisters :
    ready.dev.sfr = Config.SfrMap.default ∧ (14 : Reg) ≠ sp ∧ ready.dev.nstdis = false ∧
    ({ ready.dev with nstdis := true }).sfr = Config.SfrMap.default := by decide +kernel

/-- The last device address below RAM, the first address past RAM, and the top of data space with PSV off. -/
theorem witness_DeviceAndAbsentAddresses :
    isOdd 0x07FE = false ∧ cpuRegAt ready.dev.sfr 0x07FE = none ∧ (0x07FE#16).toNat < 0x0800 ∧
    isOdd 0x2800 = false ∧ cpuRegAt ready.dev.sfr 0x2800 = none ∧ 0x0800 ≤ (0x2800#16).toNat ∧
    dataImplemented ready (0x2800#16).toNat = false ∧ cpuRegAt ready.dev.sfr 0xFFFE = none ∧
    ready.corcon.psv = false ∧ dataImplemented ready (0xFFFE#16).toNat = false ∧
    (isOdd (BitVec.setWidth 16 (0x07FF#13)) = true ∧
      cpuRegAt ready.dev.sfr (evenWord (BitVec.setWidth 16 (0x07FF#13))) = none ∧ (0x07FF#13).toNat < 0x0800) := by
  decide +kernel

/-- Accesses that data space does not hold, at the ends of a RAM of one odd length: an odd word, the first byte past it,
a word half in it, and the first byte past the RAM of Device.default. -/
theorem witness_file_register_faults :
    (let s := { ready with dev := { ready.dev with dataImpl := [(0x0800, 0x1000)] } }
     AccessFault .word (BitVec.setWidth 16 (0x0901#13)) s ∧ AccessFault .byte (BitVec.setWidth 16 (0x1001#13)) s ∧
     AccessFault .word (BitVec.setWidth 16 (0x1000#13)) s ∧ AccessFault .byte (bitAddr 0x1000 8) s ∧
     ¬AccessFault .byte (bitAddr 0x1000 7) s) ∧
    AccessFault .word 0x2800 ready ∧ AccessFault .word 0x0901 ready := by
  and_intros <;> unfold AccessFault <;> decide +kernel

/-- The first and the last word of the window, its last byte, a pointer to it as a source and as a destination; and the
same where the program word does not exist. -/
theorem witness_PsvWindow :
    let s := { ready with corcon := ⟨false, true⟩, psvpag := 0xAA }
    (0x8000 ≤ (0x8000#16).toNat ∧ s.corcon.psv = true ∧ cpuRegAt s.dev.sfr (evenWord 0x8000) = none ∧ isOdd 0x8000 = false ∧
      progRead s (s.psvpag.toNat * 0x8000 + (0x8000 - 0x8000) / 2 * 2) = some 0) ∧
    (cpuRegAt s.dev.sfr (evenWord 0xFFFF) = none ∧ isOdd 0xFFFE = false ∧ isOdd 0xFFFF = true ∧
      progRead s (s.psvpag.toNat * 0x8000 + (0xFFFF - 0x8000) / 2 * 2) = some 0) ∧
    (isDirect (.ind 5) = false ∧ PointerOk (.ind 5) 1 true s ∧ eaOf (.ind 5) 1 s = 0xFFFF ∧
      PointerOk (.postDec 5) 1 false s ∧ eaOf (.postDec 5) 1 s = 0xFFFF ∧ sameTwice (.postInc 1) (.postDec 5) = false ∧
      (readOp .byte (.postInc 1) s).isOk = true) ∧
    (let s := { noVector with corcon := ⟨false, true⟩, psvpag := 0xAA, w := noVector.w.set 5 0xFFFE }
     progImplemented s (s.psvpag.toNat * 0x8000 + (0xFFFE - 0x8000) / 2 * 2) = false ∧
     cpuRegAt s.dev.sfr (evenWord 0xFFFE) = none ∧
     sameTwice (.ind 5) (.direct 2) = false ∧ isDirect (.ind 5) = false ∧ PointerOk (.ind 5) 2 true s ∧
     eaOf (.ind 5) 2 s = 0xFFFE) := by
  and_intros <;> (try unfold StackOk) <;> decide +kernel

/-- The pages and pointers of V47.13. -/
theorem witness_TableReadMatchesPsv :
    let s := { ready with corcon := ⟨false, true⟩, psvpag := 0x02, tblpag := 0x01, w := ready.w.set 0 0x1234 }
    s.isInit 0 = true ∧ (0 : Reg) ≠ sp ∧ (3 : Reg) ≠ sp ∧ isOdd 0x9234 = false ∧ s.corcon.psv = true ∧
    cpuRegAt s.dev.sfr 0x9234 = none ∧ s.tblpag.getLsbD 7 = false ∧
    s.tblpag.toNat * 0x10000 + (s.reg 0).toNat = s.psvpag.toNat * 0x8000 + (0x9234 - 0x8000) ∧
    progImplemented s (s.psvpag.toNat * 0x8000 + (0x9234 - 0x8000)) = true := by decide +kernel

/-- A read that completes, and from the state it leaves every write the clauses name: any form, a push, a pop, a table
read, a pair; and two operands that modify one register. -/
theorem witness_EveryOperandFormCompletes :
    (sameTwice (.postInc 15) (.preDec 15) = true ∧ sameTwice (.preDec 15) (.postInc 15) = true) ∧
    sameTwice (.postInc 1) (.postInc 15) = false ∧ mulBadDest 2 = false ∧
    (∃ p, readOp .word (.postInc 1) ready = .ok p ∧
      (writeResult .word (.postInc 1) (.postInc 15) p.1 ready p.2).isOk = true ∧
      (writeResult .word (.postInc 1) (.postInc 15) (addResult .word 3 p.1) ready p.2).isOk = true ∧
      (writeResult .word (.postInc 1) (.postInc 15) (shifted .left .word 1 p.1) ready p.2).isOk = true ∧
      (writeResult .word (.postInc 1) (.postInc 15) (shifted .logical .word 1 p.1) ready p.2).isOk = true ∧
      (writeResult .word (.postInc 1) (.postInc 15) (shifted .arith .word 1 p.1) ready p.2).isOk = true) ∧
    sameTwice (.preDec 15) (.ind 3) = false ∧
    (∃ p, readOp .word (.preDec 15) ready = .ok p ∧
      (writeResult .word (.preDec 15) (.ind 3) p.1 ready p.2).isOk = true) ∧
    sameTwice (.postInc 4) (.ind 3) = false ∧
    (∃ p, tableSource false .word (.postInc 4) ready = .ok p ∧
      (writeResult .word (.postInc 4) (.ind 3) p.1 ready p.2).isOk = true) ∧
    (∃ p, tableSource true .word (.postInc 4) ready = .ok p ∧
      (writeResult .word (.postInc 4) (.ind 3) p.1 ready p.2).isOk = true) ∧
    (oddReg 2 = false ∧ isDirect (.direct 6) = true ∧ oddReg 6 = false) ∧
    (readPair (.postInc 1) ready).isOk = true ∧ (writePair (.preDec 3) 1 2 ready).isOk = true := by
  refine ⟨by decide, by decide, by decide, ⟨_, rfl, ?_⟩, by decide, ⟨_, rfl, ?_⟩, by decide, ⟨_, rfl, ?_⟩, ⟨_, rfl, ?_⟩,
    by decide, ?_, ?_⟩ <;> decide +kernel

/-- Operands in a register, at the last word of RAM, and at the stack pointer's limit: for MovMovesItsOperand,
AddRegisterForm, ShiftByOne, MultiplyIsExact, PushAndPop, TableReads. -/
theorem witness_operands :
    sameTwice (.ind 2) (.postInc 15) = false ∧ OperandOk .word (.ind 2) ready ∧
    DestOk .word (.postInc 15) (afterSrc (.ind 2) 2 ready) ∧
    sameTwice (.postDec 1) (.direct 4) = false ∧ OperandOk .byte (.postDec 1) ready ∧
    DestOk .byte (.direct 4) (afterSrc (.postDec 1) 1 ready) ∧
    OperandOk .word (.offset 1 0) { ready with w := ready.w.set 0 2 } ∧
    modifies (.ind 2) = false ∧ DestOk .word (.ind 2) (ready.putW sp (ready.reg sp - 2)) := by
  unfold OperandOk DestOk PointerOk AccessOk StackOk
  refine ⟨?_, ?_, ?_, ?_, ?_, ?_, ?_, ?_, ?_⟩ <;> decide +kernel

/-- Pairs in registers, in RAM and at the stack pointer, in both directions: for MovDLoadsAPair, MovDStoresAPair. -/
theorem witness_pairs :
    oddReg 3 = true ∧ isDirect (.direct 3) = true ∧ oddReg 4 = false ∧ isDirect (.postInc 1) = false ∧ PointerOk (.postInc 1) 4 true ready ∧
    AccessOk .word (eaOf (.postInc 1) 4 ready) ready ∧ AccessOk .word (eaOf (.postInc 1) 4 ready + 2) ready ∧
    modifies (.postInc 1) = true ∧ usesSp (.preDec 15) = true ∧ PointerOk (.preDec 15) 4 false ready ∧
    StackOk (eaOf (.preDec 15) 4 ready + 2) false ready ∧ (eaOf (.preDec 15) 4 ready).toNat + 2 < 0x10000 ∧
    AccessOk .word (eaOf (.preDec 15) 4 ready) ready ∧ AccessOk .word (eaOf (.preDec 15) 4 ready + 2) ready := by
  and_intros <;> (try unfold StackOk) <;> decide +kernel

theorem witness_PushAndPop :
    modifies (.direct 0) = false ∧ ready.isInit sp = true ∧ OperandOk .word (.direct 0) ready ∧
    (modifies (.postInc 1) = true ∧ (Opnd.postInc 1).reg ≠ sp ∧ OperandOk .word (.postInc 1) ready) ∧
    DestOk .word (.postInc 1) (ready.putW sp (ready.reg sp - 2)) := by
  unfold OperandOk DestOk PointerOk AccessOk StackOk
  refine ⟨?_, ?_, ?_, ⟨?_, ?_, ?_⟩, ?_⟩ <;> decide +kernel

/-- An odd literal, the widest even one; room for the push and the word to pop; a push and a pop that fail R100, and
ones that pass it where there is no RAM, ULNK with W14 = 0 and the latch off among them (V41.18). -/
theorem witness_LinkAndUnlink :
    (3#14).toNat % 2 = 1 ∧ (0x3FFE#14).toNat % 2 = 0 ∧ SlotOk (ready.reg sp) 0 ready ∧
    TopOk (evenWord (ready.reg fp)) 1 ready ∧ PushStops .stackError ((stackAt 0x0808).reg sp) (stackAt 0x0808) ∧
    PopStops .stackError (evenWord (({ ready with w := ready.w.set 14 0x0801 } : State).reg fp)) ready ∧
    PushStops .addressError 0x2800 { ready with splim := 0x3000 } ∧
    PopStops .addressError (evenWord 0) { ready with splimen := false } := by
  refine ⟨by decide, by decide, by unfold SlotOk AccessOk; decide +kernel, by unfold TopOk AccessOk; decide +kernel,
    .inl ⟨rfl, by unfold PushFault; decide +kernel⟩, .inl ⟨rfl, by unfold PopFault; decide +kernel⟩,
    .inr ⟨rfl, by unfold PushFault; decide +kernel, by unfold AccessFault; decide +kernel⟩,
    .inr ⟨rfl, by unfold StackOk; decide +kernel, by unfold AccessFault; decide +kernel⟩⟩

/-- Helper: `FileReads` in RAM. -/
theorem reads_ram {sz : Size} {a : Word} (h : AccessOk sz a ready) : FileReads sz a ready (ramRead ready sz a) ready :=
  .inl ⟨h, rfl, rfl⟩

/-- Every kind of place a file register may be, first and last of its range: RAM, the W registers, the special registers,
PCL and PCH with a free value, a device address. For AddFileForm, MultiplyFile, BitSetAndClear, BitTestSkipsIfClear. -/
theorem witness_FileReads :
    (FileReads .word 0x0800 ready (ramRead ready .word 0x0800) ready ∧
      FileReads .byte (BitVec.setWidth 16 (0x1FFF#13)) ready (ramRead ready .byte 0x1FFF) ready) ∧
    (FileReads .word 0x0000 ready 3 ready ∧ FileReads .byte 0x001F ready (pick .byte 0x001F (ready.reg 15)) ready) ∧
    (FileReads .word 0x0020 ready 0x0804 ready ∧ FileReads .byte 0x0032 ready 0 ready ∧
      FileReads .byte 0x0035 ready (pick .byte 0x0035 0) ready ∧ FileReads .word 0x0036 ready ready.rcount ready ∧
      FileReads .byte 0x0042 ready (pick .byte 0x0042 (srWord ready.sr)) ready ∧
      FileReads .word 0x0044 ready (corconWord ready.corcon) ready ∧
      FileReads .byte 0x0053 ready (pick .byte 0x0053 (ready.disicnt.setWidth 16)) ready) ∧
    (FileReads .word 0x002E ready (Config.freeValue ready.draws) { ready with draws := ready.draws + 1 } ∧
      FileReads .byte 0x0031 ready (pick .byte 0x0031 (Config.freeValue ready.draws &&& 0x007F))
        { ready with draws := ready.draws + 1 } ∧ IsPcAddr 0x002F ready ∧ IsPcAddr 0x0031 ready ∧
      ¬IsPcAddr 0x0032 ready) ∧
    (FileReads .word 0x07FE ready (Config.freeValue ready.draws) { ready with draws := ready.draws + 1 } ∧
      FileReads .byte 0x07FF ready (sized .byte (Config.freeValue ready.draws))
        { ready with draws := ready.draws + 1 }) := by
  have hram : AccessOk .word 0x0800 ready ∧ AccessOk .byte 0x1FFF ready := by unfold AccessOk; decide +kernel
  refine ⟨⟨reads_ram hram.1, reads_ram hram.2⟩, ⟨?_, ?_⟩, ⟨?_, ?_, ?_, ?_, ?_, ?_, ?_⟩,
    ⟨?_, ?_, by unfold IsPcAddr; decide, by unfold IsPcAddr; decide, by unfold IsPcAddr; decide⟩, ?_, ?_⟩
  all_goals first
    | exact .inr ⟨fun _ => rfl, rfl, rfl⟩
    | exact .inr ⟨fun h => (nomatch h), rfl, rfl⟩
    | exact .inr ⟨fun _ => rfl, by decide, rfl, rfl⟩
    | exact .inr ⟨fun h => (nomatch h), by decide, rfl, rfl⟩

theorem witness_MultiplyIsExact :
    (3 : Reg).val % 2 = 1 ∧ (12 : Reg).val % 2 = 0 ∧ (12 : Reg) ≠ 14 ∧ OperandOk .word (.direct 5) ready := by
  exact ⟨rfl, rfl, by decide, .inl rfl⟩

/-- Operands a divide may not name; the executions 1, 2, 17 and 18 of a divide, each in a state where it may stand; and
records that no execution goes on with: a disturbed W0, another kind, a wrong RCOUNT, the last one of a divisor 0. -/
theorem witness_DivideExecutions :
    ¬DivRegs .sd 3 5 ∧ ¬DivRegs .uw 4 1 ∧ (4 : Reg) ≠ pairHigh 4 ∧ (∀ kind, DivRegs kind 4 5) ∧ ready.reg 5 ≠ 0 ∧
    ready.divGhost = none ∧ ¬(ready.sr.ra = true ∧ ready.rcount = 17) ∧
    (let s := { ready with sr := { ready.sr with ra := true }, rcount := 17 }
     s.divGhost = none ∧ s.sr.ra = true ∧ s.rcount = 17) ∧
    (∀ k, k = 1 ∨ k = 16 →
      let g : DivGhost := ⟨.sd, 0x00010000, 0xFFFF, k, ready.reg 0, ready.reg 1, false, false, false⟩
      let s := { ready with sr := { ready.sr with ra := true }, rcount := BitVec.ofNat 16 (17 - k), divGhost := some g }
      s.divGhost = some g ∧ DivGoesOn .sd g 5 s ∧ ¬DivGoesOn .sw g 5 s ∧ ¬DivEnds .sw g 5 s ∧
      ¬DivGoesOn .sd { g with w0 := 0x5555 } 5 s ∧ ¬DivGoesOn .sd g 5 { s with rcount := 0 }) ∧
    (let g : DivGhost := ⟨.sd, 0x00000007, 0xFFFF, 17, ready.reg 0, ready.reg 1, false, false, false⟩
     let s := { ready with divGhost := some g }
     DivEnds .sd g 5 s ∧ ¬DivGoesOn .sd g 5 s ∧ ¬DivEnds .sd { g with divisor := 0 } 6 { s with w := s.w.set 6 0 } ∧
     dividendInt .sd g.dividend = (-7) * divWordInt .sd g.divisor + 0 ∧
     (0 : Int).natAbs < (divWordInt .sd g.divisor).natAbs ∧ (-32768 : Int) ≤ -7 ∧ (-7 : Int) ≤ 32767) := by
  refine ⟨by unfold DivRegs; decide, by unfold DivRegs; decide, by decide,
    fun kind => ⟨by decide, by decide, fun _ => by decide⟩, by decide +kernel, rfl, by decide +kernel, by decide +kernel, ?_,
    by unfold DivEnds DivGoesOn DivIntact; decide +kernel⟩
  unfold DivEnds DivGoesOn DivIntact
  rintro k (rfl | rfl) <;> decide +kernel

/-- Counts of 15 and of 16. -/
theorem witness_ShiftByCount :
    (({ ready with w := ready.w.set 6 15 } : State).reg 6).toNat ≤ 15 ∧
    15 < (({ ready with w := ready.w.set 6 16 } : State).reg 6).toNat := by decide +kernel

/-- A bit that is set and one that is clear, in RAM, and the instruction after the BTSC (one word, two words); the
bytes of SR, CORCON, W0 and W15. -/
theorem witness_bits :
    (let at' := fun (f : BitVec 13) (b : BitVec 4) => cpuRegAt ready.dev.sfr (evenWord (bitAddr f b))
     at' 0x0042 7 = some .sr ∧ at' 0x0042 8 = some .sr ∧ at' 0x0044 3 = some .corcon ∧ at' 0x0000 15 = some (.w 0) ∧
     at' 0x001E 0 = some (.w 15)) ∧
    AccessOk .byte (bitAddr 0x0900 2) ready ∧ AccessOk .byte (bitAddr 0x0900 15) ready ∧
    (ready.ramByte (bitAddr 0x0900 2).toNat).getLsbD ((2#4).toNat % 8) = true ∧
    (ready.ramByte (bitAddr 0x0900 15).toNat).getLsbD ((15#4).toNat % 8) = false ∧
    (progRead ready (ready.pc.toNat + 2) = some 0 ∧ lengthOf 0 = some 1 ∧ lengthOf 0x040300 = some 2 ∧
      ready.pc.toNat + 2 + 2 * 2 < 0x800000) ∧
    (let s := { ready with prog := [(0x202, 0xFFFFFF)] }
     progRead s (s.pc.toNat + 2) = some 0xFFFFFF ∧ lengthOf 0xFFFFFF = none) ∧
    progImplemented (lastWord 0) ((lastWord 0).pc.toNat + 2) = false ∧
    (let s := { ready with pc := 0x7FFFFC }
     progRead s (s.pc.toNat + 2) = some 0 ∧ 0x800000 ≤ s.pc.toNat + 2 + 2 * 1) := by
  unfold AccessOk; decide +kernel

/-- A branch to the lowest and to the highest program address and one past each, an even target. -/
theorem witness_JumpsSetThePc :
    ready.pc.toNat % 2 = 0 ∧ (ready.pc.toNat : Int) + 2 + 2 * (0xFEFF#16).toInt = 0 ∧
    ((0x7FFF00#23).toNat : Int) + 2 + 2 * (0x007E#16).toInt = 0x7FFFFE ∧ (0x7FFFFE#23).toNat % 2 = 0 ∧
    (ready.pc.toNat : Int) + 2 + 2 * (0xFEFE#16).toInt < 0 ∧
    0x800000 ≤ ((0x7FFF00#23).toNat : Int) + 2 + 2 * (0x007F#16).toInt := by decide +kernel

/-- A call that completes (with `witness_frame_fits`), one whose first push fails, ones whose second does (V41.9), and
a relative one whose target lies below program space. -/
theorem witness_CallsPushTheReturnAddress :
    ready.pc.toNat % 2 = 0 ∧ ready.pc.toNat + 4 < 0x800000 ∧ 0 ≤ (ready.pc.toNat : Int) + 2 + 2 * (0xFEFF#16).toInt ∧
    FrameStops .stackError (stackAt 0x07FE) ∧ FrameStops .stackError (stackAt 0x0806) ∧
    FrameStops .addressError { stackAt 0x27FE with splim := 0x3000 } ∧
    (ready.pc.toNat : Int) + 2 + 2 * (0xFEFE#16).toInt < 0 ∧ 0x800000 ≤ (0x7FFFFC#23).toNat + 4 ∧
    (0x7FFFFA#23).toNat + 4 < 0x800000 := by
  refine ⟨by decide, by decide, by decide, frames_that_fail.1, frames_that_fail.2.1, frames_that_fail.2.2.2, ?_⟩
  decide

/-- A return whose first pop fails and one whose second does, by R100 and past the end of RAM. -/
theorem witness_ReturnsPopTheReturnAddress :
    UnframeStops .stackError (stackAt 0x0800) ∧ UnframeStops .stackError (stackAt 0x0802) ∧
    UnframeStops .addressError { stackAt 0x2802 with splim := 0x3000 } ∧
    (let s := { stackAt 0x2000 with splim := 0x3000, dev := { ready.dev with dataImpl := [(0x1FFE, 0x2000)] } }
     UnframeStops .addressError s) := by
  exact ⟨.inl (.inl ⟨rfl, by unfold PopFault; decide +kernel⟩),
    .inr ⟨by unfold TopOk AccessOk; decide +kernel, .inl ⟨rfl, by unfold PopFault; decide +kernel⟩⟩,
    unframe_absent (by unfold StackOk; decide +kernel) (by unfold AccessFault; decide +kernel),
    unframe_absent_second (by unfold TopOk AccessOk; decide +kernel) (by unfold StackOk; decide +kernel)
      (by unfold AccessFault; decide +kernel)⟩

/-- A table pointer at an even address and, for a byte, an odd one; test space; a destination in RAM. -/
theorem witness_TableReads :
    sameTwice (.ind 4) (.ind 3) = false ∧ isDirect (.direct 4) = true ∧ isDirect (.ind 4) = false ∧
    PointerOk (.ind 4) 2 true ready ∧ ready.tblpag.getLsbD 7 = false ∧ isOdd (eaOf (.ind 4) 2 ready) = false ∧
    progRead ready (ready.tblpag.toNat * 0x10000 + (eaOf (.ind 4) 2 ready).toNat / 2 * 2) = some 0 ∧
    DestOk .word (.ind 3) (afterSrc (.ind 4) 2 ready) ∧ PointerOk (.ind 5) 1 true ready ∧
    progRead ready (ready.tblpag.toNat * 0x10000 + (eaOf (.ind 5) 1 ready).toNat / 2 * 2) = some 0 ∧
    ({ ready with tblpag := 0x80 } : State).tblpag.getLsbD 7 = true := by
  unfold DestOk PointerOk AccessOk StackOk; decide +kernel

/-- The widest count that fits RCOUNT and the least that does not. -/
theorem witness_RepeatNopAndDisi :
    ready.dev.rcountWide = false ∧ (0x3FFF#16).toNat < 16384 ∧ 16384 ≤ (0x4000#16).toNat ∧
    ({ ready with w := ready.w.set 6 0x4000 } : State).reg 6 = 0x4000 := by decide +kernel

/-- The two settings of `preIncTwice`. -/
theorem witness_AddressingModesFollowTheTable :
    ready.dev.preIncTwice = false ∧ ({ ready.dev with preIncTwice := true }).preIncTwice = true := ⟨rfl, rfl⟩

/-- Helper: an instruction that completes in `ready`. -/
theorem completes {i : Instr} {s : State} (he : s.event = none)
    (h : answersB (exec i s) (fun t => t.event = none) = true) : ∃ t, Completed i s t := by
  obtain ⟨t, ht, hp⟩ := next_of h
  exact ⟨t, he, ht, by simpa using hp⟩

theorem witness_TwoOperandFrame :
    (∃ t, Completed (.mov .word (.postInc 1) (.preInc 3)) ready t) ∧ (∃ t, Completed (.push (.ind 1)) ready t) ∧
    (∃ t, Completed (.pop (.ind 1)) ready t) ∧ (∃ t, Completed (.add .word 0 (.ind 1) (.postInc 15)) ready t) ∧
    (∃ t, Completed (.sl .word (.ind 1) (.ind 3)) ready t) ∧ (∃ t, Completed (.lsr .byte (.ind 1) (.direct 3)) ready t) ∧
    (∃ t, Completed (.asr .word (.direct 1) (.ind 3)) ready t) ∧
    (∃ t, Completed (.tblrdl .word (.postInc 4) (.ind 3)) ready t) ∧
    (∃ t, Completed (.tblrdh .byte (.ind 5) (.direct 3)) ready t) := by
  refine ⟨?_, ?_, ?_, ?_, ?_, ?_, ?_, ?_, ?_⟩ <;> exact completes rfl (by decide +kernel)

theorem witness_RegisterResultFrame :
    (∃ t, Completed (.movFWnd 0x0900 2) ready t) ∧ (∃ t, Completed (.movLit16 1 2) ready t) ∧
    (∃ t, Completed (.movLit8 1 2) ready t) ∧ (∃ t, Completed (.movDLoad (.postInc 1) 6) ready t) ∧
    (∃ t, Completed (.mulUU 0 (.postInc 1) 6) ready t) ∧ (∃ t, Completed (.mulUS 0 (.ind 1) 6) ready t) ∧
    (∃ t, Completed (.mulSU 0 (.ind 1) 6) ready t) ∧ (∃ t, Completed (.mulSS 0 (.ind 1) 6) ready t) ∧
    (∃ t, Completed (.mulUULit 0 31 6) ready t) ∧ (∃ t, Completed (.mulSULit 0 31 6) ready t) ∧
    (∃ t, Completed (.mulF .word 0x0900) ready t) ∧ (∃ t, Completed (.mulF .byte 0x0901) ready t) ∧
    (∃ t, Completed (.addF .byte 0x0901 false) ready t) ∧ (∃ t, Completed (.slLit 0 15 6) ready t) ∧
    (∃ t, Completed (.lsrLit 0 15 6) ready t) ∧ (∃ t, Completed (.asrLit 0 15 6) ready t) ∧
    (∃ t, Completed (.slReg 0 0 6) ready t) ∧ (∃ t, Completed (.lsrReg 0 0 6) ready t) ∧
    (∃ t, Completed (.asrReg 0 0 6) ready t) ∧
    (∃ t, Completed (divInstr .ud 4 3) (lastPass .ud 0x00012345 0x0100 3) t) ∧ (∃ t, Completed .pushS ready t) ∧
    (∃ t, Completed .popS ready t) := by
  refine ⟨?_, ?_, ?_, ?_, ?_, ?_, ?_, ?_, ?_, ?_, ?_, ?_, ?_, ?_, ?_, ?_, ?_, ?_, ?_, ?_, ?_, ?_⟩ <;>
    exact completes rfl (by decide +kernel)

theorem witness_FileStoreFrame :
    (∃ t, Completed (.movWnsF 5 0x0900) ready t) ∧ (∃ t, Completed (.movWregF .byte 0x0901) ready t) ∧
    (∃ t, Completed (.addF .word 0x0900 true) ready t) ∧ (∃ t, Completed (.bset 0x0900 15) ready t) ∧
    (∃ t, Completed (.bclr 0x0900 2) ready t) ∧ (∃ t, Completed (.movDStore 4 (.direct 6)) ready t) ∧
    (∃ t, Completed (.movDStore 4 (.postInc 1)) ready t) := by
  refine ⟨?_, ?_, ?_, ?_, ?_, ?_, ?_⟩ <;> exact completes rfl (by decide +kernel)

theorem witness_FlowAndStackFrame :
    (∃ t, Completed (.bra 7) ready t) ∧ (∃ t, Completed (.goto 0x7FFFFE) ready t) ∧
    (∃ t, Completed (.btsc 0x0900 15) ready t) ∧ (∃ t, Completed .nop ready t) ∧
    (∃ t, Completed (.repeatLit 17) ready t) ∧ (∃ t, Completed (.repeatW 0) ready t) ∧
    (∃ t, Completed (.disi 3) ready t) ∧ (∃ t, Completed (.call 0x300) ready t) ∧
    (∃ t, Completed (.rcall 0x7E) ready t) ∧ (∃ t, Completed .ret ready t) ∧
    (∃ t, Completed (.retlw .byte 0x155 0) ready t) ∧ (∃ t, Completed .retfie ready t) ∧
    (∃ t, Completed (.lnk 4) ready t) ∧ (∃ t, Completed .ulnk ready t) := by
  refine ⟨?_, ?_, ?_, ?_, ?_, ?_, ?_, ?_, ?_, ?_, ?_, ?_, ?_, ?_⟩ <;> exact completes rfl (by decide +kernel)

end Sys2Proof.Tests
end

section
/-! What every instruction keeps: the cases of `exec` put together from what Laws/Steady says of each operation. -/
namespace Sys2Proof.Machine

/-! ## The parts of the instructions -/

theorem transfer_steadyMode {sz : Size} {src dst : Opnd} {s t : State} (h : transfer sz src dst s = .ok t) :
    SteadyMode s t := by
  unfold transfer at h
  split at h
  · cases h
  · obtain ⟨⟨v, s1⟩, h1, h⟩ := bind_ok h
    obtain ⟨s2, h2, h⟩ := bind_ok h
    cases h
    exact ((readOp_steadyMode h1).trans (writeResult_steadyMode h2)).trans (advance_steadyMode 1 s2)

theorem setPair_steadyMode (nd : Reg) (p : BitVec 32) (s : State) : SteadyMode s (setPair nd p s) :=
  (setW_steadyMode s nd _).trans (setW_steadyMode _ (pairHigh nd) _)

theorem shiftInto_steadyMode (nd : Reg) (r : Word) (s : State) : SteadyMode s (shiftInto nd r s) :=
  (setFlags_steadyMode s _).trans (setW_steadyMode _ nd r)

theorem shift1Flags_steadyMode (sz : Size) (out : Bool) (r : Word) (s : State) :
    SteadyMode s (shift1Flags sz out r s) :=
  (draws_steadyMode s _).trans (setFlags_steadyMode _ _)

theorem scramble_steadyMode (g : DivGhost) (s : State) : SteadyMode s (scramble g s) :=
  ((setW_steadyMode s 0 (drawAt s 0)).trans (setW_steadyMode _ 1 (drawAt s 1))).trans (misc_steadyMode (fun h => h))

theorem finishDiv_steadyMode (g : DivGhost) (s : State) : SteadyMode s (finishDiv g s) := by
  have pair : ∀ q r : Word, SteadyMode s ((s.setW 0 q).setW 1 r) := fun q r =>
    (setW_steadyMode s 0 q).trans (setW_steadyMode _ 1 r)
  unfold finishDiv
  dsimp only
  split
  · exact (pair (drawAt s 0) (drawAt s 1)).trans (misc_steadyMode (fun h => h))
  · exact (pair _ _).trans (misc_steadyMode (fun h => h))

theorem divStep_steadyMode {kind : DivKind} {m n : Reg} {s t : State} (h : divStep kind m n s = .ok t) :
    SteadyMode s t := by
  unfold divStep at h
  split at h
  · split at h
    · cases h
      split
      · exact (scramble_steadyMode _ s).trans (misc_steadyMode (fun h => h))
      · exact scramble_steadyMode _ s
    · cases h
  · split at h
    · cases h; exact scramble_steadyMode _ s
    · split at h
      · cases h; exact finishDiv_steadyMode _ s
      · cases h

theorem skip_steadyMode {s t : State} (h : skip s = .ok t) : SteadyMode s t := by
  unfold skip at h
  split at h
  · cases h
  · split at h
    · cases h
    · split at h
      · cases h; exact advance_steadyMode _ s
      · cases h

theorem popFrame_steadyMode {hi lo : Word} {s t : State} (h : popFrame s = .ok (hi, lo, t)) : SteadyMode s t := by
  obtain ⟨⟨x, s1⟩, h1, h⟩ := bind_ok h
  obtain ⟨⟨y, s2⟩, h2, h⟩ := bind_ok h
  cases h
  exact (pop16_steadyMode h1).trans (pop16_steadyMode h2)

theorem pushReturn_steadyMode {words : Nat} {s t : State} (h : pushReturn words s = .ok t) : SteadyMode s t := by
  obtain ⟨ret, -, h⟩ := bind_ok h
  obtain ⟨s1, h1, h⟩ := bind_ok h
  exact (push16_steadyMode h1).trans (push16_steadyMode h)

theorem tableSource_steadyMode {high : Bool} {sz : Size} {op : Opnd} {s t : State} {v : Word}
    (h : tableSource high sz op s = .ok (v, t)) : SteadyMode s t := by
  obtain ⟨-, d, rfl⟩ := tableSource_state h
  refine SteadyMode.trans ?_ (draws_steadyMode _ d)
  unfold afterRead
  split
  · exact setW_steadyMode s _ _
  · exact SteadyMode.refl s

/-- A jump to an even address. -/
theorem jump_steadyMode {s : State} {p : PAddr} (h : p.toNat % 2 = 0) : SteadyMode s (s.jump p) :=
  pc_steadyMode s fun _ => h

theorem relTarget_even {off : Word} {s : State} {p : PAddr} (h : relTarget off s = .ok p) : p.toNat % 2 = 0 :=
  inProgram_even h

/-- What an instruction may do to the state: reset the device, or keep what `SteadyMode` names. -/
def Keeps (s : State) (r : Result) : Prop := ∀ t, r = .next t → (∃ c, t = deviceReset c s) ∨ SteadyMode s t

theorem keeps_settle {words : Nat} {f : Footprint} {s : State} {r : Except Stop State} (hf : f.flags ≠ .frame)
    (hr : ∀ u, r = .ok u → SteadyMode s u) : Keeps s (settle words f s r) :=
  fun _ h => settle_steadyMode hf hr h

/-! ### The shared meanings -/

theorem tableRead_keeps (high : Bool) (sz : Size) (src dst : Opnd) (s : State) :
    Keeps s (tableRead high sz src dst s) := by
  refine keeps_settle (by simp [opFootprint]) fun u h => ?_
  split at h
  · cases h
  · obtain ⟨⟨v, s1⟩, h1, h⟩ := bind_ok h
    obtain ⟨s2, h2, h⟩ := bind_ok h
    cases h
    exact ((tableSource_steadyMode h1).trans (writeResult_steadyMode h2)).trans (advance_steadyMode 1 s2)

theorem shiftOne_keeps (op : ShiftOp) (sz : Size) (src dst : Opnd) (s : State) :
    Keeps s (shiftOne op sz src dst s) := by
  refine keeps_settle (by simp [opFootprint]) fun u h => ?_
  split at h
  · cases h
  · obtain ⟨⟨v, s1⟩, h1, h⟩ := bind_ok h
    obtain ⟨s2, h2, h⟩ := bind_ok h
    cases h
    exact (((readOp_steadyMode h1).trans (writeResult_steadyMode h2)).trans (shift1Flags_steadyMode _ _ _ _)).trans
      (advance_steadyMode 1 _)

theorem shiftLit_keeps (op : ShiftOp) (wb : Reg) (k : BitVec 4) (nd : Reg) (s : State) :
    Keeps s (shiftLit op wb k nd s) := by
  refine keeps_settle (by simp [pcOnly]) fun u h => ?_
  cases h
  exact (shiftInto_steadyMode nd _ s).trans (advance_steadyMode 1 _)

theorem shiftReg_keeps (op : ShiftOp) (wb ns nd : Reg) (s : State) : Keeps s (shiftReg op wb ns nd s) := by
  refine keeps_settle (by simp [pcOnly]) fun u h => ?_
  split at h
  · cases h; exact (shiftInto_steadyMode nd _ s).trans (advance_steadyMode 1 _)
  · cases h

theorem multiply_keeps (sa sb : Bool) (wb : Reg) (src : Opnd) (nd : Reg) (s : State) :
    Keeps s (multiply sa sb wb src nd s) := by
  refine keeps_settle (by simp [regFootprint]) fun u h => ?_
  split at h
  · cases h
  · obtain ⟨⟨v, s1⟩, h1, h⟩ := bind_ok h
    cases h
    exact ((readOp_steadyMode h1).trans (setPair_steadyMode nd _ s1)).trans (advance_steadyMode 1 _)

theorem multiplyLit_keeps (sa : Bool) (wb : Reg) (lit : BitVec 5) (nd : Reg) (s : State) :
    Keeps s (multiplyLit sa wb lit nd s) := by
  refine keeps_settle (by simp [pcOnly]) fun u h => ?_
  split at h
  · cases h
  · cases h; exact (setPair_steadyMode nd _ s).trans (advance_steadyMode 1 _)

theorem divide_keeps (kind : DivKind) (t m n : Reg) (s : State) : Keeps s (divide kind t m n s) := by
  refine keeps_settle (by simp [pcOnly]) fun u h => ?_
  split at h
  · cases h
  · obtain ⟨s1, h1, h⟩ := bind_ok h
    cases h
    exact (divStep_steadyMode h1).trans (advance_steadyMode 1 s1)

theorem changeBit_keeps (f : BitVec 13) (bit : BitVec 4) (change : Word → Word → Word) (s : State) :
    Keeps s (changeBit f bit change s) := by
  refine keeps_settle (by simp) fun u h => ?_
  obtain ⟨⟨v, s1⟩, h1, h⟩ := bind_ok h
  obtain ⟨s2, h2, h⟩ := bind_ok h
  cases h
  exact ((memRead_steadyMode h1).trans (memWrite_steadyMode h2)).trans (advance_steadyMode 1 s2)

/-! ### The meanings of single instructions -/

theorem execMovFWnd_keeps (f : Word) (nd : Reg) (s : State) : Keeps s (execMovFWnd f nd s) := by
  refine keeps_settle (by simp) fun u h => ?_
  obtain ⟨⟨v, s1⟩, h1, h⟩ := bind_ok h
  cases h
  exact ((memRead_steadyMode h1).trans (setW_steadyMode s1 nd v)).trans (advance_steadyMode 1 _)

theorem execMovWnsF_keeps (ns : Reg) (f : Word) (s : State) : Keeps s (execMovWnsF ns f s) := by
  refine keeps_settle (by simp [pcOnly]) fun u h => ?_
  obtain ⟨s1, h1, h⟩ := bind_ok h
  cases h
  exact (memWrite_steadyMode h1).trans (advance_steadyMode 1 s1)

theorem execMovWregF_keeps (sz : Size) (f : BitVec 13) (s : State) : Keeps s (execMovWregF sz f s) := by
  refine keeps_settle (by simp [pcOnly]) fun u h => ?_
  obtain ⟨s1, h1, h⟩ := bind_ok h
  cases h
  exact (memWrite_steadyMode h1).trans (advance_steadyMode 1 s1)

theorem execMovDLoad_keeps (src : Opnd) (nd : Reg) (s : State) : Keeps s (execMovDLoad src nd s) := by
  refine keeps_settle (by simp [regFootprint]) fun u h => ?_
  split at h
  · cases h
  · obtain ⟨⟨lo, hi, s1⟩, h1, h⟩ := bind_ok h
    cases h
    exact (((readPair_steadyMode h1).trans (setW_steadyMode s1 nd lo)).trans (setW_steadyMode _ (pairHigh nd) hi)).trans
      (advance_steadyMode 1 _)

theorem execMovDStore_keeps (ns : Reg) (dst : Opnd) (s : State) : Keeps s (execMovDStore ns dst s) := by
  refine keeps_settle (by simp) fun u h => ?_
  split at h
  · cases h
  · obtain ⟨s1, h1, h⟩ := bind_ok h
    cases h
    exact (writePair_steadyMode h1).trans (advance_steadyMode 1 s1)

theorem execPushS_keeps (s : State) : Keeps s (execPushS s) := by
  refine keeps_settle (by simp [pcOnly]) fun u h => ?_
  cases h
  exact SteadyMode.trans (misc_steadyMode (fun h => h)) (advance_steadyMode 1 _)

theorem execPopS_keeps (s : State) : Keeps s (execPopS s) := by
  refine keeps_settle (by simp [pcOnly]) fun u h => ?_
  cases h
  have four := ((setW_steadyMode s 0 s.wsh[0]).trans (setW_steadyMode _ 1 s.wsh[1])).trans
    ((setW_steadyMode _ 2 s.wsh[2]).trans (setW_steadyMode _ 3 s.wsh[3]))
  exact (four.trans (misc_steadyMode (fun h => h))).trans (advance_steadyMode 1 _)

theorem execLnk_keeps (lit : BitVec 14) (s : State) : Keeps s (execLnk lit s) := by
  refine keeps_settle (by simp) fun u h => ?_
  split at h
  · cases h
  · obtain ⟨s1, h1, h⟩ := bind_ok h
    cases h
    exact (((push16_steadyMode h1).trans (setW_steadyMode s1 fp _)).trans (setW_steadyMode _ sp _)).trans
      (advance_steadyMode 1 _)

theorem execUlnk_keeps (s : State) : Keeps s (execUlnk s) := by
  refine keeps_settle (by simp) fun u h => ?_
  obtain ⟨⟨v, s1⟩, h1, h⟩ := bind_ok h
  cases h
  exact (((setW_steadyMode s sp _).trans (pop16_steadyMode h1)).trans (setW_steadyMode s1 fp v)).trans
    (advance_steadyMode 1 _)

theorem execAddF_keeps (sz : Size) (f : BitVec 13) (toFile : Bool) (s : State) : Keeps s (execAddF sz f toFile s) := by
  refine keeps_settle (by simp) fun u h => ?_
  obtain ⟨⟨a, s1⟩, h1, h⟩ := bind_ok h
  dsimp only at h
  split at h
  · obtain ⟨s2, h2, h⟩ := bind_ok h
    cases h
    exact (((memRead_steadyMode h1).trans (memWrite_steadyMode h2)).trans (setFlags_steadyMode s2 _)).trans
      (advance_steadyMode 1 _)
  · cases h
    exact (((memRead_steadyMode h1).trans (setSized_steadyMode s1 sz wreg _)).trans (setFlags_steadyMode _ _)).trans
      (advance_steadyMode 1 _)

theorem execAdd_keeps (sz : Size) (wb : Reg) (src dst : Opnd) (s : State) : Keeps s (execAdd sz wb src dst s) := by
  refine keeps_settle (by simp [opFootprint]) fun u h => ?_
  split at h
  · cases h
  · obtain ⟨⟨v, s1⟩, h1, h⟩ := bind_ok h
    obtain ⟨s2, h2, h⟩ := bind_ok h
    cases h
    exact (((readOp_steadyMode h1).trans (writeResult_steadyMode h2)).trans (setFlags_steadyMode s2 _)).trans
      (advance_steadyMode 1 _)

theorem execMulF_keeps (sz : Size) (f : BitVec 13) (s : State) : Keeps s (execMulF sz f s) := by
  refine keeps_settle (by simp) fun u h => ?_
  obtain ⟨⟨b, s1⟩, h1, h⟩ := bind_ok h
  cases h
  refine ((memRead_steadyMode h1).trans ?_).trans (advance_steadyMode 1 _)
  cases sz
  · exact setPair_steadyMode 2 _ s1
  · exact setW_steadyMode s1 2 _

theorem execBtsc_keeps (f : BitVec 13) (bit : BitVec 4) (s : State) : Keeps s (execBtsc f bit s) := by
  refine keeps_settle (by simp [pcOnly]) fun u h => ?_
  obtain ⟨⟨v, s1⟩, h1, h⟩ := bind_ok h
  refine (memRead_steadyMode h1).trans ?_
  dsimp only at h
  split at h
  · cases h; exact advance_steadyMode 1 s1
  · exact skip_steadyMode h

theorem execBra_keeps (off : Word) (s : State) : Keeps s (execBra off s) := by
  refine keeps_settle (by simp [pcOnly]) fun u h => ?_
  obtain ⟨p, h1, h⟩ := bind_ok h
  cases h
  exact jump_steadyMode (relTarget_even h1)

theorem execCall_keeps (target : PAddr) (s : State) : Keeps s (execCall target s) := by
  refine keeps_settle (by simp [callFootprint]) fun u h => ?_
  obtain ⟨s1, h1, h⟩ := bind_ok h
  cases h
  exact (pushReturn_steadyMode h1).trans (jumpEven_steadyMode s1 target)

theorem execRcall_keeps (off : Word) (s : State) : Keeps s (execRcall off s) := by
  refine keeps_settle (by simp [callFootprint]) fun u h => ?_
  obtain ⟨s1, h1, h⟩ := bind_ok h
  obtain ⟨p, h2, h⟩ := bind_ok h
  cases h
  exact (pushReturn_steadyMode h1).trans (jump_steadyMode (relTarget_even h2))

theorem execRet_keeps (s : State) : Keeps s (execRet s) := by
  refine keeps_settle (by simp) fun u h => ?_
  obtain ⟨⟨hi, lo, s1⟩, h1, h⟩ := bind_ok h
  cases h
  exact (popFrame_steadyMode h1).trans (jumpEven_steadyMode s1 _)

theorem execRetlw_keeps (sz : Size) (lit : BitVec 10) (n : Reg) (s : State) : Keeps s (execRetlw sz lit n s) := by
  refine keeps_settle (by simp) fun u h => ?_
  obtain ⟨⟨hi, lo, s1⟩, h1, h⟩ := bind_ok h
  cases h
  exact ((popFrame_steadyMode h1).trans (setSized_steadyMode s1 sz n _)).trans (jumpEven_steadyMode _ _)

theorem execMovLit16_keeps (lit : Word) (nd : Reg) (s : State) : Keeps s (execMovLit16 lit nd s) := by
  refine keeps_settle (by simp [pcOnly]) fun u h => ?_
  cases h
  exact (setW_steadyMode s nd lit).trans (advance_steadyMode 1 _)

theorem execMovLit8_keeps (lit : Byte) (nd : Reg) (s : State) : Keeps s (execMovLit8 lit nd s) := by
  refine keeps_settle (by simp [pcOnly]) fun u h => ?_
  cases h
  exact (putW_steadyMode s nd _).trans (advance_steadyMode 1 _)

theorem execGoto_keeps (target : PAddr) (s : State) : Keeps s (execGoto target s) := by
  refine keeps_settle (by simp [pcOnly]) fun u h => ?_
  cases h
  exact jumpEven_steadyMode s target

theorem execNop_keeps (s : State) : Keeps s (execNop s) := by
  refine keeps_settle (by simp [pcOnly]) fun u h => ?_
  cases h
  exact advance_steadyMode 1 s

theorem execReset_keeps (s : State) : Keeps s (execReset s) := by
  refine keeps_settle (by simp [pcOnly]) fun u h => ?_
  cases h

theorem execDisi_keeps (lit : BitVec 14) (s : State) : Keeps s (execDisi lit s) := by
  refine keeps_settle (by simp [pcOnly]) fun u h => ?_
  cases h
  exact SteadyMode.trans (misc_steadyMode (fun h => h)) (advance_steadyMode 1 _)

theorem execBset_keeps (f : BitVec 13) (bit : BitVec 4) (s : State) : Keeps s (execBset f bit s) :=
  changeBit_keeps f bit _ s

theorem execBclr_keeps (f : BitVec 13) (bit : BitVec 4) (s : State) : Keeps s (execBclr f bit s) :=
  changeBit_keeps f bit _ s

/-- An instruction that is refused on every operand. -/
theorem refused_keeps (s : State) (x : Refusal) : Keeps s (.refused x) := fun _ h => by cases h

/-- Every instruction but REPEAT and RETFIE resets the device or keeps what `SteadyMode` names. -/
theorem exec_keeps {i : Instr} (s : State) (hf : i ≠ .retfie) (hl : ∀ lit, i ≠ .repeatLit lit)
    (hw : ∀ n, i ≠ .repeatW n) : Keeps s (exec i s) := by
  cases i with
  | mov sz src dst => exact keeps_settle (by simp [opFootprint]) fun _ => transfer_steadyMode
  | movFWnd f nd => exact execMovFWnd_keeps f nd s
  | movWnsF ns f => exact execMovWnsF_keeps ns f s
  | movWregF sz f => exact execMovWregF_keeps sz f s
  | movLit16 lit nd => exact execMovLit16_keeps lit nd s
  | movLit8 lit nd => exact execMovLit8_keeps lit nd s
  | movDLoad src nd => exact execMovDLoad_keeps src nd s
  | movDStore ns dst => exact execMovDStore_keeps ns dst s
  | push src => exact keeps_settle (by simp [opFootprint]) fun _ => transfer_steadyMode
  | pop dst => exact keeps_settle (by simp [opFootprint]) fun _ => transfer_steadyMode
  | pushS => exact execPushS_keeps s
  | popS => exact execPopS_keeps s
  | lnk lit => exact execLnk_keeps lit s
  | ulnk => exact execUlnk_keeps s
  | addF sz f toFile => exact execAddF_keeps sz f toFile s
  | add sz wb src dst => exact execAdd_keeps sz wb src dst s
  | mulUU wb src nd => exact multiply_keeps _ _ wb src nd s
  | mulUULit wb lit nd => exact multiplyLit_keeps _ wb lit nd s
  | mulUS wb src nd => exact multiply_keeps _ _ wb src nd s
  | mulSU wb src nd => exact multiply_keeps _ _ wb src nd s
  | mulSULit wb lit nd => exact multiplyLit_keeps _ wb lit nd s
  | mulSS wb src nd => exact multiply_keeps _ _ wb src nd s
  | mulF sz f => exact execMulF_keeps sz f s
  | divSW m n => exact divide_keeps .sw m m n s
  | divSD t m n => exact divide_keeps .sd t m n s
  | divUW m n => exact divide_keeps .uw m m n s
  | divUD t m n => exact divide_keeps .ud t m n s
  | sl sz src dst => exact shiftOne_keeps .left sz src dst s
  | slLit wb k nd => exact shiftLit_keeps .left wb k nd s
  | slReg wb ns nd => exact shiftReg_keeps .left wb ns nd s
  | lsr sz src dst => exact shiftOne_keeps .logical sz src dst s
  | lsrLit wb k nd => exact shiftLit_keeps .logical wb k nd s
  | lsrReg wb ns nd => exact shiftReg_keeps .logical wb ns nd s
  | asr sz src dst => exact shiftOne_keeps .arith sz src dst s
  | asrLit wb k nd => exact shiftLit_keeps .arith wb k nd s
  | asrReg wb ns nd => exact shiftReg_keeps .arith wb ns nd s
  | bset f bit => exact execBset_keeps f bit s
  | bclr f bit => exact execBclr_keeps f bit s
  | btsc f bit => exact execBtsc_keeps f bit s
  | bra off => exact execBra_keeps off s
  | goto target => exact execGoto_keeps target s
  | call target => exact execCall_keeps target s
  | rcall off => exact execRcall_keeps off s
  | ret => exact execRet_keeps s
  | retlw sz lit n => exact execRetlw_keeps sz lit n s
  | retfie => exact absurd rfl hf
  | tblrdl sz src dst => exact tableRead_keeps false sz src dst s
  | tblrdh sz src dst => exact tableRead_keeps true sz src dst s
  | tblwtl sz src dst => exact refused_keeps s _
  | tblwth sz src dst => exact refused_keeps s _
  | repeatLit lit => exact absurd rfl (hl lit)
  | repeatW n => exact absurd rfl (hw n)
  | nop => exact execNop_keeps s
  | reset => exact execReset_keeps s
  | disi lit => exact execDisi_keeps lit s
  | pwrsav lit => exact refused_keeps s _

end Sys2Proof.Machine
end

section
/-! What every step keeps, and the rules of the whole machine that follow: O12, O13, O15, O16, O17. -/

namespace Sys2Proof.Machine

/-! ## REPEAT and RETFIE -/

theorem rcountMask_toNat (d : Config.Device) (v : Word) :
    (rcountMask d v).toNat = v.toNat % 2 ^ (if d.rcountWide then 16 else 14) := by
  unfold rcountMask
  cases d.rcountWide
  · show (v &&& 0x3FFF).toNat = _
    rw [BitVec.toNat_and]
    exact Nat.and_two_pow_sub_one_eq_mod v.toNat 14
  · exact (Nat.mod_eq_of_lt v.isLt).symm

theorem rcountMask_of_countFits {d : Config.Device} {c : Word} (h : countFits d c = true) : rcountMask d c = c := by
  simp only [countFits, Bool.or_eq_true, decide_eq_true_eq] at h
  apply BitVec.eq_of_toNat_eq
  rw [rcountMask_toNat]
  apply Nat.mod_eq_of_lt
  split
  · exact c.isLt
  · exact h.resolve_left (by assumption)

theorem countFits_lit (d : Config.Device) (lit : BitVec 14) : countFits d (lit.setWidth 16) = true := by
  have := lit.isLt
  simp only [countFits, Bool.or_eq_true, decide_eq_true_eq, BitVec.toNat_setWidth]
  omega

theorem startLoop_steady {c : Word} {s : State} (h : countFits s.dev c = true) : Steady s (startLoop c s) :=
  ⟨rfl, rfl, rfl, rfl, fun _ h => h, id, fun g => ⟨g.mem, g.sp, g.splim, rcountMask_of_countFits h, g.pc⟩⟩

theorem restoreFrame_steady (hi lo : Word) (s : State) : Steady s (restoreFrame hi lo s) :=
  ⟨rfl, rfl, rfl, rfl, fun _ h => h, id, fun g => ⟨g.mem, g.sp, g.splim, g.rc, evenAddr_even _⟩⟩

theorem backToTarget_steady (top : Word) (s : State) : Steady s (s.backToTarget top) :=
  ⟨rfl, rfl, rfl, rfl, fun _ h => h, id, fun g => ⟨g.mem, g.sp, g.splim, g.rc, g.pc⟩⟩

/-- All that REPEAT does: it starts a loop of a count that fits RCOUNT. -/
theorem exec_repeatLit (lit : BitVec 14) (s : State) :
    exec (.repeatLit lit) s = .next (advance 1 (startLoop (lit.setWidth 16) s)) := rfl

theorem exec_repeatW_next {n : Reg} {s t : State} (h : exec (.repeatW n) s = .next t) :
    countFits s.dev (s.reg n) = true ∧ t = advance 1 (startLoop (s.reg n) s) := by
  change settle 1 pcOnly s (if _ then _ else _) = _ at h
  split at h
  · cases h; exact ⟨by assumption, rfl⟩
  · cases h

theorem execRetfie_steady {s t : State} (h : execRetfie s = .next t) :
    (∃ c, t = deviceReset c s) ∨ Steady s t := by
  refine settle_steady (fun u hu => ?_) h
  obtain ⟨⟨hi, lo, s1⟩, h1, hu⟩ := bind_ok hu
  cases hu
  exact ((popFrame_steadyMode h1).toSteady.trans (restoreFrame_steady hi lo s1)).trans (backToTarget_steady _ _)

/-- Every instruction resets the device or keeps what `Steady` names. -/
theorem exec_steady {i : Instr} {s t : State} (h : exec i s = .next t) : (∃ c, t = deviceReset c s) ∨ Steady s t := by
  by_cases hf : i = .retfie
  · subst hf; exact execRetfie_steady h
  by_cases hl : ∃ lit, i = .repeatLit lit
  · obtain ⟨lit, rfl⟩ := hl
    rw [exec_repeatLit] at h
    cases h
    exact .inr ((startLoop_steady (countFits_lit _ lit)).trans (advance_steadyMode 1 _).toSteady)
  by_cases hw : ∃ n, i = .repeatW n
  · obtain ⟨n, rfl⟩ := hw
    obtain ⟨hc, rfl⟩ := exec_repeatW_next h
    exact .inr ((startLoop_steady hc).trans (advance_steadyMode 1 _).toSteady)
  · exact (exec_keeps s hf (fun lit e => hl ⟨lit, e⟩) (fun n e => hw ⟨n, e⟩) t h).imp_right SteadyMode.toSteady

/-! ## What every step keeps -/

/-- What holds of every operation of the machine, device resets among them: the values stay fit, W15 stays initialised,
and where no device reset came between, no latch was cleared. -/
structure Persists (s t : State) : Prop where
  fit : Fit s → Fit t
  spInit : s.isInit sp = true → t.isInit sp = true
  epoch : s.ramEpoch ≤ t.ramEpoch
  init : t.ramEpoch = s.ramEpoch → ∀ n : Reg, s.isInit n = true → t.isInit n = true
  latch : t.ramEpoch = s.ramEpoch → s.splimen = true → t.splimen = true

theorem Steady.persists {s t : State} (h : Steady s t) : Persists s t :=
  ⟨h.good, h.init sp, h.epoch.ge, fun _ => h.init, fun _ => h.latch⟩

theorem Persists.trans {s t u : State} (h : Persists s t) (k : Persists t u) : Persists s u := by
  have between : u.ramEpoch = s.ramEpoch → t.ramEpoch = s.ramEpoch ∧ u.ramEpoch = t.ramEpoch := fun e => by
    have := h.epoch; have := k.epoch; omega
  exact ⟨fun f => k.fit (h.fit f), fun i => k.spInit (h.spInit i), h.epoch.trans k.epoch,
    fun e n hn => k.init (between e).2 n (h.init (between e).1 n hn),
    fun e hl => k.latch (between e).2 (h.latch (between e).1 hl)⟩

theorem fit_deviceReset (c : ResetCause) (s : State) : Fit (deviceReset c s) where
  mem := Memory.wf_reset
  sp := by show (State.reset.reg Sys2Proof.sp).toNat % 2 = 0; decide
  splim := by show (evenWord _).toNat % 2 = 0; rw [evenWord_toNat]; omega
  rc := rcountMask_idem _ _
  pc := rfl

/-- A device reset, its event taken away or not. -/
theorem deviceReset_persists (c : ResetCause) (s : State) (e : Option Event) :
    Persists s { deviceReset c s with event := e } := by
  have f := fit_deviceReset c s
  have counted : ¬(deviceReset c s).ramEpoch = s.ramEpoch := Nat.succ_ne_self _
  exact ⟨fun _ => ⟨f.mem, f.sp, f.splim, f.rc, f.pc⟩, fun _ => rfl, Nat.le_succ _,
    fun h => absurd h counted, fun h => absurd h counted⟩

/-- The boundary's input taken off the schedule. -/
theorem takeInput_persists (s : State) : Persists s (takeInput s).2 :=
  ⟨fun g => ⟨g.mem, g.sp, g.splim, g.rc, g.pc⟩, id, Nat.le_refl _, fun _ _ h => h, fun _ h => h⟩

/-! ## Taking an exception -/

theorem vectorOf_even {v : Nat} {s : State} {p : PAddr} (h : vectorOf v s = .ok p) : p.toNat % 2 = 0 := by
  unfold vectorOf at h
  split at h
  · split at h
    · cases h; exact evenAddr_even _
    · cases h
  · cases h; exact evenAddr_even _

theorem pushPcExc_steadyMode {ret : PAddr} {s t : State} (h : pushPcExc ret s = .ok t) : SteadyMode s t := by
  obtain ⟨u, h1, h2, -⟩ := pushPcExc_quiet h
  exact (push16_steadyMode h1).trans (push16_steadyMode h2)

/-- Taking an exception keeps what `Steady` names and raises nothing. -/
theorem enter_steady {v : Nat} {p : BitVec 4} {ret : PAddr} {s t : State} (h : enter v p ret s = .ok t) :
    Steady s t ∧ t.event = s.event := by
  obtain ⟨s1, h1, h⟩ := bind_ok h
  obtain ⟨target, h2, h⟩ := bind_ok h
  cases h
  obtain ⟨_, -, -, q⟩ := pushPcExc_quiet h1
  refine ⟨(pushPcExc_steadyMode h1).toSteady.trans ?_, q.event⟩
  exact ⟨rfl, rfl, rfl, rfl, fun _ h => h, id, fun g => ⟨g.mem, g.sp, g.splim, g.rc, vectorOf_even h2⟩⟩

theorem event_steadyMode (s : State) (e : Option Event) : SteadyMode s { s with event := e } :=
  misc_steadyMode fun h => h

theorem enterTrap_steady {k : TrapKind} {s t : State} (h : enterTrap k s = .ok t) :
    Steady s t ∧ t.event = none := by
  obtain ⟨hs, he⟩ := enter_steady h
  exact ⟨(event_steadyMode s none).toSteady.trans hs, he⟩

/-! ## An instruction that is over -/

theorem countDisi_steadyMode (i : Instr) (s t : State) : SteadyMode t (countDisi i s t) := by
  unfold countDisi
  split
  · exact SteadyMode.refl t
  · exact misc_steadyMode fun h => h

/-- A pass that is counted goes back to the PC it began at. -/
theorem countPass_steady {s t : State} (h : Steady s t) : Steady s (countPass s t) := by
  unfold countPass
  split
  · exact ⟨h.prog, h.dev, h.inputs, h.epoch, h.init, h.latch, fun g =>
      let g' := h.good g
      ⟨g'.mem, g'.sp, g'.splim, rcountMask_idem _ _, g.pc⟩⟩
  · exact h

theorem retire_steady {i : Instr} {s t : State} (h : Steady s t) : Steady s (retire i s t) :=
  (countPass_steady (h.trans (countDisi_steadyMode i s t).toSteady)).trans
    (SteadyMode.toSteady (misc_steadyMode fun h => h))

@[simp] theorem countDisi_event (i : Instr) (s t : State) : (countDisi i s t).event = t.event := by
  unfold countDisi; split <;> rfl

@[simp] theorem countPass_event (s t : State) : (countPass s t).event = t.event := by
  unfold countPass; split <;> rfl

@[simp] theorem retire_event (i : Instr) (s t : State) : (retire i s t).event = t.event := by
  simp [retire]

theorem entryFailed_next {x : Stop} {t : State} : entryFailed x ≠ .next t := by
  cases x <;> simp [entryFailed]

/-- How an instruction that began in `s` ends: no event is left. -/
theorem finish_persists {i : Instr} {s t u : State} (h : (∃ c, t = deviceReset c s) ∨ Steady s t)
    (hf : finish i s t = .next u) : Persists s u ∧ u.event = none := by
  obtain ⟨c, rfl⟩ | h := h
  · cases hf
    exact ⟨deviceReset_persists c s none, rfl⟩
  · unfold finish at hf
    split at hf
    · cases hf
      exact ⟨(retire_steady h).persists, by simpa⟩
    · cases hf
      exact ⟨(h.trans (event_steadyMode t none).toSteady).persists, rfl⟩
    · split at hf
      · cases hf
      · split at hf
        · cases hf
          rename_i hu
          obtain ⟨hs, he⟩ := enterTrap_steady hu
          exact ⟨((retire_steady h).trans hs).persists, he⟩
        · exact absurd hf entryFailed_next

theorem startPass_steady (s : State) : Steady s (startPass s) :=
  ⟨rfl, rfl, rfl, rfl, fun _ h => h, id, fun g => ⟨g.mem, g.sp, g.splim, g.rc, g.pc⟩⟩

theorem runInstr_persists {i : Instr} {s t : State} (h : runInstr i s = .next t) : Persists s t ∧ t.event = none := by
  unfold runInstr at h
  split at h
  · cases h
  · split at h
    · cases h
    · split at h
      · rename_i hu
        obtain ⟨hp, he⟩ := finish_persists (exec_steady hu) h
        exact ⟨(startPass_steady s).persists.trans hp, he⟩
      · cases h
      · cases h

theorem runAtPc_persists {s t : State} (h : runAtPc s = .next t) : Persists s t ∧ t.event = none := by
  unfold runAtPc at h
  split at h
  · cases h
  · split at h
    · exact runInstr_persists h
    · cases h

/-- Every step persists, and leaves no event. -/
theorem step_persists {s t : State} (h : step s = .next t) : Persists s t ∧ t.event = none := by
  have taken := takeInput_persists s
  unfold step outerStep at h
  split at h <;> rename_i hi <;> rw [hi] at taken
  · obtain ⟨hp, he⟩ := runAtPc_persists h
    exact ⟨taken.trans hp, he⟩
  · cases h
    exact ⟨taken.trans (deviceReset_persists .environment _ none), rfl⟩
  · split at h
    · split at h
      · rename_i hu
        obtain ⟨hp, he⟩ := runAtPc_persists h
        exact ⟨(taken.trans (enter_steady hu).1.persists).trans hp, he⟩
      · exact absurd h entryFailed_next
    · obtain ⟨hp, he⟩ := runAtPc_persists h
      exact ⟨taken.trans hp, he⟩

theorem Inv.fit {s : State} (h : Inv s) : Fit s := ⟨h.mem_wf, h.sp_even, h.splim_even, h.rcount_width, h.pc_even⟩

/-- Settles O12: the values' invariant and the initialised W15 persist through every step, which leaves no event. -/
theorem stepKeepsInvariant : Obligations.StepKeepsInvariant := by
  intro s t hs h
  obtain ⟨hp, he⟩ := step_persists h
  have f := hp.fit hs.fit
  exact ⟨f.mem, f.pc, f.sp, f.splim, hp.spInit hs.sp_init, f.rc, he⟩

/-- Settles O15: a step that counts no device reset clears no latch. -/
theorem onlyResetClearsTheLatches : Obligations.OnlyResetClearsTheLatches := by
  intro s t h he
  obtain ⟨hp, -⟩ := step_persists h
  exact ⟨hp.init he, hp.latch he⟩

/-- Settles O16: REPEAT leaves CORCON alone, every other instruction but RETFIE keeps a clear IPL3, and a device reset
clears it. -/
theorem softwareCannotSetIpl3 : Obligations.SoftwareCannotSetIpl3 := by
  intro i s t hf h h0
  by_cases hl : ∃ lit, i = .repeatLit lit
  · obtain ⟨lit, rfl⟩ := hl
    cases h
    exact h0
  by_cases hw : ∃ n, i = .repeatW n
  · obtain ⟨n, rfl⟩ := hw
    obtain ⟨-, rfl⟩ := exec_repeatW_next h
    exact h0
  · obtain ⟨c, rfl⟩ | k := exec_keeps s hf (fun lit e => hl ⟨lit, e⟩) (fun n e => hw ⟨n, e⟩) t h
    · rfl
    · exact k.ipl3 h0

/-- Settles O17: a device reset says so in its event, and whatever else an instruction does keeps RA. -/
theorem repeatActiveIsReadOnly : Obligations.RepeatActiveIsReadOnly := by
  intro i s t hf hl hw h
  obtain ⟨c, rfl⟩ | k := exec_keeps s hf hl hw t h
  · exact .inr ⟨c, deviceReset_event c s⟩
  · exact .inl k.ra

/-- Settles O13: memory after reset is canonical, and every other clause is about literal values. -/
theorem resetHasInvariant : Obligations.ResetHasInvariant where
  mem_wf := Memory.wf_reset
  pc_even := rfl
  sp_even := by decide
  splim_even := rfl
  sp_init := rfl
  rcount_width := by decide
  no_event := rfl

end Sys2Proof.Machine
end

section
/-! How an operand that stops ends the instruction, and the reset of an uninitialised pointer: O11. -/

namespace Sys2Proof.Machine

/-! ## An operand that stops -/

/-- The instructions that read one operand by `readOp`, compute, and write the other by `writeResult`. -/
def twoOperand (sz : Size) (wb : Reg) (src dst : Opnd) : List Instr :=
  [.mov sz src dst, .add sz wb src dst, .sl sz src dst, .lsr sz src dst, .asr sz src dst]

theorem forall_twoOperand {p : Instr → Prop} {sz : Size} {wb : Reg} {src dst : Opnd} :
    (∀ i ∈ twoOperand sz wb src dst, p i) ↔
      p (.mov sz src dst) ∧ p (.add sz wb src dst) ∧ p (.sl sz src dst) ∧ p (.lsr sz src dst) ∧
        p (.asr sz src dst) := by
  simp [twoOperand]

/-- A source that stops stops the instruction. -/
theorem exec_source_stop {sz : Size} {wb : Reg} {src dst : Opnd} {s : State} {x : Stop} {i : Instr}
    (hst : sameTwice src dst = false) (hr : readOp sz src s = .error x) (hi : i ∈ twoOperand sz wb src dst) :
    ∃ f, exec i s = settle 1 f s (.error x) := by
  simp only [twoOperand, List.mem_cons, List.not_mem_nil, or_false] at hi
  obtain rfl | rfl | rfl | rfl | rfl := hi <;> refine ⟨_, congrArg (settle 1 _ s) ?_⟩
  · simp [transfer, hst, hr]
  all_goals simp [hst, hr]

/-- A destination that stops, after a source that was read, stops the instruction. -/
theorem exec_dest_stop {sz : Size} {wb : Reg} {src dst : Opnd} {s s1 : State} {v : Word} {x : Stop} {i : Instr}
    (hst : sameTwice src dst = false) (hr : readOp sz src s = .ok (v, s1))
    (hw : ∀ r, writeResult sz src dst r s s1 = .error x) (hi : i ∈ twoOperand sz wb src dst) :
    ∃ f, exec i s = settle 1 f s (.error x) := by
  simp only [twoOperand, List.mem_cons, List.not_mem_nil, or_false] at hi
  obtain rfl | rfl | rfl | rfl | rfl := hi <;> refine ⟨_, congrArg (settle 1 _ s) ?_⟩
  · simp [transfer, hst, hr, hw]
  all_goals simp [hst, hr, hw]

theorem tableRead_source_stop {high : Bool} {sz : Size} {src dst : Opnd} {s : State} {x : Stop}
    (hst : sameTwice src dst = false) (hr : tableSource high sz src s = .error x) :
    ∃ f, tableRead high sz src dst s = settle 1 f s (.error x) :=
  ⟨_, congrArg (settle 1 _ s) (by simp [hst, hr])⟩

theorem tableRead_dest_stop {high : Bool} {sz : Size} {src dst : Opnd} {s s1 : State} {v : Word} {x : Stop}
    (hst : sameTwice src dst = false) (hr : tableSource high sz src s = .ok (v, s1))
    (hw : ∀ r, writeResult sz src dst r s s1 = .error x) :
    ∃ f, tableRead high sz src dst s = settle 1 f s (.error x) :=
  ⟨_, congrArg (settle 1 _ s) (by simp [hst, hr, hw])⟩

theorem multiply_source_stop {sa sb : Bool} {wb nd : Reg} {src : Opnd} {s : State} {x : Stop}
    (hnd : mulBadDest nd = false) (hr : readOp .word src s = .error x) :
    ∃ f, multiply sa sb wb src nd s = settle 1 f s (.error x) :=
  ⟨_, congrArg (settle 1 _ s) (by simp [hnd, hr])⟩

/-! ## Uninitialised pointers (R27) -/

theorem tableSource_uninit {high : Bool} {sz : Size} {op : Opnd} {s : State} (hd : isDirect op = false)
    (h : s.isInit op.reg = false) : tableSource high sz op s = .error (.reset .uninitW) := by
  simp [tableSource, hd, locate_uninit h]

theorem readPair_uninit {op : Opnd} {s : State} (hd : isDirect op = false) (h : s.isInit op.reg = false) :
    readPair op s = .error (.reset .uninitW) := by
  simp [readPair, hd, locate_uninit h]

theorem writePair_uninit {op : Opnd} {lo hi : Word} {s : State} (hd : isDirect op = false)
    (h : s.isInit op.reg = false) : writePair op lo hi s = .error (.reset .uninitW) := by
  simp [writePair, hd, locate_uninit h]

/-- An instruction that stops at a device reset answers the reset state. -/
theorem answers_isReset {r : Result} {s : State} {c : ResetCause}
    (h : ∃ f, r = settle 1 f s (.error (.reset c))) : Answers r fun t => IsReset s t := by
  obtain ⟨f, rfl⟩ := h
  exact ⟨_, rfl, isReset_deviceReset c s⟩

theorem execMovDLoad_uninit {src : Opnd} {nd : Reg} {s : State} (hd : isDirect src = false)
    (h : s.isInit src.reg = false) (hnd : oddReg nd = false) :
    ∃ f, execMovDLoad src nd s = settle 1 f s (.error (.reset .uninitW)) :=
  ⟨_, congrArg (settle 1 _ s) (by simp [hnd, hd, readPair_uninit hd h])⟩

theorem execMovDStore_uninit {dst : Opnd} {ns : Reg} {s : State} (hd : isDirect dst = false)
    (h : s.isInit dst.reg = false) (hns : oddReg ns = false) :
    ∃ f, execMovDStore ns dst s = settle 1 f s (.error (.reset .uninitW)) :=
  ⟨_, congrArg (settle 1 _ s) (by simp [hns, hd, writePair_uninit hd h])⟩

/-- Settles O11: the pointer is looked at first in every form, and a read before it leaves its flag as it was. PUSH and
POP are the word MOV they stand for. -/
theorem uninitialisedPointerResets : Obligations.UninitialisedPointerResets := by
  intro s sz src dst wb nd Resets
  refine ⟨fun hd hi => ⟨fun hst => ?_, fun hnd => ?_, fun hnd => answers_isReset (execMovDLoad_uninit hd hi hnd)⟩,
    fun hd hi => ⟨fun hst => ⟨fun v s1 hr => ?_, fun v s1 hr => ?_, fun v s1 hr => ?_⟩,
      fun hnd => answers_isReset (execMovDStore_uninit hd hi hnd)⟩⟩
  · have two : ∀ z, ∀ i ∈ twoOperand z wb src dst, Resets i := fun z i h =>
      answers_isReset (exec_source_stop hst (readOp_uninit hd hi) h)
    have tab : ∀ high, Answers (tableRead high sz src dst s) fun t => IsReset s t := fun high =>
      answers_isReset (tableRead_source_stop hst (tableSource_uninit hd hi))
    obtain ⟨hmov, hadd, hsl, hlsr, hasr⟩ := forall_twoOperand.1 (two sz)
    have hword := (forall_twoOperand.1 (two .word)).1
    exact ⟨hmov, hadd, hsl, hlsr, hasr, tab false, tab true, by rintro rfl; exact hword, by rintro rfl; exact hword⟩
  · have mul : ∀ sa sb, Answers (multiply sa sb wb src nd s) fun t => IsReset s t := fun sa sb =>
      answers_isReset (multiply_source_stop hnd (readOp_uninit hd hi))
    exact ⟨mul _ _, mul _ _, mul _ _, mul _ _⟩
  · have two : ∀ i ∈ twoOperand sz wb src dst, Resets i := fun i h =>
      answers_isReset (exec_dest_stop hst hr
        (fun r => writeResult_uninit hd ((readOp_isInit hr dst.reg).trans hi)) h)
    obtain ⟨hmov, hadd, hsl, hlsr, hasr⟩ := forall_twoOperand.1 two
    exact ⟨hmov, hadd, hsl, hlsr, hasr, by rintro rfl rfl; exact hmov, by rintro rfl rfl; exact hmov⟩
  all_goals exact answers_isReset (tableRead_dest_stop hst hr
    fun r => writeResult_uninit hd ((tableSource_isInit hr dst.reg).trans hi))

end Sys2Proof.Machine
end

section
/-! The special registers as data space shows them (R33, R38, R50): the bits of SR and CORCON, the bytes of a word, and
the loads and stores of a CPU register. O29 and O30. -/

namespace Sys2Proof.Machine

theorem Answers.imp {r : Result} {p q : State → Prop} (h : Answers r p) (k : ∀ t, p t → q t) : Answers r q := by
  obtain ⟨t, ht, hp⟩ := h
  exact ⟨t, ht, k t hp⟩

/-! ## The bytes of a word -/

theorem lowByte_toNat (v : Word) : (lowByte v).toNat = v.toNat % 256 := by
  simp [lowByte, BitVec.extractLsb'_toNat]

theorem highByte_toNat (v : Word) : (highByte v).toNat = v.toNat / 256 := by
  have := v.isLt
  simp only [highByte, BitVec.extractLsb'_toNat, Nat.shiftRight_eq_div_pow]
  omega

theorem joinBytes_toNat (lo hi : Byte) : (joinBytes lo hi).toNat = hi.toNat * 256 + lo.toNat := by
  have := lo.isLt
  simp only [joinBytes, BitVec.toNat_append]
  rw [← Nat.shiftLeft_add_eq_or_of_lt this, Nat.shiftLeft_eq]

theorem getLsbD_lowByte (v : Word) (k : Nat) : (lowByte v).getLsbD k = (decide (k < 8) && v.getLsbD k) := by
  simp [lowByte, BitVec.getLsbD_extractLsb']

theorem getLsbD_highByte (v : Word) (k : Nat) : (highByte v).getLsbD k = (decide (k < 8) && v.getLsbD (8 + k)) := by
  simp [highByte, BitVec.getLsbD_extractLsb']

theorem getLsbD_joinBytes (lo hi : Byte) (k : Nat) :
    (joinBytes lo hi).getLsbD k = if k < 8 then lo.getLsbD k else hi.getLsbD (k - 8) := by
  simp only [joinBytes, BitVec.getLsbD_append]

/-- The bits of a word after a byte store: the byte that the address selects, and the other one kept. -/
theorem getLsbD_byteStored (ea v old : Word) (k : Nat) :
    (byteStored ea v old).getLsbD k =
      if k < 16 ∧ isOdd ea = decide (8 ≤ k) then v.getLsbD (k % 8) else old.getLsbD k := by
  by_cases hk : k < 16
  · unfold byteStored
    by_cases h8 : k < 8
    · have h : k % 8 = k := Nat.mod_eq_of_lt h8
      cases ho : isOdd ea <;>
        simp [getLsbD_joinBytes, getLsbD_lowByte, h8, h, show ¬8 ≤ k by omega, hk, -BitVec.getLsbD_eq_getElem]
    · have h : k % 8 = k - 8 := by omega
      have e : 8 + (k - 8) = k := by omega
      cases ho : isOdd ea <;>
        simp [getLsbD_joinBytes, getLsbD_lowByte, getLsbD_highByte, h8, h, e, show 8 ≤ k by omega,
          show k - 8 < 8 by omega, hk, -BitVec.getLsbD_eq_getElem]
  · simp [hk, BitVec.getLsbD_of_ge _ _ (Nat.not_lt.1 hk)]

/-! ## SR and CORCON bit by bit -/

/-- Bit `k` of SR as R33 lays it out. -/
def srBit (r : StatusReg) (k : Nat) : Bool :=
  match k with
  | 0 => r.flags.c
  | 1 => r.flags.z
  | 2 => r.flags.ov
  | 3 => r.flags.n
  | 4 => r.ra
  | 5 => r.ipl.getLsbD 0
  | 6 => r.ipl.getLsbD 1
  | 7 => r.ipl.getLsbD 2
  | 8 => r.flags.dc
  | _ => false

theorem srWord_eq_append (r : StatusReg) :
    srWord r = 0#7 ++ BitVec.ofBool r.flags.dc ++ r.ipl ++ BitVec.ofBool r.ra ++ BitVec.ofBool r.flags.n ++
      BitVec.ofBool r.flags.ov ++ BitVec.ofBool r.flags.z ++ BitVec.ofBool r.flags.c := by
  obtain ⟨⟨dc, n, ov, z, c⟩, ipl, ra⟩ := r
  revert ipl
  cases dc <;> cases n <;> cases ov <;> cases z <;> cases c <;> cases ra <;> decide

theorem srWord_getLsbD (r : StatusReg) (k : Nat) : (srWord r).getLsbD k = srBit r k := by
  rw [srWord_eq_append]
  simp only [BitVec.getLsbD_append, BitVec.getLsbD_ofBool, BitVec.getLsbD_zero]
  match k with
  | 0 | 1 | 2 | 3 | 4 | 5 | 6 | 7 | 8 => simp [srBit]
  | n + 9 => simp [srBit]

/-- Bit `k` of CORCON as R38 lays it out. -/
def corconBit (c : CoreCon) (k : Nat) : Bool :=
  match k with
  | 2 => c.psv
  | 3 => c.ipl3
  | _ => false

theorem corconWord_getLsbD (c : CoreCon) (k : Nat) : (corconWord c).getLsbD k = corconBit c k := by
  by_cases hk : k < 16
  · obtain ⟨ipl3, psv⟩ := c
    interval_cases k <;> cases ipl3 <;> cases psv <;> rfl
  · rw [BitVec.getLsbD_of_ge _ _ (by omega)]
    unfold corconBit
    split <;> first | rfl | omega

/-! ## Loads (R50) -/

theorem memRead_cpu {sz : Size} {a : Word} {s : State} {r : CpuReg} (ho : ¬(sz = .word ∧ isOdd a = true))
    (hr : cpuRegAt s.dev.sfr (evenWord a) = some r) :
    memRead sz a s = .ok (pick sz a (readCpu r s).1, (readCpu r s).2) := by
  have h : region s a = .cpu r := by simp only [region, hr]
  unfold memRead
  rw [if_neg ho, h]

@[simp] theorem readCpu_w (r : CpuReg) (s : State) : (readCpu r s).2.w = s.w := by cases r <;> rfl

theorem exec_movFWnd_cpu {f : Word} {nd : Reg} {s : State} {r : CpuReg} (ho : isOdd f = false)
    (hr : cpuRegAt s.dev.sfr (evenWord f) = some r) :
    exec (.movFWnd f nd) s = .next (advance 1 ((readCpu r s).2.setW nd (readCpu r s).1)) := by
  show settle 1 _ s _ = _
  rw [memRead_cpu (by simp [ho]) hr]
  rfl

/-- A load of a CPU register gives its word, bit 0 kept by every register but W15. -/
theorem answers_movFWnd_cpu {f : Word} {nd : Reg} {s : State} (r : CpuReg) (ho : isOdd f = false)
    (hr : cpuRegAt s.dev.sfr (evenWord f) = some r) (hnd : nd ≠ sp) :
    Answers (exec (.movFWnd f nd) s) fun t => t.reg nd = (readCpu r s).1 ∧ t.draws = (readCpu r s).2.draws :=
  ⟨_, exec_movFWnd_cpu ho hr, by simp [regMask, hnd], rfl⟩

theorem and_7F_toNat (v : Word) : (v &&& 0x007F).toNat = v.toNat % 128 := by
  rw [BitVec.toNat_and]
  exact Nat.and_two_pow_sub_one_eq_mod v.toNat 7

theorem srWord_extract_ipl (r : StatusReg) : (srWord r).extractLsb' 5 3 = r.ipl := by
  apply BitVec.eq_of_getLsbD_eq
  intro i hi
  rw [BitVec.getLsbD_extractLsb', srWord_getLsbD]
  interval_cases i <;> rfl

theorem srBit_of_ge {r : StatusReg} {k : Nat} (h : 9 ≤ k) : srBit r k = false := by
  obtain ⟨n, rfl⟩ := Nat.exists_eq_add_of_le' h
  rfl

theorem corconBit_of_ne {c : CoreCon} {k : Nat} (h2 : k ≠ 2) (h3 : k ≠ 3) : corconBit c k = false := by
  unfold corconBit
  split
  · exact absurd rfl h2
  · exact absurd rfl h3
  · rfl

/-- Settles O29: at the default addresses, what `readCpu` gives of each register, SR and CORCON bit by bit. -/
theorem specialRegisterReads : Obligations.SpecialRegisterReads := by
  intro s nd hs hnd
  refine ⟨?_, ?_, ?_, ?_, ?_, ?_, ?_, ?_, ?_⟩
  · exact (answers_movFWnd_cpu .splim (by decide) (by rw [hs]; decide) hnd).imp fun t ⟨h, _⟩ => h
  · exact answers_movFWnd_cpu .pcl (by decide) (by rw [hs]; decide) hnd
  · refine (answers_movFWnd_cpu .pch (by decide) (by rw [hs]; decide) hnd).imp fun t ⟨h, hd⟩ => ⟨?_, hd⟩
    rw [h]
    exact and_7F_toNat _
  · refine (answers_movFWnd_cpu .tblpag (by decide) (by rw [hs]; decide) hnd).imp fun t ⟨h, _⟩ => ?_
    rw [h]
    exact BitVec.toNat_setWidth_of_le (by decide)
  · refine (answers_movFWnd_cpu .psvpag (by decide) (by rw [hs]; decide) hnd).imp fun t ⟨h, _⟩ => ?_
    rw [h]
    exact BitVec.toNat_setWidth_of_le (by decide)
  · exact (answers_movFWnd_cpu .rcount (by decide) (by rw [hs]; decide) hnd).imp fun t ⟨h, _⟩ => h
  · refine (answers_movFWnd_cpu .disicnt (by decide) (by rw [hs]; decide) hnd).imp fun t ⟨h, _⟩ => ?_
    rw [h]
    exact BitVec.toNat_setWidth_of_le (by decide)
  · refine (answers_movFWnd_cpu .sr (by decide) (by rw [hs]; decide) hnd).imp fun t ⟨h, _⟩ => ?_
    have hbit : ∀ k, (t.reg nd).getLsbD k = srBit s.sr k := fun k => by rw [h]; exact srWord_getLsbD s.sr k
    refine ⟨fun k hk => (hbit k).trans (srBit_of_ge hk), hbit 8, ?_, hbit 4, hbit 3, hbit 2, hbit 1, hbit 0⟩
    rw [h]
    exact srWord_extract_ipl s.sr
  · refine (answers_movFWnd_cpu .corcon (by decide) (by rw [hs]; decide) hnd).imp fun t ⟨h, _⟩ => ?_
    have hbit : ∀ k, (t.reg nd).getLsbD k = corconBit s.corcon k := fun k => by
      rw [h]; exact corconWord_getLsbD s.corcon k
    exact ⟨hbit 3, hbit 2, fun k h2 h3 => (hbit k).trans (corconBit_of_ne h2 h3)⟩

/-! ## Stores (R50) -/

/-- A word store to a CPU register: refused, or done and noted. -/
theorem exec_movWnsF_cpu {f : Word} {ns : Reg} {s : State} {r : CpuReg} (ho : isOdd f = false)
    (hr : cpuRegAt s.dev.sfr (evenWord f) = some r) :
    exec (.movWnsF ns f) s =
      settle 1 pcOnly s ((putCpu r (s.reg ns) s).map fun t => advance 1 (noteWordWrite r t)) := by
  show settle 1 pcOnly s _ = _
  rw [memWrite_cpu (by simp [ho]) hr]
  simp only [storedWord, if_true]
  cases putCpu r (s.reg ns) s <;> rfl

/-- A byte store to a CPU register writes its half of the word. -/
theorem exec_movWregF_cpu {f : BitVec 13} {s : State} {r : CpuReg}
    (hr : cpuRegAt s.dev.sfr (evenWord (fileAddr f)) = some r) :
    exec (.movWregF .byte f) s =
      settle 1 pcOnly s ((putCpu r (byteStored (fileAddr f) (s.reg wreg) (readCpu r s).1) s).map (advance 1)) := by
  show settle 1 pcOnly s _ = _
  rw [memWrite_cpu (by simp) hr]
  simp only [storedWord]
  cases putCpu r (byteStored (fileAddr f) (s.reg wreg) (readCpu r s).1) s <;> rfl

theorem answers_movWnsF_cpu {f : Word} {ns : Reg} {s t : State} {p : State → Prop} (r : CpuReg)
    (ho : isOdd f = false) (hr : cpuRegAt s.dev.sfr (evenWord f) = some r) (ht : putCpu r (s.reg ns) s = .ok t)
    (hp : p (advance 1 (noteWordWrite r t))) : Answers (exec (.movWnsF ns f) s) p := by
  rw [exec_movWnsF_cpu ho hr, ht]
  exact ⟨_, rfl, hp⟩

theorem answers_movWregF_cpu {f : BitVec 13} {s t : State} {p : State → Prop} (r : CpuReg)
    (hr : cpuRegAt s.dev.sfr (evenWord (fileAddr f)) = some r)
    (ht : putCpu r (byteStored (fileAddr f) (s.reg wreg) (readCpu r s).1) s = .ok t) (hp : p (advance 1 t)) :
    Answers (exec (.movWregF .byte f) s) p := by
  rw [exec_movWregF_cpu hr, ht]
  exact ⟨_, rfl, hp⟩

/-! ### What a byte store leaves of the other byte -/

theorem byteStored_of_even {ea v old : Word} (h : isOdd ea = false) :
    byteStored ea v old = joinBytes (lowByte v) (highByte old) := by
  simp [byteStored, h]

theorem byteStored_of_odd {ea v old : Word} (h : isOdd ea = true) :
    byteStored ea v old = joinBytes (lowByte old) (lowByte v) := by
  simp [byteStored, h]

theorem lowByte_setWidth (b : Byte) : lowByte (b.setWidth 16) = b := by
  apply BitVec.eq_of_toNat_eq
  rw [lowByte_toNat, BitVec.toNat_setWidth_of_le (by decide)]
  exact Nat.mod_eq_of_lt b.isLt

theorem highByte_evenWord (v : Word) : highByte (evenWord v) = highByte v := by
  apply BitVec.eq_of_toNat_eq
  rw [highByte_toNat, highByte_toNat, evenWord_toNat]
  omega

theorem lowByte_evenWord_toNat (v : Word) : (lowByte (evenWord v)).toNat = v.toNat % 256 / 2 * 2 := by
  rw [lowByte_toNat, evenWord_toNat]
  omega

/-- SR after a store of its low byte: DC and RA stay, and IPL<2:0> under NSTDIS. -/
theorem srWritten_lowByte {ea v : Word} (b : Bool) (r : StatusReg) (h : isOdd ea = false) :
    srWritten b r (byteStored ea v (srWord r)) =
      ⟨⟨r.flags.dc, v.getLsbD 3, v.getLsbD 2, v.getLsbD 1, v.getLsbD 0⟩,
        if b then r.ipl else v.extractLsb' 5 3, r.ra⟩ := by
  have hi : (byteStored ea v (srWord r)).extractLsb' 5 3 = v.extractLsb' 5 3 := by
    apply BitVec.eq_of_getLsbD_eq
    intro i hi
    rw [BitVec.getLsbD_extractLsb', BitVec.getLsbD_extractLsb', getLsbD_byteStored, h]
    interval_cases i <;> rfl
  simp [srWritten, flagsOfWord, hi, getLsbD_byteStored, h, srWord_getLsbD, srBit, -BitVec.getLsbD_eq_getElem]

/-- SR after a store of its high byte: only DC is there. -/
theorem srWritten_highByte {ea v : Word} (b : Bool) (r : StatusReg) (h : isOdd ea = true) :
    srWritten b r (byteStored ea v (srWord r)) = { r with flags := { r.flags with dc := v.getLsbD 0 } } := by
  have hi : (byteStored ea v (srWord r)).extractLsb' 5 3 = r.ipl := by
    rw [← srWord_extract_ipl r]
    apply BitVec.eq_of_getLsbD_eq
    intro i hi
    rw [BitVec.getLsbD_extractLsb', BitVec.getLsbD_extractLsb', getLsbD_byteStored, h]
    interval_cases i <;> rfl
  simp [srWritten, flagsOfWord, hi, getLsbD_byteStored, h, srWord_getLsbD, srBit, -BitVec.getLsbD_eq_getElem]

theorem corconWritten_lowByte {ea v : Word} (c : CoreCon) (h : isOdd ea = false) :
    corconWritten c (byteStored ea v (corconWord c)) = ⟨c.ipl3 && v.getLsbD 3, v.getLsbD 2⟩ := by
  simp [corconWritten, getLsbD_byteStored, h, -BitVec.getLsbD_eq_getElem]

theorem corconWritten_highByte {ea v : Word} (c : CoreCon) (h : isOdd ea = true) :
    corconWritten c (byteStored ea v (corconWord c)) = c := by
  simp [corconWritten, getLsbD_byteStored, h, corconWord_getLsbD, corconBit, -BitVec.getLsbD_eq_getElem]

/-- Settles O30: at the default addresses, what `putCpu` does to each register with the stored word, or with the word of
which a byte store replaced one half. -/
theorem specialRegisterWrites : Obligations.SpecialRegisterWrites := by
  intro s ns hs
  have ipl : ∀ {b : Bool} {x y z : BitVec 3}, z = (if b then x else y) → (b = false → z = y) ∧ (b = true → z = x) := by
    rintro b x y _ rfl
    exact ⟨fun h => by simp [h], fun h => by simp [h]⟩
  refine ⟨?_, ?_, ?_, ?_, ?_, ?_, ?_, ?_, ?_, ?_, ?_, ?_, ?_, ?_, ?_, ?_, ?_, ?_, ?_, ?_, ?_, ?_, ?_, ?_⟩
  · exact answers_movWnsF_cpu .sr (by decide) (by rw [hs]; decide) rfl ⟨rfl, rfl, ipl rfl⟩
  · exact answers_movWnsF_cpu .corcon (by decide) (by rw [hs]; decide) rfl ⟨rfl, Bool.and_eq_true_iff⟩
  · refine answers_movWregF_cpu .sr (by rw [hs]; decide) rfl ?_
    have h := srWritten_lowByte (v := s.reg wreg) (ea := fileAddr 0x0042) s.dev.nstdis s.sr (by decide)
    exact ⟨congrArg StatusReg.flags h, rfl, ipl (congrArg StatusReg.ipl h)⟩
  · exact answers_movWregF_cpu .sr (by rw [hs]; decide) rfl (srWritten_highByte s.dev.nstdis s.sr (by decide))
  · refine answers_movWregF_cpu .corcon (by rw [hs]; decide) rfl ?_
    have h := corconWritten_lowByte (v := s.reg wreg) (ea := fileAddr 0x0044) s.corcon (by decide)
    exact ⟨congrArg CoreCon.psv h, (congrArg (· = true) (congrArg CoreCon.ipl3 h)).to_iff.trans Bool.and_eq_true_iff⟩
  · exact answers_movWregF_cpu .corcon (by rw [hs]; decide) rfl (corconWritten_highByte s.corcon (by decide))
  · exact answers_movWnsF_cpu .splim (by decide) (by rw [hs]; decide) rfl ⟨evenWord_toNat _, rfl, rfl⟩
  · refine answers_movWregF_cpu .splim (by rw [hs]; decide) rfl ⟨rfl, ?_, ?_, rfl⟩
    · exact (highByte_evenWord _).trans (highByte_joinBytes _ _)
    · refine (lowByte_evenWord_toNat _).trans ?_
      rw [← lowByte_toNat, byteStored_of_even (by decide), lowByte_joinBytes, lowByte_toNat]
  · exact answers_movWregF_cpu .splim (by rw [hs]; decide) rfl
      ⟨rfl, (highByte_evenWord _).trans (highByte_joinBytes _ _), rfl⟩
  · exact answers_movWnsF_cpu .tblpag (by decide) (by rw [hs]; decide) rfl rfl
  · exact answers_movWnsF_cpu .psvpag (by decide) (by rw [hs]; decide) rfl rfl
  · exact answers_movWnsF_cpu .rcount (by decide) (by rw [hs]; decide) rfl (rcountMask_toNat _ _)
  · exact answers_movWnsF_cpu .disicnt (by decide) (by rw [hs]; decide) rfl (BitVec.toNat_setWidth _ _)
  · exact answers_movWregF_cpu .tblpag (by rw [hs]; decide) rfl (lowByte_joinBytes _ _)
  · exact answers_movWregF_cpu .tblpag (by rw [hs]; decide) rfl ((lowByte_joinBytes _ _).trans (lowByte_setWidth _))
  · exact answers_movWregF_cpu .psvpag (by rw [hs]; decide) rfl (lowByte_joinBytes _ _)
  · exact answers_movWregF_cpu .psvpag (by rw [hs]; decide) rfl ((lowByte_joinBytes _ _).trans (lowByte_setWidth _))
  · refine answers_movWregF_cpu .rcount (by rw [hs]; decide) rfl ((rcountMask_toNat _ _).trans ?_)
    rw [byteStored_of_even (by decide), joinBytes_toNat, highByte_toNat, lowByte_toNat]
    rfl
  · refine answers_movWregF_cpu .rcount (by rw [hs]; decide) rfl ((rcountMask_toNat _ _).trans ?_)
    rw [byteStored_of_odd (by decide), joinBytes_toNat, lowByte_toNat, lowByte_toNat]
    rfl
  · refine answers_movWregF_cpu .disicnt (by rw [hs]; decide) rfl ((BitVec.toNat_setWidth _ _).trans ?_)
    rw [byteStored_of_even (by decide), joinBytes_toNat, highByte_toNat, lowByte_toNat]
    have := s.disicnt.isLt
    simp only [readCpu, BitVec.toNat_setWidth]
    omega
  · refine answers_movWregF_cpu .disicnt (by rw [hs]; decide) rfl ((BitVec.toNat_setWidth _ _).trans ?_)
    rw [byteStored_of_odd (by decide), joinBytes_toNat, lowByte_toNat, lowByte_toNat]
    have := s.disicnt.isLt
    simp only [readCpu, BitVec.toNat_setWidth]
    omega
  · rw [exec_movWnsF_cpu (r := .pcl) (by decide) (by rw [hs]; decide)]; rfl
  · rw [exec_movWnsF_cpu (r := .pch) (by decide) (by rw [hs]; decide)]; rfl
  · intro f hf
    simp only [List.mem_cons, List.not_mem_nil, or_false] at hf
    obtain rfl | rfl | rfl | rfl := hf
    · rw [exec_movWregF_cpu (r := .pcl) (by rw [hs]; decide)]; rfl
    · rw [exec_movWregF_cpu (r := .pcl) (by rw [hs]; decide)]; rfl
    · rw [exec_movWregF_cpu (r := .pch) (by rw [hs]; decide)]; rfl
    · rw [exec_movWregF_cpu (r := .pch) (by rw [hs]; decide)]; rfl

end Sys2Proof.Machine
end

section
/-! BSET and BCLR at every place a byte can lie (R260 to R262): O49. -/

namespace Sys2Proof.Machine

/-! ## One bit of a byte -/

/-- The bits of the mask set in a value, or cleared. -/
def withBit (on : Bool) (v mask : Word) : Word := if on then v ||| mask else v &&& ~~~mask

theorem exec_bset (f : BitVec 13) (bit : BitVec 4) (s : State) :
    exec (.bset f bit) s = changeBit f bit (withBit true) s := rfl

theorem exec_bclr (f : BitVec 13) (bit : BitVec 4) (s : State) :
    exec (.bclr f bit) s = changeBit f bit (withBit false) s := rfl

theorem getLsbD_mask {p : Nat} (hp : p < 16) (k : Nat) : (1#16 <<< p).getLsbD k = decide (k = p) := by
  by_cases hk : k = p
  · subst hk; simp [hp]
  · by_cases h : k < p
    · simp [BitVec.getLsbD_shiftLeft, h, hk]
    · simp [BitVec.getLsbD_shiftLeft, BitVec.getLsbD_one, hk]
      omega

theorem getLsbD_withBit (on : Bool) (v : Word) {p : Nat} (hp : p < 16) (k : Nat) :
    (withBit on v (1#16 <<< p)).getLsbD k = if k = p then on else v.getLsbD k := by
  unfold withBit
  by_cases hk : k = p
  · subst hk
    cases on <;> simp [getLsbD_mask hp, hp, -BitVec.getLsbD_eq_getElem]
  · cases on
    · simp only [Bool.false_eq_true, if_false, BitVec.getLsbD_and, BitVec.getLsbD_not, getLsbD_mask hp, hk,
        decide_false, Bool.not_false, Bool.and_true]
      by_cases h : k < 16
      · simp [h]
      · simp [BitVec.getLsbD_of_ge v k (Nat.not_lt.1 h)]
    · simp [getLsbD_mask hp, hk, -BitVec.getLsbD_eq_getElem]

theorem bitPos_lt (bit : BitVec 4) : bitPos bit < 8 := Nat.mod_lt _ (by decide)

/-- A change to `true` and to `false` as the statements write them. -/
theorem ite_true_eq_or (p : Prop) [Decidable p] (b : Bool) : (if p then true else b) = (decide p || b) := by
  by_cases h : p <;> simp [h]

theorem ite_false_eq_and (p : Prop) [Decidable p] (b : Bool) : (if p then false else b) = (!decide p && b) := by
  by_cases h : p <;> simp [h]

/-! ## The byte read, changed and stored again -/

theorem getLsbD_pick_byte (a v : Word) {k : Nat} (hk : k < 8) :
    (pick .byte a v).getLsbD k = v.getLsbD (k + if isOdd a then 8 else 0) := by
  unfold pick
  cases isOdd a
  · simp [getLsbD_lowByte, hk, show k < 16 by omega, -BitVec.getLsbD_eq_getElem]
  · simp [getLsbD_highByte, hk, show k < 16 by omega, Nat.add_comm, -BitVec.getLsbD_eq_getElem]

/-- The word of which the selected byte was read, one bit of it changed, and stored again: that one bit is changed. -/
theorem getLsbD_byteStored_withBit (on : Bool) (a v : Word) {p : Nat} (hp : p < 8) (k : Nat) :
    (byteStored a (withBit on (pick .byte a v) (1#16 <<< p)) v).getLsbD k =
      if k = p + (if isOdd a then 8 else 0) then on else v.getLsbD k := by
  have h8 : k % 8 < 8 := Nat.mod_lt _ (by decide)
  rw [getLsbD_byteStored, getLsbD_withBit on _ (by omega), getLsbD_pick_byte a v h8]
  by_cases hsel : k < 16 ∧ isOdd a = decide (8 ≤ k)
  · obtain ⟨hk, ho⟩ := hsel
    by_cases hlo : k < 8
    · have e : k % 8 = k := Nat.mod_eq_of_lt hlo
      simp [ho, hk, show ¬8 ≤ k by omega, e, -BitVec.getLsbD_eq_getElem]
    · have e : k % 8 + 8 = k := by omega
      have e' : k % 8 = p ↔ k = p + 8 := by omega
      simp [ho, hk, show 8 ≤ k by omega, e, e', -BitVec.getLsbD_eq_getElem]
  · rw [if_neg hsel, if_neg]
    rintro rfl
    refine hsel ⟨by split <;> omega, ?_⟩
    cases isOdd a <;> simp
    omega

theorem answers_changeBit {f : BitVec 13} {bit : BitVec 4} {change : Word → Word → Word} {s u t : State} {v : Word}
    {p : State → Prop} (hr : memRead .byte (bitAddr f bit) s = .ok (v, u))
    (hw : memWrite .byte (bitAddr f bit) (change v (1#16 <<< bitPos bit)) u = .ok t) (hp : p (advance 1 t)) :
    Answers (changeBit f bit change s) p := by
  refine ⟨advance 1 t, ?_, hp⟩
  show settle 1 _ s _ = _
  rw [hr]
  simp only [ok_bind, hw, settle_ok]

theorem changeBit_refused {f : BitVec 13} {bit : BitVec 4} {change : Word → Word → Word} {s u : State} {v : Word}
    {x : Refusal} (hr : memRead .byte (bitAddr f bit) s = .ok (v, u))
    (hw : ∀ r, memWrite .byte (bitAddr f bit) r u = .error (.refuse x)) : changeBit f bit change s = .refused x := by
  show settle 1 _ s _ = _
  rw [hr]
  simp only [ok_bind, hw, error_bind, settle_refuse]

/-- At a CPU register whose read changes nothing, the word with one bit changed is written. -/
theorem answers_changeBit_cpu {f : BitVec 13} {bit : BitVec 4} {change : Word → Word → Word} {s t : State}
    {r : CpuReg} {w : Word} {p : State → Prop} (hr : cpuRegAt s.dev.sfr (evenWord (bitAddr f bit)) = some r)
    (hw : readCpu r s = (w, s))
    (ht : putCpu r (byteStored (bitAddr f bit)
      (change (pick .byte (bitAddr f bit) w) (1#16 <<< bitPos bit)) w) s = .ok t)
    (hp : p (advance 1 t)) : Answers (changeBit f bit change s) p := by
  refine answers_changeBit (v := pick .byte (bitAddr f bit) w) (u := s) ?_ ?_ hp
  · rw [memRead_cpu (by simp) hr, hw]
  · rw [memWrite_cpu (by simp) hr, hw]
    exact congrArg (Except.map _) ht

/-! ## The places -/

theorem changeBit_ram {f : BitVec 13} {bit : BitVec 4} {s : State} (on : Bool)
    (h : AccessOk .byte (bitAddr f bit) s) :
    Answers (changeBit f bit (withBit on) s) fun t => t.pc = s.pc + 2 ∧ ∀ k, k < 8 →
      (t.ramByte (bitAddr f bit).toNat).getLsbD k =
        if k = bit.toNat % 8 then on else (s.ramByte (bitAddr f bit).toNat).getLsbD k := by
  refine answers_changeBit (memRead_ram h) (memWrite_ram h) ⟨rfl, fun k hk => ?_⟩
  rw [advance_ramByte]
  simp only [ramWrite, ramByte_setRamByte_self, ramRead, getLsbD_lowByte, hk, decide_true, Bool.true_and]
  rw [getLsbD_withBit on _ (Nat.lt_trans (bitPos_lt bit) (by decide))]
  simp [bitPos, show k < 16 by omega, -BitVec.getLsbD_eq_getElem]

/-- Which bits of SR a store changes (R33, R37). -/
theorem srBit_srWritten (s : State) (v : Word) (k : Nat) :
    srBit (srWritten s.dev.nstdis s.sr v) k = if srWritable s k then v.getLsbD k else srBit s.sr k := by
  have ipl : ∀ i, i < 3 →
      (srWritten s.dev.nstdis s.sr v).ipl.getLsbD i =
        if s.dev.nstdis then s.sr.ipl.getLsbD i else v.getLsbD (5 + i) := by
    intro i hi
    simp only [srWritten]
    split <;> simp [BitVec.getLsbD_extractLsb', hi, -BitVec.getLsbD_eq_getElem]
  match k with
  | 0 | 1 | 2 | 3 | 4 | 8 => rfl
  | 5 | 6 | 7 =>
    simp only [srBit, ipl _ (by decide : 0 < 3), ipl _ (by decide : 1 < 3), ipl _ (by decide : 2 < 3)]
    cases h : s.dev.nstdis <;> simp [srWritable, h]
  | n + 9 => simp [srBit, srWritable]

theorem changeBit_sr {f : BitVec 13} {bit : BitVec 4} {s : State} (on : Bool)
    (h : cpuRegAt s.dev.sfr (evenWord (bitAddr f bit)) = some .sr) :
    Answers (changeBit f bit (withBit on) s) fun t => t.pc = s.pc + 2 ∧ ∀ k,
      (srWord t.sr).getLsbD k =
        if k = bit.toNat % 8 + (if isOdd (bitAddr f bit) then 8 else 0) ∧ srWritable s k = true then on
        else (srWord s.sr).getLsbD k := by
  refine answers_changeBit_cpu h rfl rfl ⟨rfl, fun k => ?_⟩
  rw [srWord_getLsbD]
  refine (srBit_srWritten s _ k).trans ?_
  rw [getLsbD_byteStored_withBit on _ _ (bitPos_lt bit), srWord_getLsbD]
  by_cases hw : srWritable s k = true
  · simp only [hw, if_true, and_true]; rfl
  · simp only [hw, Bool.false_eq_true, if_false, and_false]

theorem corconBit_corconWritten (c : CoreCon) (v : Word) (k : Nat) :
    corconBit (corconWritten c v) k = ((k == 2 && v.getLsbD k) || (k == 3 && c.ipl3 && v.getLsbD k)) := by
  match k with
  | 0 | 1 => rfl
  | 2 | 3 => simp [corconBit, corconWritten]
  | n + 4 => rfl

theorem changeBit_corcon {f : BitVec 13} {bit : BitVec 4} {s : State} (on : Bool)
    (h : cpuRegAt s.dev.sfr (evenWord (bitAddr f bit)) = some .corcon) :
    Answers (changeBit f bit (withBit on) s) fun t => t.pc = s.pc + 2 ∧ ∀ k,
      (corconWord t.corcon).getLsbD k =
        if k = bit.toNat % 8 + (if isOdd (bitAddr f bit) then 8 else 0) ∧ (on = true → k = 2) then
          on else (corconWord s.corcon).getLsbD k := by
  refine answers_changeBit_cpu h rfl rfl ⟨rfl, fun k => ?_⟩
  rw [corconWord_getLsbD, corconWord_getLsbD]
  refine (corconBit_corconWritten s.corcon _ k).trans ?_
  rw [getLsbD_byteStored_withBit on _ _ (bitPos_lt bit), corconWord_getLsbD, bitPos]
  by_cases hj : k = bit.toNat % 8 + if isOdd (bitAddr f bit) then 8 else 0
  · rw [if_pos hj]
    match k with
    | 0 | 1 | 2 | 3 => cases on <;> simp [corconBit, ← hj]
    | n + 4 => cases on <;> simp [corconBit]
  · rw [if_neg hj, if_neg fun h => hj h.1]
    match k with
    | 0 | 1 | 2 | 3 => simp [corconBit]
    | n + 4 => rfl

theorem getLsbD_regMask (n : Reg) (v : Word) (k : Nat) :
    (regMask n v).getLsbD k = (!decide (n = sp ∧ k = 0) && v.getLsbD k) := by
  unfold regMask
  by_cases hn : n = sp
  · rw [if_pos hn, evenWord_eq]
    cases k with
    | zero => simp [hn, -BitVec.getLsbD_eq_getElem]
    | succ k =>
      by_cases hk : k + 1 < 16
      · simp [hk, Nat.add_comm, -BitVec.getLsbD_eq_getElem]
      · simp [BitVec.getLsbD_of_ge _ _ (Nat.not_lt.1 hk)]
  · simp [hn]

theorem changeBit_w {f : BitVec 13} {bit : BitVec 4} {s : State} {n : Reg} (on : Bool)
    (h : cpuRegAt s.dev.sfr (evenWord (bitAddr f bit)) = some (.w n)) :
    Answers (changeBit f bit (withBit on) s) fun t => t.pc = s.pc + 2 ∧ t.winit = s.winit ∧ ∀ k,
      (t.reg n).getLsbD k = (!decide (n = sp ∧ k = 0) &&
        if k = bit.toNat % 8 + (if isOdd (bitAddr f bit) then 8 else 0) then on else (s.reg n).getLsbD k) := by
  refine answers_changeBit_cpu h rfl rfl ⟨rfl, rfl, fun k => ?_⟩
  show ((s.putW n _).reg n).getLsbD k = _
  rw [State.reg_putW, if_pos rfl, getLsbD_regMask, getLsbD_byteStored_withBit on _ _ (bitPos_lt bit)]
  rfl

/-- At any place that `FileReads` names but PCL and PCH. -/
theorem changeBit_file {f : BitVec 13} {bit : BitVec 4} {s u : State} {v : Word} (on : Bool)
    (h : FileReads .byte (bitAddr f bit) s v u) (hp : ¬IsPcAddr (bitAddr f bit) s) :
    Answers (changeBit f bit (withBit on) s) fun t => t.pc = s.pc + 2 ∧
      ∃ r : Word, (∀ k, r.getLsbD k = if k = bit.toNat % 8 then on else v.getLsbD k) ∧
        FileStored .byte (bitAddr f bit) r s t := by
  obtain ⟨t, ht, hst, hpc, -⟩ := (memWrite_of_fileReads h).2 hp
  refine answers_changeBit (memRead_of_fileReads h) ht ⟨?_, _, fun k => ?_, hst.advance 1⟩
  · rw [advance_pc, nextPc, hpc]; rfl
  · exact getLsbD_withBit on v (Nat.lt_trans (bitPos_lt bit) (by decide)) k

/-- Settles O49: BSET and BCLR are the change of one bit to 1 and to 0, and each place says which of its bits a store
changes. -/
theorem bitSetAndClear : Obligations.BitSetAndClear := by
  intro s f bit j At
  simp only [exec_bset, exec_bclr]
  refine ⟨fun h => ⟨?_, ?_⟩, fun h => ⟨?_, ?_⟩, fun h => ⟨?_, ?_⟩, fun n h => ⟨?_, ?_⟩,
    fun v u h => ⟨fun hp => ?_, fun hp => ⟨?_, ?_⟩⟩⟩
  · refine (changeBit_ram true h).imp fun t ⟨hpc, hb⟩ => ⟨hpc, fun k hk => (hb k hk).trans (ite_true_eq_or _ _)⟩
  · refine (changeBit_ram false h).imp fun t ⟨hpc, hb⟩ => ⟨hpc, fun k hk => (hb k hk).trans (ite_false_eq_and _ _)⟩
  · refine (changeBit_sr true h).imp fun t ⟨hpc, hb⟩ => ⟨hpc, fun k => (hb k).trans ?_⟩
    rw [ite_true_eq_or]
    simp [j]
  · refine (changeBit_sr false h).imp fun t ⟨hpc, hb⟩ => ⟨hpc, fun k => (hb k).trans ?_⟩
    rw [ite_false_eq_and]
    simp [j]
  · refine (changeBit_corcon true h).imp fun t ⟨hpc, hb⟩ => ⟨hpc, fun k => (hb k).trans ?_⟩
    rw [ite_true_eq_or]
    simp [j, beq_eq_decide]
  · refine (changeBit_corcon false h).imp fun t ⟨hpc, hb⟩ => ⟨hpc, fun k => (hb k).trans ?_⟩
    rw [ite_false_eq_and]
    simp [j]
  · refine (changeBit_w true h).imp fun t ⟨hpc, hi, hb⟩ => ⟨hpc, hi, fun k => (hb k).trans ?_⟩
    rw [ite_true_eq_or]
  · refine (changeBit_w false h).imp fun t ⟨hpc, hi, hb⟩ => ⟨hpc, hi, fun k => (hb k).trans ?_⟩
    rw [ite_false_eq_and, Bool.and_assoc]
  · have refused := fun on => changeBit_refused (change := withBit on) (memRead_of_fileReads h)
      fun r => (memWrite_of_fileReads h).1 hp
    exact ⟨refused true, refused false⟩
  · refine (changeBit_file true h hp).imp fun t ⟨hpc, r, hb, hst⟩ => ⟨hpc, r, fun k => (hb k).trans ?_, hst⟩
    exact ite_true_eq_or _ _
  · refine (changeBit_file false h hp).imp fun t ⟨hpc, r, hb, hst⟩ => ⟨hpc, r, fun k => (hb k).trans ?_, hst⟩
    exact ite_false_eq_and _ _

end Sys2Proof.Machine
end

section
/-! The W registers through their data addresses (R23, R85, R86): O28. -/

namespace Sys2Proof.Machine

/-! ## Reads and stores at the address of a W register -/

theorem cpuRegAt_of_div {d : Config.SfrMap} {c : Word} {n : Reg} (h : c.toNat / 2 = n.val) :
    cpuRegAt d c = some (.w n) := by
  have hn := n.isLt
  unfold cpuRegAt
  rw [dif_pos (by omega)]
  simp only [h]

theorem cpuRegAt_evenWord {d : Config.SfrMap} {a : Word} {n : Reg} (h : a.toNat / 2 = n.val) :
    cpuRegAt d (evenWord a) = some (.w n) :=
  cpuRegAt_of_div (by rw [evenWord_toNat]; omega)

theorem aligned_iff {sz : Size} {a : Word} : ¬(sz = .word ∧ isOdd a = true) ↔ (sz = .word → isOdd a = false) := by
  simp

theorem memRead_w {sz : Size} {a : Word} {r : Reg} (s : State) (h : a.toNat / 2 = r.val)
    (ho : sz = .word → isOdd a = false) : memRead sz a s = .ok (pick sz a (s.reg r), s) :=
  memRead_cpu (aligned_iff.2 ho) (cpuRegAt_evenWord h)

/-- The state after a store that leaves `v` in Wn through its data address: noted in the trace, and a word initialises
the register (R26, R86). -/
def storeMapped (sz : Size) (n : Reg) (v : Word) (s : State) : State :=
  { (if sz = .word then s.setW n v else s.putW n v) with
    cur := { s.cur with wHit := s.cur.wHit ||| (1#16 <<< n.val) } }

@[simp] theorem storeMapped_reg (sz : Size) (n m : Reg) (v : Word) (s : State) :
    (storeMapped sz n v s).reg m = if n = m then regMask n v else s.reg m := by
  cases sz <;> exact State.reg_putW s n m v

@[simp] theorem storeMapped_pc (sz : Size) (n : Reg) (v : Word) (s : State) : (storeMapped sz n v s).pc = s.pc := by
  cases sz <;> rfl

theorem storeMapped_kept (sz : Size) (n : Reg) (v : Word) (s : State) : Kept [n] [] s (storeMapped sz n v s) := by
  cases sz
  · obtain ⟨hr, hs, hm⟩ := Kept.setW s n v
    exact ⟨hr, hs, hm⟩
  · obtain ⟨hr, hs, hm⟩ := Kept.putW s n v
    exact ⟨hr, hs, hm⟩

theorem memWrite_w {sz : Size} {a v : Word} {n : Reg} (s : State) (h : a.toNat / 2 = n.val)
    (ho : sz = .word → isOdd a = false) :
    memWrite sz a v s = .ok (storeMapped sz n (storedWord sz a v (s.reg n)) s) := by
  rw [memWrite_cpu (aligned_iff.2 ho) (cpuRegAt_evenWord h)]
  cases sz <;> rfl

/-! ## The bytes of a stored word -/

theorem byteStored_sized (ea v old : Word) : byteStored ea (sized .byte v) old = byteStored ea v old := by
  simp only [byteStored, sized, lowByte_setWidth]

theorem getLsbD_keepByteAt (ea old v : Word) (k : Nat) :
    (keepByteAt ea old v).getLsbD k =
      if k < 16 ∧ isOdd ea = decide (8 ≤ k) then v.getLsbD k else old.getLsbD k := by
  by_cases hk : k < 16
  · unfold keepByteAt
    by_cases h8 : k < 8
    · cases ho : isOdd ea <;>
        simp [getLsbD_joinBytes, getLsbD_lowByte, h8, show ¬8 ≤ k by omega, hk, -BitVec.getLsbD_eq_getElem]
    · have e : 8 + (k - 8) = k := by omega
      cases ho : isOdd ea <;>
        simp [getLsbD_joinBytes, getLsbD_highByte, h8, e, show 8 ≤ k by omega, show k - 8 < 8 by omega, hk,
          -BitVec.getLsbD_eq_getElem]
  · simp [hk, BitVec.getLsbD_of_ge _ _ (Nat.not_lt.1 hk)]

/-- A byte stored into a register whose other byte is put back to `old`: as if it were stored into `old`. -/
theorem regMask_keepByteAt (n : Reg) (ea v x old : Word) :
    regMask n (keepByteAt ea old (regMask n (byteStored ea v x))) = regMask n (byteStored ea v old) := by
  apply BitVec.eq_of_getLsbD_eq
  intro k _
  simp only [getLsbD_regMask, getLsbD_keepByteAt, getLsbD_byteStored]
  by_cases hm : n = sp ∧ k = 0
  · simp [hm]
  · split <;> simp [hm]

/-! ## Forms that modify a pointer -/

theorem isDirect_of_modifies {op : Opnd} (h : modifies op = true) : isDirect op = false := by
  cases op <;> simp_all [modifies, isDirect]

theorem usesSp_of_modifies {op : Opnd} (h : modifies op = true) (hsp : op.reg ≠ sp) : usesSp op = false := by
  cases op <;> simp_all [modifies, usesSp, Opnd.reg]

theorem pointerOk_of_not_usesSp {op : Opnd} {step : Nat} {r : Bool} {s : State} (hi : s.isInit op.reg = true)
    (h : usesSp op = false) : PointerOk op step r s := ⟨hi, by simp [h]⟩

/-- What a read of Wr gives in an operand that modifies its own register: that register as `updatesFirst` says. -/
def seenBy (op : Opnd) (step : Nat) (s : State) (r : Reg) : Word :=
  if r = op.reg ∧ updatesFirst op s = true then updOf op step s else s.reg r

theorem updatesFirst_iff {op : Opnd} {s : State} (h : modifies op = true) :
    updatesFirst op s = true ↔
      ¬(s.dev.readThenUpdate = true ∧ (op = .postInc op.reg ∨ op = .postDec op.reg)) := by
  cases op <;> simp_all [modifies, updatesFirst, isPre, Opnd.reg]

/-- `seenBy` as the statement writes it. -/
theorem seenBy_eq {op : Opnd} {step : Nat} {s : State} (h : modifies op = true) (r : Reg) :
    seenBy op step s r =
      if r = op.reg ∧ ¬(s.dev.readThenUpdate = true ∧ (op = .postInc r ∨ op = .postDec r)) then updOf op step s
      else s.reg r := by
  unfold seenBy
  by_cases hr : r = op.reg
  · subst hr; simp only [updatesFirst_iff h]
  · rw [if_neg fun e => hr e.1, if_neg fun e => hr e.1]

theorem reg_setW_updOf {op : Opnd} {step : Nat} {s : State} (hsp : op.reg ≠ sp) (hu : updatesFirst op s = true)
    (r : Reg) : (s.setW op.reg (updOf op step s)).reg r = seenBy op step s r := by
  rw [State.reg_setW]
  unfold seenBy
  by_cases hr : op.reg = r
  · rw [if_pos hr, if_pos ⟨hr.symm, hu⟩]; simp [regMask, hsp]
  · rw [if_neg hr, if_neg fun e => hr e.1.symm]

theorem reg_eq_seenBy {op : Opnd} {step : Nat} {s : State} (hu : ¬updatesFirst op s = true) (r : Reg) :
    s.reg r = seenBy op step s r := by
  unfold seenBy
  rw [if_neg fun e => hu e.2]

/-- A source that modifies its pointer and reads a W register. -/
theorem readOp_w {sz : Size} {op : Opnd} {s : State} {r : Reg} (hm : modifies op = true) (hsp : op.reg ≠ sp)
    (hi : s.isInit op.reg = true) (hr : (eaOf op (bytesOf sz) s).toNat / 2 = r.val)
    (ho : sz = .word → isOdd (eaOf op (bytesOf sz) s) = false) :
    readOp sz op s = .ok (pick sz (eaOf op (bytesOf sz) s) (seenBy op (bytesOf sz) s r),
      s.setW op.reg (updOf op (bytesOf sz) s)) := by
  unfold readOp
  simp only [isDirect_of_modifies hm, Bool.false_eq_true, if_false,
    locate_ok (pointerOk_of_not_usesSp hi (usesSp_of_modifies hm hsp)), ok_bind]
  by_cases hu : updatesFirst op s = true
  · rw [if_pos hu, memRead_w _ hr ho, reg_setW_updOf hsp hu]
  · rw [if_neg hu, memRead_w _ hr ho, reg_eq_seenBy (step := bytesOf sz) hu]
    simp [hm]

/-- A double-word source that modifies its pointer and reads two W registers. -/
theorem readPair_w {op : Opnd} {s : State} {r : Reg} (hm : modifies op = true) (hsp : op.reg ≠ sp)
    (hi : s.isInit op.reg = true) (hr : (eaOf op 4 s).toNat = 2 * r.val) (hne : r ≠ sp) :
    readPair op s = .ok (seenBy op 4 s r, seenBy op 4 s (r + 1), s.setW op.reg (updOf op 4 s)) := by
  have hu := usesSp_of_modifies hm hsp
  have hlt : r.val < 15 := by
    have := r.isLt
    have : r.val ≠ 15 := fun e => hne (Fin.ext e)
    omega
  have lo : ∀ t, memRead .word (eaOf op 4 s) t = .ok (t.reg r, t) := fun t =>
    memRead_w t (by omega) fun _ => by rw [isOdd_eq]; simp; omega
  have hsum : (eaOf op 4 s + 2).toNat = 2 * (r.val + 1) := by
    rw [BitVec.toNat_add, hr]; change (2 * r.val + 2) % 65536 = _; omega
  have hnext : (r + 1).val = r.val + 1 := by
    rw [Fin.val_add]; change (r.val + 1) % 16 = _; omega
  have hi' : ∀ t, memRead .word (eaOf op 4 s + 2) t = .ok (t.reg (r + 1), t) := fun t =>
    memRead_w t (by omega) fun _ => by rw [isOdd_eq]; simp; omega
  unfold readPair
  simp only [isDirect_of_modifies hm, Bool.false_eq_true, if_false, locate_ok (pointerOk_of_not_usesSp hi hu), ok_bind,
    spCheckSecond, spCheck, hu, lo, hi', hm, if_true]
  by_cases hf : updatesFirst op s = true
  · rw [if_pos hf, reg_setW_updOf hsp hf, reg_setW_updOf hsp hf]
  · rw [if_neg hf, ← reg_eq_seenBy hf, ← reg_eq_seenBy hf]

/-- The registers after a register write of either size. -/
theorem setSized_reg (s : State) (sz : Size) (n m : Reg) (v : Word) :
    (s.setSized sz n v).reg m = if n = m then written sz n v (s.reg n) else s.reg m := by
  cases sz
  · exact State.reg_setW s n m v
  · exact State.reg_putW s n m _

@[simp] theorem setSized_pc (s : State) (sz : Size) (n : Reg) (v : Word) : (s.setSized sz n v).pc = s.pc := by
  cases sz <;> rfl

/-! ## Results written to the address of a W register (R85) -/

theorem exec_mov_of_write {sz : Size} {src dst : Opnd} {s s1 t : State} {v : Word} (hst : sameTwice src dst = false)
    (hr : readOp sz src s = .ok (v, s1)) (hw : writeResult sz src dst v s s1 = .ok t) :
    exec (.mov sz src dst) s = .next (advance 1 t) := by
  have : transfer sz src dst s = .ok (advance 1 t) := by simp [transfer, hst, hr, hw]
  exact congrArg (settle 1 _ s) this

theorem writeResult_direct (sz : Size) (src : Opnd) (n : Reg) (v : Word) (s0 s : State) :
    writeResult sz src (.direct n) v s0 s = .ok (s.setSized sz n v) := rfl

theorem writeResult_indirect {sz : Size} {src dst : Opnd} {v : Word} {s0 s t : State} (hd : isDirect dst = false)
    (hw : writeOp sz dst v s = .ok t) :
    writeResult sz src dst v s0 s =
      .ok (dominate sz src (eaOf dst (bytesOf sz) s) (s0.reg src.reg) t) := by
  simp [writeResult, hw, hd]

/-- Where the source form modifies no register, there is no modification to take back. -/
theorem dominate_of_not_modifies {sz : Size} {src : Opnd} {ea old : Word} {s : State} (h : modifies src = false) :
    dominate sz src ea old s = s := by
  cases sz <;> simp [dominate, h]

theorem writeOp_w {sz : Size} {op : Opnd} {v : Word} {s : State} {n : Reg} (hd : isDirect op = false)
    (hp : PointerOk op (bytesOf sz) false s) (hn : (eaOf op (bytesOf sz) s).toNat / 2 = n.val)
    (ho : sz = .word → isOdd (eaOf op (bytesOf sz) s) = false) :
    writeOp sz op v s =
      .ok (updateDst op (covers op (eaOf op (bytesOf sz) s)) (dstUpdOf op (bytesOf sz) s)
        (storeMapped sz n (storedWord sz (eaOf op (bytesOf sz) s) v (s.reg n)) s)) := by
  unfold writeOp
  simp only [hd, Bool.false_eq_true, if_false, locate_ok hp, ok_bind, memWrite_w s hn ho]

@[simp] theorem updateDst_pc (op : Opnd) (c : Bool) (v : Word) (s : State) : (updateDst op c v s).pc = s.pc := by
  unfold updateDst; split <;> rfl

@[simp] theorem dominate_pc (sz : Size) (src : Opnd) (ea old : Word) (s : State) :
    (dominate sz src ea old s).pc = s.pc := by
  cases sz
  · rfl
  · simp only [dominate]; split <;> rfl

@[simp] theorem afterRead_pc (op : Opnd) (step : Nat) (s : State) : (afterRead op step s).pc = s.pc := by
  unfold afterRead; split <;> rfl

/-- A destination form whose store landed on its own register does not modify it. -/
theorem updateDst_covered (op : Opnd) (v : Word) (s : State) : updateDst op true v s = s := by
  simp [updateDst]

/-- A destination form modifies no register but its own. -/
theorem updateDst_reg_ne {op : Opnd} {c : Bool} {v : Word} {s : State} {n : Reg}
    (h : modifies op = true → op.reg ≠ n) : (updateDst op c v s).reg n = s.reg n := by
  unfold updateDst
  split
  · rename_i hm
    rw [State.reg_setW, if_neg (h (Bool.and_eq_true _ _ ▸ hm).1)]
  · rfl

theorem eaOf_afterRead (src dst : Opnd) (sz : Size) (s : State) :
    eaOf dst (bytesOf sz) (afterRead src (bytesOf sz) s) = dstAddr sz src dst s := by
  have hreg : ∀ n, (afterRead src (bytesOf sz) s).reg n = (afterSrc src (bytesOf sz) s).reg n := fun n => by
    unfold afterRead afterSrc; split <;> rfl
  have hoff : eaOffset dst (bytesOf sz) (afterRead src (bytesOf sz) s) =
      eaOffset dst (bytesOf sz) (afterSrc src (bytesOf sz) s) := by
    cases dst <;> simp only [eaOffset, hreg]
  simp only [dstAddr, eaOf, hreg, hoff]

/-- The register that `dominate` leaves where a store landed on the source's pointer: the stored data and, in the other
byte, the value from before the instruction. -/
theorem dominate_reg {sz : Size} {src : Opnd} {ea v old x : Word} {t : State} (hm : modifies src = true)
    (hc : covers src ea = true) (ht : t.reg src.reg = regMask src.reg (storedWord sz ea v x)) :
    (dominate sz src ea old t).reg src.reg = regMask src.reg (storedWord sz ea v old) := by
  cases sz
  · exact ht
  · simp only [dominate, hm, hc, Bool.and_self, if_true, State.reg_putW, ht]
    exact regMask_keepByteAt _ _ _ _ _

/-- A MOV whose destination form stores onto the register it modifies: the data dominates. -/
theorem mov_onto_own_pointer {sz : Size} {m : Reg} {dst : Opnd} {s : State} (hm : modifies dst = true)
    (hsp : dst.reg ≠ sp) (hi : s.isInit dst.reg = true)
    (hn : (eaOf dst (bytesOf sz) s).toNat / 2 = dst.reg.val)
    (ho : sz = .word → isOdd (eaOf dst (bytesOf sz) s) = false) :
    Answers (exec (.mov sz (.direct m) dst) s) fun t =>
      t.reg dst.reg = storedWord sz (eaOf dst (bytesOf sz) s) (sized sz (s.reg m)) (s.reg dst.reg) ∧
        t.pc = s.pc + 2 := by
  have hd := isDirect_of_modifies hm
  have hw := writeOp_w (v := sized sz (s.reg m)) hd
    (pointerOk_of_not_usesSp (r := false) (step := bytesOf sz) hi (usesSp_of_modifies hm hsp)) hn ho
  have hc : covers dst (eaOf dst (bytesOf sz) s) = true := by simpa [covers] using hn
  rw [hc, updateDst_covered] at hw
  have hres := writeResult_indirect (src := .direct m) (s0 := s) hd hw
  rw [dominate_of_not_modifies rfl] at hres
  refine ⟨_, exec_mov_of_write (by simp [sameTwice, modifies]) rfl hres, ?_, ?_⟩
  · simp [regMask, hsp]
  · simp [nextPc]

/-- A MOV whose store lands on the register that its source form modified: the data dominates. -/
theorem mov_onto_source_pointer {sz : Size} {src dst : Opnd} {s : State} (hm : modifies src = true)
    (hok : OperandOk sz src s) (hd : isDirect dst = false) (hst : sameTwice src dst = false)
    (hu : usesSp dst = false) (hi : s.isInit dst.reg = true) (hn : (dstAddr sz src dst s).toNat / 2 = src.reg.val)
    (ho : sz = .word → isOdd (dstAddr sz src dst s) = false) :
    Answers (exec (.mov sz src dst) s) fun t =>
      t.reg src.reg =
          regMask src.reg (storedWord sz (dstAddr sz src dst s) (operandValue sz src s) (s.reg src.reg)) ∧
        t.pc = s.pc + 2 := by
  have hptr := (hok.resolve_left (by simp [isDirect_of_modifies hm])).1
  have hi1 : (afterRead src (bytesOf sz) s).isInit dst.reg = true := (afterRead_isInit hptr.1 _).trans hi
  have hea := eaOf_afterRead src dst sz s
  have hw := writeOp_w (v := operandValue sz src s) hd
    (pointerOk_of_not_usesSp (r := false) (step := bytesOf sz) hi1 hu) (hea ▸ hn) (hea ▸ ho)
  rw [hea] at hw
  have hne : modifies dst = true → dst.reg ≠ src.reg := fun h e => by simp [sameTwice, hm, h, e] at hst
  refine ⟨_, exec_mov_of_write hst (readOp_ok hok) (writeResult_indirect hd hw), ?_, ?_⟩
  · rw [advance_reg, hea]
    refine dominate_reg (x := (afterRead src (bytesOf sz) s).reg src.reg) hm (by simpa [covers] using hn) ?_
    rw [updateDst_reg_ne hne, storeMapped_reg, if_pos rfl]
  · simp [nextPc]

/-! ## Sources that read a W register -/

theorem mov_from_w {sz : Size} {src : Opnd} {s : State} {r m : Reg} (hm : modifies src = true) (hsp : src.reg ≠ sp)
    (hi : s.isInit src.reg = true) (hr : (eaOf src (bytesOf sz) s).toNat / 2 = r.val)
    (ho : sz = .word → isOdd (eaOf src (bytesOf sz) s) = false) :
    exec (.mov sz src (.direct m)) s =
      .next (advance 1 ((s.setW src.reg (updOf src (bytesOf sz) s)).setSized sz m
        (pick sz (eaOf src (bytesOf sz) s) (seenBy src (bytesOf sz) s r)))) :=
  exec_mov_of_write (by simp [sameTwice, modifies]) (readOp_w hm hsp hi hr ho) (writeResult_direct sz src m _ s _)

theorem movD_from_w {src : Opnd} {s : State} {r m : Reg} (hm : modifies src = true) (hsp : src.reg ≠ sp)
    (hi : s.isInit src.reg = true) (hr : (eaOf src 4 s).toNat = 2 * r.val) (hne : r ≠ sp) (hodd : oddReg m = false) :
    exec (.movDLoad src m) s =
      .next (advance 1 (((s.setW src.reg (updOf src 4 s)).setW m (seenBy src 4 s r)).setW (pairHigh m)
        (seenBy src 4 s (r + 1)))) := by
  show settle 1 _ s _ = _
  simp [hodd, isDirect_of_modifies hm, readPair_w hm hsp hi hr hne]

/-- An even register is not W15, nor the one after it. -/
theorem even_reg_ne {m : Reg} (h : oddReg m = false) : m ≠ sp ∧ pairHigh m ≠ m := by
  revert m; decide

/-! ## The statement -/

theorem mapped_toNat (n : Reg) : (BitVec.ofNat 16 (2 * n.val)).toNat = 2 * n.val := by
  have := n.isLt
  rw [BitVec.toNat_ofNat]
  omega

theorem mapped_isOdd (n : Reg) : isOdd (BitVec.ofNat 16 (2 * n.val)) = false := by
  rw [isOdd_eq, mapped_toNat]
  simp

/-- Settles O28: loads and stores at 2n are those of Wn; a store that lands on the register a form modifies dominates;
and a source that reads a W register sees its own pointer as `seenBy` says. -/
theorem mappedRegistersAreTheRegisters : Obligations.MappedRegistersAreTheRegisters := by
  intro s n m sz src dst f seen
  have hn : (BitVec.ofNat 16 (2 * n.val)).toNat / 2 = n.val := by rw [mapped_toNat]; omega
  refine ⟨?_, ?_, fun hf => ?_, fun hm hsp hi he ho => ?_, fun hm hok hd hst hu hi he ho => ?_,
    fun r hm hsp hi => ⟨fun hr ho => ?_, fun hr hne hodd => ?_⟩⟩
  · exact exec_movFWnd_cpu (r := .w n) (mapped_isOdd n) (cpuRegAt_evenWord hn)
  · refine ⟨advance 1 (storeMapped .word n (s.reg m) s), ?_, ?_, ?_, ?_, rfl⟩
    · show settle 1 _ s _ = _
      rw [memWrite_w s hn fun _ => mapped_isOdd n]
      rfl
    · simp
    · exact (State.isInit_setW s n n (s.reg m)).trans (if_pos rfl)
    · exact storeMapped_kept .word n (s.reg m) s
  · have hf' : (fileAddr f).toNat / 2 = n.val := by
      rw [fileAddr, BitVec.toNat_setWidth_of_le (by decide)]; exact hf
    refine ⟨advance 1 (storeMapped .byte n (byteStored (fileAddr f) (s.reg wreg) (s.reg n)) s),
      ?_, ?_, rfl, ?_, rfl, rfl⟩
    · show settle 1 _ s _ = _
      rw [memWrite_w s hf' (by simp)]
      rfl
    · simp [fileAddr]
    · exact storeMapped_kept .byte n _ s
  · refine (mov_onto_own_pointer hm hsp hi he ho).imp fun t ⟨ht, hpc⟩ => ⟨?_, ?_, hpc⟩
    · rintro rfl; exact ht
    · rintro rfl; exact ht.trans (byteStored_sized _ _ _)
  · refine (mov_onto_source_pointer hm hok hd hst hu hi he ho).imp fun t ⟨ht, hpc⟩ => ⟨?_, ?_, hpc⟩
    · rintro rfl; exact ht
    · rintro rfl; exact ht
  · refine ⟨_, mov_from_w hm hsp hi hr ho, fun hne => ⟨?_, ?_⟩, ?_, ?_⟩
    · simp [setSized_reg, hne, regMask, hsp]
    · simp [setSized_reg, hne.symm, seen, seenBy_eq hm]
    · rintro rfl rfl
      simp [setSized_reg, written, regMask, hsp, pick, bytesOf, seen, seenBy_eq hm]
    · simp [nextPc]
  · obtain ⟨hsp', hpair⟩ := even_reg_ne hodd
    refine ⟨_, movD_from_w hm hsp hi hr hne hodd, ?_, ?_, ?_⟩
    · simp [hpair, regMask, hsp', seen, seenBy_eq hm]
    · simp [seen, seenBy_eq hm]
    · simp [nextPc]

end Sys2Proof.Machine
end

section
/-! What a step does with program memory, a presented request and a requested trap: O14, O21, O25. -/

namespace Sys2Proof.Machine

/-! ## Program memory and the device -/

/-- Program memory and the parameters of the device are the same. -/
structure SameProgram (s t : State) : Prop where
  prog : t.prog = s.prog
  dev : t.dev = s.dev

theorem SameProgram.trans {s t u : State} (h : SameProgram s t) (k : SameProgram t u) : SameProgram s u :=
  ⟨k.prog.trans h.prog, k.dev.trans h.dev⟩

theorem Steady.sameProgram {s t : State} (h : Steady s t) : SameProgram s t := ⟨h.prog, h.dev⟩

theorem deviceReset_sameProgram (c : ResetCause) (s : State) (e : Option Event) :
    SameProgram s { deviceReset c s with event := e } := ⟨rfl, rfl⟩

theorem finish_sameProgram {i : Instr} {s t u : State} (h : (∃ c, t = deviceReset c s) ∨ Steady s t)
    (hf : finish i s t = .next u) : SameProgram s u := by
  obtain ⟨c, rfl⟩ | h := h
  · cases hf
    exact deviceReset_sameProgram c s none
  · unfold finish at hf
    split at hf
    · cases hf
      exact (retire_steady h).sameProgram
    · cases hf
      exact ⟨h.prog, h.dev⟩
    · split at hf
      · cases hf
      · split at hf
        · cases hf
          rename_i hu
          exact ((retire_steady h).trans (enterTrap_steady hu).1).sameProgram
        · exact absurd hf entryFailed_next

theorem runInstr_sameProgram {i : Instr} {s t : State} (h : runInstr i s = .next t) : SameProgram s t := by
  unfold runInstr at h
  split at h
  · cases h
  · split at h
    · cases h
    · split at h
      · rename_i hu
        exact (startPass_steady s).sameProgram.trans (finish_sameProgram (exec_steady hu) h)
      · cases h
      · cases h

theorem runAtPc_sameProgram {s t : State} (h : runAtPc s = .next t) : SameProgram s t := by
  unfold runAtPc at h
  split at h
  · cases h
  · split at h
    · exact runInstr_sameProgram h
    · cases h

/-- Settles O14: a device reset keeps both, and so does every other part of a step. -/
theorem stepKeepsProgramMemory : Obligations.StepKeepsProgramMemory := by
  intro s t h
  suffices k : SameProgram s t from ⟨k.prog, k.dev⟩
  have taken : SameProgram s (takeInput s).2 := ⟨rfl, rfl⟩
  unfold step outerStep at h
  split at h <;> rename_i hi <;> rw [hi] at taken
  · exact taken.trans (runAtPc_sameProgram h)
  · cases h
    exact taken.trans (deviceReset_sameProgram .environment _ none)
  · split at h
    · split at h
      · rename_i hu
        exact (taken.trans (enter_steady hu).1.sameProgram).trans (runAtPc_sameProgram h)
      · exact absurd h entryFailed_next
    · exact taken.trans (runAtPc_sameProgram h)

/-! ## An exception entry that stops -/

theorem SlotOk.congr {base : Word} {k : Nat} {s t : State} (h : SlotOk base k s) (hd : t.dev = s.dev)
    (hc : t.corcon = s.corcon) (hl : t.splim = s.splim) (he : t.splimen = s.splimen) : SlotOk base k t := by
  obtain ⟨ha, h⟩ := h
  exact ⟨ha.congr hd hc, by rwa [he, hl]⟩

theorem PushStops.congr {k : TrapKind} {a : Word} {s t : State} (h : PushStops k a s) (hd : t.dev = s.dev)
    (hc : t.corcon = s.corcon) (hl : t.splim = s.splim) (he : t.splimen = s.splimen) : PushStops k a t := by
  have hp : PushFault a t ↔ PushFault a s := by simp only [PushFault, hl, he]
  obtain ⟨hk, h⟩ | ⟨hk, h, hf⟩ := h
  · exact .inl ⟨hk, hp.2 h⟩
  · exact .inr ⟨hk, fun h' => h (hp.1 h'), hf.congr hd hc⟩

theorem FrameStops.congr {k : TrapKind} {s t : State} (h : FrameStops k s) (hw : t.w = s.w) (hd : t.dev = s.dev)
    (hc : t.corcon = s.corcon) (hl : t.splim = s.splim) (he : t.splimen = s.splimen) : FrameStops k t := by
  unfold FrameStops
  rw [State.reg_congr hw sp]
  exact h.imp (·.congr hd hc hl he) fun ⟨h1, h2⟩ => ⟨h1.congr hd hc hl he, h2.congr hd hc hl he⟩

/-- A frame that does not fit stops the entry. -/
theorem enter_frameStops {k : TrapKind} {v : Nat} {p : BitVec 4} {ret : PAddr} {s : State} (h : FrameStops k s) :
    enter v p ret s = .error (.trap k) := by
  simp only [enter, pushPcExc_stops h, error_bind]

theorem pushPcExc_ok {s : State} (ret : PAddr) (h0 : SlotOk (s.reg sp) 0 s) (h1 : SlotOk (s.reg sp) 1 s) :
    ∃ t, pushPcExc ret s = .ok t := by
  have h := push16_twice_ok (v := ret.extractLsb' 0 16)
    (w := frameHigh ((ramWrite s .word (s.reg sp) (ret.extractLsb' 0 16)).setW sp (s.reg sp + 2)) ret) h0 h1
  rw [push16_ok h0] at h
  simp only [pushPcExc, push16_ok h0, ok_bind]
  exact ⟨_, h⟩

/-- A vector word outside program memory stops the entry after its pushes. -/
theorem enter_noVector {v base : Nat} {p : BitVec 4} {ret : PAddr} {s : State} (h0 : SlotOk (s.reg sp) 0 s)
    (h1 : SlotOk (s.reg sp) 1 s) (hv : s.dev.vectors = .table base) (hp : progImplemented s (base + 2 * v) = false) :
    enter v p ret s = .error (.trap .addressError) := by
  obtain ⟨t, ht⟩ := pushPcExc_ok ret h0 h1
  have hdev : t.dev = s.dev := (pushPcExc_steadyMode ht).dev
  have hvec : vectorOf v t = .error (.trap .addressError) := by
    have : progRead t (base + 2 * v) = none := by
      unfold progRead progImplemented at *
      rw [hdev, hp]; rfl
    simp only [vectorOf, hdev, hv, this]
  simp only [enter, ht, ok_bind, hvec, error_bind]

/-! ## Requests -/

section
variable {s : State} {v : Nat} {p : BitVec 4} {l : List Input}

/-- The level that an accepted request is judged against is that of the boundary state. -/
theorem accepts_withInputs (p : BitVec 4) (s : State) (l : List Input) :
    accepts p { s with inputs := l } = accepts p s := rfl

/-- A request that is taken: its handler's first instruction runs. -/
theorem step_request_entered {t : State} (ha : accepts p s = true)
    (he : enter v p s.pc { s with inputs := l } = .ok t) :
    step { s with inputs := .request v p :: l } = runAtPc t := by
  simp [step, outerStep, takeInput, accepts_withInputs, ha, he]

theorem step_request_failed {x : Stop} (ha : accepts p s = true)
    (he : enter v p s.pc { s with inputs := l } = .error x) :
    step { s with inputs := .request v p :: l } = entryFailed x := by
  simp [step, outerStep, takeInput, accepts_withInputs, ha, he]

/-- A request that is not taken is gone. -/
theorem step_request_masked (ha : ¬accepts p s = true) :
    step { s with inputs := .request v p :: l } = runAtPc { s with inputs := l } := by
  simp [step, outerStep, takeInput, accepts_withInputs, ha]

end

theorem step_quiet (s : State) (l : List Input) :
    step { s with inputs := .quiet :: l } = runAtPc { s with inputs := l } := rfl

theorem accepts_iff (p : BitVec 4) (s : State) :
    accepts p s = true ↔ cpuLevel s < p.toNat ∧ (p.toNat = 0 ∨ 6 < p.toNat ∨ s.disicnt = 0) := by
  simp only [accepts, Bool.and_eq_true, decide_eq_true_eq, Bool.not_eq_true', Bool.and_eq_false_iff,
    decide_eq_false_iff_not, bne_eq_false_iff_eq, Nat.not_le]
  refine and_congr_right fun _ => ?_
  rw [or_assoc, Nat.lt_one_iff]

/-- Settles O21: the entry that an accepted request makes, and why it can fail. -/
theorem requestsAreMaskedByLevelAndDisi : Obligations.RequestsAreMaskedByLevelAndDisi := by
  intro s v p l
  refine ⟨fun h => ?_, fun h => ?_⟩
  · have ha := (accepts_iff p s).2 h
    refine ⟨fun t ht => step_request_entered ha ht, fun k hk => ?_, fun h0 h1 base hb hp => ?_⟩
    · have hk' : FrameStops k { s with inputs := l } := hk.congr rfl rfl rfl rfl rfl
      exact step_request_failed (x := .trap k) ha (enter_frameStops hk')
    · have h0' : SlotOk (s.reg sp) 0 { s with inputs := l } := h0.congr rfl rfl rfl rfl
      have h1' : SlotOk (s.reg sp) 1 { s with inputs := l } := h1.congr rfl rfl rfl rfl
      exact step_request_failed (x := .trap .addressError) ha (enter_noVector h0' h1' hb hp)
  · have hn : ¬accepts p s = true := by
      rw [accepts_iff]
      rintro ⟨hl, hm⟩
      obtain h | ⟨h1, h6, hd⟩ := h
      · omega
      · exact hm.elim (by omega) fun h => h.elim (by omega) hd
    rw [step_request_masked hn, step_quiet]

/-! ## Requested traps -/

theorem enter_ra {v : Nat} {p : BitVec 4} {ret : PAddr} {s t : State} (h : enter v p ret s = .ok t) :
    t.sr.ra = false := by
  obtain ⟨s1, -, h⟩ := bind_ok h
  obtain ⟨target, -, h⟩ := bind_ok h
  cases h
  rfl

/-- Retiring an instruction leaves what an exception entry looks at. -/
theorem retire_frame (i : Instr) (s t : State) :
    (retire i s t).w = t.w ∧ (retire i s t).dev = t.dev ∧ (retire i s t).corcon = t.corcon ∧
      (retire i s t).splim = t.splim ∧ (retire i s t).splimen = t.splimen := by
  unfold retire leaveTrace countPass countDisi
  split <;> split <;> exact ⟨rfl, rfl, rfl, rfl, rfl⟩

theorem enterTrap_eq {k : TrapKind} {s : State} {d : Config.Device} (h : s.dev = d) :
    enterTrap k s = enter (trapLine d k).source (trapLine d k).level s.pc { s with event := none } := by
  subst h; rfl

section
variable {i : Instr} {s t : State} {k : TrapKind}

/-- A trap requested inside a trap handler. -/
theorem finish_trap_inHandler (h : t.event = some (.trap k)) (h3 : s.corcon.ipl3 = true) :
    finish i s t = .fault (faultOf k) := by
  unfold finish
  simp only [h, h3, if_true]

theorem finish_trap_entered {u : State} (h : t.event = some (.trap k)) (h3 : s.corcon.ipl3 = false)
    (he : enter (trapLine t.dev k).source (trapLine t.dev k).level (retire i s t).pc
      { retire i s t with event := none } = .ok u) : finish i s t = .next u := by
  unfold finish
  simp only [h, h3, Bool.false_eq_true, if_false, enterTrap_eq (retire_frame i s t).2.1, he]

theorem finish_trap_failed {x : Stop} (h : t.event = some (.trap k)) (h3 : s.corcon.ipl3 = false)
    (he : enter (trapLine t.dev k).source (trapLine t.dev k).level (retire i s t).pc
      { retire i s t with event := none } = .error x) : finish i s t = entryFailed x := by
  unfold finish
  simp only [h, h3, Bool.false_eq_true, if_false, enterTrap_eq (retire_frame i s t).2.1, he]

end

/-- Settles O25: the handler is entered from the retired state, whose frame fits where the instruction's own does. -/
theorem requestedTrapEntersItsHandler : Obligations.RequestedTrapEntersItsHandler := by
  intro i s t k h
  refine ⟨finish_trap_inHandler h, fun h3 => ⟨fun u hu => ?_, fun k' hk => finish_trap_failed (x := .trap k') h h3 hk, fun k' hk => ?_⟩⟩
  · exact ⟨finish_trap_entered h h3 hu, (enter_steady hu).2, enter_ra hu⟩
  · obtain ⟨hw, hd, hc, hl, he⟩ := retire_frame i s t
    exact finish_trap_failed (x := .trap k') h h3 (enter_frameStops (hk.congr hw hd hc hl he))

end Sys2Proof.Machine
end

section
/-! The operand forms and the checks of W15 in numbers (R90, R100): O60, O23. -/

namespace Sys2Proof.Machine

/-! ## Address arithmetic -/

theorem shiftAddr_natCast (w : Word) (k : Nat) : shiftAddr w (k : Int) = w + BitVec.ofNat 16 k := by
  unfold shiftAddr
  rw [BitVec.ofInt_add, BitVec.ofInt_natCast, BitVec.ofInt_natCast, BitVec.ofNat_toNat, BitVec.setWidth_eq]

theorem shiftAddr_zero (w : Word) : shiftAddr w 0 = w := by
  simpa using shiftAddr_natCast w 0

theorem shiftAddr_neg_natCast (w : Word) (k : Nat) : shiftAddr w (-(k : Int)) = w - BitVec.ofNat 16 k := by
  unfold shiftAddr
  rw [BitVec.ofInt_add, BitVec.ofInt_neg, BitVec.ofInt_natCast, BitVec.ofInt_natCast, BitVec.ofNat_toNat,
    BitVec.setWidth_eq, BitVec.sub_eq_add_neg]

theorem shiftAddr_twice (w : Word) (k : Nat) :
    shiftAddr w (2 * (k : Int)) = w + BitVec.ofNat 16 k + BitVec.ofNat 16 k := by
  have h := shiftAddr_natCast w (k + k)
  rw [BitVec.ofNat_add, ← BitVec.add_assoc] at h
  rw [← h]
  congr 1
  omega

/-! ## The forms, one by one -/

theorem eaOf_ind (n : Reg) (k : Nat) (s : State) : eaOf (.ind n) k s = s.reg n := shiftAddr_zero _
theorem eaOf_postInc (n : Reg) (k : Nat) (s : State) : eaOf (.postInc n) k s = s.reg n := shiftAddr_zero _
theorem eaOf_postDec (n : Reg) (k : Nat) (s : State) : eaOf (.postDec n) k s = s.reg n := shiftAddr_zero _
theorem eaOf_preInc (n : Reg) (k : Nat) (s : State) : eaOf (.preInc n) k s = s.reg n + BitVec.ofNat 16 k :=
  shiftAddr_natCast _ k
theorem eaOf_preDec (n : Reg) (k : Nat) (s : State) : eaOf (.preDec n) k s = s.reg n - BitVec.ofNat 16 k :=
  shiftAddr_neg_natCast _ k

theorem eaOf_offset (n b : Reg) (k : Nat) (s : State) : eaOf (.offset n b) k s = s.reg n + s.reg b := by
  have h : eaOf (.offset n b) k s = s.reg n + BitVec.ofNat 16 (s.reg b).toNat := shiftAddr_natCast _ _
  rwa [BitVec.ofNat_toNat, BitVec.setWidth_eq] at h

theorem updOf_postInc (n : Reg) (k : Nat) (s : State) : updOf (.postInc n) k s = s.reg n + BitVec.ofNat 16 k :=
  shiftAddr_natCast _ k
theorem updOf_postDec (n : Reg) (k : Nat) (s : State) : updOf (.postDec n) k s = s.reg n - BitVec.ofNat 16 k :=
  shiftAddr_neg_natCast _ k
theorem updOf_preInc (n : Reg) (k : Nat) (s : State) : updOf (.preInc n) k s = s.reg n + BitVec.ofNat 16 k :=
  shiftAddr_natCast _ k
theorem updOf_preDec (n : Reg) (k : Nat) (s : State) : updOf (.preDec n) k s = s.reg n - BitVec.ofNat 16 k :=
  shiftAddr_neg_natCast _ k

/-- As a destination a form leaves what it leaves as a source, but for `[++Wn]`. -/
theorem dstUpdOf_eq_updOf {op : Opnd} {k : Nat} {s : State} (h : s.dev.preIncTwice = false) :
    dstUpdOf op k s = updOf op k s := by
  cases op <;> simp [dstUpdOf, updOf, dstOffset, updOffset, h]

theorem dstUpdOf_preInc_twice {n : Reg} {k : Nat} {s : State} (h : s.dev.preIncTwice = true) :
    dstUpdOf (.preInc n) k s = s.reg n + BitVec.ofNat 16 k + BitVec.ofNat 16 k := by
  simp only [dstUpdOf, dstOffset, h, if_true]
  exact shiftAddr_twice _ k

/-- The sums that `wrapsOf` asks about, a borrow never being a carry. -/
theorem wrapsOf_eq_false_iff (op : Opnd) (k : Nat) (r : Bool) (s : State) :
    wrapsOf op k r s = false ↔
      ((s.reg op.reg).toNat : Int) + eaOffset op k s ≤ 0xFFFF ∧
        ((s.reg op.reg).toNat : Int) + (if r then updOffset op k else dstOffset op k s) ≤ 0xFFFF := by
  rw [← Bool.not_eq_true, wrapsOf_iff, not_or, Int.not_lt, Int.not_lt]

/-- Settles O60: one form after the other, for a step of any number of bytes. -/
theorem addressingModesFollowTheTable : Obligations.AddressingModesFollowTheTable := by
  intro s n b k r _ w x d
  have hx : x < 65536 := (s.reg n).isLt
  have hreg : ((s.reg n).toNat : Int) = x := rfl
  refine ⟨⟨eaOf_ind n k s, rfl, ?_⟩, ⟨eaOf_postInc n k s, rfl, updOf_postInc n k s, updOf_postInc n k s, ?_⟩,
    ⟨eaOf_postDec n k s, rfl, updOf_postDec n k s, updOf_postDec n k s, ?_⟩,
    ⟨eaOf_preDec n k s, rfl, updOf_preDec n k s, updOf_preDec n k s, ?_⟩,
    ⟨eaOf_preInc n k s, rfl, updOf_preInc n k s, fun h => ⟨?_, ?_⟩, fun h => ⟨dstUpdOf_preInc_twice h, ?_, ?_⟩⟩,
    ⟨eaOf_offset n b k s, rfl, ?_⟩, rfl⟩
  · rw [wrapsOf_eq_false_iff]
    cases r <;> simp only [Opnd.reg, eaOffset, dstOffset, updOffset] <;> simp <;> omega
  · rw [wrapsOf_iff]
    cases r <;> simp only [Opnd.reg, eaOffset, dstOffset, updOffset] <;> simp <;> omega
  · rw [wrapsOf_eq_false_iff]
    cases r <;> simp only [Opnd.reg, eaOffset, dstOffset, updOffset] <;> simp <;> omega
  · rw [wrapsOf_eq_false_iff]
    cases r <;> simp only [Opnd.reg, eaOffset, dstOffset, updOffset] <;> simp <;> omega
  · rw [dstUpdOf_eq_updOf h]; exact updOf_preInc n k s
  · rw [wrapsOf_iff]
    cases r <;> simp only [Opnd.reg, eaOffset, dstOffset, updOffset, h] <;> simp <;> omega
  · rw [wrapsOf_iff]
    simp only [Opnd.reg, eaOffset, dstOffset, h]
    simp
    omega
  · rw [wrapsOf_iff]
    simp only [Opnd.reg, eaOffset, updOffset]
    simp
    omega
  · rw [wrapsOf_iff]
    cases r <;> simp only [Opnd.reg, eaOffset, dstOffset, updOffset] <;> simp <;> omega

/-! ## The checks of an address formed from W15 -/

/-- The limit that a check compares with: drawn in a read right after a write of SPLIM's address (R401). -/
theorem limitFor_toNat (r : Bool) (s : State) :
    (limitFor r s).1.toNat =
      if r = true ∧ s.prev.splim = true then (Config.freeValue s.draws).toNat / 2 * 2 else s.splim.toNat := by
  unfold limitFor
  by_cases h : r = true ∧ s.prev.splim = true
  · rw [if_pos (by simpa using h), if_pos h]
    exact evenWord_toNat _
  · rw [if_neg (by simpa using h), if_neg h]

/-- The check answers the stack error, or passes. -/
theorem stackCheck_answers (ea : Word) (w r : Bool) (s : State) :
    stackCheck ea w r s = .error (.trap .stackError) ∨ ∃ d, stackCheck ea w r s = .ok { s with draws := d } := by
  cases h : stackCheck ea w r s with
  | ok t =>
    obtain ⟨d, rfl⟩ := stackCheck_state h
    exact .inr ⟨d, rfl⟩
  | error x =>
    refine .inl ?_
    unfold stackCheck at h
    repeat' split at h
    all_goals cases h
    all_goals rfl

theorem stackCheck_error_iff_limit (ea : Word) (w r : Bool) (s : State) :
    stackCheck ea w r s = .error (.trap .stackError) ↔
      ea.toNat < 0x0800 ∨ (s.splimen = true ∧ (w = true ∨ (limitFor r s).1.toNat + 2 < ea.toNat)) := by
  unfold stackCheck
  by_cases h1 : ea.toNat < 0x0800
  · simp [h1]
  by_cases h2 : s.splimen = true
  · by_cases h3 : w = true
    · simp [h1, h2, h3]
    · by_cases h4 : (limitFor r s).1.toNat + 2 < ea.toNat <;> simp [h1, h2, h3, h4]
  · simp [h1, h2]

/-- A form whose address W15 generates fails exactly where the check of its address does. -/
theorem locate_stackError_iff {op : Opnd} {step : Nat} {r : Bool} {s : State} (hu : usesSp op = true)
    (hi : s.isInit op.reg = true) :
    locate op step r s = .error (.trap .stackError) ↔
      stackCheck (eaOf op step s) (wrapsOf op step r s) r s = .error (.trap .stackError) := by
  simp only [locate, ptr, hi, if_true, ok_bind, spCheck, hu]
  cases stackCheck (eaOf op step s) (wrapsOf op step r s) r s <;> simp

theorem usesSp_iff {n : Reg} {op : Opnd} (h : op ∈ [Opnd.ind n, .postDec n, .postInc n, .preDec n, .preInc n]) :
    usesSp op = true ↔ n = sp := by
  simp only [List.mem_cons, List.not_mem_nil, or_false] at h
  obtain rfl | rfl | rfl | rfl | rfl := h <;> exact decide_eq_true_iff

/-- Settles O23: the check by its numbers, and the operations that ask it. -/
theorem stackCheckRule : Obligations.StackCheckRule := by
  intro s ea wraps isRead
  refine ⟨?_, fun h => (stackCheck_answers ea wraps isRead s).resolve_left h, fun v h => push16_fault h,
    fun h => pop16_fault h, fun op step hu hi hr => ?_, fun n b => by simp [usesSp], fun n op h => usesSp_iff h,
    fun op step hu hi => locate_ok (pointerOk_of_not_usesSp hi hu)⟩
  · rw [stackCheck_error_iff_limit, limitFor_toNat]
    by_cases h : isRead = true ∧ s.prev.splim = true
    · simp only [if_pos h]
    · simp only [if_neg h]
  · rw [locate_stackError_iff hu hi, stackCheck_error_iff hr, wrapsOf_iff]
    simp only [StackFault, hu, true_and]
    refine or_congr_right (and_congr_right fun _ => ?_)
    exact or_comm

end Sys2Proof.Machine
end

section
/-! An operand form that fails a check ends the instruction in its trap (R83, R84, R100, R301): O24. -/

namespace Sys2Proof.Machine

/-- An instruction that a trap cut short, as the lemmas about stops say it. -/
theorem raisesTrap_of_stop {k : TrapKind} {words : Nat} {s : State} {i : Instr}
    (h : ∃ f, exec i s = settle words f s (.error (.trap k))) : RaisesTrap k words i s := by
  obtain ⟨f, h⟩ := h
  exact raisesTrap_of_settle h rfl

/-! ## Double words -/

theorem execMovDLoad_stop {src : Opnd} {nd : Reg} {s : State} {x : Stop} (hnd : oddReg nd = false)
    (hd : isDirect src = false) (hr : readPair src s = .error x) :
    ∃ f, execMovDLoad src nd s = settle 1 f s (.error x) :=
  ⟨_, congrArg (settle 1 _ s) (by simp [hnd, hd, hr])⟩

theorem execMovDStore_stop {dst : Opnd} {ns : Reg} {s : State} {x : Stop} (hns : oddReg ns = false)
    (hd : isDirect dst = false) (hw : writePair dst (s.reg ns) (s.reg (pairHigh ns)) s = .error x) :
    ∃ f, execMovDStore ns dst s = settle 1 f s (.error x) :=
  ⟨_, congrArg (settle 1 _ s) (by simp [hns, hd, hw])⟩

/-! ## Table sources -/

theorem toNat_lt_of_bit7 {b : Byte} (h : b.getLsbD 7 = false) : b.toNat < 128 := by
  have hm : b.msb = false := by rw [BitVec.msb_eq_getLsbD_last]; exact h
  have := BitVec.msb_eq_false_iff_two_mul_lt.1 hm
  omega

/-- The address of a table read outside test space (R300). -/
theorem tableAddr_of_bit7 {s : State} (h : s.tblpag.getLsbD 7 = false) (t : Word) :
    tableAddr s t = s.tblpag.toNat * 0x10000 + t.toNat / 2 * 2 := by
  unfold tableAddr
  rw [Nat.mod_eq_of_lt (toNat_lt_of_bit7 h)]
  rfl

/-- A table source whose pointer may be used: the value read, or what stops it, decides. -/
theorem tableSource_of_pointer {high : Bool} {sz : Size} {src : Opnd} {s : State} (hd : isDirect src = false)
    (hp : PointerOk src (bytesOf sz) true s) :
    tableSource high sz src s =
      (tableValue high sz (eaOf src (bytesOf sz) s) s).map fun v => (v, afterRead src (bytesOf sz) s) := by
  simp only [tableSource, hd, Bool.false_eq_true, if_false, locate_ok hp, ok_bind, afterRead]
  cases tableValue high sz (eaOf src (bytesOf sz) s) s <;> rfl

theorem tableSource_stackFault {high : Bool} {sz : Size} {src : Opnd} {s : State}
    (h : FormFault .stackError sz (bytesOf sz) true src s) :
    tableSource high sz src s = .error (.trap .stackError) := by
  obtain ⟨hd, hi, ⟨-, hp, hf⟩ | ⟨hk, -⟩⟩ := h
  · simp [tableSource, hd, locate_stackFault hi hp hf]
  · cases hk

theorem tableValue_odd {high : Bool} {t : Word} {s : State} (h7 : s.tblpag.getLsbD 7 = false)
    (ho : isOdd t = true) : tableValue high .word t s = .error (.trap .addressError) := by
  simp only [tableValue, h7, ho, Bool.false_eq_true, and_self, if_true, if_false]

theorem tableValue_absent {high : Bool} {sz : Size} {t : Word} {s : State} (h7 : s.tblpag.getLsbD 7 = false)
    (hp : progImplemented s (s.tblpag.toNat * 0x10000 + t.toNat / 2 * 2) = false) :
    tableValue high sz t s = .error (.trap .addressError) := by
  have hr : progRead s (tableAddr s t) = none := by
    rw [tableAddr_of_bit7 h7]
    simp [progRead, hp]
  unfold tableValue
  rw [if_neg (by simpa using h7), hr, ite_self]

/-! ## PUSH and POP -/

/-- A push that fails R100 is a destination `[W15++]` that does. -/
theorem stackFault_of_pushFault {s : State} (h : PushFault (s.reg sp) s) : StackFault (.postInc sp) 2 false s := by
  refine ⟨rfl, ?_⟩
  rw [eaOf_postInc]
  refine h.imp_right fun ⟨hl, h⟩ => ⟨hl, h.imp_right fun hw => .inr ?_⟩
  simp only [Opnd.reg, dstOffset, updOffset, Bool.false_eq_true, if_false]
  omega

/-- A pop that fails R100 is a source `[--W15]` that does, whatever the instruction before did to SPLIM. -/
theorem locate_popFault {s : State} (hi : s.isInit sp = true) (h : PopFault (s.reg sp) s) :
    locate (.preDec sp) 2 true s = .error (.trap .stackError) := by
  rw [locate_stackError_iff rfl hi, stackCheck_error_iff_limit, eaOf_preDec]
  refine h.imp_right fun ⟨hl, hp, h⟩ => ⟨hl, .inr ?_⟩
  rw [limitFor_toNat, if_neg (by simp [hp])]
  exact h

theorem sameTwice_eq_false_iff {src dst : Opnd} :
    sameTwice src dst = false ↔ (modifies src = true → modifies dst = true → src.reg ≠ dst.reg) := by
  simp only [sameTwice, ← Bool.not_eq_true, Bool.and_eq_true, decide_eq_true_eq, not_and]
  exact ⟨fun h a b => h ⟨a, b⟩, fun h ⟨a, b⟩ => h a b⟩

/-- A read through a register other than W15 keeps what the checks of a push look at. -/
theorem pushFault_readOp {sz : Size} {src : Opnd} {s s1 : State} {v : Word} (hr : readOp sz src s = .ok (v, s1))
    (hst : sameTwice src (.postInc sp) = false) (h : PushFault (s.reg sp) s) : PushFault (s1.reg sp) s1 := by
  obtain ⟨⟨hregs, ⟨-, -, -, hlim, -⟩, -⟩, -⟩ := readOp_quiet hr
  have hsp : sp ∉ srcReg src := by
    unfold srcReg
    split
    · rename_i hm
      exact fun e => sameTwice_eq_false_iff.1 hst hm rfl (List.mem_singleton.1 e).symm
    · simp
  obtain ⟨hl, he, -⟩ := hlim (by simp [misses])
  rw [(hregs sp hsp (by simp)).1]
  simpa only [PushFault, hl, he] using h

/-- Settles O24: each failing form stops its operand, and the operand the instruction. PUSH and POP are the word MOV
they stand for. -/
theorem badAccessesRaiseTheirTrap : Obligations.BadAccessesRaiseTheirTrap := by
  intro s sz src dst wb nd k TwoOperands
  have two : (∀ i ∈ twoOperand sz wb src dst, RaisesTrap k 1 i s) → TwoOperands := fun h => by
    obtain ⟨hmov, hadd, hsl, hlsr, hasr⟩ := forall_twoOperand.1 h
    exact ⟨hmov, hadd, hsl, hlsr, hasr, by rintro rfl rfl; exact hmov, by rintro rfl rfl; exact hmov⟩
  refine ⟨fun hst => ⟨fun h => ?_, fun v s1 hr h => ?_, fun h => ?_, fun hd hp ho h7 => ?_, fun hd hp h7 hg => ?_,
    fun v s1 hr h => ?_, fun v s1 hr h => ?_⟩, fun hnd h => ?_, fun hnd h => ?_, fun hnd h => ?_,
    fun v s1 hst hr hi h => ?_, fun hst hi h => ?_⟩
  · exact two fun i hi => raisesTrap_of_stop (exec_source_stop hst (readOp_fault h) hi)
  · exact two fun i hi => raisesTrap_of_stop (exec_dest_stop hst hr (fun _ => writeResult_fault h) hi)
  · have stop : ∀ high, tableSource high sz src s = .error (.trap .stackError) := fun _ => tableSource_stackFault h
    exact ⟨raisesTrap_of_stop (tableRead_source_stop hst (stop false)),
      raisesTrap_of_stop (tableRead_source_stop hst (stop true))⟩
  · have stop : ∀ high, tableSource high .word src s = .error (.trap .addressError) := fun _ => by
      rw [tableSource_of_pointer (sz := .word) hd hp]
      exact congrArg (Except.map _) (tableValue_odd h7 ho)
    exact ⟨raisesTrap_of_stop (tableRead_source_stop hst (stop false)),
      raisesTrap_of_stop (tableRead_source_stop hst (stop true))⟩
  · have stop : ∀ high, tableSource high sz src s = .error (.trap .addressError) := fun _ => by
      rw [tableSource_of_pointer hd hp, tableValue_absent h7 hg]; rfl
    exact ⟨raisesTrap_of_stop (tableRead_source_stop hst (stop false)),
      raisesTrap_of_stop (tableRead_source_stop hst (stop true))⟩
  · exact raisesTrap_of_stop (tableRead_dest_stop hst hr fun _ => writeResult_fault h)
  · exact raisesTrap_of_stop (tableRead_dest_stop hst hr fun _ => writeResult_fault h)
  · have stop : ∀ sa sb, ∃ f, multiply sa sb wb src nd s = settle 1 f s (.error (.trap k)) := fun _ _ =>
      multiply_source_stop hnd (readOp_fault h)
    exact ⟨raisesTrap_of_stop (stop _ _), raisesTrap_of_stop (stop _ _), raisesTrap_of_stop (stop _ _),
      raisesTrap_of_stop (stop _ _)⟩
  · exact raisesTrap_of_stop (execMovDLoad_stop hnd h.1 (readPair_fault h))
  · exact raisesTrap_of_stop (execMovDStore_stop hnd h.1 (writePair_fault h))
  · have hf : FormFault .stackError .word 2 false (.postInc sp) s1 :=
      ⟨rfl, (readOp_isInit hr sp).trans hi,
        .inl ⟨rfl, by simp, stackFault_of_pushFault (pushFault_readOp hr hst h)⟩⟩
    have hmov : RaisesTrap .stackError 1 (.mov .word src (.postInc sp)) s :=
      raisesTrap_of_stop (exec_dest_stop (wb := wb) hst hr (fun _ => writeResult_fault hf) (by simp [twoOperand]))
    exact hmov
  · have stop : readOp .word (.preDec sp) s = .error (.trap .stackError) := by
      simp only [readOp, isDirect, bytesOf, Bool.false_eq_true, if_false, locate_popFault hi h, error_bind]
    have hmov : RaisesTrap .stackError 1 (.mov .word (.preDec sp) dst) s :=
      raisesTrap_of_stop (exec_source_stop (wb := wb) hst stop (by simp [twoOperand]))
    exact hmov

end Sys2Proof.Machine
end

section
/-! The instructions with general operands, put together from the read of the source and the write of the destination
(R90, R150, R151): O34. -/

namespace Sys2Proof.Machine

/-! ## An instruction whose read and write complete -/

section
variable {sz : Size} {src dst : Opnd} {s s1 t : State} {v : Word}

theorem exec_add_of_write {wb : Reg} (hst : sameTwice src dst = false) (hr : readOp sz src s = .ok (v, s1))
    (hw : writeResult sz src dst (addResult sz (s.reg wb) v) s s1 = .ok t) :
    exec (.add sz wb src dst) s = .next (advance 1 (t.setFlags (addFlags sz (s.reg wb) v))) := by
  show settle 1 _ s _ = _
  simp [hst, hr, hw]

theorem shiftOne_of_write {op : ShiftOp} (hst : sameTwice src dst = false) (hr : readOp sz src s = .ok (v, s1))
    (hw : writeResult sz src dst (shifted op sz 1 v) s s1 = .ok t) :
    shiftOne op sz src dst s = .next (advance 1 (shift1Flags sz (shiftedOut op sz v) (shifted op sz 1 v) t)) := by
  simp [shiftOne, hst, hr, hw]

theorem tableRead_of_write {high : Bool} (hst : sameTwice src dst = false)
    (hr : tableSource high sz src s = .ok (v, s1)) (hw : writeResult sz src dst v s s1 = .ok t) :
    tableRead high sz src dst s = .next (advance 1 t) := by
  simp [tableRead, hst, hr, hw]

theorem multiply_of_read {sa sb : Bool} {wb nd : Reg} (hnd : mulBadDest nd = false)
    (hr : readOp .word src s = .ok (v, s1)) :
    multiply sa sb wb src nd s = .next (advance 1 (setPair nd (product sa sb (s.reg wb) v) s1)) := by
  simp [multiply, hnd, hr]

theorem exec_movDLoad_of_read {nd : Reg} {lo hi : Word} (hnd : oddReg nd = false)
    (hsrc : isDirect src = true → oddReg src.reg = false) (hr : readPair src s = .ok (lo, hi, s1)) :
    exec (.movDLoad src nd) s = .next (advance 1 ((s1.setW nd lo).setW (pairHigh nd) hi)) := by
  have hodd : (isDirect src && oddReg src.reg) = false := by
    cases h : isDirect src
    · rfl
    · exact hsrc h
  show settle 1 _ s _ = _
  simp [hnd, hodd, hr]

theorem exec_movDStore_of_write {ns : Reg} (hns : oddReg ns = false)
    (hdst : isDirect dst = true → oddReg dst.reg = false)
    (hw : writePair dst (s.reg ns) (s.reg (pairHigh ns)) s = .ok t) :
    exec (.movDStore ns dst) s = .next (advance 1 t) := by
  have hodd : (isDirect dst && oddReg dst.reg) = false := by
    cases h : isDirect dst
    · rfl
    · exact hdst h
  show settle 1 _ s _ = _
  simp [hns, hodd, hw]

end

/-! ## Two operands that modify one register (R92) -/

theorem exec_sameTwice {sz : Size} {wb : Reg} {src dst : Opnd} {i : Instr} (s : State)
    (hst : sameTwice src dst = true) (hi : i ∈ twoOperand sz wb src dst) :
    exec i s = .refused .sameRegTwiceModified := by
  simp only [twoOperand, List.mem_cons, List.not_mem_nil, or_false] at hi
  obtain rfl | rfl | rfl | rfl | rfl := hi <;> show settle 1 _ s _ = _
  · simp [transfer, hst]
  all_goals simp [hst]

theorem tableRead_sameTwice {sz : Size} {src dst : Opnd} (high : Bool) (s : State)
    (hst : sameTwice src dst = true) : tableRead high sz src dst s = .refused .sameRegTwiceModified := by
  simp [tableRead, hst]

/-! ## Flags of an addition -/

theorem testBit_iff_le {x i : Nat} : x.testBit i = true ↔ 2 ^ i ≤ x % 2 ^ (i + 1) := by
  rw [Nat.testBit_eq_decide_div_mod_eq, decide_eq_true_eq, pow_succ, Nat.mod_mul]
  have := Nat.mod_lt x (Nat.two_pow_pos i)
  rcases Nat.mod_two_eq_zero_or_one (x / 2 ^ i) with h | h <;> simp [h]
  omega

theorem signBit_iff (sz : Size) (v : Word) : signBit sz v = true ↔ 2 ^ (widthOf sz - 1) ≤ operandNat sz v := by
  cases sz <;> exact testBit_iff_le

theorem addResult_toNat (sz : Size) (a b : Word) :
    (addResult sz a b).toNat = (operandNat sz a + operandNat sz b) % 2 ^ widthOf sz := by
  unfold addResult
  rw [BitVec.toNat_ofNat]
  apply Nat.mod_eq_of_lt
  cases sz <;> exact Nat.lt_of_lt_of_le (Nat.mod_lt _ (by decide)) (by decide)

theorem operandNat_addResult (sz : Size) (a b : Word) :
    operandNat sz (addResult sz a b) = (operandNat sz a + operandNat sz b) % 2 ^ widthOf sz := by
  rw [operandNat, addResult_toNat, Nat.mod_mod]

theorem operandNat_lt (sz : Size) (v : Word) : operandNat sz v < 2 ^ widthOf sz :=
  Nat.mod_lt _ (Nat.two_pow_pos _)

/-- A number below `2 * m` as a signed one. -/
def signedNat (m x : Nat) : Int := if m ≤ x then (x : Int) - 2 * m else x

/-- A value of the size as a signed number, from its bits as an unsigned one. -/
theorem signedOf_eq_signedNat (sz : Size) (v : Word) :
    signedOf sz v = signedNat (2 ^ (widthOf sz - 1)) (operandNat sz v) := by
  unfold signedNat
  cases sz
  · have h : operandNat .word v = v.toNat := Nat.mod_eq_of_lt v.isLt
    simp only [signedOf, h, BitVec.toInt_eq_toNat_cond, widthOf]
    split <;> split <;> omega
  · have h : operandNat .byte v = (lowByte v).toNat := (lowByte_toNat v).symm
    simp only [signedOf, h, BitVec.toInt_eq_toNat_cond, widthOf]
    split <;> split <;> omega

/-- A signed sum does not fit exactly where two numbers of one sign have a sum of the other. -/
theorem signedNat_add_out_of_range {m x y : Nat} (hx : x < 2 * m) (hy : y < 2 * m) :
    ((m ≤ x ↔ m ≤ y) ∧ ¬(m ≤ (x + y) % (2 * m) ↔ m ≤ x)) ↔
      signedNat m x + signedNat m y < -(m : Int) ∨ (m : Int) ≤ signedNat m x + signedNat m y := by
  unfold signedNat
  rcases Nat.lt_or_ge (x + y) (2 * m) with h | h
  · rw [Nat.mod_eq_of_lt h]
    split <;> split <;> omega
  · rw [Nat.mod_eq_sub_mod h, Nat.mod_eq_of_lt (by omega)]
    split <;> split <;> omega

/-- The five flags of an addition are those of the sum (R34, R35). -/
theorem addFlagsOk_addFlags (sz : Size) (a b : Word) : AddFlagsOk sz a b (addFlags sz a b) := by
  have ha := operandNat_lt sz a
  have hb := operandNat_lt sz b
  refine ⟨decide_eq_true_iff, ?_, ?_, ?_, ?_⟩
  · have low : ∀ v : Word, operandNat sz v % 2 ^ halfOf sz = v.toNat % 2 ^ halfOf sz := fun v =>
      Nat.mod_mod_of_dvd _ (by cases sz <;> decide)
    rw [low, low]
    exact decide_eq_true_iff
  · rw [← operandNat_addResult]
    exact decide_eq_true_iff
  · rw [← operandNat_addResult]
    exact signBit_iff sz _
  · have hw : 2 ^ widthOf sz = 2 * 2 ^ (widthOf sz - 1) := by cases sz <;> rfl
    have hov := signedNat_add_out_of_range (hw ▸ ha) (hw ▸ hb)
    rw [← signedOf_eq_signedNat, ← signedOf_eq_signedNat, ← hw, ← operandNat_addResult, ← signBit_iff,
      ← signBit_iff, ← signBit_iff] at hov
    push_cast at hov
    rw [← hov]
    simp only [addFlags, Bool.and_eq_true, decide_eq_true_eq, bne_iff_ne, ne_eq, Bool.coe_iff_coe]

/-! ## Products -/

theorem mulOperand_false (v : Word) : mulOperand false v = (v.toNat : Int) := rfl
theorem mulOperand_true (v : Word) : mulOperand true v = v.toInt := rfl

/-- The product of two unsigned words fits in 32 bits. -/
theorem product_unsigned (a b : Word) : (product false false a b).toNat = a.toNat * b.toNat := by
  have h : a.toNat * b.toNat < 2 ^ 32 :=
    Nat.lt_of_lt_of_le (Nat.mul_lt_mul'' a.isLt b.isLt) (by decide)
  have e : mulOperand false a * mulOperand false b = ((a.toNat * b.toNat : Nat) : Int) := by
    rw [Nat.cast_mul]; rfl
  rw [product, e, BitVec.ofInt_natCast, BitVec.toNat_ofNat, Nat.mod_eq_of_lt h]

theorem toInt_bounds (v : Word) : -32768 ≤ v.toInt ∧ v.toInt ≤ 32767 := by
  have h1 := BitVec.le_toInt v
  have h2 := BitVec.toInt_lt (x := v)
  constructor <;> omega

/-- A product of which one factor is signed fits in 32 bits, signed. -/
theorem product_signed {sa sb : Bool} (h : sa = true ∨ sb = true) (a b : Word) :
    (product sa sb a b).toInt = mulOperand sa a * mulOperand sb b := by
  obtain ⟨ha1, ha2⟩ := toInt_bounds a
  obtain ⟨hb1, hb2⟩ := toInt_bounds b
  have hax : (a.toNat : Int) ≤ 65535 := by have := a.isLt; omega
  have hbx : (b.toNat : Int) ≤ 65535 := by have := b.isLt; omega
  have ha0 : (0 : Int) ≤ a.toNat := Int.natCast_nonneg _
  have hb0 : (0 : Int) ≤ b.toNat := Int.natCast_nonneg _
  have fits : -2147483648 ≤ mulOperand sa a * mulOperand sb b ∧ mulOperand sa a * mulOperand sb b < 2147483648 := by
    cases sa <;> cases sb <;> simp only [mulOperand_true, mulOperand_false] at *
    · simp at h
    all_goals constructor <;> nlinarith
  rw [product, BitVec.toInt_ofInt]
  exact Int.bmod_eq_of_le (by simpa using fits.1) (by simpa using fits.2)

/-- An aligned pair other than W15:W14 holds the two words written to it. -/
theorem mulBadDest_eq_false {nd : Reg} (h : mulBadDest nd = false) :
    nd ≠ sp ∧ pairHigh nd ≠ sp ∧ pairHigh nd ≠ nd := by
  revert nd; decide

theorem setPair_reg {nd : Reg} (h : mulBadDest nd = false) (p : BitVec 32) (s : State) :
    (setPair nd p s).reg nd = p.extractLsb' 0 16 ∧ (setPair nd p s).reg (pairHigh nd) = p.extractLsb' 16 16 := by
  obtain ⟨h1, h2, h3⟩ := mulBadDest_eq_false h
  simp [setPair, regMask, h1, h2, h3]

theorem setPair_reg_ne {nd m : Reg} (h1 : m ≠ nd) (h2 : m ≠ pairHigh nd) (p : BitVec 32) (s : State) :
    (setPair nd p s).reg m = s.reg m := by
  simp [setPair, h1.symm, h2.symm]

theorem pairValue_setPair {nd : Reg} (h : mulBadDest nd = false) (p : BitVec 32) (s : State) :
    pairValue nd (setPair nd p s) = p := by
  obtain ⟨hlo, hhi⟩ := setPair_reg h p s
  rw [pairValue, hlo, hhi]
  apply BitVec.eq_of_getLsbD_eq
  intro i hi
  rw [BitVec.getLsbD_append, BitVec.getLsbD_extractLsb', BitVec.getLsbD_extractLsb']
  by_cases h16 : i < 16
  · simp [h16]
  · have e : 16 + (i - 16) = i := by omega
    simp [h16, e, show i - 16 < 16 by omega]

/-- Settles O34: each instruction is its read, its computation and its write; a refusal comes before all three. -/
theorem everyOperandFormCompletes : Obligations.EveryOperandFormCompletes := by
  intro s s2 sz src dst wb nd
  refine ⟨fun hst => ?_, fun hst v s1 hr => ⟨fun hw => exec_mov_of_write hst hr hw, ?_, ?_, fun hw => ?_, fun hw => ?_,
    fun hw => ?_, fun hw => ?_⟩, fun hst => ⟨fun v s1 hr hw => tableRead_of_write hst hr hw,
    fun v s1 hr hw => tableRead_of_write hst hr hw⟩, fun hnd v s1 hr => ?_, fun hnd hsrc lo hi hr => ?_,
    fun hns hdst hw => exec_movDStore_of_write hns hdst hw⟩
  · obtain ⟨hmov, hadd, hsl, hlsr, hasr⟩ := forall_twoOperand.1 fun i => exec_sameTwice (sz := sz) (wb := wb) s hst
    have hmovw := (forall_twoOperand.1 fun i => exec_sameTwice (sz := .word) (wb := wb) s hst).1
    exact ⟨hmov, hadd, hsl, hlsr, hasr, tableRead_sameTwice false s hst, tableRead_sameTwice true s hst,
      by rintro rfl; exact hmovw, by rintro rfl; exact hmovw⟩
  · rintro rfl rfl hw
    exact exec_mov_of_write hst hr hw
  · rintro rfl rfl hw
    exact exec_mov_of_write hst hr hw
  · exact ⟨_, exec_add_of_write hst hr hw, addFlagsOk_addFlags sz _ v, rfl, rfl, rfl⟩
  · exact ⟨_, shiftOne_of_write hst hr hw, rfl, rfl, rfl⟩
  · exact ⟨_, shiftOne_of_write hst hr hw, rfl, rfl, rfl⟩
  · exact ⟨_, shiftOne_of_write hst hr hw, rfl, rfl, rfl⟩
  · have pair : ∀ p : BitVec 32, pairValue nd (advance 1 (setPair nd p s1)) = p := fun p => pairValue_setPair hnd p s1
    refine ⟨⟨_, multiply_of_read hnd hr, ?_, rfl, rfl⟩, ⟨_, multiply_of_read hnd hr, ?_, rfl, rfl⟩,
      ⟨_, multiply_of_read hnd hr, ?_, rfl, rfl⟩, ⟨_, multiply_of_read hnd hr, ?_, rfl, rfl⟩⟩
    · rw [pair, product_unsigned]
    all_goals rw [pair, product_signed (by simp)]; rfl
  · obtain ⟨hsp, hpair⟩ := even_reg_ne hnd
    exact ⟨_, exec_movDLoad_of_read hnd hsrc hr, by simp [regMask, hsp, hpair], by simp, rfl, rfl⟩

end Sys2Proof.Machine
end

section
/-! The instructions with general operands over registers and RAM, in every addressing mode (R90, R151): O35, O39. -/

namespace Sys2Proof.Machine

/-! ## The registers after the source form -/

theorem next_pc_of_eq {s t : State} (h : t.pc = s.pc) : (advance 1 t).pc = s.pc + 2 := by
  rw [advance_pc, nextPc, h]
  rfl

theorem afterRead_w (op : Opnd) (step : Nat) (s : State) : (afterRead op step s).w = (afterSrc op step s).w := by
  unfold afterRead afterSrc
  split <;> rfl

theorem afterSrc_of_not_modifies {op : Opnd} {step : Nat} {s : State} (h : modifies op = false) :
    afterSrc op step s = s := by
  simp [afterSrc, h]

theorem afterSrc_reg_self {op : Opnd} {step : Nat} {s : State} (h : modifies op = true) :
    (afterSrc op step s).reg op.reg = regMask op.reg (updOf op step s) := by
  simp [afterSrc, h]

theorem afterSrc_dev (op : Opnd) (step : Nat) (s : State) : (afterSrc op step s).dev = s.dev := by
  unfold afterSrc
  split <;> rfl

theorem eaOf_congr {op : Opnd} {step : Nat} {s t : State} (hw : t.w = s.w) : eaOf op step t = eaOf op step s := by
  have hoff : eaOffset op step t = eaOffset op step s := by
    cases op <;> simp only [eaOffset, State.reg_congr hw]
  unfold eaOf
  rw [State.reg_congr hw, hoff]

theorem dstOffset_congr {op : Opnd} {step : Nat} {s t : State} (hd : t.dev = s.dev) :
    dstOffset op step t = dstOffset op step s := by
  cases op <;> simp only [dstOffset, hd]

theorem dstUpdOf_congr {op : Opnd} {step : Nat} {s t : State} (hw : t.w = s.w) (hd : t.dev = s.dev) :
    dstUpdOf op step t = dstUpdOf op step s := by
  unfold dstUpdOf
  rw [State.reg_congr hw, dstOffset_congr hd]

theorem wrapsOf_congr {op : Opnd} {step : Nat} {r : Bool} {s t : State} (hw : t.w = s.w) (hd : t.dev = s.dev) :
    wrapsOf op step r t = wrapsOf op step r s := by
  have hoff : eaOffset op step t = eaOffset op step s := by
    cases op <;> simp only [eaOffset, State.reg_congr hw]
  unfold wrapsOf
  rw [State.reg_congr hw, hoff, dstOffset_congr hd]

/-- A destination is accessible by its registers, the checks' registers and the device. -/
theorem DestOk.of_winit {sz : Size} {op : Opnd} {s : State} {x : Vector Bool 16} (h : DestOk sz op s)
    (hi : s.isInit op.reg = true → ({ s with winit := x } : State).isInit op.reg = true) :
    DestOk sz op { s with winit := x } := by
  refine h.imp_right fun ⟨⟨hp, hs⟩, ha⟩ => ?_
  have hea : eaOf op (bytesOf sz) { s with winit := x } = eaOf op (bytesOf sz) s := eaOf_congr rfl
  have hwr : wrapsOf op (bytesOf sz) false { s with winit := x } = wrapsOf op (bytesOf sz) false s :=
    wrapsOf_congr rfl rfl
  unfold PointerOk
  rw [hea, hwr]
  exact ⟨⟨hi hp, hs⟩, ha.congr rfl rfl⟩

theorem destOk_afterRead {sz : Size} {src dst : Opnd} {step : Nat} {s : State}
    (h : DestOk sz dst (afterSrc src step s)) : DestOk sz dst (afterRead src step s) := by
  unfold afterRead
  unfold afterSrc at h
  split
  · rename_i hm
    rw [if_pos hm] at h
    refine h.of_winit (x := s.winit.set src.reg.val true src.reg.isLt) fun hi => ?_
    have := State.isInit_setW s src.reg dst.reg (updOf src step s)
    exact this.trans (by split; rfl; exact hi)
  · rename_i hm
    rwa [if_neg hm] at h

/-! ## The destination after the write -/

@[simp] theorem setSized_sr (s : State) (sz : Size) (n : Reg) (v : Word) : (s.setSized sz n v).sr = s.sr := by
  cases sz <;> rfl

@[simp] theorem setSized_event (s : State) (sz : Size) (n : Reg) (v : Word) :
    (s.setSized sz n v).event = s.event := by
  cases sz <;> rfl

theorem afterWrite_keeps (sz : Size) (op : Opnd) (v : Word) (s : State) :
    (afterWrite sz op v s).pc = s.pc ∧ (afterWrite sz op v s).sr = s.sr ∧ (afterWrite sz op v s).event = s.event := by
  unfold afterWrite
  split
  · simp
  · split <;> simp

theorem afterRead_keeps (op : Opnd) (step : Nat) (s : State) :
    (afterRead op step s).sr = s.sr ∧ (afterRead op step s).event = s.event ∧ (afterRead op step s).dev = s.dev := by
  unfold afterRead
  split <;> exact ⟨rfl, rfl, rfl⟩

/-- A destination that was written took the value. -/
theorem took_afterWrite {sz : Size} {op : Opnd} {v : Word} {s u : State} (hw : u.w = s.w) :
    Took sz op (eaOf op (bytesOf sz) s) v s (afterWrite sz op v u) := by
  unfold Took afterWrite
  split
  · rw [setSized_reg, if_pos rfl, State.reg_congr hw]
  · rw [eaOf_congr hw]
    split
    · rw [ramRead_setW]
      exact ramRead_ramWrite_self u sz _ v
    · exact ramRead_ramWrite_self u sz _ v

/-- A register that a destination form does not write. -/
theorem afterWrite_reg_ne {sz : Size} {op : Opnd} {v : Word} {u : State} {n : Reg}
    (hd : isDirect op = true → op.reg ≠ n) (hm : modifies op = true → op.reg ≠ n) :
    (afterWrite sz op v u).reg n = u.reg n := by
  unfold afterWrite
  split
  · rename_i h
    rw [setSized_reg, if_neg (hd h)]
  · split
    · rename_i h
      rw [State.reg_setW, if_neg (hm h), ramWrite_reg]
    · exact ramWrite_reg _ _ _ _ _

/-- The register that a destination form modifies. -/
theorem afterWrite_reg_self {sz : Size} {op : Opnd} {v : Word} {u : State} (hm : modifies op = true) :
    (afterWrite sz op v u).reg op.reg = regMask op.reg (dstUpdOf op (bytesOf sz) u) := by
  simp [afterWrite, isDirect_of_modifies hm, hm]

/-- The pointers of both forms have stepped after the write. -/
theorem stepped_afterWrite {sz : Size} {src dst : Opnd} {v : Word} {s u : State} (hst : sameTwice src dst = false)
    (hw : u.w = (afterSrc src (bytesOf sz) s).w) (hd : u.dev = s.dev) :
    Stepped sz src dst s (afterWrite sz dst v u) := by
  refine ⟨fun hm hne => ?_, fun hm => ?_⟩
  · rw [afterWrite_reg_ne hne fun h => (sameTwice_eq_false_iff.1 hst hm h).symm, State.reg_congr hw,
      afterSrc_reg_self hm]
  · rw [afterWrite_reg_self hm, dstUpdOf_congr hw (hd.trans (afterSrc_dev _ _ _).symm)]

/-- A direct word destination is initialised. -/
theorem afterWrite_isInit {op : Opnd} {v : Word} {u : State} (h : isDirect op = true) :
    (afterWrite .word op v u).isInit op.reg = true := by
  simp [afterWrite, h, State.setSized]

/-- The state after the source was read and the destination took a value. -/
def movedState (sz : Size) (src dst : Opnd) (v : Word) (s : State) : State :=
  afterWrite sz dst v (afterRead src (bytesOf sz) s)

/-- What every instruction that completes over registers and RAM leaves: the value taken, the pointers stepped, the
status register and the PC as they were. -/
theorem movedState_spec {sz : Size} {src dst : Opnd} (v : Word) {s : State} (hst : sameTwice src dst = false) :
    Took sz dst (dstAddr sz src dst s) v (afterSrc src (bytesOf sz) s) (movedState sz src dst v s) ∧
      Stepped sz src dst s (movedState sz src dst v s) ∧ (movedState sz src dst v s).pc = s.pc ∧
      (movedState sz src dst v s).sr = s.sr ∧ (movedState sz src dst v s).event = s.event := by
  obtain ⟨hpc, hsr, hev⟩ := afterWrite_keeps sz dst v (afterRead src (bytesOf sz) s)
  obtain ⟨hsr', hev', hdev⟩ := afterRead_keeps src (bytesOf sz) s
  have hw := afterRead_w src (bytesOf sz) s
  exact ⟨took_afterWrite hw, stepped_afterWrite hst hw hdev, hpc.trans (afterRead_pc _ _ _), hsr.trans hsr',
    hev.trans hev'⟩

theorem writeResult_moved {sz : Size} {src dst : Opnd} {v : Word} {s : State}
    (hd : DestOk sz dst (afterSrc src (bytesOf sz) s)) :
    writeResult sz src dst v s (afterRead src (bytesOf sz) s) = .ok (movedState sz src dst v s) :=
  writeResult_ok (destOk_afterRead hd)

/-! ## MOV -/

/-- Settles O35: the source is read and its pointer steps, then the destination takes the value. -/
theorem movMovesItsOperand : Obligations.MovMovesItsOperand := by
  intro s sz src dst hst hs hd
  obtain ⟨htook, hstep, hpc, hsr, hev⟩ := movedState_spec (operandValue sz src s) hst
  refine ⟨_, exec_mov_of_write hst (readOp_ok hs) (writeResult_moved hd), htook, next_pc_of_eq hpc, hev, hsr, hstep, ?_⟩
  rintro h rfl
  exact afterWrite_isInit h

/-! ## PUSH and POP -/

/-- A push into RAM is the destination `[W15++]`. -/
theorem writeOp_push {v : Word} {s : State} (hi : s.isInit sp = true) (h : SlotOk (s.reg sp) 0 s) :
    writeOp .word (.postInc sp) v s = .ok ((ramWrite s .word (s.reg sp) v).setW sp (s.reg sp + 2)) := by
  obtain ⟨ha, hl⟩ := h
  simp only [Nat.mul_zero, BitVec.add_zero, Nat.add_zero] at ha hl
  have hc : stackCheck (s.reg sp) (wrapsOf (.postInc sp) 2 false s) false s = .ok s := by
    refine stackCheck_no_read (region_ram ha.2.1).1 fun hs => ?_
    obtain ⟨h1, h2⟩ := hl hs
    refine ⟨?_, h2⟩
    rw [wrapsOf_eq_false_iff]
    simp only [Opnd.reg, eaOffset, dstOffset, updOffset, Bool.false_eq_true, if_false]
    omega
  have hloc : locate (.postInc sp) 2 false s = .ok (s.reg sp, s) := by
    simp only [locate, ptr, Opnd.reg, hi, if_true, ok_bind, spCheck, usesSp, decide_true, eaOf_postInc, hc]
  have hupd : dstUpdOf (.postInc sp) 2 s = s.reg sp + 2 := updOf_postInc sp 2 s
  simp only [writeOp, isDirect, bytesOf, Bool.false_eq_true, if_false, hloc, ok_bind, memWrite_ram ha, updateDst,
    covers_ram ha, modifies, Bool.not_false, Bool.and_true, if_true, hupd, Opnd.reg]

theorem sameTwice_false_of_sp {op : Opnd} (h : modifies op = false ∨ op.reg ≠ sp) :
    sameTwice op (.postInc sp) = false ∧ sameTwice (.preDec sp) op = false :=
  ⟨sameTwice_eq_false_iff.2 fun hm _ => h.resolve_left (by simp [hm]),
    sameTwice_eq_false_iff.2 fun _ hm => (h.resolve_left (by simp [hm])).symm⟩

/-- The word below W15 is a source `[--W15]`. -/
theorem operandOk_pop {s : State} (hi : s.isInit sp = true) (h : TopOk (s.reg sp) 1 s) :
    OperandOk .word (.preDec sp) s := by
  obtain ⟨ha, hl⟩ := h
  refine .inr ⟨⟨hi, fun _ => ⟨?_, fun hs => ⟨?_, ?_⟩⟩⟩, ?_⟩
  · rw [bytesOf, eaOf_preDec]
    exact (region_ram ha.2.1).1
  · rw [bytesOf, wrapsOf_eq_false_iff]
    have := (s.reg sp).isLt
    simp only [Opnd.reg, eaOffset, updOffset, if_true]
    omega
  · rw [bytesOf, eaOf_preDec]
    exact hl hs
  · rw [bytesOf, eaOf_preDec]
    exact ha

theorem afterSrc_pop (s : State) : afterSrc (.preDec sp) 2 s = s.putW sp (s.reg sp - 2) := by
  have h : updOf (.preDec sp) 2 s = s.reg sp - 2 := updOf_preDec sp 2 s
  simp only [afterSrc, modifies, if_true, Opnd.reg, h]

theorem operandValue_pop (s : State) : operandValue .word (.preDec sp) s = stackWord (s.reg sp) 1 s := by
  simp only [operandValue, isDirect, Bool.false_eq_true, if_false, bytesOf, eaOf_preDec, stackWord]

theorem push_answers {op : Opnd} {s : State} (hop : modifies op = false ∨ op.reg ≠ sp) (hi : s.isInit sp = true)
    (ho : OperandOk .word op s) (h : SlotOk (s.reg sp) 0 s) :
    Answers (exec (.push op) s) fun t =>
      ramRead t .word (s.reg sp) = operandValue .word op s ∧ t.reg sp = s.reg sp + 2 ∧ t.pc = s.pc + 2 := by
  have hr := readOp_ok ho
  have hq := readOp_quiet hr
  have hsp : (afterRead op 2 s).reg sp = s.reg sp := by
    rw [State.reg_congr (afterRead_w op 2 s)]
    unfold afterSrc
    split
    · rename_i hm
      rw [State.reg_putW, if_neg (hop.resolve_left (by simp [hm]))]
    · rfl
  obtain ⟨-, -, hcor, hlim, -, -, -, -, -, -, -, -, hdev, -⟩ := hq.kept.2.1
  obtain ⟨hl, he, -⟩ := hlim (by simp [misses])
  have hslot : SlotOk ((afterRead op 2 s).reg sp) 0 (afterRead op 2 s) := by
    rw [hsp]
    exact h.congr hdev (hcor (by simp [misses])) hl he
  have hpush := sp_after_push (v := operandValue .word op s) hslot
  have hw := writeOp_push (v := operandValue .word op s) ((readOp_isInit hr sp).trans hi) hslot
  rw [← writeResult_word op (.postInc sp) _ s] at hw
  refine ⟨_, exec_mov_of_write (sameTwice_false_of_sp hop).1 hr hw, ?_, ?_, ?_⟩
  · show ramRead (ramWrite (afterRead op 2 s) .word ((afterRead op 2 s).reg sp) _) .word (s.reg sp) = _
    rw [hsp]
    exact ramRead_ramWrite_self _ .word _ _
  · exact hpush.trans (by rw [hsp])
  · exact next_pc_of_eq (by rw [State.setW_pc, ramWrite_pc, hq.pc])

theorem pop_answers {op : Opnd} {s : State} (hop : modifies op = false ∨ op.reg ≠ sp) (hi : s.isInit sp = true)
    (h : TopOk (s.reg sp) 1 s) (hd : DestOk .word op (s.putW sp (s.reg sp - 2))) :
    Answers (exec (.pop op) s) fun t =>
      Took .word op (eaOf op 2 (s.putW sp (s.reg sp - 2))) (stackWord (s.reg sp) 1 s) s t ∧
      (op ≠ .direct sp → t.reg sp = s.reg sp - 2) ∧ t.pc = s.pc + 2 := by
  have hst := (sameTwice_false_of_sp hop).2
  obtain ⟨t, ht, htook, hpc, -, -, hstep, -⟩ :=
    movMovesItsOperand s .word (.preDec sp) op hst (operandOk_pop hi h) (by rw [bytesOf, afterSrc_pop]; exact hd)
  rw [dstAddr, operandValue_pop, bytesOf, afterSrc_pop] at htook
  refine ⟨t, ht, htook, fun hne => ?_, hpc⟩
  have hreg := hstep.1 rfl fun hdir => by
    cases op <;> simp_all [isDirect, Opnd.reg]
  have hupd : updOf (.preDec sp) 2 s = s.reg sp - 2 := updOf_preDec sp 2 s
  rw [bytesOf, hupd] at hreg
  exact hreg.trans (regMask_of_even (access_even h.1))

/-- Settles O39: PUSH and POP are word MOVs to `[W15++]` and from `[--W15]`. -/
theorem pushAndPop : Obligations.PushAndPop :=
  fun _ _ => ⟨push_answers, pop_answers⟩

end Sys2Proof.Machine
end

section
/-! What the multiplies, the single-bit shifts and the table reads compute, over registers and RAM (R211 to R216, R241
to R247, R300 to R302): O44, O47, O54. -/

namespace Sys2Proof.Machine

/-! ## Multiply -/

theorem mulBadDest_iff (nd : Reg) : mulBadDest nd = true ↔ nd.val % 2 = 1 ∨ nd = 14 := by
  simp [mulBadDest, oddReg]

theorem multiply_badDest {sa sb : Bool} {wb nd : Reg} {src : Opnd} {s : State} (h : mulBadDest nd = true) :
    multiply sa sb wb src nd s = .refused .mulBadDest := by
  simp [multiply, h]

theorem multiplyLit_badDest {sa : Bool} {wb nd : Reg} {lit : BitVec 5} {s : State} (h : mulBadDest nd = true) :
    multiplyLit sa wb lit nd s = .refused .mulBadDest := by
  simp [multiplyLit, h]

/-- A literal multiply leaves its product in the destination pair. -/
theorem multiplyLit_answers (sa : Bool) (wb : Reg) (lit : BitVec 5) {nd : Reg} (s : State)
    (hnd : mulBadDest nd = false) :
    Answers (multiplyLit sa wb lit nd s) fun t =>
      pairValue nd t = product sa false (s.reg wb) (lit.setWidth 16) ∧ t.pc = s.pc + 2 :=
  ⟨advance 1 (setPair nd (product sa false (s.reg wb) (lit.setWidth 16)) s), by simp [multiplyLit, hnd],
    pairValue_setPair hnd _ s, rfl⟩

/-- A multiply leaves its product in the destination pair and steps its pointer. -/
theorem multiply_answers (sa sb : Bool) (wb : Reg) {src : Opnd} {nd : Reg} {s : State} (hnd : mulBadDest nd = false)
    (ho : OperandOk .word src s) :
    Answers (multiply sa sb wb src nd s) fun t =>
      pairValue nd t = product sa sb (s.reg wb) (operandValue .word src s) ∧ t.pc = s.pc + 2 ∧
        SteppedPast 2 src nd s t := by
  refine ⟨_, multiply_of_read hnd (readOp_ok ho), pairValue_setPair hnd _ _, next_pc_of_eq (afterRead_pc src 2 s),
    fun hm h1 h2 => ?_⟩
  refine (setPair_reg_ne h1 h2 _ _).trans ?_
  rw [State.reg_congr (afterRead_w src (bytesOf .word) s), afterSrc_reg_self hm]
  rfl

theorem lit5_toNat (lit : BitVec 5) : (lit.setWidth 16).toNat = lit.toNat := BitVec.toNat_setWidth_of_le (by decide)

/-- Settles O44: what the destination pair holds, as a number. -/
theorem multiplyIsExact : Obligations.MultiplyIsExact := by
  intro s wb nd src lit
  refine ⟨fun h => ?_, fun hodd h14 => ?_⟩
  · have h := (mulBadDest_iff nd).2 h
    exact ⟨multiply_badDest h, multiplyLit_badDest h, multiply_badDest h, multiply_badDest h, multiplyLit_badDest h,
      multiply_badDest h⟩
  · have hnd : mulBadDest nd = false := by
      rw [← Bool.not_eq_true, mulBadDest_iff]
      exact fun h => h.elim (by omega) h14
    refine ⟨(multiplyLit_answers false wb lit s hnd).imp fun t ⟨h, hpc⟩ => ⟨?_, hpc⟩,
      (multiplyLit_answers true wb lit s hnd).imp fun t ⟨h, hpc⟩ => ⟨?_, hpc⟩, fun ho =>
      ⟨(multiply_answers false false wb hnd ho).imp fun t ⟨h, hrest⟩ => ⟨?_, hrest⟩,
        (multiply_answers false true wb hnd ho).imp fun t ⟨h, hrest⟩ => ⟨?_, hrest⟩,
        (multiply_answers true false wb hnd ho).imp fun t ⟨h, hrest⟩ => ⟨?_, hrest⟩,
        (multiply_answers true true wb hnd ho).imp fun t ⟨h, hrest⟩ => ⟨?_, hrest⟩⟩⟩
    · rw [h, product_unsigned, lit5_toNat]
    · rw [h, product_signed (.inl rfl), mulOperand_true, mulOperand_false, lit5_toNat]
    · rw [h, product_unsigned]
    · rw [h, product_signed (.inr rfl), mulOperand_true, mulOperand_false]
    · rw [h, product_signed (.inl rfl), mulOperand_true, mulOperand_false]
    · rw [h, product_signed (.inl rfl), mulOperand_true, mulOperand_true]

/-! ## Shift by one place -/

theorem sized_toNat (sz : Size) (v : Word) : (sized sz v).toNat = operandNat sz v := by
  cases sz
  · exact (Nat.mod_eq_of_lt v.isLt).symm
  · rw [sized, BitVec.toNat_setWidth_of_le (by decide), lowByte_toNat]
    rfl

theorem operandNat_of_lt {sz : Size} {v : Word} (h : v.toNat < 2 ^ widthOf sz) : operandNat sz v = v.toNat :=
  Nat.mod_eq_of_lt h

theorem shifted_left_toNat (sz : Size) (v : Word) :
    (shifted .left sz 1 v).toNat = 2 * operandNat sz v % 2 ^ widthOf sz := by
  rw [shifted, sized_toNat, operandNat, operandNat, BitVec.toNat_shiftLeft, Nat.shiftLeft_eq]
  cases sz <;> simp only [widthOf] <;> omega

theorem shifted_logical_toNat (sz : Size) (v : Word) : (shifted .logical sz 1 v).toNat = operandNat sz v / 2 := by
  rw [shifted, BitVec.toNat_ushiftRight, sized_toNat, Nat.shiftRight_eq_div_pow, pow_one]

theorem shifted_arith_lt (sz : Size) (v : Word) : (shifted .arith sz 1 v).toNat < 2 ^ widthOf sz := by
  cases sz
  · exact (shifted .arith .word 1 v).isLt
  · rw [shifted, BitVec.toNat_setWidth_of_le (by decide)]
    exact ((lowByte v).sshiftRight 1).isLt

theorem signedOf_shifted_arith (sz : Size) (v : Word) :
    signedOf sz (shifted .arith sz 1 v) = signedOf sz v / 2 := by
  cases sz <;>
    simp only [signedOf, shifted, lowByte_setWidth, BitVec.toInt_sshiftRight, Int.shiftRight_eq_div_pow, pow_one]
      <;> rfl

/-- The bit shifted out on the right is the operand's parity. -/
theorem getLsbD_zero_iff (sz : Size) (v : Word) : v.getLsbD 0 = true ↔ operandNat sz v % 2 = 1 := by
  rw [show v.getLsbD 0 = isOdd v from rfl, isOdd_eq, decide_eq_true_iff, operandNat]
  cases sz <;> simp only [widthOf] <;> omega

theorem zero_iff {sz : Size} {r : Word} (h : r.toNat < 2 ^ widthOf sz) : zero sz r = true ↔ r.toNat = 0 := by
  rw [zero, operandNat_of_lt h]
  exact decide_eq_true_iff

theorem negative_iff {sz : Size} {r : Word} (h : r.toNat < 2 ^ widthOf sz) :
    negative sz r = true ↔ 2 ^ (widthOf sz - 1) ≤ r.toNat := by
  rw [negative, signBit_iff, operandNat_of_lt h]

/-- A shift over registers and RAM: the destination takes the shifted operand, and the flags are those of the shift. -/
theorem shiftOne_answers (op : ShiftOp) {sz : Size} {src dst : Opnd} {s : State} (hst : sameTwice src dst = false)
    (hs : OperandOk sz src s) (hd : DestOk sz dst (afterSrc src (bytesOf sz) s)) :
    Answers (shiftOne op sz src dst s) fun t =>
      Took sz dst (dstAddr sz src dst s) (shifted op sz 1 (operandValue sz src s)) (afterSrc src (bytesOf sz) s) t ∧
        t.sr.flags.c = shiftedOut op sz (operandValue sz src s) ∧
        t.sr.flags.z = zero sz (shifted op sz 1 (operandValue sz src s)) ∧
        t.sr.flags.n = negative sz (shifted op sz 1 (operandValue sz src s)) ∧
        t.sr.flags.dc = s.sr.flags.dc ∧ t.pc = s.pc + 2 ∧ Stepped sz src dst s t := by
  obtain ⟨htook, hstep, hpc, hsr, -⟩ := movedState_spec (shifted op sz 1 (operandValue sz src s)) hst
  have hdc := congrArg (fun r : StatusReg => r.flags.dc) hsr
  exact ⟨_, shiftOne_of_write hst (readOp_ok hs) (writeResult_moved hd), htook, rfl, rfl, rfl, hdc,
    next_pc_of_eq hpc, hstep⟩

/-- Settles O47: the shifted value and the bit shifted out, as numbers. -/
theorem shiftByOne : Obligations.ShiftByOne := by
  intro s sz src dst hst hs hd
  have hv := operandNat_lt sz (operandValue sz src s)
  have hw : 2 ^ widthOf sz = 2 * 2 ^ (widthOf sz - 1) := by cases sz <;> rfl
  refine ⟨(shiftOne_answers .left hst hs hd).imp fun t ⟨ht, hc, hz, hn, hdc, hrest⟩ => ?_,
    (shiftOne_answers .logical hst hs hd).imp fun t ⟨ht, hc, hz, hn, hdc, hrest⟩ => ?_,
    (shiftOne_answers .arith hst hs hd).imp fun t ⟨ht, hc, hz, hn, hdc, hrest⟩ => ?_⟩
  · have hr := shifted_left_toNat sz (operandValue sz src s)
    have hlt : (shifted .left sz 1 (operandValue sz src s)).toNat < 2 ^ widthOf sz :=
      hr ▸ Nat.mod_lt _ (Nat.two_pow_pos _)
    refine ⟨_, hr, ht, ?_, hz ▸ zero_iff hlt, hn ▸ negative_iff hlt, hdc, hrest⟩
    rw [hc, hw]
    exact (signBit_iff sz _).trans (by omega)
  · have hr := shifted_logical_toNat sz (operandValue sz src s)
    have hlt : (shifted .logical sz 1 (operandValue sz src s)).toNat < 2 ^ widthOf sz := by omega
    refine ⟨_, hr, ht, hc ▸ getLsbD_zero_iff sz _, hz ▸ zero_iff hlt, ?_, hdc, hrest⟩
    rw [hn, ← Bool.not_eq_true, negative_iff hlt]
    omega
  · have hlt := shifted_arith_lt sz (operandValue sz src s)
    exact ⟨_, hlt, signedOf_shifted_arith sz _, ht, hc ▸ getLsbD_zero_iff sz _, hz ▸ zero_iff hlt,
      hn ▸ negative_iff hlt, hdc, hrest⟩

/-! ## Table reads -/

theorem progLow_toNat (w : PWord) : (progLow w).toNat = w.toNat % 65536 := by
  simp [progLow, BitVec.extractLsb'_toNat]

theorem pick_byte_toNat (a v : Word) :
    (pick .byte a v).toNat = if isOdd a then v.toNat / 256 else v.toNat % 256 := by
  rw [pick]
  split
  · rw [BitVec.toNat_setWidth_of_le (by decide), highByte_toNat]
  · rw [BitVec.toNat_setWidth_of_le (by decide), lowByte_toNat]

/-- The byte of bits 15:0 of a program word that an address selects. -/
theorem pick_byte_progLow_toNat (a : Word) (w : PWord) :
    (pick .byte a (progLow w)).toNat = if isOdd a then w.toNat / 256 % 256 else w.toNat % 256 := by
  rw [pick_byte_toNat, progLow_toNat]
  split <;> omega

/-- Bits 23:16 of a program word. -/
theorem progHigh_toNat (w : PWord) : ((w.extractLsb' 16 8).setWidth 16).toNat = w.toNat / 65536 := by
  have := w.isLt
  rw [BitVec.toNat_setWidth_of_le (by decide), BitVec.extractLsb'_toNat, Nat.shiftRight_eq_div_pow]
  omega

theorem tableValue_ok {high : Bool} {sz : Size} {t : Word} {s : State} {w : PWord}
    (h7 : s.tblpag.getLsbD 7 = false) (ho : sz = .word → isOdd t = false)
    (hg : progRead s (s.tblpag.toNat * 0x10000 + t.toNat / 2 * 2) = some w) :
    tableValue high sz t s = .ok (tablePick high sz t w) := by
  rw [← tableAddr_of_bit7 h7] at hg
  unfold tableValue
  rw [if_neg (by simpa using h7), if_neg (aligned_iff.2 ho), hg]

/-- A table read to a register or RAM: the destination takes the part of the program word. -/
theorem tableRead_answers (high : Bool) {sz : Size} {src dst : Opnd} {s : State} {w : PWord}
    (hst : sameTwice src dst = false) (hdir : isDirect src = false) (hp : PointerOk src (bytesOf sz) true s)
    (h7 : s.tblpag.getLsbD 7 = false) (ho : sz = .word → isOdd (eaOf src (bytesOf sz) s) = false)
    (hg : progRead s (s.tblpag.toNat * 0x10000 + (eaOf src (bytesOf sz) s).toNat / 2 * 2) = some w)
    (hd : DestOk sz dst (afterSrc src (bytesOf sz) s)) :
    Answers (tableRead high sz src dst s) fun t =>
      Took sz dst (dstAddr sz src dst s) (tablePick high sz (eaOf src (bytesOf sz) s) w)
          (afterSrc src (bytesOf sz) s) t ∧
        t.pc = s.pc + 2 ∧ t.sr = s.sr ∧ Stepped sz src dst s t := by
  obtain ⟨htook, hstep, hpc, hsr, -⟩ := movedState_spec (tablePick high sz (eaOf src (bytesOf sz) s) w) hst
  have hr := tableSource_of_pointer (high := high) hdir hp
  rw [tableValue_ok h7 ho hg] at hr
  exact ⟨_, tableRead_of_write hst hr (writeResult_moved hd), htook, next_pc_of_eq hpc, hsr, hstep⟩

theorem tableRead_refused {high : Bool} {sz : Size} {src dst : Opnd} {s : State} {x : Refusal}
    (hst : sameTwice src dst = false) (hr : tableSource high sz src s = .error (.refuse x)) :
    tableRead high sz src dst s = .refused x := by
  obtain ⟨f, h⟩ := tableRead_source_stop hst hr
  exact h

/-- Settles O54: the two refusals, and the part of the program word as a number. -/
theorem tableReads : Obligations.TableReads := by
  intro s sz src dst w hst
  refine ⟨fun hdir => ?_, fun hdir hp h7 => ?_, fun hdir hp h7 ho hg hd => ⟨?_, ?_⟩⟩
  · have direct : ∀ high, tableSource high sz src s = .error (.refuse .tableDirectOperand) := fun _ => by
      simp [tableSource, hdir]
    exact ⟨tableRead_refused hst (direct false), tableRead_refused hst (direct true)⟩
  · have test : ∀ high, tableSource high sz src s = .error (.refuse .tableTestSpace) := fun _ => by
      rw [tableSource_of_pointer hdir hp, tableValue, if_pos h7]
      rfl
    exact ⟨tableRead_refused hst (test false), tableRead_refused hst (test true)⟩
  · refine (tableRead_answers false hst hdir hp h7 ho hg hd).imp fun t ⟨ht, hrest⟩ => ⟨⟨_, ht, ?_, ?_⟩, hrest⟩
    · rintro rfl
      exact progLow_toNat w
    · rintro rfl
      exact pick_byte_progLow_toNat _ w
  · refine (tableRead_answers true hst hdir hp h7 ho hg hd).imp fun t ⟨ht, hrest⟩ => ⟨⟨_, ht, ?_, ?_⟩, hrest⟩
    · rintro rfl
      exact progHigh_toNat w
    · rintro rfl
      simp only [tablePick, if_true]
      split
      · rfl
      · exact progHigh_toNat w

end Sys2Proof.Machine
end

section
/-! Data space by region: RAM, the device, what is absent, and the PSV window (R82 to R94), and the skip of BTSC
(R263, R264): O27, O31, O32, O50. -/

namespace Sys2Proof.Machine

/-! ## Where an address leads -/

section
variable {s : State} {a : Word}

theorem evenWord_of_not_odd (h : isOdd a = false) : evenWord a = a := by
  apply evenWord_of_even
  simp only [isOdd_eq, decide_eq_false_iff_not] at h
  omega

theorem region_device (hc : cpuRegAt s.dev.sfr (evenWord a) = none) (h : a.toNat < 0x0800) :
    region s a = .device := by
  simp only [region, hc, h, if_true]

theorem region_psv (hc : cpuRegAt s.dev.sfr (evenWord a) = none) (h : 0x8000 ≤ a.toNat)
    (hp : s.corcon.psv = true) : region s a = .psv := by
  simp [region, hc, h, hp, show ¬a.toNat < 0x0800 by omega]

theorem region_absent (hc : cpuRegAt s.dev.sfr (evenWord a) = none) (h : 0x0800 ≤ a.toNat)
    (hp : ¬(0x8000 ≤ a.toNat ∧ s.corcon.psv = true)) (hd : dataImplemented s a.toNat = false) :
    region s a = .absent := by
  simp [region, hc, show ¬a.toNat < 0x0800 by omega, hp, hd]

/-- The program word that an address of the PSV window names (R93). -/
theorem psvAddr_of_window (h : 0x8000 ≤ a.toNat) :
    psvAddr s a = s.psvpag.toNat * 0x8000 + (a.toNat - 0x8000) / 2 * 2 := by
  have := a.isLt
  unfold psvAddr
  omega

end

/-! ## One access in a region -/

section
variable {sz : Size} {s : State} {a v : Word}

theorem memRead_device (ho : sz = .word → isOdd a = false) (hr : region s a = .device) :
    memRead sz a s = .ok (sized sz (Config.freeValue s.draws), { s with draws := s.draws + 1 }) := by
  simp only [memRead, if_neg (aligned_iff.2 ho), hr, draw]

theorem memWrite_device (ho : sz = .word → isOdd a = false) (hr : region s a = .device) :
    memWrite sz a v s = .ok { s with devOut := ⟨a, sz, sized sz v⟩ :: s.devOut } := by
  simp only [memWrite, if_neg (aligned_iff.2 ho), hr]

theorem memRead_psv {w : PWord} (ho : sz = .word → isOdd a = false) (hr : region s a = .psv)
    (hw : progRead s (psvAddr s a) = some w) :
    memRead sz a s = .ok (pick sz a (progLow w), { s with cur := { s.cur with psvRead := true } }) := by
  simp only [memRead, if_neg (aligned_iff.2 ho), hr, hw]

theorem memRead_psv_absent (ho : sz = .word → isOdd a = false) (hr : region s a = .psv)
    (hw : progRead s (psvAddr s a) = none) : memRead sz a s = .error (.trap .addressError) := by
  simp only [memRead, if_neg (aligned_iff.2 ho), hr, hw]

theorem memWrite_psv (ho : sz = .word → isOdd a = false) (hr : region s a = .psv) :
    memWrite sz a v s = .error (.refuse .psvWrite) := by
  simp only [memWrite, if_neg (aligned_iff.2 ho), hr]

end

/-! ## The instructions with a file register, from their access -/

section
variable {sz : Size} {s u : State} {v : Word} {x : Stop}

theorem exec_movFWnd_of_read {f : Word} {nd : Reg} (h : memRead .word f s = .ok (v, u)) :
    exec (.movFWnd f nd) s = .next (advance 1 (u.setW nd v)) := by
  show settle 1 _ s _ = _
  simp [h]

theorem exec_movWnsF_of_write {f : Word} {ns : Reg} (h : memWrite .word f (s.reg ns) s = .ok u) :
    exec (.movWnsF ns f) s = .next (advance 1 u) := by
  show settle 1 _ s _ = _
  simp [h]

theorem exec_movWregF_of_write {f : BitVec 13} (h : memWrite sz (fileAddr f) (s.reg wreg) s = .ok u) :
    exec (.movWregF sz f) s = .next (advance 1 u) := by
  show settle 1 _ s _ = _
  simp [h]

theorem exec_movFWnd_stop {f : Word} (nd : Reg) (h : memRead .word f s = .error x) :
    ∃ g, exec (.movFWnd f nd) s = settle 1 g s (.error x) :=
  ⟨_, congrArg (settle 1 _ s) (by simp [h])⟩

theorem exec_movWnsF_stop {f : Word} {ns : Reg} (h : memWrite .word f (s.reg ns) s = .error x) :
    exec (.movWnsF ns f) s = settle 1 pcOnly s (.error x) :=
  congrArg (settle 1 _ s) (by simp [h])

theorem exec_movWregF_stop {f : BitVec 13} (h : memWrite sz (fileAddr f) (s.reg wreg) s = .error x) :
    ∃ g, exec (.movWregF sz f) s = settle 1 g s (.error x) :=
  ⟨_, congrArg (settle 1 _ s) (by simp [h])⟩

theorem exec_addF_stop {f : BitVec 13} (toFile : Bool) (h : memRead sz (fileAddr f) s = .error x) :
    ∃ g, exec (.addF sz f toFile) s = settle 1 g s (.error x) :=
  ⟨_, congrArg (settle 1 _ s) (by simp [h])⟩

theorem exec_mulF_stop {f : BitVec 13} (h : memRead sz (fileAddr f) s = .error x) :
    ∃ g, exec (.mulF sz f) s = settle 1 g s (.error x) :=
  ⟨_, congrArg (settle 1 _ s) (by simp [h])⟩

theorem changeBit_stop {f : BitVec 13} {bit : BitVec 4} (change : Word → Word → Word)
    (h : memRead .byte (bitAddr f bit) s = .error x) :
    ∃ g, changeBit f bit change s = settle 1 g s (.error x) :=
  ⟨_, congrArg (settle 1 _ s) (by simp [h])⟩

theorem exec_bset_stop {f : BitVec 13} {bit : BitVec 4} (h : memRead .byte (bitAddr f bit) s = .error x) :
    ∃ g, exec (.bset f bit) s = settle 1 g s (.error x) := by
  rw [exec_bset]
  exact changeBit_stop _ h

theorem exec_bclr_stop {f : BitVec 13} {bit : BitVec 4} (h : memRead .byte (bitAddr f bit) s = .error x) :
    ∃ g, exec (.bclr f bit) s = settle 1 g s (.error x) := by
  rw [exec_bclr]
  exact changeBit_stop _ h

theorem exec_btsc_stop {f : BitVec 13} {bit : BitVec 4} (h : memRead .byte (bitAddr f bit) s = .error x) :
    ∃ g, exec (.btsc f bit) s = settle 1 g s (.error x) :=
  ⟨_, congrArg (settle 1 _ s) (by simp [h])⟩

end

/-- The PC going on is outside every frame. -/
theorem Kept.advance {R : List Reg} {S : List (Size × Word)} {s t : State} (h : Kept R S s t) (k : Nat) :
    Kept R S s (Machine.advance k t) := h

/-- A load of a register: what the read kept, and the register. -/
theorem kept_load {sz : Size} {a v : Word} {s u : State} (h : memRead sz a s = .ok (v, u)) (nd : Reg) :
    Kept [nd] [] s (advance 1 (u.setW nd v)) :=
  (((memRead_quiet h).kept.trans (Kept.setW u nd v)).mono (by simp) (by simp)).advance 1

/-- Settles O27: the store leaves its word in RAM, and the load reads it there. -/
theorem storeThenLoadGivesItBack : Obligations.StoreThenLoadGivesItBack := by
  intro s f ns nd h
  have h' : AccessOk .word f (advance 1 (ramWrite s .word f (s.reg ns))) :=
    h.congr (ramWrite_dev s .word f (s.reg ns)) (ramWrite_corcon s .word f (s.reg ns))
  refine ⟨_, exec_movWnsF_of_write (memWrite_ram h), ?_⟩
  refine ⟨_, exec_movFWnd_of_read (memRead_ram h'), ?_⟩
  show State.reg _ nd = _
  rw [advance_reg, State.reg_setW, if_pos rfl]
  exact congrArg (regMask nd) (ramRead_ramWrite_self s .word f (s.reg ns))

/-! ## The device and what is absent -/

/-- A write handed to the device changes no state of the CPU. -/
theorem kept_devOut (s : State) (o : List DeviceWrite) : Kept [] [] s { s with devOut := o } := Kept.refl s

/-- An instruction cut short that touches nothing but the PC keeps every place. -/
theorem kept_trapped_pcOnly (k : TrapKind) (words : Nat) (s : State) : Kept [] [] s (trapped k words pcOnly s) :=
  Kept.refl s

/-- Settles O31: what the access answers decides every instruction with a file register. -/
theorem deviceAndAbsentAddresses : Obligations.DeviceAndAbsentAddresses := by
  intro s f ns nd sz g bit file
  refine ⟨fun ho hc hl => ⟨?_, ?_⟩, fun ho hc hl => ?_, fun ho hc h8 hp hd => ?_, fun h => ⟨?_, ?_⟩,
    fun h => ⟨?_, ?_, ?_⟩, fun h => ⟨?_, ?_, ?_⟩⟩
  · rw [← evenWord_of_not_odd ho] at hc
    have hr := memRead_device (sz := .word) (fun _ => ho) (region_device hc hl)
    refine ⟨_, exec_movFWnd_of_read hr, ?_, kept_load hr nd⟩
    rw [advance_reg, State.reg_setW, if_pos rfl]
    rfl
  · rw [← evenWord_of_not_odd ho] at hc
    have hw := memWrite_device (sz := .word) (v := s.reg ns) (fun _ => ho) (region_device hc hl)
    exact ⟨_, exec_movWnsF_of_write hw, (kept_devOut s _).advance 1, rfl, rfl⟩
  · have hl' : (fileAddr g).toNat < 0x0800 := by rwa [fileAddr, BitVec.toNat_setWidth_of_le (by decide)]
    have hw := memWrite_device (sz := sz) (a := fileAddr g) (v := s.reg wreg) ho (region_device hc hl')
    exact ⟨_, exec_movWregF_of_write hw, (kept_devOut s _).advance 1, rfl, rfl, rfl⟩
  · rw [← evenWord_of_not_odd ho] at hc
    have hf : AccessFault .word f s := .inr (.inl (region_absent hc h8 hp hd))
    have hload : RaisesTrap .addressError 1 (.movFWnd f nd) s :=
      raisesTrap_of_stop (exec_movFWnd_stop nd (memRead_fault hf))
    have hstore := exec_movWnsF_stop (ns := ns) (memWrite_fault hf)
    have hstoreTrap : RaisesTrap .addressError 1 (.movWnsF ns f) s := raisesTrap_of_settle hstore rfl
    refine ⟨fun hrun => ⟨hload.1 hrun, hstoreTrap.1 hrun⟩,
      fun hrun => ⟨(hload.2 hrun).imp fun t h => h.1, ?_⟩⟩
    refine ⟨trapped .addressError 1 pcOnly s, ?_, rfl, kept_trapped_pcOnly _ _ s⟩
    rw [hstore]
    simp [settle, hrun]
  · exact raisesTrap_of_stop (exec_movFWnd_stop nd (memRead_fault h))
  · exact raisesTrap_of_stop ⟨_, exec_movWnsF_stop (memWrite_fault h)⟩
  · exact raisesTrap_of_stop (exec_movWregF_stop (memWrite_fault h))
  · exact raisesTrap_of_stop (exec_addF_stop file (memRead_fault h))
  · exact raisesTrap_of_stop (exec_mulF_stop (memRead_fault h))
  · exact raisesTrap_of_stop (exec_bset_stop (memRead_fault h))
  · exact raisesTrap_of_stop (exec_bclr_stop (memRead_fault h))
  · exact raisesTrap_of_stop (exec_btsc_stop (memRead_fault h))

/-! ## The PSV window -/

/-- A source through the PSV window reads the program word, before or after its pointer steps. -/
theorem readOp_psv {sz : Size} {op : Opnd} {s : State} {w : PWord} (hd : isDirect op = false)
    (hp : PointerOk op (bytesOf sz) true s) (ho : sz = .word → isOdd (eaOf op (bytesOf sz) s) = false)
    (hr : region s (eaOf op (bytesOf sz) s) = .psv)
    (hw : progRead s (psvAddr s (eaOf op (bytesOf sz) s)) = some w) :
    readOp sz op s = .ok (pick sz (eaOf op (bytesOf sz) s) (progLow w),
      { afterRead op (bytesOf sz) s with cur := { s.cur with psvRead := true } }) := by
  simp only [readOp, hd, Bool.false_eq_true, if_false, locate_ok hp, ok_bind]
  by_cases hu : updatesFirst op s = true
  · have hm : modifies op = true := (Bool.and_eq_true _ _ ▸ hu).1
    rw [if_pos hu, memRead_psv (s := s.setW op.reg (updOf op (bytesOf sz) s)) ho hr hw]
    simp only [afterRead, hm, if_true, State.setW_cur]
  · rw [if_neg hu, memRead_psv ho hr hw]
    simp only [ok_bind, afterRead]
    split <;> rfl

theorem readOp_psv_absent {sz : Size} {op : Opnd} {s : State} (hd : isDirect op = false)
    (hp : PointerOk op (bytesOf sz) true s) (ho : sz = .word → isOdd (eaOf op (bytesOf sz) s) = false)
    (hr : region s (eaOf op (bytesOf sz) s) = .psv)
    (hw : progRead s (psvAddr s (eaOf op (bytesOf sz) s)) = none) :
    readOp sz op s = .error (.trap .addressError) := by
  simp only [readOp, hd, Bool.false_eq_true, if_false, locate_ok hp, ok_bind]
  split
  · exact memRead_psv_absent (s := s.setW op.reg (updOf op (bytesOf sz) s)) ho hr hw
  · rw [memRead_psv_absent ho hr hw, error_bind]

theorem writeOp_psv {sz : Size} {op : Opnd} {v : Word} {s : State} (hd : isDirect op = false)
    (hp : PointerOk op (bytesOf sz) false s) (ho : sz = .word → isOdd (eaOf op (bytesOf sz) s) = false)
    (hr : region s (eaOf op (bytesOf sz) s) = .psv) : writeOp sz op v s = .error (.refuse .psvWrite) := by
  simp only [writeOp, hd, Bool.false_eq_true, if_false, locate_ok hp, ok_bind, memWrite_psv ho hr, error_bind]

/-- A MOV to a register from the PSV window. -/
theorem mov_from_psv {sz : Size} {src : Opnd} {nd : Reg} {s : State} {w : PWord} (hd : isDirect src = false)
    (hp : PointerOk src (bytesOf sz) true s) (ho : sz = .word → isOdd (eaOf src (bytesOf sz) s) = false)
    (hr : region s (eaOf src (bytesOf sz) s) = .psv)
    (hw : progRead s (psvAddr s (eaOf src (bytesOf sz) s)) = some w) :
    Answers (exec (.mov sz src (.direct nd)) s) fun t =>
      t.reg nd = written sz nd (pick sz (eaOf src (bytesOf sz) s) (progLow w))
          ((afterSrc src (bytesOf sz) s).reg nd) ∧
        Stepped sz src (.direct nd) s t ∧ t.pc = s.pc + 2 := by
  have hst : sameTwice src (.direct nd) = false := sameTwice_eq_false_iff.2 fun _ h => absurd h (by simp [modifies])
  have hregs := afterRead_w src (bytesOf sz) s
  refine ⟨_, exec_mov_of_write hst (readOp_psv hd hp ho hr hw) (writeResult_direct sz src nd _ s _), ?_, ?_, ?_⟩
  · rw [advance_reg, setSized_reg, if_pos rfl]
    exact congrArg (written sz nd _) (State.reg_congr hregs nd)
  · exact stepped_afterWrite (dst := .direct nd)
      (u := { afterRead src (bytesOf sz) s with cur := { s.cur with psvRead := true } }) hst hregs
      (afterRead_keeps src (bytesOf sz) s).2.2
  · exact next_pc_of_eq (by rw [setSized_pc]; exact afterRead_pc src _ s)

/-- Settles O32: reads, missing words and stores, at a literal address and through a pointer. -/
theorem psvWindow : Obligations.PsvWindow := by
  intro s f ns nd wb sz src dst h8 hpsv hc ho paddr
  have hreg := region_psv hc h8 hpsv
  have haddr : psvAddr s f = paddr := psvAddr_of_window h8
  refine ⟨fun w hw => ⟨fun ho => ?_, fun hd hp hea => ?_⟩, fun hw => ⟨fun ho => ?_, fun hst hd hp hea => ?_⟩,
    fun ho => ?_, fun v s1 hst hr hd hp hea => ?_⟩
  · have hr := memRead_psv (sz := .word) (fun _ => ho) hreg (haddr ▸ hw)
    refine ⟨_, exec_movFWnd_of_read hr, ?_, kept_load hr nd⟩
    rw [advance_reg, State.reg_setW, if_pos rfl]
    rfl
  · subst hea
    refine (mov_from_psv hd hp ho hreg (haddr ▸ hw)).imp fun t ⟨hv, hrest⟩ => ⟨⟨_, hv, ?_, ?_⟩, hrest⟩
    · rintro rfl
      rfl
    · rintro rfl
      exact pick_byte_progLow_toNat _ w
  · have hn : progRead s (psvAddr s f) = none := by simp [haddr, progRead, hw]
    exact raisesTrap_of_stop (exec_movFWnd_stop nd (memRead_psv_absent (fun _ => ho) hreg hn))
  · subst hea
    have hn : progRead s (psvAddr s (eaOf src (bytesOf sz) s)) = none := by simp [haddr, progRead, hw]
    exact raisesTrap_of_stop (exec_source_stop (wb := wb) hst (readOp_psv_absent hd hp ho hreg hn)
      (by simp [twoOperand]))
  · exact exec_movWnsF_stop (memWrite_psv (fun _ => ho) hreg)
  · subst hea
    obtain ⟨-, -, hcor, -, -, -, -, -, -, -, -, -, hdev, -⟩ := (readOp_quiet hr).kept.2.1
    have hreg1 : region s1 (eaOf dst (bytesOf sz) s1) = .psv := by
      rw [← hdev] at hc
      rw [← hcor (by simp [misses])] at hpsv
      exact region_psv hc h8 hpsv
    have stop := fun i (hi : i ∈ twoOperand sz wb src dst) =>
      exec_dest_stop hst hr (fun r => writeResult_error (v := r) (writeOp_psv hd hp ho hreg1)) hi
    exact (forall_twoOperand (p := fun i => exec i s = .refused .psvWrite)).1 fun i hi => by
      obtain ⟨g, h⟩ := stop i hi
      exact h

/-! ## BTSC -/

/-- BTSC once its byte is read: on to the next instruction, or what the skip answers. -/
theorem exec_btsc_of_read {f : BitVec 13} {bit : BitVec 4} {s u : State} {v : Word}
    (h : memRead .byte (bitAddr f bit) s = .ok (v, u)) :
    exec (.btsc f bit) s =
      settle 1 pcOnly s (if v.getLsbD (bit.toNat % 8) then .ok (advance 1 u) else skip u) :=
  congrArg (settle 1 pcOnly s) (by simp only [h, ok_bind]; rfl)

theorem progRead_congr {s t : State} (hg : t.prog = s.prog) (hd : t.dev = s.dev) (a : Nat) :
    progRead t a = progRead s a := by
  unfold progRead progImplemented
  rw [hg, hd]

section
variable {s : State}

theorem skip_absent (h : progRead s (s.pc.toNat + 2) = none) : skip s = .error (.trap .addressError) := by
  simp only [skip, h]

variable {w : PWord} (h : progRead s (s.pc.toNat + 2) = some w)
include h

theorem skip_unknown (hl : lengthOf w = none) : skip s = .error (.refuse (.unknownOpcode .unknownOpcode)) := by
  simp only [skip, h, hl]

theorem skip_ok {len : Nat} (hl : lengthOf w = some len) (hpc : s.pc.toNat + 2 + 2 * len < 0x800000) :
    skip s = .ok (advance (1 + len) s) := by
  simp only [skip, h, hl, hpc, if_true]

theorem skip_outside {len : Nat} (hl : lengthOf w = some len) (hpc : 0x800000 ≤ s.pc.toNat + 2 + 2 * len) :
    skip s = .error (.trap .addressError) := by
  simp only [skip, h, hl, Nat.not_lt.2 hpc, if_false]

end

theorem nextPc_toNat {s : State} {k : Nat} (h : s.pc.toNat + 2 * k < 0x800000) :
    (nextPc s k).toNat = s.pc.toNat + 2 * k := by
  rw [nextPc, BitVec.toNat_add, BitVec.toNat_ofNat]
  omega

/-- A read that `FileReads` describes keeps the PC, program memory and the device. -/
theorem fileReads_keeps {sz : Size} {a v : Word} {s u : State} (h : FileReads sz a s v u) :
    u.pc = s.pc ∧ u.prog = s.prog ∧ u.dev = s.dev := by
  have hq := memRead_quiet (memRead_of_fileReads h)
  obtain ⟨-, -, -, -, -, -, -, -, -, -, -, hprog, hdev, -⟩ := hq.kept.2.1
  exact ⟨hq.pc, hprog, hdev⟩

/-- Settles O50: the byte is read wherever it lies, and the skip asks for the word after the instruction. -/
theorem bitTestSkipsIfClear : Obligations.BitTestSkipsIfClear := by
  intro s u f bit v h
  have hex := exec_btsc_of_read (memRead_of_fileReads h)
  obtain ⟨hpc, hprog, hdev⟩ := fileReads_keeps h
  refine ⟨fun hb => ?_, fun hb => ?_⟩
  · rw [hex, if_pos hb, ← hpc]
    rfl
  · rw [if_neg (by simpa using hb)] at hex
    have hnext : progRead u (u.pc.toNat + 2) = progRead s (s.pc.toNat + 2) := by
      rw [hpc, progRead_congr hprog hdev]
    refine ⟨fun hp => ?_, fun w hw => ⟨fun hl => ?_, fun len hl => ⟨fun hlt => ?_, fun hge => ?_⟩⟩⟩
    · exact raisesTrap_of_settle hex (skip_absent (by rw [hnext]; simp [progRead, hp]))
    · rw [hex, skip_unknown (hnext.trans hw) hl]
      rfl
    · rw [← hpc] at hlt
      refine ⟨_, hex.trans (congrArg _ (skip_ok (hnext.trans hw) hl hlt)), rfl, ?_⟩
      rw [advance_pc, nextPc_toNat (by omega), hpc]
      omega
    · rw [← hpc] at hge
      exact raisesTrap_of_settle hex (skip_outside (hnext.trans hw) hl hge)

end Sys2Proof.Machine
end

section
/-! Frames, calls and returns on the stack (R97 to R101, R177, R178, R270 to R276): O41, O52, O53. -/

namespace Sys2Proof.Machine

/-! ## LNK and ULNK -/

theorem add_even {a b : Word} (ha : a.toNat % 2 = 0) (hb : b.toNat % 2 = 0) : (a + b).toNat % 2 = 0 := by
  rw [BitVec.toNat_add]
  omega

theorem slot_even {k : Nat} {s : State} (h : SlotOk (s.reg sp) k s) : (s.reg sp).toNat % 2 = 0 := by
  have := access_even h.1
  rw [BitVec.toNat_add, BitVec.toNat_ofNat] at this
  omega

theorem lit14_odd (lit : BitVec 14) : lit.getLsbD 0 = decide (lit.toNat % 2 = 1) := by
  simp [BitVec.getLsbD, Nat.testBit_zero]

theorem exec_lnk_odd {lit : BitVec 14} {s : State} (h : lit.toNat % 2 = 1) :
    exec (.lnk lit) s = .refused .lnkOddLiteral := by
  show settle 1 _ s _ = _
  simp [lit14_odd, h]

/-- LNK after its push, where the literal is even. -/
theorem exec_lnk_even {lit : BitVec 14} {s : State} (h : lit.toNat % 2 = 0) :
    ∃ f, exec (.lnk lit) s = settle 1 f s (do
      let s1 ← push16 (s.reg fp) s
      let s2 := s1.setW fp (s1.reg sp)
      .ok (advance 1 (s2.setW sp (s2.reg sp + lit.setWidth 16)))) :=
  ⟨_, congrArg (settle 1 _ s) (if_neg (by rw [lit14_odd, h]; decide))⟩

theorem lnk_answers {lit : BitVec 14} {s : State} (h : lit.toNat % 2 = 0) (hs : SlotOk (s.reg sp) 0 s) :
    Answers (exec (.lnk lit) s) fun t =>
      ramRead t .word (s.reg sp) = s.reg fp ∧ t.reg fp = s.reg sp + 2 ∧
        t.reg sp = s.reg sp + 2 + lit.setWidth 16 ∧ t.pc = s.pc + 2 := by
  obtain ⟨f, hex⟩ := exec_lnk_even (s := s) h
  have hsp := sp_after_push (v := s.reg fp) hs
  have heven : (s.reg sp + 2 + lit.setWidth 16).toNat % 2 = 0 :=
    add_even (add_even (slot_even hs) rfl) (by rwa [BitVec.toNat_setWidth_of_le (by decide)])
  rw [push16_ok hs] at hex
  refine ⟨_, hex, ?_, ?_, ?_, ?_⟩
  · exact ramRead_ramWrite_self s .word (s.reg sp) (s.reg fp)
  · rw [advance_reg, State.reg_setW, if_neg (by decide), State.reg_setW, if_pos rfl, hsp]
    rfl
  · rw [advance_reg, State.reg_setW, if_pos rfl, State.reg_setW, if_neg (by decide), hsp]
    exact regMask_of_even heven
  · exact next_pc_of_eq (ramWrite_pc s .word (s.reg sp) (s.reg fp))

theorem exec_ulnk (s : State) :
    ∃ f, exec .ulnk s = settle 1 f s (do
      let (v, s1) ← pop16 (s.setW sp (s.reg fp))
      .ok (advance 1 (s1.setW fp v))) := ⟨_, rfl⟩

/-- W15 as ULNK takes it from W14. -/
theorem reg_sp_setW (s : State) (v : Word) : (s.setW sp v).reg sp = evenWord v := by
  rw [State.reg_setW, if_pos rfl, regMask, if_pos rfl]

theorem ulnk_answers {s : State} (h : TopOk (evenWord (s.reg fp)) 1 s) :
    Answers (exec .ulnk s) fun t =>
      t.reg fp = stackWord (evenWord (s.reg fp)) 1 s ∧ t.reg sp = evenWord (s.reg fp) - 2 ∧ t.pc = s.pc + 2 := by
  obtain ⟨f, hex⟩ := exec_ulnk s
  have hsp := reg_sp_setW s (s.reg fp)
  have hpop := pop16_ok (s := s.setW sp (s.reg fp)) (by rw [hsp]; exact ⟨h.1.congr rfl rfl, h.2⟩)
  rw [hsp] at hpop
  rw [hpop] at hex
  refine ⟨_, hex, ?_, ?_, rfl⟩
  · rw [advance_reg, State.reg_setW, if_pos rfl]
    rfl
  · rw [advance_reg, State.reg_setW, if_neg (by decide), State.reg_setW, if_pos rfl]
    exact regMask_of_even (access_even h.1)

theorem PopStops.congr {k : TrapKind} {top : Word} {s t : State} (h : PopStops k top s) (hd : t.dev = s.dev)
    (hc : t.corcon = s.corcon) (hl : t.splim = s.splim) (he : t.splimen = s.splimen) (hp : t.prev = s.prev) :
    PopStops k top t := by
  obtain ⟨hk, h⟩ | ⟨hk, h, hf⟩ := h
  · exact .inl ⟨hk, by simpa only [PopFault, hl, he, hp] using h⟩
  · exact .inr ⟨hk, by simpa only [StackOk, hl, he, hp] using h, hf.congr hd hc⟩

/-- Settles O41: LNK is a push and two register writes, ULNK a pop from where W14 points. -/
theorem linkAndUnlink : Obligations.LinkAndUnlink := by
  intro s lit
  refine ⟨exec_lnk_odd, lnk_answers, ulnk_answers, fun k => ⟨fun h hs => ?_, fun hs => ?_⟩⟩
  · obtain ⟨f, hex⟩ := exec_lnk_even (s := s) h
    exact raisesTrap_of_settle hex (by rw [push16_stops hs, error_bind])
  · obtain ⟨f, hex⟩ := exec_ulnk s
    have hstop : PopStops k ((s.setW sp (s.reg fp)).reg sp) (s.setW sp (s.reg fp)) := by
      rw [reg_sp_setW]
      exact hs.congr rfl rfl rfl rfl rfl
    exact raisesTrap_of_settle hex (by rw [pop16_stops hstop, error_bind])

/-! ## Calls -/

theorem inProgram_ok {a : Int} (h0 : 0 ≤ a) (h1 : a < 0x800000) :
    inProgram a = .ok (evenAddr (BitVec.ofInt 23 a)) := by
  simp [inProgram, h0, h1]

theorem inProgram_outside {a : Int} (h : a < 0 ∨ 0x800000 ≤ a) : inProgram a = .error (.trap .addressError) := by
  unfold inProgram
  rw [if_neg]
  simp only [Bool.and_eq_true, decide_eq_true_eq]
  omega

/-- An even number inside program space is its own program address. -/
theorem evenAddr_ofInt_toNat {a : Int} (h0 : 0 ≤ a) (h1 : a < 0x800000) (he : a % 2 = 0) :
    ((evenAddr (BitVec.ofInt 23 a)).toNat : Int) = a := by
  obtain ⟨n, rfl⟩ := Int.eq_ofNat_of_zero_le h0
  rw [BitVec.ofInt_natCast, evenAddr_toNat, BitVec.toNat_ofNat]
  omega

/-- A return address inside program space is pushed. -/
theorem pushReturn_ok {words : Nat} {s : State} (h : s.pc.toNat + 2 * words < 0x800000) :
    pushReturn words s = pushPcCall (evenAddr (BitVec.ofInt 23 ((s.pc.toNat : Int) + 2 * words))) s := by
  simp only [pushReturn, inProgram_ok (a := (s.pc.toNat : Int) + 2 * words) (by omega) (by omega), ok_bind]

theorem pushReturn_outside {words : Nat} {s : State} (h : 0x800000 ≤ s.pc.toNat + 2 * words) :
    pushReturn words s = .error (.trap .addressError) := by
  simp only [pushReturn, inProgram_outside (a := (s.pc.toNat : Int) + 2 * words) (by omega), error_bind]

/-- The state after the two words of a frame were pushed. -/
def pushedTwo (lo hi : Word) (s : State) : State :=
  (ramWrite ((ramWrite s .word (s.reg sp) lo).setW sp (s.reg sp + 2)) .word (s.reg sp + 2) hi).setW sp (s.reg sp + 4)

theorem pushPcCall_ok {s : State} (ret : PAddr) (h0 : SlotOk (s.reg sp) 0 s) (h1 : SlotOk (s.reg sp) 1 s) :
    pushPcCall ret s = .ok (pushedTwo (ret.extractLsb' 0 16) ((ret.extractLsb' 16 7).setWidth 16) s) :=
  push16_twice_ok h0 h1

/-- The two words stand above W15's old value, which rose by 4. -/
theorem pushedTwo_spec {lo hi : Word} {s : State} (h0 : SlotOk (s.reg sp) 0 s) (h1 : SlotOk (s.reg sp) 1 s) :
    ramRead (pushedTwo lo hi s) .word (s.reg sp) = lo ∧ ramRead (pushedTwo lo hi s) .word (s.reg sp + 2) = hi ∧
      (pushedTwo lo hi s).reg sp = s.reg sp + 4 ∧ (pushedTwo lo hi s).pc = s.pc := by
  have hne : (s.reg sp + 2).toNat = (s.reg sp).toNat + 2 := by
    have hge : 0x0800 ≤ (s.reg sp + 2).toNat := (region_ram h1.1.2.1).1
    rw [BitVec.toNat_add] at hge ⊢
    have := (s.reg sp).isLt
    change 0x0800 ≤ ((s.reg sp).toNat + 2) % 65536 at hge
    change ((s.reg sp).toNat + 2) % 65536 = _
    omega
  refine ⟨?_, ?_, ?_, ?_⟩
  · rw [pushedTwo, ramRead_setW, ramRead_ramWrite_apart _ _ (.inl (by rw [hne]; exact Nat.le_refl _)), ramRead_setW]
    exact ramRead_ramWrite_self s .word _ lo
  · rw [pushedTwo, ramRead_setW]
    exact ramRead_ramWrite_self _ .word _ hi
  · rw [pushedTwo, State.reg_setW, if_pos rfl]
    exact regMask_of_even (add_even (slot_even h0) rfl)
  · simp [pushedTwo]

/-- The two words of a pushed address make up the address. -/
theorem pushedAddr_toNat (ret : PAddr) :
    ((ret.extractLsb' 16 7).setWidth 16).toNat * 65536 + (ret.extractLsb' 0 16).toNat = ret.toNat := by
  have := ret.isLt
  rw [BitVec.toNat_setWidth_of_le (by decide), BitVec.extractLsb'_toNat, BitVec.extractLsb'_toNat,
    Nat.shiftRight_eq_div_pow, Nat.shiftRight_eq_div_pow]
  omega

/-- What a call of `words` words leaves on the stack, and W15. -/
theorem pushReturn_answers {words : Nat} {s : State} (he : s.pc.toNat % 2 = 0) (h0 : SlotOk (s.reg sp) 0 s)
    (h1 : SlotOk (s.reg sp) 1 s) (h : s.pc.toNat + 2 * words < 0x800000) :
    ∃ t, pushReturn words s = .ok t ∧ t.reg sp = s.reg sp + 4 ∧ t.pc = s.pc ∧
      (ramRead t .word (s.reg sp + 2)).toNat * 65536 + (ramRead t .word (s.reg sp)).toNat =
        s.pc.toNat + 2 * words := by
  have hret := evenAddr_ofInt_toNat (a := (s.pc.toNat : Int) + 2 * words) (by omega) (by omega) (by omega)
  rw [pushReturn_ok h, pushPcCall_ok _ h0 h1]
  obtain ⟨hlo, hhi, hsp, hpc⟩ := pushedTwo_spec (lo := (evenAddr (BitVec.ofInt 23 _)).extractLsb' 0 16)
    (hi := ((evenAddr (BitVec.ofInt 23 ((s.pc.toNat : Int) + 2 * words))).extractLsb' 16 7).setWidth 16) h0 h1
  refine ⟨_, rfl, hsp, hpc, ?_⟩
  rw [hlo, hhi, pushedAddr_toNat]
  omega

theorem exec_call (target : PAddr) (s : State) :
    exec (.call target) s = settle 2 (callFootprint s) s (do
      let s1 ← pushReturn 2 s
      .ok (s1.jump (evenAddr target))) := rfl

theorem exec_rcall (off : Word) (s : State) :
    exec (.rcall off) s = settle 1 (callFootprint s) s (do
      let s1 ← pushReturn 1 s
      let t ← relTarget off s
      .ok (s1.jump t)) := rfl

/-- Settles O52: the return address is formed first, then pushed, and the target of an RCALL comes last. -/
theorem callsPushTheReturnAddress : Obligations.CallsPushTheReturnAddress := by
  intro s off target
  refine ⟨fun k hk => ⟨fun hpc => ?_, fun hpc => ?_⟩, fun h0 h1 hout => ?_, fun hpc => ?_,
    fun he h0 h1 => ⟨fun ht hpc => ?_, fun hpc hlo hhi => ?_⟩⟩
  · refine raisesTrap_of_settle (exec_call target s) ?_
    rw [pushReturn_ok (words := 2) hpc, pushPcCall_stops hk, error_bind]
  · refine raisesTrap_of_settle (exec_rcall off s) ?_
    rw [pushReturn_ok (words := 1) hpc, pushPcCall_stops hk, error_bind]
  · refine raisesTrap_of_settle (exec_rcall off s) ?_
    by_cases hpc : s.pc.toNat + 2 * 1 < 0x800000
    · rw [pushReturn_ok hpc, pushPcCall_ok _ h0 h1, ok_bind, relTarget, inProgram_outside hout, error_bind]
    · rw [pushReturn_outside (Nat.not_lt.1 hpc), error_bind]
  · refine raisesTrap_of_settle (exec_call target s) ?_
    rw [pushReturn_outside (words := 2) hpc, error_bind]
  · obtain ⟨t, hpush, hsp, -, hwords⟩ := pushReturn_answers (words := 2) he h0 h1 hpc
    refine ⟨t.jump (evenAddr target), ?_, evenAddr_of_even ht, hsp, hwords⟩
    rw [exec_call, hpush]
    rfl
  · obtain ⟨t, hpush, hsp, -, hwords⟩ := pushReturn_answers (words := 1) he h0 h1 hpc
    refine ⟨t.jump (evenAddr (BitVec.ofInt 23 ((s.pc.toNat : Int) + 2 + 2 * off.toInt))), ?_,
      evenAddr_ofInt_toNat hlo hhi (by omega), hsp, hwords⟩
    rw [exec_rcall, hpush, relTarget, inProgram_ok hlo hhi]
    rfl

/-! ## Returns -/

theorem exec_ret (s : State) :
    ∃ f, exec .ret s = settle 1 f s (do
      let (hi, lo, s1) ← popFrame s
      .ok (s1.jump (poppedAddr hi lo))) := ⟨_, rfl⟩

theorem exec_retlw (sz : Size) (lit : BitVec 10) (n : Reg) (s : State) :
    ∃ f, exec (.retlw sz lit n) s = settle 1 f s (do
      let (hi, lo, s1) ← popFrame s
      .ok ((s1.setSized sz n (lit.setWidth 16)).jump (poppedAddr hi lo))) := ⟨_, rfl⟩

theorem exec_retfie (s : State) :
    ∃ f, exec .retfie s = settle 1 f s (do
      let (hi, lo, s1) ← popFrame s
      .ok ((restoreFrame hi lo s1).backToTarget (s.reg sp))) := ⟨_, rfl⟩

/-- `hi[6:0] : lo[15:1] : 0` in numbers. -/
theorem poppedAddr_toNat (hi lo : Word) :
    (poppedAddr hi lo).toNat = hi.toNat % 128 * 65536 + lo.toNat / 2 * 2 := by
  rw [poppedAddr, evenAddr_toNat, BitVec.toNat_append, ← Nat.shiftLeft_add_eq_or_of_lt lo.isLt, Nat.shiftLeft_eq,
    BitVec.extractLsb'_toNat, Nat.shiftRight_eq_div_pow]
  omega

/-- The registers after the two pops of a return. -/
theorem reg_after_popFrame {s : State} (h : TopOk (s.reg sp) 2 s) (n : Reg) :
    ((s.setW sp (s.reg sp - 2)).setW sp (s.reg sp - 4)).reg n = if n = sp then s.reg sp - 4 else s.reg n := by
  have he : regMask sp (s.reg sp - 4) = s.reg sp - 4 := regMask_of_even (access_even h.1)
  by_cases hn : n = sp
  · subst hn
    rw [State.reg_setW, if_pos rfl, if_pos rfl]
    exact he
  · simp [hn, Ne.symm hn]

/-- Settles O53: the two pops decide, and RETLW writes its literal after them. -/
theorem returnsPopTheReturnAddress : Obligations.ReturnsPopTheReturnAddress := by
  intro s sz lit n
  obtain ⟨f1, hret⟩ := exec_ret s
  obtain ⟨f2, hretlw⟩ := exec_retlw sz lit n s
  obtain ⟨f3, hretfie⟩ := exec_retfie s
  refine ⟨fun k hk => ?_, fun h1 h2 => ⟨?_, ?_⟩⟩
  · have hpop := popFrame_stops hk
    exact ⟨raisesTrap_of_settle hret (by rw [hpop, error_bind]),
      raisesTrap_of_settle hretlw (by rw [hpop, error_bind]),
      raisesTrap_of_settle hretfie (by rw [hpop, error_bind])⟩
  · rw [popFrame_ok h1 h2] at hret
    exact ⟨_, hret, (reg_after_popFrame h2 sp).trans (if_pos rfl), poppedAddr_toNat _ _⟩
  · rw [popFrame_ok h1 h2] at hretlw
    refine ⟨_, hretlw, ?_, fun hn => ?_, poppedAddr_toNat _ _⟩
    · rw [State.jump_reg, setSized_reg, if_pos rfl, reg_after_popFrame h2]
    · rw [State.jump_reg, setSized_reg, if_neg hn, reg_after_popFrame h2, if_pos rfl]

end Sys2Proof.Machine
end

section
/-! What the two-operand instructions leave as it was (GK4, R92): O56. -/

namespace Sys2Proof.Machine

/-! ## The read of the source and the write of the result -/

/-- An instruction that reads an operand, writes a result and finishes did all three. -/
theorem readWrite_inv {b : Bool} {x : Stop} {sz : Size} {src dst : Opnd} {s t : State}
    {read : Except Stop (Word × State)} {g : Word → Word} {fin : Word → State → State}
    (h : (if b then .error x else read >>= fun p => writeResult sz src dst (g p.1) s p.2 >>= fun s2 =>
      Except.ok (fin p.1 s2)) = Except.ok t) :
    ∃ v s1 s2, read = .ok (v, s1) ∧ writeResult sz src dst (g v) s s1 = .ok s2 ∧ t = fin v s2 := by
  split at h
  · cases h
  · obtain ⟨⟨v, s1⟩, hread, h⟩ := bind_ok h
    obtain ⟨s2, hwrite, h⟩ := bind_ok h
    cases h
    exact ⟨v, s1, s2, hread, hwrite, rfl⟩

/-- A source was read: nothing but its pointer changed, which has stepped. -/
def ReadDone (sz : Size) (src : Opnd) (s s1 : State) : Prop :=
  Quiet (srcReg src) [] s s1 ∧ s1.w = (afterRead src (bytesOf sz) s).w

theorem readOp_done {sz : Size} {src : Opnd} {v : Word} {s s1 : State} (h : readOp sz src s = .ok (v, s1)) :
    ReadDone sz src s s1 := by
  refine ⟨readOp_quiet h, ?_⟩
  obtain ⟨d, p, rfl⟩ := readOp_state h
  rfl

theorem tableSource_done {high : Bool} {sz : Size} {src : Opnd} {v : Word} {s s1 : State}
    (h : tableSource high sz src s = .ok (v, s1)) : ReadDone sz src s s1 := by
  obtain ⟨-, d, rfl⟩ := tableSource_state h
  exact ⟨((afterRead_quiet src (bytesOf sz) s).trans (Quiet.draws (d := d) rfl)).mono (by simp) (by simp), rfl⟩

/-- The result's write after the source's read: the pointers, a direct destination and the one store. -/
theorem ReadDone.write {sz : Size} {src dst : Opnd} {v : Word} {s0 s s1 s2 : State} (h : ReadDone sz src s s1)
    (hw : writeResult sz src dst v s0 s1 = .ok s2) : Quiet (opRegs src dst) (dstStore sz src dst s) s s2 := by
  obtain ⟨hq, hreg⟩ := h
  have hea : eaOf dst (bytesOf sz) s1 = dstAddr sz src dst s := (eaOf_congr hreg).trans (eaOf_afterRead src dst sz s)
  have hwrite := writeResult_quiet hw
  rw [hea] at hwrite
  refine (hq.trans hwrite).mono (fun r hr => ?_) (fun _ h => h)
  simp only [List.mem_append] at hr
  exact List.mem_append.2 (hr.elim .inl Or.symm)

/-! ## What comes after the write -/

theorem Kept.setFlags {R : List Reg} {S : List (Size × Word)} {s t : State} (h : Kept R S s t) (f : AluFlags) :
    Kept R S s (t.setFlags f) :=
  (h.trans (Kept.of_eq (s := t) (c := t.cur) rfl rfl)).mono (by simp) (by simp)

theorem Kept.shift1Flags {R : List Reg} {S : List (Size × Word)} {s t : State} (h : Kept R S s t) (sz : Size)
    (out : Bool) (r : Word) : Kept R S s (Machine.shift1Flags sz out r t) :=
  (h.trans (Kept.of_eq (s := t) (c := t.cur) rfl rfl)).mono (by simp) (by simp)

/-- A move or a table read: no flag is written but by a store to SR. -/
theorem Quiet.frame_advance {R : List Reg} {S : List (Size × Word)} {s t : State} (h : Quiet R S s t) :
    Kept R S s (advance 1 t) ∧ FlagsKept S s (advance 1 t) := ⟨h.kept.advance 1, h.flags⟩

/-! ## The instructions -/

theorem transfer_frame {sz : Size} {src dst : Opnd} {s t : State} (h : transfer sz src dst s = .ok t) :
    Kept (opRegs src dst) (dstStore sz src dst s) s t ∧ FlagsKept (dstStore sz src dst s) s t := by
  obtain ⟨v, s1, s2, hread, hwrite, rfl⟩ := readWrite_inv (g := id) (fin := fun _ => advance 1) h
  exact ((readOp_done hread).write hwrite).frame_advance

theorem add_frame {sz : Size} {wb : Reg} {src dst : Opnd} {s t : State} (h : Completed (.add sz wb src dst) s t) :
    Kept (opRegs src dst) (dstStore sz src dst s) s t := by
  obtain ⟨-, hex, he⟩ := h
  obtain ⟨v, s1, s2, hread, hwrite, rfl⟩ := readWrite_inv (g := addResult sz (s.reg wb))
    (fin := fun v s2 => advance 1 (s2.setFlags (addFlags sz (s.reg wb) v))) (settle_completed hex he)
  exact (((readOp_done hread).write hwrite).kept.setFlags _).advance 1

theorem shiftOne_frame {op : ShiftOp} {sz : Size} {src dst : Opnd} {s t : State}
    (h : shiftOne op sz src dst s = .next t) (he : t.event = none) :
    Kept (opRegs src dst) (dstStore sz src dst s) s t ∧
      (misses (dstStore sz src dst s) s.dev.sfr.sr → t.sr.flags.dc = s.sr.flags.dc) := by
  obtain ⟨v, s1, s2, hread, hwrite, rfl⟩ := readWrite_inv (g := shifted op sz 1)
    (fin := fun v s2 => advance 1 (shift1Flags sz (shiftedOut op sz v) (shifted op sz 1 v) s2)) (settle_completed h he)
  have hq := (readOp_done hread).write hwrite
  exact ⟨(hq.kept.shift1Flags _ _ _).advance 1, fun hm => (congrArg AluFlags.dc (hq.flags hm) :)⟩

theorem tableRead_frame {high : Bool} {sz : Size} {src dst : Opnd} {s t : State}
    (h : tableRead high sz src dst s = .next t) (he : t.event = none) :
    Kept (opRegs src dst) (dstStore sz src dst s) s t ∧ FlagsKept (dstStore sz src dst s) s t := by
  obtain ⟨v, s1, s2, hread, hwrite, rfl⟩ := readWrite_inv (g := id) (fin := fun _ => advance 1) (settle_completed h he)
  exact ((tableSource_done hread).write hwrite).frame_advance

/-- Settles O56: each instruction reads its source, writes one result and then sets flags at most. -/
theorem twoOperandFrame : Obligations.TwoOperandFrame := by
  intro s t sz wb src dst
  refine ⟨?mov, ?push, ?pop, add_frame, ?shifts, ?tables⟩
  case mov | push | pop =>
    rintro ⟨-, hex, he⟩
    exact transfer_frame (settle_completed hex he)
  case shifts => rintro (⟨-, hex, he⟩ | ⟨-, hex, he⟩ | ⟨-, hex, he⟩) <;> exact shiftOne_frame hex he
  case tables => rintro (⟨-, hex, he⟩ | ⟨-, hex, he⟩) <;> exact tableRead_frame hex he

end Sys2Proof.Machine
end

section
/-! The fields of an instruction word and the operands they hold (R124 to R126). -/

namespace Sys2Proof

/-! ## What a field of a word reads as -/

@[simp] theorem regAt_eq_iff {w lo : Nat} {r : Reg} : regAt w lo = r ↔ bits w lo 4 = r.val := Fin.ext_iff

@[simp] theorem sizeAt_eq_iff {w lo : Nat} {sz : Size} : sizeAt w lo = sz ↔ bits w lo 1 = sz.code := by
  have hbit : bits w lo 1 = 0 ∨ bits w lo 1 = 1 := by unfold bits; omega
  rcases hbit with hbit | hbit <;> cases sz <;> simp [sizeAt, Size.code, hbit]

theorem ofNat_eq_iff {n x : Nat} {v : BitVec n} : BitVec.ofNat n x = v ↔ x % 2 ^ n = v.toNat := by
  rw [← BitVec.toNat_inj, BitVec.toNat_ofNat]

theorem Size.code_lt (sz : Size) : sz.code < 2 := by cases sz <;> decide

/-! ## Operands -/

theorem Opnd.code_lt (o : Opnd) : o.code < 7 := by cases o <;> simp [Opnd.code]

theorem Opnd.code_lt_of_plain {o : Opnd} (h : o.plain = true) : o.code < 6 := by
  cases o with
  | offset n b => cases h
  | _ => simp [Opnd.code]

theorem plainOpnd_code {o : Opnd} (h : o.plain = true) : plainOpnd o.code o.reg = some o := by
  cases o with
  | offset n b => cases h
  | _ => rfl

theorem plain_of_plainOpnd {mode : Nat} {n : Reg} {o : Opnd} (h : plainOpnd mode n = some o) : o.plain = true := by
  unfold plainOpnd at h
  split at h <;> cases h <;> rfl

/-- The mode, the register and the `w` field determine the operand of a MOV. -/
theorem movOpnd_code {o : Opnd} {b : Reg} (h : o.agrees b = true) : movOpnd o.code o.reg b = o := by
  cases o with
  | offset n b' => rw [of_decide_eq_true h]; rfl
  | _ => rfl

theorem agrees_movOpnd (mode : Nat) (n b : Reg) : (movOpnd mode n b).agrees b = true := by
  unfold movOpnd
  split
  case h_1 o ho =>
    have := plain_of_plainOpnd ho
    cases o with
    | offset _ _ => cases this
    | _ => rfl
  case h_2 => exact decide_eq_true rfl

theorem Opnd.srcBits_lt (o : Opnd) : o.srcBits < 2 ^ 7 := by
  have := o.code_lt
  have := o.reg.isLt
  unfold Opnd.srcBits
  omega

theorem opBits_lt (sz : Size) (src dst : Opnd) : opBits sz src dst < 2 ^ 15 := by
  have := sz.code_lt
  have := dst.code_lt
  have := dst.reg.isLt
  have := src.srcBits_lt
  unfold opBits Opnd.dstBits
  omega

/-- The fields of `ppp ssss`. -/
theorem srcBits_fields {w : Nat} {o : Opnd} (h : w % 2 ^ 7 = o.srcBits) :
    bits w 4 3 = o.code ∧ regAt w 0 = o.reg := by
  have := o.code_lt
  have := o.reg.isLt
  unfold Opnd.srcBits at h
  simp only [regAt_eq_iff, bits]
  omega

/-- The fields of `B qqq dddd ppp ssss`. -/
theorem opBits_fields {w : Nat} {sz : Size} {src dst : Opnd} (h : w % 2 ^ 15 = opBits sz src dst) :
    w % 2 ^ 7 = src.srcBits ∧ bits w 11 3 = dst.code ∧ regAt w 7 = dst.reg ∧ sizeAt w 14 = sz := by
  have := sz.code_lt
  have := dst.code_lt
  have := dst.reg.isLt
  have := src.srcBits_lt
  unfold opBits Opnd.dstBits at h
  simp only [regAt_eq_iff, sizeAt_eq_iff, bits]
  omega

theorem withSrc_ok {w : Nat} {src : Opnd} (k : Opnd → Instr) (hp : src.plain = true) (h : w % 2 ^ 7 = src.srcBits) :
    withSrc w k = .ok (k src) := by
  obtain ⟨hcode, hreg⟩ := srcBits_fields h
  rw [withSrc, hcode, hreg, plainOpnd_code hp]

theorem withSrcDst_ok {w : Nat} {sz : Size} {src dst : Opnd} (k : Size → Opnd → Opnd → Instr)
    (hs : src.plain = true) (hd : dst.plain = true) (h : w % 2 ^ 15 = opBits sz src dst) :
    withSrcDst w k = .ok (k sz src dst) := by
  obtain ⟨hsrc, hcode, hreg, hsz⟩ := opBits_fields h
  obtain ⟨hscode, hsreg⟩ := srcBits_fields hsrc
  rw [withSrcDst, hscode, hsreg, hcode, hreg, hsz, plainOpnd_code hs, plainOpnd_code hd]

/-- The operands of a MOV word that agree with its `w` field (R124); which of the three rows it is stays open. -/
theorem decodeMov_of_fields {w : Nat} {b : Reg} {sz : Size} {src dst : Opnd} (hs : src.agrees b = true)
    (hd : dst.agrees b = true) (hb : regAt w 15 = b) (h : w % 2 ^ 15 = opBits sz src dst) :
    decodeMov w = if isPushForm sz src dst then .push src else if isPopForm sz src dst then .pop dst
      else .mov sz src dst := by
  obtain ⟨hsrc, hcode, hreg, hsz⟩ := opBits_fields h
  obtain ⟨hscode, hsreg⟩ := srcBits_fields hsrc
  simp only [decodeMov, hb, hscode, hsreg, hcode, hreg, hsz, movOpnd_code hs, movOpnd_code hd]

end Sys2Proof
end

section
/-! Every well-formed instruction decodes from its encoding (R124 to R127): O1. -/

namespace Sys2Proof

/-! ## One word -/

/-- The first words of GOTO and CALL are in no one-word row. -/
theorem decodeOne_of_isTwoWord {w : PWord} (h : isTwoWord w = true) : decodeOne w.toNat = .error .unknownOpcode := by
  simp only [isTwoWord, Bool.and_eq_true, Bool.or_eq_true, decide_eq_true_eq] at h
  have h19 : bits w.toNat 19 5 = 0 := by unfold bits at *; omega
  have h20 : bits w.toNat 20 4 = 0 := by unfold bits at *; omega
  obtain ⟨htop | htop, -⟩ := h <;> simp [decodeOne, h19, h20, htop, decodeByte]

theorem decode_oneWord {n : Nat} {i : Instr} (rest : List PWord) (hn : n < 2 ^ 24) (h : decodeOne n = .ok i) :
    decode (oneWord n ++ rest) = .ok (i, rest) := by
  have hw : (BitVec.ofNat 24 n).toNat = n := by rw [BitVec.toNat_ofNat, Nat.mod_eq_of_lt hn]
  have htwo : isTwoWord (BitVec.ofNat 24 n) = false := by
    by_contra hc
    have := decodeOne_of_isTwoWord (by simpa using hc)
    rw [hw, h] at this
    cases this
  simp [oneWord, decode, htwo, hw, h]

/-- The top byte belongs to none of the rows that fix less of it, which `decodeOne` tries first. -/
def fixesTopByte (top : Nat) : Bool :=
  top < 2 ^ 8 && !(top / 8 ∈ [0b01111, 0b10000, 0b10001, 0b01000]) && top / 16 ≠ 0b0010

theorem decodeOne_of_top {n top : Nat} (htop : n / 2 ^ 16 = top) (h : fixesTopByte top = true) :
    decodeOne n = decodeByte top n := by
  simp [fixesTopByte] at h
  have h16 : bits n 16 8 = top := by unfold bits; omega
  have h19 : bits n 19 5 = top / 8 := by unfold bits; omega
  have h20 : bits n 20 4 = top / 16 := by unfold bits; omega
  simp [decodeOne, h16, h19, h20, h]

/-- The rows of R127 that fix the top byte. -/
theorem decode_row {n top : Nat} {i : Instr} (rest : List PWord) (htop : n / 2 ^ 16 = top)
    (hfix : fixesTopByte top = true) (h : decodeByte top n = .ok i) : decode (oneWord n ++ rest) = .ok (i, rest) := by
  have : top < 2 ^ 8 := by simp [fixesTopByte] at hfix; omega
  exact decode_oneWord rest (by omega) ((decodeOne_of_top htop hfix).trans h)

/-! ## MOV, PUSH and POP -/

/-- The MOV row with its PUSH and POP rows inside: the word of operands that agree with the `w` field. -/
theorem decode_movWord {b : Reg} {sz : Size} {src dst : Opnd} {n : Nat} (rest : List PWord)
    (hn : n = 0b01111 * 2 ^ 19 + b.val * 2 ^ 15 + opBits sz src dst) (hs : src.agrees b = true)
    (hd : dst.agrees b = true) :
    decode (oneWord n ++ rest) = .ok (if isPushForm sz src dst then .push src
      else if isPopForm sz src dst then .pop dst else .mov sz src dst, rest) := by
  have hop := opBits_lt sz src dst
  have hrow : bits n 19 5 = 0b01111 := by unfold bits; omega
  have hreg : regAt n 15 = b := by rw [regAt_eq_iff, bits]; omega
  refine decode_oneWord rest (by omega) ?_
  rw [decodeOne, if_pos hrow, decodeMov_of_fields (sz := sz) hs hd hreg (by omega)]

theorem decode_encode_mov {sz : Size} {src dst : Opnd} (rest : List PWord) (h : (Instr.mov sz src dst).wf = true) :
    decode (encode (.mov sz src dst) ++ rest) = .ok (.mov sz src dst, rest) := by
  simp only [Instr.wf, Bool.and_eq_true, Bool.not_eq_true'] at h
  obtain ⟨⟨⟨hs, hd⟩, hpush⟩, hpop⟩ := h
  rw [encode, decode_movWord rest rfl hs hd, hpush, hpop]
  rfl

/-- A PUSH word is the word of `MOV Wso, [W15++]` with `w` = 0000 (R130). -/
theorem decode_encode_push {src : Opnd} (rest : List PWord) (h : src.agrees 0 = true) :
    decode (encode (.push src) ++ rest) = .ok (.push src, rest) := by
  have hform : isPushForm .word src (.postInc sp) = true := by
    cases src <;> simp_all [isPushForm, movBase, Opnd.agrees]
  have hword : 0b01111000000111111 * 2 ^ 7 + src.srcBits =
      0b01111 * 2 ^ 19 + (0 : Reg).val * 2 ^ 15 + opBits .word src (.postInc sp) := by
    have hdst : (Opnd.postInc sp).dstBits = 3 * 2 ^ 11 + 15 * 2 ^ 7 := rfl
    simp only [opBits, Size.code, hdst]
    omega
  rw [encode, decode_movWord rest hword h rfl, hform]
  rfl

/-- A POP word is the word of `MOV [--W15], Wdo` with `w` = 0000 (R130). -/
theorem decode_encode_pop {dst : Opnd} (rest : List PWord) (h : (Instr.pop dst).wf = true) :
    decode (encode (.pop dst) ++ rest) = .ok (.pop dst, rest) := by
  simp only [Instr.wf, Bool.and_eq_true, Bool.not_eq_true', decide_eq_false_iff_not] at h
  obtain ⟨hd, hne⟩ := h
  have hpush : isPushForm .word (.preDec sp) dst = false := by simp [isPushForm, hne]
  have hpop : isPopForm .word (.preDec sp) dst = true := by
    cases dst <;> simp_all [isPopForm, movBase, Opnd.agrees]
  have hword : 0b0111100000 * 2 ^ 14 + dst.dstBits + 0b1001111 =
      0b01111 * 2 ^ 19 + (0 : Reg).val * 2 ^ 15 + opBits .word (.preDec sp) dst := by
    have hsrc : (Opnd.preDec sp).srcBits = 0b1001111 := rfl
    simp only [opBits, Size.code, hsrc]
    omega
  rw [encode, decode_movWord rest hword rfl hd, hpush, hpop]
  rfl

/-! ## The other moves -/

/-- The two rows that hold a word address of 15 bits and a register (R126). -/
theorem fileWord_fields {op n : Nat} {f : Word} {r : Reg} (hop : op < 2 ^ 5) (hf : f.toNat % 2 = 0)
    (hn : op * 2 ^ 19 + f.toNat / 2 * 2 ^ 4 + r.val = n) :
    n < 2 ^ 24 ∧ bits n 19 5 = op ∧ BitVec.ofNat 16 (2 * bits n 4 15) = f ∧ regAt n 0 = r := by
  rw [ofNat_eq_iff, regAt_eq_iff]
  unfold bits
  omega

theorem decode_encode_movFWnd {f : Word} (nd : Reg) (rest : List PWord) (hf : f.toNat % 2 = 0) :
    decode (encode (.movFWnd f nd) ++ rest) = .ok (.movFWnd f nd, rest) := by
  obtain ⟨hlt, hop, haddr, hreg⟩ := fileWord_fields (op := 0b10000) (r := nd) (by decide) hf rfl
  refine decode_oneWord rest hlt ?_
  rw [decodeOne, hop, haddr, hreg]
  rfl

theorem decode_encode_movWnsF (ns : Reg) {f : Word} (rest : List PWord) (hf : f.toNat % 2 = 0) :
    decode (encode (.movWnsF ns f) ++ rest) = .ok (.movWnsF ns f, rest) := by
  obtain ⟨hlt, hop, haddr, hreg⟩ := fileWord_fields (op := 0b10001) (r := ns) (by decide) hf rfl
  refine decode_oneWord rest hlt ?_
  rw [decodeOne, hop, haddr, hreg]
  rfl

theorem decode_encode_movLit16 (lit : Word) (nd : Reg) (rest : List PWord) :
    decode (encode (.movLit16 lit nd) ++ rest) = .ok (.movLit16 lit nd, rest) := by
  refine decode_oneWord rest (by omega) ?_
  generalize hn : 0b0010 * 2 ^ 20 + lit.toNat * 2 ^ 4 + nd.val = n
  have hrow : bits n 20 4 = 0b0010 := by unfold bits; omega
  have hhigh : bits n 19 5 / 2 = 0b0010 := by unfold bits; omega
  have hlit : BitVec.ofNat 16 (bits n 4 16) = lit := by rw [ofNat_eq_iff, bits]; omega
  have hreg : regAt n 0 = nd := by rw [regAt_eq_iff, bits]; omega
  simp only [decodeOne]
  rw [if_neg (by omega), if_neg (by omega), if_neg (by omega), if_neg (by omega), if_pos hrow, hlit, hreg]

theorem decode_encode_movLit8 (lit : Byte) (nd : Reg) (rest : List PWord) :
    decode (encode (.movLit8 lit nd) ++ rest) = .ok (.movLit8 lit nd, rest) := by
  refine decode_row (top := 0xB3) rest (by omega) rfl ?_
  simp only [decodeByte, ite_eq_iff, Except.ok.injEq, Instr.movLit8.injEq, ofNat_eq_iff, regAt_eq_iff]
  unfold bits
  omega

/-- A row `op B d f`, where `op` has nine bits and `d` is bit 13 (R126). -/
theorem decode_fileWord {op d n : Nat} {k : Size → BitVec 13 → Instr} {sz : Size} {f : BitVec 13}
    (rest : List PWord) (hn : n = op * 2 ^ 15 + sz.code * 2 ^ 14 + d * 2 ^ 13 + f.toNat) (hd : d < 2)
    (hfix : fixesTopByte (op / 2) = true)
    (hrow : ∀ w, bits w 15 1 = op % 2 → bits w 13 1 = d →
      decodeByte (op / 2) w = .ok (k (sizeAt w 14) (BitVec.ofNat 13 w))) :
    decode (oneWord n ++ rest) = .ok (k sz f, rest) := by
  have hcode := sz.code_lt
  have hop : bits n 15 1 = op % 2 := by unfold bits; omega
  have hbit : bits n 13 1 = d := by unfold bits; omega
  have hsz : sizeAt n 14 = sz := by rw [sizeAt_eq_iff, bits]; omega
  have hf : BitVec.ofNat 13 n = f := by rw [ofNat_eq_iff]; omega
  exact decode_row rest (by omega) hfix (by rw [hrow n hop hbit, hsz, hf])

theorem decode_encode_movDLoad {src : Opnd} {nd : Reg} (rest : List PWord) (hp : src.plain = true)
    (heven : evenReg nd = true) : decode (encode (.movDLoad src nd) ++ rest) = .ok (.movDLoad src nd, rest) := by
  have hlt := src.srcBits_lt
  have heven := of_decide_eq_true heven
  refine decode_row (top := 0xBE) rest (by omega) rfl ?_
  generalize hn : 0b1011111000000 * 2 ^ 11 + nd.val / 2 * 2 ^ 8 + src.srcBits = n
  have hrow : bits n 11 5 = 0 ∧ bits n 7 1 = 0 := by unfold bits; omega
  have hpair : 2 * bits n 8 3 = nd.val := by unfold bits; omega
  simp only [decodeByte, if_pos hrow, hpair]
  exact withSrc_ok _ hp (by omega)

theorem decode_encode_movDStore {ns : Reg} {dst : Opnd} (rest : List PWord) (heven : evenReg ns = true)
    (hp : dst.plain = true) : decode (encode (.movDStore ns dst) ++ rest) = .ok (.movDStore ns dst, rest) := by
  have heven := of_decide_eq_true heven
  have hop : dst.dstBits + ns.val = opBits .word (.direct ns) dst := by
    simp [opBits, Opnd.srcBits, Size.code, Opnd.code, Opnd.reg]
  have hlt := opBits_lt .word (.direct ns) dst
  refine decode_row (top := 0xBE) rest (by omega) rfl ?_
  generalize hn : 0b1011111010 * 2 ^ 14 + dst.dstBits + ns.val = n
  obtain ⟨hsrc, hcode, hreg, hsz⟩ := opBits_fields (w := n) (sz := .word) (src := .direct ns) (dst := dst) (by omega)
  obtain ⟨hmode, hns⟩ := srcBits_fields hsrc
  have hbit : bits n 14 1 = 0 := sizeAt_eq_iff.1 hsz
  have hlow : bits n 0 4 = ns.val := regAt_eq_iff.1 hns
  have hrow : bits n 14 2 = 0b10 ∧ bits n 4 3 = 0 ∧ bits n 0 1 = 0 :=
    ⟨by unfold bits at *; omega, hmode, by unfold bits at *; omega⟩
  have hload : ¬(bits n 11 5 = 0 ∧ bits n 7 1 = 0) := by unfold bits; omega
  simp only [decodeByte, if_neg hload, if_pos hrow, hcode, hreg, plainOpnd_code hp, hns]
  rfl

/-! ## The rows with two general operands -/

theorem decode_encode_add {sz : Size} {wb : Reg} {src dst : Opnd} (rest : List PWord) (hs : src.plain = true)
    (hd : dst.plain = true) : decode (encode (.add sz wb src dst) ++ rest) = .ok (.add sz wb src dst, rest) := by
  have hlt := opBits_lt sz src dst
  refine decode_oneWord rest (by omega) ?_
  generalize hn : 0b01000 * 2 ^ 19 + wb.val * 2 ^ 15 + opBits sz src dst = n
  have hrow : bits n 19 5 = 0b01000 := by unfold bits; omega
  have hreg : regAt n 15 = wb := by rw [regAt_eq_iff, bits]; omega
  have hops : n % 2 ^ 15 = opBits sz src dst := by omega
  rw [decodeOne, hrow, hreg]
  exact withSrcDst_ok (.add · wb · ·) hs hd hops

/-- A row `op B qqq dddd ppp ssss` with nine bits of opcode. -/
theorem decode_opWord {op : Nat} {k : Size → Opnd → Opnd → Instr} {sz : Size} {src dst : Opnd} (rest : List PWord)
    (hfix : fixesTopByte (op / 2) = true)
    (hrow : ∀ w, bits w 15 1 = op % 2 → decodeByte (op / 2) w = withSrcDst w k)
    (hp : (src.plain && dst.plain) = true) :
    decode (oneWord (op * 2 ^ 15 + opBits sz src dst) ++ rest) = .ok (k sz src dst, rest) := by
  obtain ⟨hs, hd⟩ := Bool.and_eq_true_iff.1 hp
  have hlt := opBits_lt sz src dst
  refine decode_row rest (by omega) hfix ?_
  rw [hrow _ (by unfold bits; omega)]
  exact withSrcDst_ok k hs hd (by omega)

/-! ## The rows with two registers above a field of seven bits -/

/-- The fields of `op wwww dddd` above the low seven bits. -/
theorem regWord_fields {op low n : Nat} {a b : Reg} (hlow : low < 2 ^ 7)
    (hn : op * 2 ^ 15 + a.val * 2 ^ 11 + b.val * 2 ^ 7 + low = n) :
    n / 2 ^ 16 = op / 2 ∧ bits n 15 1 = op % 2 ∧ regAt n 11 = a ∧ regAt n 7 = b ∧ n % 2 ^ 7 = low := by
  rw [regAt_eq_iff, regAt_eq_iff]
  unfold bits
  omega

/-- A multiply row with a general source operand. -/
theorem decode_mulWord {op : Nat} {k : Reg → Opnd → Reg → Instr} {wb nd : Reg} {src : Opnd} (rest : List PWord)
    (hfix : fixesTopByte (op / 2) = true)
    (hrow : ∀ w, bits w 15 1 = op % 2 → bits w 5 2 ≠ 0b11 →
      decodeByte (op / 2) w = withSrc w (k (regAt w 11) · (regAt w 7)))
    (hp : src.plain = true) :
    decode (oneWord (op * 2 ^ 15 + wb.val * 2 ^ 11 + nd.val * 2 ^ 7 + src.srcBits) ++ rest) =
      .ok (k wb src nd, rest) := by
  obtain ⟨htop, hop, hwb, hnd, hlow⟩ := regWord_fields (op := op) (a := wb) (b := nd) src.srcBits_lt rfl
  have hcode := Opnd.code_lt_of_plain hp
  have hmode := (srcBits_fields hlow).1
  refine decode_row rest htop hfix ?_
  rw [hrow _ hop (by unfold bits at *; omega), hwb, hnd]
  exact withSrc_ok (k wb · nd) hp hlow

/-- A multiply row with a five-bit literal. -/
theorem decode_mulLitWord {op : Nat} {k : Reg → BitVec 5 → Reg → Instr} {wb nd : Reg} {lit : BitVec 5}
    (rest : List PWord) (hfix : fixesTopByte (op / 2) = true)
    (hrow : ∀ w, bits w 15 1 = op % 2 → bits w 5 2 = 0b11 →
      decodeByte (op / 2) w = .ok (k (regAt w 11) (BitVec.ofNat 5 w) (regAt w 7))) :
    decode (oneWord (op * 2 ^ 15 + wb.val * 2 ^ 11 + nd.val * 2 ^ 7 + 3 * 2 ^ 5 + lit.toNat) ++ rest) =
      .ok (k wb lit nd, rest) := by
  generalize hn : op * 2 ^ 15 + wb.val * 2 ^ 11 + nd.val * 2 ^ 7 + 3 * 2 ^ 5 + lit.toNat = n
  obtain ⟨htop, hop, ha, hb, hlow⟩ := regWord_fields (op := op) (a := wb) (b := nd) (low := 3 * 2 ^ 5 + lit.toNat)
    (by omega) ((Nat.add_assoc _ _ _).symm.trans hn)
  have hmode : bits n 5 2 = 0b11 := by unfold bits; omega
  have hlit : BitVec.ofNat 5 n = lit := by rw [ofNat_eq_iff]; omega
  exact decode_row rest htop hfix (by rw [hrow n hop hmode, ha, hb, hlit])

/-- A shift row with a count of four bits. -/
theorem decode_shiftLitWord {op : Nat} {lit : Reg → BitVec 4 → Reg → Instr} {reg : Reg → Reg → Reg → Instr}
    {wb nd : Reg} {k : BitVec 4} (rest : List PWord) (hfix : fixesTopByte (op / 2) = true)
    (hrow : ∀ w, bits w 15 1 = op % 2 → decodeByte (op / 2) w = decodeShift w lit reg) :
    decode (oneWord (op * 2 ^ 15 + wb.val * 2 ^ 11 + nd.val * 2 ^ 7 + 2 ^ 6 + k.toNat) ++ rest) =
      .ok (lit wb k nd, rest) := by
  generalize hn : op * 2 ^ 15 + wb.val * 2 ^ 11 + nd.val * 2 ^ 7 + 2 ^ 6 + k.toNat = n
  obtain ⟨htop, hop, ha, hb, hlow⟩ := regWord_fields (op := op) (a := wb) (b := nd) (low := 2 ^ 6 + k.toNat)
    (by omega) ((Nat.add_assoc _ _ _).symm.trans hn)
  have hmode : bits n 4 3 = 0b100 := by unfold bits; omega
  have hk : BitVec.ofNat 4 n = k := by rw [ofNat_eq_iff]; omega
  exact decode_row rest htop hfix (by rw [hrow n hop, decodeShift, if_pos hmode, ha, hb, hk])

/-- A shift row with a count register. -/
theorem decode_shiftRegWord {op : Nat} {lit : Reg → BitVec 4 → Reg → Instr} {reg : Reg → Reg → Reg → Instr}
    {wb ns nd : Reg} (rest : List PWord) (hfix : fixesTopByte (op / 2) = true)
    (hrow : ∀ w, bits w 15 1 = op % 2 → decodeByte (op / 2) w = decodeShift w lit reg) :
    decode (oneWord (op * 2 ^ 15 + wb.val * 2 ^ 11 + nd.val * 2 ^ 7 + ns.val) ++ rest) =
      .ok (reg wb ns nd, rest) := by
  generalize hn : op * 2 ^ 15 + wb.val * 2 ^ 11 + nd.val * 2 ^ 7 + ns.val = n
  obtain ⟨htop, hop, ha, hb, hlow⟩ := regWord_fields (op := op) (a := wb) (b := nd) (low := ns.val)
    (by omega) (by omega)
  have hmode : bits n 4 3 = 0 := by unfold bits; omega
  have hns : regAt n 0 = ns := by rw [regAt_eq_iff, bits]; omega
  exact decode_row rest htop hfix (by rw [hrow n hop, decodeShift, hmode, if_neg (by decide), if_pos rfl, ha, hb, hns])

/-- A divide row with a dividend of one word. -/
theorem decode_divWord {op : Nat} {narrow : Reg → Reg → Instr} {wide : Reg → Reg → Reg → Instr} {m d : Reg}
    (rest : List PWord) (hfix : fixesTopByte (op / 2) = true)
    (hrow : ∀ w, bits w 15 1 = op % 2 → decodeByte (op / 2) w = decodeDiv w narrow wide) :
    decode (oneWord (op * 2 ^ 15 + m.val * 2 ^ 7 + d.val) ++ rest) =
      .ok (narrow m d, rest) := by
  generalize hn : op * 2 ^ 15 + m.val * 2 ^ 7 + d.val = n
  obtain ⟨htop, hop, ha, hb, hlow⟩ := regWord_fields (op := op) (a := 0) (b := m) (low := d.val) (n := n)
    (by omega) (by rw [Fin.val_zero, Nat.zero_mul, Nat.add_zero]; exact hn)
  have hmode : bits n 4 3 = 0 := by unfold bits; omega
  have hd : regAt n 0 = d := by rw [regAt_eq_iff, bits]; omega
  refine decode_row rest htop hfix ?_
  rw [hrow n hop, decodeDiv, hmode, if_neg (by decide), if_pos ⟨rfl, regAt_eq_iff.1 ha⟩, hb, hd]

/-- A divide row with a dividend of two words. -/
theorem decode_divPairWord {op : Nat} {narrow : Reg → Reg → Instr} {wide : Reg → Reg → Reg → Instr}
    {t m d : Reg} (rest : List PWord) (hfix : fixesTopByte (op / 2) = true)
    (hrow : ∀ w, bits w 15 1 = op % 2 → decodeByte (op / 2) w = decodeDiv w narrow wide) :
    decode (oneWord (op * 2 ^ 15 + t.val * 2 ^ 11 + m.val * 2 ^ 7 + 2 ^ 6 + d.val) ++ rest) =
      .ok (wide t m d, rest) := by
  generalize hn : op * 2 ^ 15 + t.val * 2 ^ 11 + m.val * 2 ^ 7 + 2 ^ 6 + d.val = n
  obtain ⟨htop, hop, ha, hb, hlow⟩ := regWord_fields (op := op) (a := t) (b := m) (low := 2 ^ 6 + d.val)
    (by omega) ((Nat.add_assoc _ _ _).symm.trans hn)
  have hmode : bits n 4 3 = 0b100 := by unfold bits; omega
  have hd : regAt n 0 = d := by rw [regAt_eq_iff, bits]; omega
  exact decode_row rest htop hfix (by rw [hrow n hop, decodeDiv, if_pos hmode, ha, hb, hd])

/-! ## Bit instructions, flow and system -/

/-- The fields of `bbb f(12) b` below a top byte (R126). -/
theorem bitWord_fields {top high addr low n : Nat} (hh : high < 2 ^ 3) (ha : addr < 2 ^ 12) (hl : low < 2)
    (hn : top * 2 ^ 16 + (high * 2 ^ 13 + addr * 2 + low) = n) :
    n / 2 ^ 16 = top ∧ bits n 13 3 = high ∧ bits n 1 12 = addr ∧ bits n 0 1 = low := by
  unfold bits
  omega

/-- A file-register bit row. -/
theorem decode_bitWord {top : Nat} {k : BitVec 13 → BitVec 4 → Instr} {f : BitVec 13} {bit : BitVec 4}
    (rest : List PWord) (hfix : fixesTopByte top = true) (hrow : ∀ w, decodeByte top w = .ok (decodeBit w k))
    (hf : f.toNat % 2 = 0) : decode (oneWord (top * 2 ^ 16 + bitBits f bit) ++ rest) = .ok (k f bit, rest) := by
  obtain ⟨htop, hhigh, haddr, hlow⟩ := bitWord_fields (top := top) (high := bit.toNat % 8) (addr := f.toNat / 2)
    (low := bit.toNat / 8) (by omega) (by omega) (by omega) rfl
  have haddr' : BitVec.ofNat 13 (2 * (f.toNat / 2)) = f := by rw [ofNat_eq_iff]; omega
  have hbit' : BitVec.ofNat 4 (8 * (bit.toNat / 8) + bit.toNat % 8) = bit := by rw [ofNat_eq_iff]; omega
  refine decode_row rest htop hfix ?_
  rw [hrow, decodeBit, bitBits, haddr, hlow, hhigh, haddr', hbit']

/-- A row of a top byte and a 16-bit offset. -/
theorem decode_offsetWord {top : Nat} {k : Word → Instr} {off : Word} (rest : List PWord)
    (hfix : fixesTopByte top = true) (hrow : ∀ w, decodeByte top w = .ok (k (BitVec.ofNat 16 w))) :
    decode (oneWord (top * 2 ^ 16 + off.toNat) ++ rest) = .ok (k off, rest) := by
  have hoff : BitVec.ofNat 16 (top * 2 ^ 16 + off.toNat) = off := by rw [ofNat_eq_iff]; omega
  exact decode_row rest (by omega) hfix (by rw [hrow, hoff])

/-- A row of ten bits and a 14-bit literal. -/
theorem decode_lit14Word {top : Nat} {k : BitVec 14 → Instr} {lit : BitVec 14} (rest : List PWord)
    (hfix : fixesTopByte top = true)
    (hrow : ∀ w, bits w 14 2 = 0 → bits w 0 1 = lit.toNat % 2 → decodeByte top w = .ok (k (BitVec.ofNat 14 w))) :
    decode (oneWord (4 * top * 2 ^ 14 + lit.toNat) ++ rest) = .ok (k lit, rest) := by
  have hlit : BitVec.ofNat 14 (4 * top * 2 ^ 14 + lit.toNat) = lit := by rw [ofNat_eq_iff]; omega
  exact decode_row rest (by omega) hfix (by rw [hrow _ (by unfold bits; omega) (by unfold bits; omega), hlit])

theorem decode_encode_retlw (sz : Size) (lit : BitVec 10) (n : Reg) (rest : List PWord) :
    decode (encode (.retlw sz lit n) ++ rest) = .ok (.retlw sz lit n, rest) := by
  have hsz := sz.code_lt
  refine decode_row (top := 0x05) rest (by omega) rfl ?_
  simp only [decodeByte, ite_eq_iff, Except.ok.injEq, Instr.retlw.injEq, ofNat_eq_iff, regAt_eq_iff, sizeAt_eq_iff]
  unfold bits
  omega

theorem decode_encode_repeatW (n : Reg) (rest : List PWord) :
    decode (encode (.repeatW n) ++ rest) = .ok (.repeatW n, rest) := by
  refine decode_row (top := 0x09) rest (by omega) rfl ?_
  simp only [decodeByte, ite_eq_iff, Except.ok.injEq, Instr.repeatW.injEq, reduceCtorEq, regAt_eq_iff]
  unfold bits
  omega

theorem decode_encode_pwrsav (lit : BitVec 1) (rest : List PWord) :
    decode (encode (.pwrsav lit) ++ rest) = .ok (.pwrsav lit, rest) := by
  refine decode_row (top := 0xFE) rest (by omega) rfl ?_
  simp only [decodeByte, ite_eq_iff, Except.ok.injEq, Instr.pwrsav.injEq, reduceCtorEq, ofNat_eq_iff]
  unfold bits
  omega

/-- The two words of GOTO and CALL give back the target (R126). -/
theorem jumpTarget_twoWords {op : Nat} {t : PAddr} (ht : t.toNat % 2 = 0) (hop : op < 2 ^ 8) :
    ∃ w1 w2 : PWord, twoWords op t = [w1, w2] ∧ bits w1.toNat 16 8 = op ∧ bits w1.toNat 0 1 = 0 ∧
      bits w2.toNat 7 17 = 0 ∧ jumpTarget w1.toNat w2.toNat = t := by
  refine ⟨_, _, rfl, ?_⟩
  rw [jumpTarget, ofNat_eq_iff, BitVec.toNat_ofNat, BitVec.toNat_ofNat]
  unfold bits
  omega

theorem decode_encode_goto {t : PAddr} (rest : List PWord) (ht : t.toNat % 2 = 0) :
    decode (encode (.goto t) ++ rest) = .ok (.goto t, rest) := by
  obtain ⟨w1, w2, henc, htop, heven, hhigh, hjump⟩ := jumpTarget_twoWords (op := 0b00000100) ht (by decide)
  simp [encode, henc, decode, isTwoWord, htop, heven, hhigh, hjump]

theorem decode_encode_call {t : PAddr} (rest : List PWord) (ht : t.toNat % 2 = 0) :
    decode (encode (.call t) ++ rest) = .ok (.call t, rest) := by
  obtain ⟨w1, w2, henc, htop, heven, hhigh, hjump⟩ := jumpTarget_twoWords (op := 0b00000010) ht (by decide)
  simp [encode, henc, decode, isTwoWord, htop, heven, hhigh, hjump]

/-! ## Every row -/

/-- Settles O1, by the rows of R127. -/
theorem decodeOfEncode : Obligations.DecodeOfEncode := by
  intro i rest h
  cases i with
  | mov sz src dst => exact decode_encode_mov rest h
  | movFWnd f nd => exact decode_encode_movFWnd nd rest (of_decide_eq_true h)
  | movWnsF ns f => exact decode_encode_movWnsF ns rest (of_decide_eq_true h)
  | movWregF sz f =>
    exact decode_fileWord (op := 0b101101111) (d := 1) rest rfl (by decide) rfl
      fun w h15 h13 => by simp [decodeByte, h15, h13]
  | movLit16 lit nd => exact decode_encode_movLit16 lit nd rest
  | movLit8 lit nd => exact decode_encode_movLit8 lit nd rest
  | movDLoad src nd => exact decode_encode_movDLoad rest (Bool.and_eq_true_iff.1 h).1 (Bool.and_eq_true_iff.1 h).2
  | movDStore ns dst => exact decode_encode_movDStore rest (Bool.and_eq_true_iff.1 h).1 (Bool.and_eq_true_iff.1 h).2
  | push src => exact decode_encode_push rest h
  | pop dst => exact decode_encode_pop rest h
  | pushS | popS | ulnk | ret | retfie | nop | reset => rfl
  | lnk lit =>
    have heven : lit.toNat % 2 = 0 := of_decide_eq_true h
    exact decode_lit14Word (top := 0xFA) rest rfl fun w h14 h0 => by simp [decodeByte, h14, h0, heven]
  | addF sz f toFile =>
    exact decode_fileWord (op := 0b101101000) (k := (.addF · · toFile)) rest rfl toFile.toNat_lt rfl
      fun w h15 h13 => by simp [decodeByte, h15, h13]
  | add sz wb src dst => exact decode_encode_add rest (Bool.and_eq_true_iff.1 h).1 (Bool.and_eq_true_iff.1 h).2
  | mulUU wb src nd =>
    exact decode_mulWord (op := 0b101110000) rest rfl (fun w h15 h5 => by simp [decodeByte, h15, h5]) h
  | mulUULit wb lit nd =>
    exact decode_mulLitWord (op := 0b101110000) rest rfl fun w h15 h5 => by simp [decodeByte, h15, h5]
  | mulUS wb src nd => exact decode_mulWord (op := 0b101110001) rest rfl (fun w h15 _ => by simp [decodeByte, h15]) h
  | mulSU wb src nd =>
    exact decode_mulWord (op := 0b101110010) rest rfl (fun w h15 h5 => by simp [decodeByte, h15, h5]) h
  | mulSULit wb lit nd =>
    exact decode_mulLitWord (op := 0b101110010) rest rfl fun w h15 h5 => by simp [decodeByte, h15, h5]
  | mulSS wb src nd => exact decode_mulWord (op := 0b101110011) rest rfl (fun w h15 _ => by simp [decodeByte, h15]) h
  | mulF sz f =>
    exact decode_fileWord (op := 0b101111000) (d := 0) rest (by omega) (by decide) rfl
      fun w h15 h13 => by simp [decodeByte, h15, h13]
  | divSW m n =>
    exact decode_divWord (op := 0b110110000) (wide := .divSD) rest rfl fun w h15 => by simp [decodeByte, h15]
  | divSD t m n =>
    exact decode_divPairWord (op := 0b110110000) (narrow := .divSW) rest rfl fun w h15 => by simp [decodeByte, h15]
  | divUW m n =>
    exact decode_divWord (op := 0b110110001) (wide := .divUD) rest rfl fun w h15 => by simp [decodeByte, h15]
  | divUD t m n =>
    exact decode_divPairWord (op := 0b110110001) (narrow := .divUW) rest rfl fun w h15 => by simp [decodeByte, h15]
  | sl sz src dst => exact decode_opWord (op := 0b110100000) rest rfl (fun w h15 => by simp [decodeByte, h15]) h
  | slLit wb k nd =>
    exact decode_shiftLitWord (op := 0b110111010) (reg := .slReg) rest rfl fun w h15 => by simp [decodeByte, h15]
  | slReg wb ns nd =>
    exact decode_shiftRegWord (op := 0b110111010) (lit := .slLit) rest rfl fun w h15 => by simp [decodeByte, h15]
  | lsr sz src dst => exact decode_opWord (op := 0b110100010) rest rfl (fun w h15 => by simp [decodeByte, h15]) h
  | lsrLit wb k nd =>
    exact decode_shiftLitWord (op := 0b110111100) (reg := .lsrReg) rest rfl fun w h15 => by simp [decodeByte, h15]
  | lsrReg wb ns nd =>
    exact decode_shiftRegWord (op := 0b110111100) (lit := .lsrLit) rest rfl fun w h15 => by simp [decodeByte, h15]
  | asr sz src dst => exact decode_opWord (op := 0b110100011) rest rfl (fun w h15 => by simp [decodeByte, h15]) h
  | asrLit wb k nd =>
    exact decode_shiftLitWord (op := 0b110111101) (reg := .asrReg) rest rfl fun w h15 => by simp [decodeByte, h15]
  | asrReg wb ns nd =>
    exact decode_shiftRegWord (op := 0b110111101) (lit := .asrLit) rest rfl fun w h15 => by simp [decodeByte, h15]
  | bset f bit => exact decode_bitWord (top := 0xA8) rest rfl (fun _ => rfl) (of_decide_eq_true h)
  | bclr f bit => exact decode_bitWord (top := 0xA9) rest rfl (fun _ => rfl) (of_decide_eq_true h)
  | btsc f bit => exact decode_bitWord (top := 0xAF) rest rfl (fun _ => rfl) (of_decide_eq_true h)
  | bra off => exact decode_offsetWord (top := 0x37) rest rfl fun _ => rfl
  | goto t => exact decode_encode_goto rest (of_decide_eq_true h)
  | call t => exact decode_encode_call rest (of_decide_eq_true h)
  | rcall off => exact decode_offsetWord (top := 0x07) rest rfl fun _ => rfl
  | retlw sz lit n => exact decode_encode_retlw sz lit n rest
  | tblrdl sz src dst => exact decode_opWord (op := 0b101110100) rest rfl (fun w h15 => by simp [decodeByte, h15]) h
  | tblrdh sz src dst => exact decode_opWord (op := 0b101110101) rest rfl (fun w h15 => by simp [decodeByte, h15]) h
  | tblwtl sz src dst => exact decode_opWord (op := 0b101110110) rest rfl (fun w h15 => by simp [decodeByte, h15]) h
  | tblwth sz src dst => exact decode_opWord (op := 0b101110111) rest rfl (fun w h15 => by simp [decodeByte, h15]) h
  | repeatLit lit => exact decode_lit14Word (top := 0x09) rest rfl fun w h14 _ => by simp [decodeByte, h14]
  | repeatW n => exact decode_encode_repeatW n rest
  | disi lit => exact decode_lit14Word (top := 0xFC) rest rfl fun w h14 _ => by simp [decodeByte, h14]
  | pwrsav lit => exact decode_encode_pwrsav lit rest

end Sys2Proof
end

section
/-! What the decoder reads is well formed (R124 to R128), and words it reads: O2, O3, O4. -/

namespace Sys2Proof

/-! ## Well-formed answers -/

/-- An instruction that the decoder answers is well formed; an error is no instruction. -/
def okWf : Except DecodeError Instr → Bool
  | .ok i => i.wf
  | .error _ => true

@[simp] theorem okWf_ok (i : Instr) : okWf (.ok i) = i.wf := rfl

@[simp] theorem okWf_error (e : DecodeError) : okWf (.error e) = true := rfl

@[simp] theorem okWf_ite {c : Prop} [Decidable c] (a b : Except DecodeError Instr) :
    okWf (if c then a else b) = true ↔ (c → okWf a = true) ∧ (¬c → okWf b = true) := by
  split <;> simp [*]

theorem okWf_withSrc {w : Nat} {k : Opnd → Instr} (hk : ∀ s, s.plain = true → (k s).wf = true) :
    okWf (withSrc w k) = true := by
  unfold withSrc
  split
  case h_1 s hs => exact hk s (plain_of_plainOpnd hs)
  case h_2 => rfl

theorem okWf_withSrcDst {w : Nat} {k : Size → Opnd → Opnd → Instr}
    (hk : ∀ sz s d, (k sz s d).wf = (s.plain && d.plain)) : okWf (withSrcDst w k) = true := by
  unfold withSrcDst
  split
  case h_1 s d hs hd => simp [hk, plain_of_plainOpnd hs, plain_of_plainOpnd hd]
  case h_2 => rfl

/-- Two rows with general operands that one bit tells apart. -/
theorem okWf_withSrcDst_ite {c : Prop} [Decidable c] {w : Nat} {k k' : Size → Opnd → Opnd → Instr}
    (hk : ∀ sz s d, (k sz s d).wf = (s.plain && d.plain)) (hk' : ∀ sz s d, (k' sz s d).wf = (s.plain && d.plain)) :
    okWf (withSrcDst w (if c then k else k')) = true := by
  split
  · exact okWf_withSrcDst hk
  · exact okWf_withSrcDst hk'

/-! ## The rows -/

/-- Operands that agree with a `w` field agree with the one that the encoder writes for them (R124). -/
theorem agrees_movBase {b : Reg} {src dst : Opnd} (hs : src.agrees b = true) (hd : dst.agrees b = true) :
    src.agrees (movBase src dst) = true ∧ dst.agrees (movBase src dst) = true := by
  cases src <;> cases dst <;> simp_all [Opnd.agrees, movBase]

/-- Whichever of the three rows a MOV word belongs to, its operands fit it (R127, R130). -/
theorem wf_movRow {b : Reg} {sz : Size} {src dst : Opnd} (hs : src.agrees b = true) (hd : dst.agrees b = true) :
    (if isPushForm sz src dst then Instr.push src else if isPopForm sz src dst then .pop dst
      else .mov sz src dst).wf = true := by
  obtain ⟨hs, hd⟩ := agrees_movBase hs hd
  split
  case isTrue hpush =>
    simp only [isPushForm, Bool.and_eq_true, decide_eq_true_eq] at hpush
    rwa [hpush.1.2] at hs
  case isFalse hpush =>
    split
    case isTrue hpop =>
      simp only [isPopForm, Bool.and_eq_true, decide_eq_true_eq] at hpop
      obtain ⟨⟨hsz, hbase⟩, -⟩ := hpop
      have hdst : dst ≠ .postInc sp := by
        rintro rfl
        exact hpush (by simp [isPushForm, hsz, hbase])
      rw [hbase] at hd
      simp [Instr.wf, hd, hdst]
    case isFalse hpop => simp [Instr.wf, hs, hd, hpush, hpop]

theorem wf_decodeMov (w : Nat) : (decodeMov w).wf = true :=
  wf_movRow (agrees_movOpnd _ _ (regAt w 15)) (agrees_movOpnd _ _ (regAt w 15))

theorem okWf_decodeDiv {w : Nat} {narrow : Reg → Reg → Instr} {wide : Reg → Reg → Reg → Instr}
    (hn : ∀ m n, (narrow m n).wf = true) (hw : ∀ t m n, (wide t m n).wf = true) :
    okWf (decodeDiv w narrow wide) = true := by
  simp [decodeDiv, hn, hw]

theorem okWf_decodeShift {w : Nat} {lit : Reg → BitVec 4 → Reg → Instr} {reg : Reg → Reg → Reg → Instr}
    (hl : ∀ a k b, (lit a k b).wf = true) (hr : ∀ a b c, (reg a b c).wf = true) :
    okWf (decodeShift w lit reg) = true := by
  simp [decodeShift, hl, hr]

theorem evenReg_regAt {w lo : Nat} (h : bits w lo 1 = 0) : evenReg (regAt w lo) = true := by
  unfold bits at h
  refine decide_eq_true ?_
  show w / 2 ^ lo % 2 ^ 4 % 2 = 0
  omega

theorem okWf_decodeByte (top w : Nat) : okWf (decodeByte top w) = true := by
  have hpair : ∀ h : 2 * bits w 8 3 < 16, evenReg ⟨2 * bits w 8 3, h⟩ = true := by simp [evenReg]
  unfold decodeByte
  split
  case h_13 | h_14 =>  -- the multiply rows, 0xB8 and 0xB9
    refine (okWf_ite _ _).2 ⟨fun _ => (okWf_ite _ _).2 ⟨fun _ => rfl, fun _ => ?_⟩, fun _ => ?_⟩ <;>
      exact okWf_withSrc fun _ hs => hs
  case h_15 | h_16 | h_20 =>  -- the table rows, 0xBA and 0xBB, and LSR and ASR, 0xD1
    exact okWf_withSrcDst_ite (fun _ _ _ => rfl) (fun _ _ _ => rfl)
  case h_18 =>  -- MOV.D, 0xBE
    refine (okWf_ite _ _).2 ⟨fun _ => okWf_withSrc fun _ hs => Bool.and_eq_true_iff.2 ⟨hs, hpair _⟩,
      fun _ => (okWf_ite _ _).2 ⟨fun hrow => ?_, fun _ => rfl⟩⟩
    split
    case h_1 d hd => exact Bool.and_eq_true_iff.2 ⟨evenReg_regAt hrow.2.2, plain_of_plainOpnd hd⟩
    case h_2 => rfl
  case h_19 =>  -- SL, 0xD0
    exact (okWf_ite _ _).2 ⟨fun _ => okWf_withSrcDst fun _ _ _ => rfl, fun _ => rfl⟩
  case h_21 =>  -- the divides, 0xD8
    refine (okWf_ite _ _).2 ⟨fun _ => ?_, fun _ => ?_⟩ <;> exact okWf_decodeDiv (fun _ _ => rfl) fun _ _ _ => rfl
  case h_22 =>  -- the multi-bit SL, 0xDD
    exact (okWf_ite _ _).2 ⟨fun _ => okWf_decodeShift (fun _ _ _ => rfl) fun _ _ _ => rfl, fun _ => rfl⟩
  case h_23 =>  -- the multi-bit LSR and ASR, 0xDE
    refine (okWf_ite _ _).2 ⟨fun _ => ?_, fun _ => ?_⟩ <;> exact okWf_decodeShift (fun _ _ _ => rfl) fun _ _ _ => rfl
  case h_24 =>  -- LNK, whose literal leaves out bit 0, and ULNK, 0xFA
    simp +contextual [Instr.wf, bits]
  all_goals simp [Instr.wf, decodeBit]

theorem okWf_decodeOne (w : Nat) : okWf (decodeOne w) = true := by
  have hadd : okWf (withSrcDst w fun sz s d => .add sz (regAt w 15) s d) = true := okWf_withSrcDst fun _ _ _ => rfl
  have hload : ∀ nd, (Instr.movFWnd (BitVec.ofNat 16 (2 * bits w 4 15)) nd).wf = true := by simp [Instr.wf]
  have hstore : ∀ ns, (Instr.movWnsF ns (BitVec.ofNat 16 (2 * bits w 4 15))).wf = true := by simp [Instr.wf]
  have hlit : ∀ lit nd, (Instr.movLit16 lit nd).wf = true := fun _ _ => rfl
  simp [decodeOne, wf_decodeMov, okWf_decodeByte, hadd, hload, hstore, hlit]

theorem jumpTarget_even {w1 w2 : Nat} (h : bits w1 0 1 = 0) : (jumpTarget w1 w2).toNat % 2 = 0 := by
  unfold bits at h
  rw [jumpTarget, BitVec.toNat_ofNat]
  unfold bits
  omega

/-- What the decoder answers is one word's instruction, or a GOTO or a CALL to an even address. -/
theorem decode_ok {ws rest : List PWord} {i : Instr} (h : decode ws = .ok (i, rest)) :
    (∃ w, decodeOne w = .ok i) ∨ ∃ t : PAddr, t.toNat % 2 = 0 ∧ (i = .goto t ∨ i = .call t) := by
  unfold decode at h
  split at h
  case h_1 => cases h
  case h_2 w rest' =>
    split at h
    case isTrue htwo =>
      simp only [isTwoWord, Bool.and_eq_true, decide_eq_true_eq] at htwo
      split at h
      case h_1 => cases h
      case h_2 w2 rest2 =>
        refine .inr ⟨jumpTarget w.toNat w2.toNat, jumpTarget_even htwo.2, ?_⟩
        split at h
        case isTrue =>
          split at h
          · cases h; exact .inl rfl
          · cases h; exact .inr rfl
        case isFalse => cases h
    case isFalse =>
      split at h
      case h_1 j hj => cases h; exact .inl ⟨_, hj⟩
      case h_2 => cases h

/-- Settles O2: one word is `decodeOne`'s, and two are a GOTO or a CALL. -/
theorem decodedIsWellFormed : Obligations.DecodedIsWellFormed := by
  intro ws rest i h
  obtain ⟨w, hw⟩ | ⟨t, heven, rfl | rfl⟩ := decode_ok h
  · have hone := okWf_decodeOne w
    rwa [hw] at hone
  · exact decide_eq_true heven
  · exact decide_eq_true heven

/-- Settles O3, by running the decoder. -/
theorem writtenWordsDecode : Obligations.WrittenWordsDecode :=
  ⟨rfl, rfl, rfl, rfl, rfl, rfl, rfl, rfl, rfl, rfl, rfl, rfl⟩

/-- The second word of a GOTO or CALL has 0 in its top byte (R122, R126). -/
theorem decode_secondWord (target : PAddr) (rest : List PWord) :
    decode (oneWord (target.toNat / 2 ^ 16) ++ rest) = .ok (.nop, rest) :=
  decode_row (top := 0) rest (by omega) rfl rfl

/-- Settles O4. -/
theorem secondWordDecodesAsNop : Obligations.SecondWordDecodesAsNop :=
  fun target rest _ => ⟨decode_secondWord target rest, decode_secondWord target rest, rfl⟩

end Sys2Proof
end

section
/-! Words that a step refuses by name (R128, R316) and the jumps (R270, R271): O8, O51. -/

namespace Sys2Proof.Machine

/-! ## Refusals by name -/

/-- The step whose boundary is quiet and whose words are no instruction. -/
theorem step_of_undecodable {s s1 : State} {w w2 : PWord} {e : DecodeError} (hq : Quietly s s1)
    (hw : WordsAtPc s1 w w2) (he : decode [w, w2] = .error e) : step s = .refused (.unknownOpcode e) := by
  simp [step, outerStep, takeInput_of_quietly hq, runAtPc, fetchWords_of_words hw, he]

theorem runInstr_barred {i : Instr} {s : State} (h : barred i s = true) : runInstr i s = .refused .repeatBadTarget :=
  if_pos h

/-- Settles O8: both refusals come before the instruction's meaning is asked. -/
theorem stepRefusesByName : Obligations.StepRefusesByName := by
  intro s s1 w w2 hq hw
  refine ⟨fun e he => step_of_undecodable hq hw he, fun i rest hi hbad hra => ?_, fun i => barred_iff i s1⟩
  rw [step_of_words hq hw hi]
  exact runInstr_barred ((barred_iff i s1).2 ⟨hra, hbad⟩)

/-! ## Jumps -/

theorem exec_bra (off : Word) (s : State) :
    exec (.bra off) s = settle 1 pcOnly s (do
      let t ← relTarget off s
      .ok (s.jump t)) := rfl

theorem exec_goto {target : PAddr} (h : target.toNat % 2 = 0) (s : State) :
    exec (.goto target) s = .next (s.jump target) := by
  show Host.Outcome.next (s.jump (evenAddr target)) = _
  rw [evenAddr_of_even h]

/-- Settles O51: the target of a BRA decides whether it jumps or traps. -/
theorem jumpsSetThePc : Obligations.JumpsSetThePc := by
  intro s off target
  refine ⟨fun he hlo hhi => ?_, fun hout => ?_, fun ht => exec_goto ht s⟩
  · refine ⟨s.jump (evenAddr (BitVec.ofInt 23 ((s.pc.toNat : Int) + 2 + 2 * off.toInt))), ?_, rfl,
      evenAddr_ofInt_toNat hlo hhi (by omega)⟩
    rw [exec_bra, relTarget, inProgram_ok hlo hhi]
    rfl
  · refine raisesTrap_of_settle (exec_bra off s) ?_
    rw [relTarget, inProgram_outside hout, error_bind]

end Sys2Proof.Machine
end

section
/-! The file-register and literal moves, and MOV.D over registers and RAM (R152 to R158): O36, O37, O38. -/

namespace Sys2Proof.Machine

/-! ## One word or byte -/

theorem exec_movLit16 (lit : Word) (n : Reg) (s : State) :
    exec (.movLit16 lit n) s = .next (advance 1 (s.setW n lit)) := rfl

theorem exec_movLit8 (lit : Byte) (n : Reg) (s : State) :
    exec (.movLit8 lit n) s = .next (advance 1 (s.setWLow n lit)) := rfl

/-- A store to RAM is read back there after the instruction. -/
theorem ramRead_advance_ramWrite (s : State) (sz : Size) (a v : Word) (k : Nat) :
    ramRead (advance k (ramWrite s sz a v)) sz a = sized sz v :=
  (ramRead_congr fun _ _ => advance_ramByte _ _ _).trans (ramRead_ramWrite_self s sz a v)

/-- Settles O36: each move is one register write or one store to RAM. -/
theorem fileAndLiteralMoves : Obligations.FileAndLiteralMoves := by
  intro s n f lit g sz b
  refine ⟨fun h => ⟨?load, ?store⟩, fun h => ?wreg, ?lit16, ?lit8⟩
  case load => exact ⟨_, exec_movFWnd_of_read (memRead_ram h), by simp, by simp, rfl⟩
  case store =>
    exact ⟨_, exec_movWnsF_of_write (memWrite_ram h), ramRead_advance_ramWrite s .word f _ 1,
      next_pc_of_eq (ramWrite_pc s .word f _)⟩
  case wreg =>
    exact ⟨_, exec_movWregF_of_write (memWrite_ram h), ramRead_advance_ramWrite s sz _ _ 1,
      next_pc_of_eq (ramWrite_pc s sz _ _)⟩
  case lit16 => exact ⟨_, exec_movLit16 lit n s, by simp, by simp, rfl⟩
  case lit8 => exact ⟨_, exec_movLit8 b n s, by simp [State.setWLow], rfl, rfl⟩

/-! ## Double words in RAM -/

/-- Both words that an indirect double-word form names may be used: its pointer is initialised, both addresses pass the
checks of R100, and both words are in RAM (R89, R157, R158). -/
structure PairOk (op : Opnd) (isRead : Bool) (s : State) : Prop where
  indirect : isDirect op = false
  pointer : PointerOk op 4 isRead s
  second : SecondOk op s
  low : AccessOk .word (eaOf op 4 s) s
  high : AccessOk .word (eaOf op 4 s + 2) s

/-- An accessible pair reads as its two words, and its pointer is updated. -/
theorem readPair_ok {op : Opnd} {s : State} (h : PairOk op true s) :
    readPair op s =
      .ok (ramRead s .word (eaOf op 4 s), ramRead s .word (eaOf op 4 s + 2), afterRead op 4 s) := by
  simp only [readPair, h.indirect, Bool.false_eq_true, if_false, locate_ok h.pointer, ok_bind,
    spCheckSecond_ok h.second]
  split
  · rename_i hfirst
    have hm : modifies op = true := (Bool.and_eq_true _ _ ▸ hfirst).1
    have low := h.low.congr (t := s.setW op.reg (updOf op 4 s)) rfl rfl
    have high := h.high.congr (t := s.setW op.reg (updOf op 4 s)) rfl rfl
    simp only [memRead_ram low, memRead_ram high, ok_bind, ramRead_setW, afterRead, hm, if_true]
  · simp only [memRead_ram h.low, memRead_ram h.high, ok_bind, afterRead]

/-- RAM after two words are stored, the one at the lower address first. -/
def storePair (a lo hi : Word) (s : State) : State := ramWrite (ramWrite s .word a lo) .word (a + 2) hi

/-- An accessible pair takes its two words, and its pointer is updated. -/
theorem writePair_ok {op : Opnd} {s : State} (lo hi : Word) (h : PairOk op false s) :
    writePair op lo hi s =
      .ok (updateDst op false (dstUpdOf op 4 s) (storePair (eaOf op 4 s) lo hi s)) := by
  have high := h.high.congr (t := ramWrite s .word (eaOf op 4 s) lo) (ramWrite_dev s _ _ _) (ramWrite_corcon s _ _ _)
  simp only [writePair, h.indirect, Bool.false_eq_true, if_false, locate_ok h.pointer, ok_bind,
    spCheckSecond_ok h.second, memWrite_ram h.low, memWrite_ram high, covers_ram h.low, covers_ram h.high,
    Bool.or_false, storePair]

/-- The second word of a pair does not wrap around to address 0: there is no RAM there. -/
theorem second_toNat {a : Word} {s : State} (h : AccessOk .word (a + 2) s) : (a + 2).toNat = a.toNat + 2 := by
  have hge : 0x0800 ≤ (a + 2).toNat := (region_ram h.2.1).1
  have hsum : (a + 2).toNat = (a.toNat + 2) % 65536 := BitVec.toNat_add a 2
  omega

/-- Two words stored one after the other are both read back. -/
theorem ramRead_storePair {a lo hi : Word} {s : State} (h : (a + 2).toNat = a.toNat + 2) :
    ramRead (storePair a lo hi s) .word a = lo ∧ ramRead (storePair a lo hi s) .word (a + 2) = hi := by
  refine ⟨?_, ramRead_ramWrite_self _ .word _ hi⟩
  rw [storePair, ramRead_ramWrite_apart _ _ (.inl (Nat.le_of_eq h.symm))]
  exact ramRead_ramWrite_self s .word a lo

@[simp] theorem storePair_pc (a lo hi : Word) (s : State) : (storePair a lo hi s).pc = s.pc := by simp [storePair]

theorem ramRead_updateDst (op : Opnd) (c : Bool) (v : Word) (s : State) (sz : Size) (a : Word) :
    ramRead (updateDst op c v s) sz a = ramRead s sz a := by
  unfold updateDst
  split
  · exact ramRead_setW s _ v sz a
  · rfl

/-- A destination form whose store landed elsewhere leaves its update in its register. -/
theorem updateDst_reg_self {op : Opnd} {v : Word} {s : State} (h : modifies op = true) :
    (updateDst op false v s).reg op.reg = regMask op.reg v := by
  simp [updateDst, h]

/-! ## MOV.D -/

theorem exec_movDLoad_odd {src : Opnd} {nd : Reg} {s : State}
    (h : oddReg nd = true ∨ (isDirect src = true ∧ oddReg src.reg = true)) :
    exec (.movDLoad src nd) s = .refused .movDOddRegister :=
  congrArg (settle 1 _ s) (if_pos (by simpa using h))

theorem exec_movDStore_odd {dst : Opnd} {ns : Reg} {s : State}
    (h : oddReg ns = true ∨ (isDirect dst = true ∧ oddReg dst.reg = true)) :
    exec (.movDStore ns dst) s = .refused .movDOddRegister :=
  congrArg (settle 1 _ s) (if_pos (by simpa using h))

/-- An aligned pair after its two word writes: the even register is not W15, the other may be (R24). -/
theorem reg_setW_pair {n : Reg} (h : oddReg n = false) (s : State) (lo hi : Word) :
    ((s.setW n lo).setW (pairHigh n) hi).reg n = lo ∧
      ((s.setW n lo).setW (pairHigh n) hi).reg (pairHigh n) = regMask (pairHigh n) hi := by
  obtain ⟨hsp, hpair⟩ := even_reg_ne h
  simp [regMask, hsp, hpair]

/-- A load to a pair writes the two words that its source gave. -/
theorem movDLoad_answers {src : Opnd} {nd : Reg} {s s1 : State} {lo hi : Word} (hnd : oddReg nd = false)
    (hsrc : isDirect src = true → oddReg src.reg = false) (hr : readPair src s = .ok (lo, hi, s1)) :
    Answers (exec (.movDLoad src nd) s) fun t =>
      t.reg nd = lo ∧ t.reg (pairHigh nd) = regMask (pairHigh nd) hi ∧
        (∀ n : Reg, n ≠ nd → n ≠ pairHigh nd → t.reg n = s1.reg n) ∧ t.pc = s.pc + 2 := by
  obtain ⟨hlo, hhi⟩ := reg_setW_pair hnd s1 lo hi
  refine ⟨_, exec_movDLoad_of_read hnd hsrc hr, hlo, hhi, fun n h1 h2 => ?_, next_pc_of_eq (readPair_quiet hr).pc⟩
  simp [h1.symm, h2.symm]

/-- Settles O37: what the source reads as, in registers or in RAM, the pair takes. -/
theorem movDLoadsAPair : Obligations.MovDLoadsAPair := by
  intro s src nd
  refine ⟨exec_movDLoad_odd, fun hnd n hsrc hn => ?direct, fun hnd hd hp hsp hlow hhigh => ?memory⟩
  case direct =>
    subst hsrc
    exact (movDLoad_answers (src := .direct n) hnd (fun _ => hn) rfl).imp fun t ⟨hlo, hhi, _, hpc⟩ => ⟨hlo, hhi, hpc⟩
  case memory =>
    have hok : PairOk src true s := ⟨hd, hp, fun hu => ⟨(hsp hu).1, fun _ => (hsp hu).2⟩, hlow, hhigh⟩
    refine (movDLoad_answers hnd (by simp [hd]) (readPair_ok hok)).imp fun t ⟨hlo, hhi, hrest, hpc⟩ =>
      ⟨hlo, hhi, fun hm h1 h2 => ?_, hpc⟩
    rw [hrest _ h1 h2, State.reg_congr (afterRead_w src 4 s), afterSrc_reg_self hm]

/-- Settles O38: the destination, two registers or two words of RAM, takes the pair. -/
theorem movDStoresAPair : Obligations.MovDStoresAPair := by
  intro s ns dst
  refine ⟨exec_movDStore_odd, fun hns n hdst hn => ?direct, fun hns hd hp hsp hlow hhigh => ?memory⟩
  case direct =>
    subst hdst
    obtain ⟨hlo, hhi⟩ := reg_setW_pair hn s (s.reg ns) (s.reg (pairHigh ns))
    exact ⟨_, exec_movDStore_of_write hns (fun _ => hn) rfl, hlo, hhi, rfl⟩
  case memory =>
    have hok : PairOk dst false s := ⟨hd, hp, fun hu => ⟨(hsp hu).1, fun _ => (hsp hu).2⟩, hlow, hhigh⟩
    obtain ⟨hlo, hhi⟩ := ramRead_storePair (lo := s.reg ns) (hi := s.reg (pairHigh ns)) (s := s) (second_toNat hhigh)
    refine ⟨_, exec_movDStore_of_write hns (by simp [hd]) (writePair_ok _ _ hok), ?_, ?_, updateDst_reg_self,
      next_pc_of_eq (by simp)⟩
    · exact (ramRead_updateDst _ _ _ _ _ _).trans hlo
    · exact (ramRead_updateDst _ _ _ _ _ _).trans hhi

end Sys2Proof.Machine
end

section
/-! What the instructions leave as it was whose destinations are registers, or a fixed place in data space (GK4): O57,
O58. -/

namespace Sys2Proof.Machine

/-! ## From one operation to the instruction -/

/-- An operation that stores nothing keeps the flags, and the PC going on keeps what it kept. -/
theorem Quiet.register_frame {R : List Reg} {s t : State} (h : Quiet R [] s t) :
    Kept R [] s (advance 1 t) ∧ (advance 1 t).sr.flags = s.sr.flags :=
  ⟨h.kept.advance 1, h.flags fun _ hst => absurd hst List.not_mem_nil⟩

/-- A store after a read. -/
theorem Quiet.thenStore {sz : Size} {a v : Word} {s s1 t : State} (h : Quiet [] [] s s1)
    (hw : memWrite sz a v s1 = .ok t) : Quiet [] [(sz, a)] s t := h.trans (memWrite_quiet hw)

theorem pair_quiet (s : State) (n : Reg) (lo hi : Word) :
    Quiet [n, pairHigh n] [] s ((s.setW n lo).setW (pairHigh n) hi) :=
  (Quiet.setW s n lo).trans (Quiet.setW _ (pairHigh n) hi)

/-- A source read, then a pair written. -/
theorem Quiet.thenPair {R : List Reg} {s s1 : State} (h : Quiet R [] s s1) (n : Reg) (lo hi : Word) :
    Quiet (R ++ [n, pairHigh n]) [] s ((s1.setW n lo).setW (pairHigh n) hi) := h.trans (pair_quiet s1 n lo hi)

/-! ## Moves to registers -/

theorem movFWnd_frame {f : Word} {nd : Reg} {s t : State} (h : Completed (.movFWnd f nd) s t) :
    Kept [nd] [] s t ∧ t.sr.flags = s.sr.flags := by
  obtain ⟨-, hex, he⟩ := h
  obtain ⟨⟨v, s1⟩, hread, h⟩ := bind_ok (settle_completed hex he)
  cases h
  exact ((memRead_quiet hread).trans (Quiet.setW s1 nd v)).register_frame

theorem movDLoad_frame {src : Opnd} {nd : Reg} {s t : State} (h : Completed (.movDLoad src nd) s t) :
    Kept (srcReg src ++ [nd, pairHigh nd]) [] s t ∧ t.sr.flags = s.sr.flags := by
  obtain ⟨-, hex, he⟩ := h
  have h := settle_completed hex he
  split at h
  · cases h
  · obtain ⟨⟨lo, hi, s1⟩, hread, h⟩ := bind_ok h
    cases h
    exact ((readPair_quiet hread).thenPair nd lo hi).register_frame

/-! ## Multiplies -/

theorem multiply_frame {sa sb : Bool} {wb nd : Reg} {src : Opnd} {s t : State}
    (h : multiply sa sb wb src nd s = .next t) (he : t.event = none) :
    Kept (srcReg src ++ [nd, pairHigh nd]) [] s t ∧ t.sr.flags = s.sr.flags := by
  have h := settle_completed h he
  split at h
  · cases h
  · obtain ⟨⟨b, s1⟩, hread, h⟩ := bind_ok h
    cases h
    exact ((readOp_quiet hread).thenPair nd _ _).register_frame

theorem multiplyLit_frame {sa : Bool} {wb nd : Reg} {lit : BitVec 5} {s t : State}
    (h : multiplyLit sa wb lit nd s = .next t) (he : t.event = none) :
    Kept [nd, pairHigh nd] [] s t ∧ t.sr.flags = s.sr.flags := by
  have h := settle_completed h he
  split at h
  · cases h
  · cases h
    exact (pair_quiet s nd _ _).register_frame

theorem mulF_frame {sz : Size} {g : BitVec 13} {s t : State} (h : Completed (.mulF sz g) s t) :
    Kept (if sz = .word then [2, 3] else [2]) [] s t ∧ t.sr.flags = s.sr.flags := by
  obtain ⟨-, hex, he⟩ := h
  obtain ⟨⟨b, s1⟩, hread, h⟩ := bind_ok (settle_completed hex he)
  cases h
  cases sz with
  | word => exact ((memRead_quiet hread).thenPair 2 _ _).register_frame
  | byte => exact ((memRead_quiet hread).trans (Quiet.setW s1 2 _)).register_frame

/-! ## Additions -/

/-- ADD f reads its file register, writes the sum to WREG or back, and then writes the flags (R191, D32). -/
theorem addF_inv {sz : Size} {g : BitVec 13} {toFile : Bool} {s t : State} (h : Completed (.addF sz g toFile) s t) :
    ∃ r f s1 s2, Quiet [] [] s s1 ∧ t = advance 1 (State.setFlags s2 f) ∧
      (if toFile then memWrite sz (fileAddr g) r s1 else .ok (s1.setSized sz wreg r)) = .ok s2 := by
  obtain ⟨-, hex, he⟩ := h
  obtain ⟨⟨a, s1⟩, hread, h⟩ := bind_ok (settle_completed hex he)
  cases toFile <;> obtain ⟨s2, hwrite, h⟩ := bind_ok h <;> cases h <;>
    exact ⟨_, _, s1, s2, memRead_quiet hread, rfl, hwrite⟩

theorem addF_wreg_frame {sz : Size} {g : BitVec 13} {s t : State} (h : Completed (.addF sz g false) s t) :
    Kept [wreg] [] s t := by
  obtain ⟨r, f, s1, s2, hq, rfl, hwrite⟩ := addF_inv h
  cases hwrite
  exact ((hq.trans (Quiet.setSized s1 sz wreg r)).kept.setFlags f).advance 1

theorem addF_file_frame {sz : Size} {g : BitVec 13} {s t : State} (h : Completed (.addF sz g true) s t) :
    Kept [] [(sz, fileAddr g)] s t := by
  obtain ⟨r, f, s1, s2, hq, rfl, hwrite⟩ := addF_inv h
  exact ((hq.thenStore hwrite).kept.setFlags f).advance 1

/-! ## Shifts by any number of places -/

/-- N and Z are written, and the destination register (R242, R244, R246). -/
theorem shiftInto_frame (nd : Reg) (r : Word) (s : State) :
    Kept [nd] [] s (advance 1 (shiftInto nd r s)) ∧
      (advance 1 (shiftInto nd r s)).sr.flags.dc = s.sr.flags.dc ∧
      (advance 1 (shiftInto nd r s)).sr.flags.ov = s.sr.flags.ov ∧
      (advance 1 (shiftInto nd r s)).sr.flags.c = s.sr.flags.c :=
  ⟨(((Kept.refl s).setFlags _).trans (Kept.setW (shiftFlags r s) nd r)).advance 1, rfl, rfl, rfl⟩

theorem shiftLit_frame {op : ShiftOp} {wb nd : Reg} {k : BitVec 4} {s t : State}
    (h : shiftLit op wb k nd s = .next t) :
    Kept [nd] [] s t ∧ t.sr.flags.dc = s.sr.flags.dc ∧ t.sr.flags.ov = s.sr.flags.ov ∧
      t.sr.flags.c = s.sr.flags.c := by
  cases h
  exact shiftInto_frame nd _ s

theorem shiftReg_frame {op : ShiftOp} {wb ns nd : Reg} {s t : State} (h : shiftReg op wb ns nd s = .next t)
    (he : t.event = none) :
    Kept [nd] [] s t ∧ t.sr.flags.dc = s.sr.flags.dc ∧ t.sr.flags.ov = s.sr.flags.ov ∧
      t.sr.flags.c = s.sr.flags.c := by
  have h := settle_completed h he
  split at h
  · cases h
    exact shiftInto_frame nd _ s
  · cases h

/-! ## Divides -/

/-- Free values used, W0 and W1 written, and flags. -/
theorem kept_quotient (s : State) (d : Nat) (q r : Word) (f : AluFlags) :
    Kept [0, 1] [] s (((State.setW { s with draws := d } 0 q).setW 1 r).setFlags f) := by
  have hdraws : Kept [] [] s { s with draws := d } := Kept.refl s
  exact ((hdraws.trans (Kept.setW _ 0 q)).trans (Kept.setW _ 1 r)).setFlags f

/-- What every execution of a divide keeps: all but W0, W1, the record and flags other than DC. -/
def DivideKept (s t : State) : Prop :=
  Kept [0, 1] [] s { t with divGhost := s.divGhost } ∧ t.sr.flags.dc = s.sr.flags.dc

theorem scramble_kept (g : DivGhost) (s : State) : DivideKept s (scramble g s) :=
  ⟨kept_quotient s (s.draws + 5) (drawAt s 0) (drawAt s 1)
    { s.sr.flags with n := drawBit s 2, c := drawBit s 3, z := drawBit s 4 }, rfl⟩

theorem finishDiv_kept (g : DivGhost) (s : State) : DivideKept s (finishDiv g s) := by
  have hkept := fun q r => kept_quotient s (s.draws + 6) q r
    { s.sr.flags with n := drawBit s 2, ov := drawBit s 3, z := drawBit s 4, c := drawBit s 5 }
  unfold finishDiv
  dsimp only
  split
  · exact ⟨hkept (drawAt s 0) (drawAt s 1), rfl⟩
  · exact ⟨hkept (BitVec.ofInt 16 (divInts g.kind g.dividend g.divisor).1)
      (BitVec.ofInt 16 (divInts g.kind g.dividend g.divisor).2), rfl⟩

theorem divStep_kept {kind : DivKind} {m n : Reg} {s t : State} (h : divStep kind m n s = .ok t) :
    DivideKept s t := by
  unfold divStep at h
  split at h
  · split at h
    · have hfirst := scramble_kept ⟨kind, dividendOf kind m s, s.reg n, 1, 0, 0, false, false, false⟩ s
      cases h
      split <;> exact hfirst
    · cases h
  · split at h
    · cases h
      exact scramble_kept _ s
    · split at h
      · cases h
        exact finishDiv_kept _ s
      · cases h

theorem divide_frame {kind : DivKind} {x m n : Reg} {s t : State} (h : divide kind x m n s = .next t)
    (he : t.event = none) : DivideKept s t := by
  have h := settle_completed h he
  split at h
  · cases h
  · obtain ⟨s1, hstep, h⟩ := bind_ok h
    cases h
    obtain ⟨hkept, hdc⟩ := divStep_kept hstep
    exact ⟨hkept.advance 1, hdc⟩

/-- The four divides are `divide` of their kind. -/
theorem exec_divInstr (kind : DivKind) (m n : Reg) (s : State) :
    ∃ x, exec (divInstr kind m n) s = divide kind x m n s := by
  cases kind <;> exact ⟨_, rfl⟩

/-! ## The shadows -/

theorem popS_frame {s t : State} (h : Completed .popS s t) : Kept [0, 1, 2, 3] [] s t := by
  obtain ⟨-, hex, -⟩ := h
  cases hex
  exact (((((Kept.setW s 0 s.wsh[0]).trans (Kept.setW _ 1 s.wsh[1])).trans (Kept.setW _ 2 s.wsh[2])).trans
    (Kept.setW _ 3 s.wsh[3])).setFlags s.srsh).advance 1

/-- Settles O57: each instruction reads at most, then writes its registers and flags. -/
theorem registerResultFrame : Obligations.RegisterResultFrame := by
  intro s t sz f lit g b m n nd src l5 k kind
  refine ⟨?moves, movDLoad_frame, ?multiplies, ?literals, mulF_frame, addF_wreg_frame, ?shifts, ?divides, ?pushS,
    popS_frame⟩
  case moves =>
    rintro (h | ⟨-, hex, -⟩ | ⟨-, hex, -⟩)
    · exact movFWnd_frame h
    · cases hex; exact (Quiet.setW s nd lit).register_frame
    · cases hex; exact (Quiet.putW s nd _).register_frame
  case multiplies => rintro (⟨-, hex, he⟩ | ⟨-, hex, he⟩ | ⟨-, hex, he⟩ | ⟨-, hex, he⟩) <;> exact multiply_frame hex he
  case literals => rintro (⟨-, hex, he⟩ | ⟨-, hex, he⟩) <;> exact multiplyLit_frame hex he
  case shifts =>
    rintro (⟨-, hex, -⟩ | ⟨-, hex, -⟩ | ⟨-, hex, -⟩ | ⟨-, hex, he⟩ | ⟨-, hex, he⟩ | ⟨-, hex, he⟩)
    iterate 3 exact shiftLit_frame hex
    iterate 3 exact shiftReg_frame hex he
  case divides =>
    rintro ⟨-, hex, he⟩
    obtain ⟨x, hx⟩ := exec_divInstr kind m n s
    exact divide_frame (hx.symm.trans hex) he
  case pushS =>
    rintro ⟨-, hex, -⟩
    cases hex
    exact (Quiet.refl s).register_frame

/-! ## Stores to a fixed place -/

theorem movWnsF_frame {ns : Reg} {f : Word} {s t : State} (h : Completed (.movWnsF ns f) s t) :
    Kept [] [(.word, f)] s t ∧ FlagsKept [(.word, f)] s t := by
  obtain ⟨-, hex, he⟩ := h
  obtain ⟨s1, hwrite, h⟩ := bind_ok (settle_completed hex he)
  cases h
  exact (memWrite_quiet hwrite).frame_advance

theorem movWregF_frame {sz : Size} {g : BitVec 13} {s t : State} (h : Completed (.movWregF sz g) s t) :
    Kept [] [(sz, fileAddr g)] s t ∧ FlagsKept [(sz, fileAddr g)] s t := by
  obtain ⟨-, hex, he⟩ := h
  obtain ⟨s1, hwrite, h⟩ := bind_ok (settle_completed hex he)
  cases h
  exact (memWrite_quiet hwrite).frame_advance

theorem changeBit_frame {g : BitVec 13} {bit : BitVec 4} {change : Word → Word → Word} {s t : State}
    (h : changeBit g bit change s = .next t) (he : t.event = none) :
    Kept [] [(.byte, bitAddr g bit)] s t ∧ FlagsKept [(.byte, bitAddr g bit)] s t := by
  obtain ⟨⟨v, s1⟩, hread, h⟩ := bind_ok (settle_completed h he)
  obtain ⟨s2, hwrite, h⟩ := bind_ok h
  cases h
  exact ((memRead_quiet hread).thenStore hwrite).frame_advance

theorem movDStore_inv {ns : Reg} {dst : Opnd} {s t : State} (h : Completed (.movDStore ns dst) s t) :
    ∃ s1, writePair dst (s.reg ns) (s.reg (pairHigh ns)) s = .ok s1 ∧ t = advance 1 s1 := by
  obtain ⟨-, hex, he⟩ := h
  have h := settle_completed hex he
  split at h
  · cases h
  · obtain ⟨s1, hwrite, h⟩ := bind_ok h
    cases h
    exact ⟨s1, hwrite, rfl⟩

theorem movDStore_direct_frame {ns : Reg} {dst : Opnd} {s t : State} (h : Completed (.movDStore ns dst) s t)
    (hd : isDirect dst = true) : Kept [dst.reg, pairHigh dst.reg] [] s t ∧ t.sr.flags = s.sr.flags := by
  obtain ⟨s1, hwrite, rfl⟩ := movDStore_inv h
  rw [writePair, if_pos hd] at hwrite
  cases hwrite
  exact (pair_quiet s dst.reg _ _).register_frame

theorem movDStore_memory_frame {ns : Reg} {dst : Opnd} {s t : State} (h : Completed (.movDStore ns dst) s t)
    (hd : isDirect dst = false) :
    Kept (srcReg dst) [(.word, eaOf dst 4 s), (.word, eaOf dst 4 s + 2)] s t ∧
      FlagsKept [(.word, eaOf dst 4 s), (.word, eaOf dst 4 s + 2)] s t := by
  obtain ⟨s1, hwrite, rfl⟩ := movDStore_inv h
  exact (writePair_quiet hd hwrite).frame_advance

/-- Settles O58: each instruction reads at most, then makes its stores. -/
theorem fileStoreFrame : Obligations.FileStoreFrame := by
  intro s t sz f g ns bit dst
  refine ⟨movWnsF_frame, movWregF_frame, addF_file_frame, ?bits, movDStore_direct_frame, movDStore_memory_frame⟩
  rintro (⟨-, hex, he⟩ | ⟨-, hex, he⟩)
  · exact changeBit_frame ((exec_bset g bit s).symm.trans hex) he
  · exact changeBit_frame ((exec_bclr g bit s).symm.trans hex) he

end Sys2Proof.Machine
end

section
/-! The shadows (R175, R176), and what the flow, stack and system instructions leave as it was (GK4): O40, O59. -/

namespace Sys2Proof.Machine

/-! ## The shadows, both ways -/

/-- The registers of a state whose W0 to W3 were written one after the other: word writes, which mark them
initialised (D19). -/
theorem setW_first_four (s : State) (v : Vector Word 4) (k : Fin 4) :
    ((((s.setW 0 v[0]).setW 1 v[1]).setW 2 v[2]).setW 3 v[3]).reg ⟨k.val, by omega⟩ = v.get k ∧
      ((((s.setW 0 v[0]).setW 1 v[1]).setW 2 v[2]).setW 3 v[3]).isInit ⟨k.val, by omega⟩ = true := by
  match k with
  | 0 | 1 | 2 | 3 => simp only [State.reg_setW, State.isInit_setW]; exact ⟨rfl, rfl⟩

/-- Settles O40: both are assignments to the named fields. -/
theorem shadowsCopyBothWays : Obligations.ShadowsCopyBothWays := by
  intro s
  refine ⟨⟨_, rfl, fun k => ?shadow, rfl, rfl, rfl, rfl, rfl, rfl⟩,
    ⟨_, rfl, fun k => setW_first_four s s.wsh k, rfl, rfl, rfl, rfl, rfl, rfl⟩⟩
  match k with
  | 0 | 1 | 2 | 3 => rfl

/-! ## W15 across a push -/

/-- A word store that completes is aligned (R83). -/
theorem memWrite_word_even {a v : Word} {s t : State} (h : memWrite .word a v s = .ok t) : a.toNat % 2 = 0 := by
  unfold memWrite at h
  split at h
  · cases h
  · rename_i haligned
    simpa [isOdd_eq] using haligned

/-- A push that completes leaves W15 two higher, no bit of it masked. -/
theorem push16_sp {v : Word} {s t : State} (h : push16 v s = .ok t) : t.reg sp = s.reg sp + 2 := by
  obtain ⟨s1, -, h⟩ := bind_ok h
  obtain ⟨s2, hwrite, h⟩ := bind_ok h
  cases h
  rw [State.reg_setW, if_pos rfl]
  exact regMask_of_even (add_even (memWrite_word_even hwrite) rfl)

/-- A return address is pushed to the word at W15 and the one after it. -/
theorem pushReturn_quiet {words : Nat} {s t : State} (h : pushReturn words s = .ok t) :
    Quiet [sp] [(.word, s.reg sp), (.word, s.reg sp + 2)] s t := by
  obtain ⟨ret, -, h⟩ := bind_ok h
  obtain ⟨s1, hlow, hhigh⟩ := bind_ok h
  have hsecond := push16_quiet hhigh
  rw [push16_sp hlow] at hsecond
  exact ((push16_quiet hlow).trans hsecond).mono (by simp) (by simp)

/-! ## Jumps -/

theorem misses_nil (c : Word) : misses [] c := fun _ hst => absurd hst List.not_mem_nil

/-- The PC is outside every frame. -/
theorem Quiet.frame_jump {R : List Reg} {S : List (Size × Word)} {s t : State} (h : Quiet R S s t) (p : PAddr) :
    Kept R S s (t.jump p) ∧ FlagsKept S s (t.jump p) := ⟨h.kept, h.flags⟩

/-- An operation that stores nothing, and a new PC. -/
theorem Quiet.register_frame_jump {R : List Reg} {s t : State} (h : Quiet R [] s t) (p : PAddr) :
    Kept R [] s (t.jump p) ∧ (t.jump p).sr.flags = s.sr.flags :=
  ⟨h.kept, h.flags (misses_nil _)⟩

theorem bra_frame {off : Word} {s t : State} (h : Completed (.bra off) s t) :
    Kept [] [] s t ∧ t.sr.flags = s.sr.flags := by
  obtain ⟨-, hex, he⟩ := h
  rw [exec_bra] at hex
  obtain ⟨p, -, h⟩ := bind_ok (settle_completed hex he)
  cases h
  exact (Quiet.refl s).register_frame_jump p

/-- A skip that completes goes on past one instruction more. -/
theorem skip_inv {s t : State} (h : skip s = .ok t) : ∃ len, t = advance (1 + len) s := by
  unfold skip at h
  split at h
  · cases h
  · split at h
    · cases h
    · rename_i len _
      split at h
      · cases h
        exact ⟨len, rfl⟩
      · cases h

theorem btsc_frame {g : BitVec 13} {bit : BitVec 4} {s t : State} (h : Completed (.btsc g bit) s t) :
    Kept [] [] s t ∧ t.sr.flags = s.sr.flags := by
  obtain ⟨-, hex, he⟩ := h
  obtain ⟨⟨v, s1⟩, hread, h⟩ := bind_ok (settle_completed hex he)
  have hframe := (memRead_quiet hread).register_frame_jump
  dsimp only at h
  split at h
  · cases h
    exact hframe (nextPc s1 1)
  · obtain ⟨len, rfl⟩ := skip_inv h
    exact hframe (nextPc s1 (1 + len))

/-! ## REPEAT -/

/-- Only RCOUNT and RA differ once a loop is started. -/
theorem startLoop_frame (c : Word) (s : State) :
    Kept [] [] s { advance 1 (startLoop c s) with
      rcount := s.rcount, sr := { (advance 1 (startLoop c s)).sr with ra := s.sr.ra } } ∧
      (advance 1 (startLoop c s)).sr.flags = s.sr.flags := ⟨Kept.refl s, rfl⟩

/-! ## Calls and returns -/

theorem call_frame {target : PAddr} {s t : State} (h : Completed (.call target) s t) :
    Kept [sp] [(.word, s.reg sp), (.word, s.reg sp + 2)] s t ∧
      FlagsKept [(.word, s.reg sp), (.word, s.reg sp + 2)] s t := by
  obtain ⟨-, hex, he⟩ := h
  rw [exec_call] at hex
  obtain ⟨s1, hpush, h⟩ := bind_ok (settle_completed hex he)
  cases h
  exact (pushReturn_quiet hpush).frame_jump (evenAddr target)

theorem rcall_frame {off : Word} {s t : State} (h : Completed (.rcall off) s t) :
    Kept [sp] [(.word, s.reg sp), (.word, s.reg sp + 2)] s t ∧
      FlagsKept [(.word, s.reg sp), (.word, s.reg sp + 2)] s t := by
  obtain ⟨-, hex, he⟩ := h
  rw [exec_rcall] at hex
  obtain ⟨s1, hpush, h⟩ := bind_ok (settle_completed hex he)
  obtain ⟨p, -, h⟩ := bind_ok h
  cases h
  exact (pushReturn_quiet hpush).frame_jump p

theorem ret_frame {s t : State} (h : Completed .ret s t) : Kept [sp] [] s t ∧ t.sr.flags = s.sr.flags := by
  obtain ⟨-, hex, he⟩ := h
  obtain ⟨⟨hi, lo, s1⟩, hpop, h⟩ := bind_ok (settle_completed hex he)
  cases h
  exact (popFrame_quiet hpop).register_frame_jump _

theorem retlw_frame {sz : Size} {lit : BitVec 10} {n : Reg} {s t : State} (h : Completed (.retlw sz lit n) s t) :
    Kept [sp, n] [] s t ∧ t.sr.flags = s.sr.flags := by
  obtain ⟨-, hex, he⟩ := h
  obtain ⟨⟨hi, lo, s1⟩, hpop, h⟩ := bind_ok (settle_completed hex he)
  cases h
  exact ((popFrame_quiet hpop).trans (Quiet.setSized s1 sz n _)).register_frame_jump _

/-- What the pops keep, once SR and CORCON, which RETFIE restores, are set aside. -/
theorem Quiet.restored {R : List Reg} {s u : State} (h : Quiet R [] s u) (hi lo top : Word) :
    Kept R [] s { (restoreFrame hi lo u).backToTarget top with sr := s.sr, corcon := s.corcon } := by
  obtain ⟨hregs, ⟨-, -, -, hrest⟩, hmem⟩ := h.kept
  exact ⟨hregs, ⟨fun _ => rfl, rfl, fun _ => rfl, hrest⟩, hmem⟩

/-- RETFIE takes bits 7:0 of SR and IPL3 from the frame: DC and PSV are not in it (R277). -/
theorem retfie_frame {s t : State} (h : Completed .retfie s t) :
    Kept [sp] [] s { t with sr := s.sr, corcon := s.corcon } ∧ t.sr.flags.dc = s.sr.flags.dc ∧
      t.corcon.psv = s.corcon.psv := by
  obtain ⟨-, hex, he⟩ := h
  obtain ⟨⟨hi, lo, s1⟩, hpop, h⟩ := bind_ok (settle_completed hex he)
  cases h
  have hq := popFrame_quiet hpop
  obtain ⟨-, ⟨-, -, hcorcon, -⟩, -⟩ := hq.kept
  exact ⟨hq.restored hi lo (s.reg sp), (congrArg AluFlags.dc (hq.flags (misses_nil _)) :),
    (congrArg CoreCon.psv (hcorcon (misses_nil _)) :)⟩

/-! ## LNK and ULNK -/

theorem lnk_frame {lit : BitVec 14} {s t : State} (h : Completed (.lnk lit) s t) :
    Kept [fp, sp] [(.word, s.reg sp)] s t ∧ FlagsKept [(.word, s.reg sp)] s t := by
  obtain ⟨-, hex, he⟩ := h
  have h := settle_completed hex he
  split at h
  · cases h
  · obtain ⟨s1, hpush, h⟩ := bind_ok h
    cases h
    have hq := fun frame top => ((push16_quiet hpush).trans (Quiet.setW s1 fp frame)).trans (Quiet.setW _ sp top)
    exact ((hq _ _).mono (by simp) (fun _ hst => hst)).frame_advance

theorem ulnk_frame {s t : State} (h : Completed .ulnk s t) : Kept [fp, sp] [] s t ∧ t.sr.flags = s.sr.flags := by
  obtain ⟨-, hex, he⟩ := h
  obtain ⟨⟨v, s1⟩, hpop, h⟩ := bind_ok (settle_completed hex he)
  cases h
  have hq := ((Quiet.setW s sp (s.reg fp)).trans (pop16_quiet hpop)).trans (Quiet.setW s1 fp v)
  exact (hq.mono (by simp) (fun _ hst => hst)).register_frame

/-! ## The statement -/

/-- Settles O59: a jump, a loop or a count set, or what the pushes and pops keep. -/
theorem flowAndStackFrame : Obligations.FlowAndStackFrame := by
  intro s t sz off target g bit lit l10 n
  refine ⟨?jumps, ?loops, ?disi, fun h => h.elim call_frame rcall_frame, ret_frame, retlw_frame, retfie_frame,
    lnk_frame, ulnk_frame⟩
  case jumps =>
    rintro (h | ⟨-, hex, -⟩ | h | ⟨-, hex, -⟩)
    · exact bra_frame h
    · cases hex
      exact (Quiet.refl s).register_frame_jump (evenAddr target)
    · exact btsc_frame h
    · cases hex
      exact (Quiet.refl s).register_frame
  case loops =>
    rintro (⟨-, hex, -⟩ | ⟨-, hex, -⟩)
    · rw [exec_repeatLit] at hex
      cases hex
      exact startLoop_frame (lit.setWidth 16) s
    · obtain ⟨-, rfl⟩ := exec_repeatW_next hex
      exact startLoop_frame (s.reg n) s
  case disi =>
    rintro ⟨-, hex, -⟩
    cases hex
    exact (Quiet.refl s).register_frame

end Sys2Proof.Machine
end

section
/-! Addition over registers, RAM and every place a file register may lie (R191 to R193): O42, O43. -/

namespace Sys2Proof.Machine

/-! ## ADD Wb,Ws,Wd -/

/-- Settles O42: what the write of the sum leaves, and the flags of the sum written over its status register. -/
theorem addRegisterForm : Obligations.AddRegisterForm := by
  intro s sz wb src dst hst hs hd
  obtain ⟨htook, hstep, hpc, hsr, -⟩ := movedState_spec (addResult sz (s.reg wb) (operandValue sz src s)) hst
  have hipl := congrArg StatusReg.ipl hsr
  have hra := congrArg StatusReg.ra hsr
  exact ⟨_, exec_add_of_write hst (readOp_ok hs) (writeResult_moved hd), ⟨_, addResult_toNat .., htook⟩,
    addFlagsOk_addFlags .., hipl, hra, next_pc_of_eq hpc, hstep⟩

/-! ## ADD f and ADD f,WREG

The model adds WREG to the file register's value; the laws name WREG first. -/

theorem addResult_comm (sz : Size) (a b : Word) : addResult sz a b = addResult sz b a := by
  rw [addResult, addResult, Nat.add_comm]

theorem AddFlagsOk.symm {sz : Size} {a b : Word} {f : AluFlags} (h : AddFlagsOk sz a b f) : AddFlagsOk sz b a f := by
  unfold AddFlagsOk at *
  rwa [Nat.add_comm (operandNat sz b), Nat.add_comm (operandNat sz b % _), Int.add_comm (signedOf sz b)]

section
variable {sz : Size} {f : BitVec 13} {s u t : State} {v : Word}

theorem exec_addF_wreg_of_read (hr : memRead sz (fileAddr f) s = .ok (v, u)) :
    exec (.addF sz f false) s = .next (advance 1
      ((u.setSized sz wreg (addResult sz (s.reg wreg) v)).setFlags (addFlags sz v (s.reg wreg)))) := by
  show settle 1 _ s _ = _
  simp [hr, addResult_comm sz v]

theorem exec_addF_file_of_write (hr : memRead sz (fileAddr f) s = .ok (v, u))
    (hw : memWrite sz (fileAddr f) (addResult sz (s.reg wreg) v) u = .ok t) :
    exec (.addF sz f true) s = .next (advance 1 (t.setFlags (addFlags sz v (s.reg wreg)))) := by
  show settle 1 _ s _ = _
  simp [hr, hw, addResult_comm sz v]

theorem exec_addF_file_refused {x : Refusal} (hr : memRead sz (fileAddr f) s = .ok (v, u))
    (hw : memWrite sz (fileAddr f) (addResult sz (s.reg wreg) v) u = .error (.refuse x)) :
    exec (.addF sz f true) s = .refused x := by
  show settle 1 _ s _ = _
  simp [hr, hw, addResult_comm sz v]

theorem memRead_keeps {a : Word} (h : memRead sz a s = .ok (v, u)) :
    u.w = s.w ∧ u.mem = s.mem ∧ u.sr = s.sr ∧ u.pc = s.pc := by
  obtain ⟨_, _, rfl⟩ := memRead_state h
  exact ⟨rfl, rfl, rfl, rfl⟩

@[simp] theorem setSized_mem (s : State) (sz : Size) (n : Reg) (v : Word) : (s.setSized sz n v).mem = s.mem := by
  cases sz <;> rfl

/-- The sum to WREG: the read of the file register changes nothing the statement names. -/
theorem addF_wreg_answers (hr : memRead sz (fileAddr f) s = .ok (v, u)) :
    Answers (exec (.addF sz f false) s) fun t =>
      t.reg wreg = written sz wreg (addResult sz (s.reg wreg) v) (s.reg wreg) ∧ t.mem = s.mem ∧
        AddFlagsOk sz (s.reg wreg) v t.sr.flags ∧ t.sr.ipl = s.sr.ipl ∧ t.sr.ra = s.sr.ra ∧ t.pc = s.pc + 2 := by
  obtain ⟨hw, hmem, hsr, hpc⟩ := memRead_keeps hr
  have hsr' := (setSized_sr u sz wreg (addResult sz (s.reg wreg) v)).trans hsr
  have hipl := congrArg StatusReg.ipl hsr'
  have hra := congrArg StatusReg.ra hsr'
  refine ⟨_, exec_addF_wreg_of_read hr, ?_, (setSized_mem ..).trans hmem, (addFlagsOk_addFlags ..).symm, hipl, hra,
    next_pc_of_eq ((setSized_pc ..).trans hpc)⟩
  rw [advance_reg, State.setFlags_reg, setSized_reg, if_pos rfl, State.reg_congr hw]

/-- The sum to the file register: the store is done as at that place, and the flags come after it (D32). -/
theorem addF_file_answers (h : FileReads sz (fileAddr f) s v u) (hp : ¬IsPcAddr (fileAddr f) s) :
    Answers (exec (.addF sz f true) s) fun t =>
      FileStored sz (fileAddr f) (addResult sz (s.reg wreg) v) s t ∧
        (f.toNat / 2 ≠ wreg.val → t.reg wreg = s.reg wreg) ∧ AddFlagsOk sz (s.reg wreg) v t.sr.flags ∧
        (cpuRegAt s.dev.sfr (evenWord (fileAddr f)) ≠ some .sr → t.sr.ipl = s.sr.ipl) ∧
        t.sr.ra = s.sr.ra ∧ t.pc = s.pc + 2 := by
  obtain ⟨t, hw, hstored, hpc, hra, hipl, hreg⟩ := (memWrite_of_fileReads h).2 hp
  have haddr : (fileAddr f).toNat = f.toNat := BitVec.toNat_setWidth_of_le (by decide)
  exact ⟨_, exec_addF_file_of_write (memRead_of_fileReads h) hw, (hstored.setFlags _).advance 1,
    fun hne => hreg wreg (haddr ▸ hne), (addFlagsOk_addFlags ..).symm, hipl, hra, next_pc_of_eq hpc⟩

end

/-- Settles O43: one read, and then the sum to WREG, the refused store, or the store. -/
theorem addFileForm : Obligations.AddFileForm := by
  intro s u sz f v h
  have hr := memRead_of_fileReads h
  exact ⟨_, addResult_toNat .., addF_wreg_answers hr,
    fun hp => exec_addF_file_refused hr ((memWrite_of_fileReads h).1 hp), addF_file_answers h⟩

end Sys2Proof.Machine
end

section
/-! MUL f at every place a file register may lie (R217): O45. -/

namespace Sys2Proof.Machine

/-! ## What a read of a size can give -/

theorem byte_setWidth_lt (b : Byte) : (b.setWidth 16).toNat < 2 ^ widthOf .byte := by
  rw [BitVec.toNat_setWidth_of_le (by decide)]
  exact b.isLt

theorem pick_lt (sz : Size) (a v : Word) : (pick sz a v).toNat < 2 ^ widthOf sz := by
  cases sz with
  | word => exact v.isLt
  | byte => simp only [pick]; split <;> exact byte_setWidth_lt _

theorem sized_lt (sz : Size) (v : Word) : (sized sz v).toNat < 2 ^ widthOf sz := by
  rw [sized_toNat]
  exact operandNat_lt sz v

theorem ramRead_lt (s : State) (sz : Size) (a : Word) : (ramRead s sz a).toNat < 2 ^ widthOf sz := by
  cases sz with
  | word => exact (ramRead s .word a).isLt
  | byte => exact byte_setWidth_lt _

/-- A byte is read zero-extended, wherever it lies (R84). -/
theorem memRead_lt {sz : Size} {a v : Word} {s t : State} (h : memRead sz a s = .ok (v, t)) :
    v.toNat < 2 ^ widthOf sz := by
  unfold memRead at h
  split at h
  · cases h
  · split at h
    · cases h; exact pick_lt sz a _
    · cases h; exact sized_lt sz _
    · split at h
      · cases h; exact pick_lt sz a _
      · cases h
    · split at h
      · cases h; exact ramRead_lt s sz a
      · cases h
    · cases h

/-! ## MUL f -/

section
variable {f : BitVec 13} {s u : State} {v : Word}

theorem exec_mulF_word_of_read (hr : memRead .word (fileAddr f) s = .ok (v, u)) :
    exec (.mulF .word f) s = .next (advance 1 (setPair 2 (product false false (s.reg wreg) v) u)) := by
  show settle 1 _ s _ = _
  simp [hr, sized]

theorem exec_mulF_byte_of_read (hr : memRead .byte (fileAddr f) s = .ok (v, u)) :
    exec (.mulF .byte f) s =
      .next (advance 1 (u.setW 2 ((product false false (sized .byte (s.reg wreg)) v).extractLsb' 0 16))) := by
  show settle 1 _ s _ = _
  simp [hr]

end

/-- The product of two bytes fits in a word. -/
theorem product_bytes (a : Word) {v : Word} (hv : v.toNat < 256) :
    ((product false false (sized .byte a) v).extractLsb' 0 16).toNat = a.toNat % 256 * v.toNat := by
  have ha : (sized .byte a).toNat = a.toNat % 256 := sized_toNat .byte a
  have hlt : a.toNat % 256 * v.toNat < 65536 := Nat.mul_lt_mul'' (Nat.mod_lt _ (by decide)) hv
  rw [BitVec.extractLsb'_toNat, product_unsigned, ha]
  exact Nat.mod_eq_of_lt hlt

/-- Settles O45: one read, then the pair W3:W2 or W2 alone. -/
theorem multiplyFile : Obligations.MultiplyFile := by
  intro s u f v
  refine ⟨fun h => ?word, fun h => ?byte⟩
  case word =>
    have hr := memRead_of_fileReads h
    refine ⟨_, exec_mulF_word_of_read hr, ?_, next_pc_of_eq (memRead_quiet hr).pc⟩
    exact (congrArg BitVec.toNat (pairValue_setPair (nd := 2) rfl _ u)).trans (product_unsigned _ _)
  case byte =>
    have hr := memRead_of_fileReads h
    have hw := (memRead_keeps hr).1
    refine ⟨_, exec_mulF_byte_of_read hr, ?_, ?_, next_pc_of_eq (memRead_quiet hr).pc⟩
    · rw [advance_reg, State.reg_setW, if_pos rfl]
      exact product_bytes (s.reg wreg) (memRead_lt hr)
    · rw [advance_reg, State.reg_setW, if_neg (by decide), State.reg_congr hw]

end Sys2Proof.Machine
end

section
/-! The executions of a divide (R220 to R228): O46. -/

namespace Sys2Proof.Machine

/-! ## One execution -/

/-- The field `t` of a divide's word: the register after Wm in the 32-bit forms, unused in the others. -/
def divField (kind : DivKind) (m : Reg) : Reg := if isWide kind then pairHigh m else m

theorem exec_divInstr_field (kind : DivKind) (m n : Reg) (s : State) :
    exec (divInstr kind m n) s = divide kind (divField kind m) m n s := by
  cases kind <;> rfl

theorem divBadOperand_iff (kind : DivKind) (m n : Reg) :
    divBadOperand kind (divField kind m) m n = true ↔ ¬DivRegs kind m n := by
  cases kind <;> simp [divBadOperand, divField, DivRegs, isWide, oddReg, or_iff_not_imp_left]

theorem divBadOperand_of_field {kind : DivKind} {t m : Reg} (n : Reg) (hw : isWide kind = true)
    (h : t ≠ pairHigh m) : divBadOperand kind t m n = true := by
  simp [divBadOperand, hw, h]

theorem divide_refused_of_bad {kind : DivKind} {t m n : Reg} (s : State) (h : divBadOperand kind t m n = true) :
    divide kind t m n s = .refused .divBadOperand := by
  simp [divide, h]

section
variable {kind : DivKind} {m n : Reg} {s u : State}

/-- Operands that R220 allows leave the outcome to the loop and the record. -/
theorem exec_divInstr_of_regs (h : DivRegs kind m n) :
    exec (divInstr kind m n) s = settle 1 pcOnly s (do
      let s1 ← divStep kind m n s
      .ok (advance 1 s1)) := by
  rw [exec_divInstr_field, divide, if_neg (fun hb => (divBadOperand_iff kind m n).1 hb h)]

theorem exec_divInstr_of_step (h : DivRegs kind m n) (hs : divStep kind m n s = .ok u) :
    exec (divInstr kind m n) s = .next (advance 1 u) := by
  rw [exec_divInstr_of_regs h, hs, ok_bind, settle_ok]

theorem exec_divInstr_refused {x : Refusal} (h : DivRegs kind m n) (hs : divStep kind m n s = .error (.refuse x)) :
    exec (divInstr kind m n) s = .refused x := by
  rw [exec_divInstr_of_regs h, hs, error_bind, settle_refuse]

end

/-! ## The record -/

theorem intact_iff (g : DivGhost) (n : Reg) (s : State) : intact g n s = true ↔ DivIntact g n s := by
  simp only [intact, DivIntact, Bool.and_eq_true, decide_eq_true_eq, and_assoc]

theorem DivIntact.divisor {g : DivGhost} {n : Reg} {s : State} (h : DivIntact g n s) : s.reg n = g.divisor := by
  obtain ⟨-, -, -, -, -, hdivisor⟩ := h
  exact hdivisor

/-- The record that the first execution begins, before its W0, W1 and flags are drawn (R221). -/
def firstRecord (kind : DivKind) (m n : Reg) (s : State) : DivGhost :=
  ⟨kind, dividendOf kind m s, s.reg n, 1, 0, 0, false, false, false⟩

theorem DivEnds.not_goesOn {kind : DivKind} {g : DivGhost} {n : Reg} {s : State} (h : DivEnds kind g n s) :
    ¬DivGoesOn kind g n s := by
  rintro ⟨-, -, hle, -⟩
  obtain ⟨-, hdone, -⟩ := h
  omega

section
variable {kind : DivKind} {m n : Reg} {s : State} {g : DivGhost}

/-- Without a record, the first of the loop's executions begins one; a divisor 0 requests the trap (R222). -/
theorem divStep_first (hg : s.divGhost = none) (hra : s.sr.ra = true) (hrc : s.rcount = 17) :
    divStep kind m n s = .ok (if s.reg n = 0 then
      { scramble (firstRecord kind m n s) s with event := some (.trap .arithmeticError) }
      else scramble (firstRecord kind m n s) s) := by
  simp only [divStep, hg, hra, hrc, firstRecord, decide_true, Bool.and_true, if_true]

theorem divStep_outside (hg : s.divGhost = none) (h : ¬(s.sr.ra = true ∧ s.rcount = 17)) :
    divStep kind m n s = .error (.refuse .divideMisuse) := by
  simp only [divStep, hg, Bool.and_eq_true, decide_eq_true_eq, h, if_false]

/-- With a record, an execution goes on with it, closes it, or is refused. -/
theorem divStep_record [Decidable (DivGoesOn kind g n s)] [Decidable (DivEnds kind g n s)]
    (hg : s.divGhost = some g) :
    divStep kind m n s =
      if DivGoesOn kind g n s then .ok (scramble { g with done := g.done + 1 } s)
      else if DivEnds kind g n s then .ok (finishDiv g s)
      else .error (.refuse .divideMisuse) := by
  simp only [divStep, hg]
  refine if_congr ?_ rfl (if_congr ?_ rfl rfl)
  · simp only [Bool.and_eq_true, decide_eq_true_eq, intact_iff, DivGoesOn, and_assoc]
    refine and_congr_right fun _ => and_congr_right fun _ => and_congr_right fun _ => and_congr_right fun _ =>
      and_congr_left fun _ => ?_
    omega
  · simp only [Bool.and_eq_true, decide_eq_true_eq, Bool.not_eq_true', bne_iff_ne, intact_iff, DivEnds, and_assoc]

theorem divStep_goesOn (hg : s.divGhost = some g) (h : DivGoesOn kind g n s) :
    divStep kind m n s = .ok (scramble { g with done := g.done + 1 } s) := by
  classical rw [divStep_record hg, if_pos h]

theorem divStep_ends (hg : s.divGhost = some g) (h : DivEnds kind g n s) :
    divStep kind m n s = .ok (finishDiv g s) := by
  classical rw [divStep_record hg, if_neg h.not_goesOn, if_pos h]

theorem divStep_misuse (hg : s.divGhost = some g) (h1 : ¬DivGoesOn kind g n s) (h2 : ¬DivEnds kind g n s) :
    divStep kind m n s = .error (.refuse .divideMisuse) := by
  classical rw [divStep_record hg, if_neg h1, if_neg h2]

end

/-! ## The free values of an unfinished divide -/

theorem setW_01_reg_ne {n : Reg} (h0 : n ≠ 0) (h1 : n ≠ 1) (s : State) (x y : Word) :
    ((s.setW 0 x).setW 1 y).reg n = s.reg n := by
  rw [State.reg_setW, if_neg h1.symm, State.reg_setW, if_neg h0.symm]

theorem setW_01_reg (s : State) (x y : Word) :
    ((s.setW 0 x).setW 1 y).reg 0 = x ∧ ((s.setW 0 x).setW 1 y).reg 1 = y := by
  simp only [State.reg_setW]
  exact ⟨rfl, rfl⟩

theorem scramble_reg (g : DivGhost) {n : Reg} (h0 : n ≠ 0) (h1 : n ≠ 1) (s : State) :
    (scramble g s).reg n = s.reg n := setW_01_reg_ne h0 h1 { s with draws := s.draws + 5 } (drawAt s 0) (drawAt s 1)

/-- The record after the values are drawn: the divide's own fields are the old ones, and it is intact. -/
theorem scramble_record {g : DivGhost} {n : Reg} {s : State} (h0 : n ≠ 0) (h1 : n ≠ 1) (hd : s.reg n = g.divisor) :
    ∃ h, (scramble g s).divGhost = some h ∧ h.kind = g.kind ∧ h.done = g.done ∧ h.divisor = g.divisor ∧
      h.dividend = g.dividend ∧ DivIntact h n (scramble g s) := by
  obtain ⟨hw0, hw1⟩ := setW_01_reg { s with draws := s.draws + 5 } (drawAt s 0) (drawAt s 1)
  exact ⟨_, rfl, rfl, rfl, rfl, rfl, hw0, hw1, rfl, rfl, rfl, (scramble_reg g h0 h1 s).trans hd⟩

theorem dividendOf_wide {kind : DivKind} (h : isWide kind = true) (m : Reg) (s : State) :
    dividendOf kind m s = pairValue m s := if_pos h

theorem dividendOf_narrow {kind : DivKind} (h : isWide kind = false) (m : Reg) (s : State) :
    (dividendOf kind m s).extractLsb' 0 16 = s.reg m := by
  apply BitVec.eq_of_toNat_eq
  rw [dividendOf, if_neg (by simp [h]), BitVec.extractLsb'_toNat, BitVec.toNat_setWidth_of_le (by decide)]
  exact Nat.mod_eq_of_lt (s.reg m).isLt

/-! ## Quotient and remainder -/

theorem divWordInt_ne_zero {kind : DivKind} {d : Word} (h : d ≠ 0) : divWordInt kind d ≠ 0 := by
  have hint : d.toInt ≠ 0 := fun e => h (BitVec.eq_of_toInt_eq e)
  have hnat : (d.toNat : Int) ≠ 0 := fun e => h (BitVec.eq_of_toNat_eq (Int.ofNat.inj e))
  cases kind <;> assumption

/-- In every form the division is the truncating one of the numbers that the words stand for. -/
theorem divInts_eq (kind : DivKind) (a : BitVec 32) (d : Word) :
    divInts kind a d =
      ((dividendInt kind a).tdiv (divWordInt kind d), (dividendInt kind a).tmod (divWordInt kind d)) := by
  cases kind with
  | sw | sd => rfl
  | uw | ud => exact Prod.ext (Int.ofNat_tdiv _ _) (Int.ofNat_tmod _ _)

/-- Quotient and remainder are the only ones whose remainder is smaller than the divisor and of the dividend's sign. -/
theorem tdiv_tmod_of_signed {a b q r : Int} (hb : b ≠ 0) (h : a = q * b + r) (hlt : r.natAbs < b.natAbs)
    (hsign : r = 0 ∨ (r < 0 ↔ a < 0)) : a.tdiv b = q ∧ a.tmod b = r := by
  have hsum : r + b * q = a := by rw [h, Int.mul_comm, Int.add_comm]
  rcases Int.lt_or_le a 0 with ha | ha
  · exact (Int.tdiv_tmod_unique' ha.le hb).2 ⟨hsum, by omega, by omega⟩
  · exact (Int.tdiv_tmod_unique ha hb).2 ⟨hsum, by omega, by omega⟩

/-- The numbers that a word can stand for, signed in the signed forms. -/
def FitsWord (kind : DivKind) (x : Int) : Prop :=
  match kind with
  | .sw | .sd => -32768 ≤ x ∧ x ≤ 32767
  | .uw | .ud => 0 ≤ x ∧ x ≤ 65535

theorem divWordInt_ofInt {kind : DivKind} {x : Int} (h : FitsWord kind x) :
    divWordInt kind (BitVec.ofInt 16 x) = x := by
  cases kind <;> obtain ⟨hlo, hhi⟩ := h
  case sw | sd =>
    refine (BitVec.toInt_ofInt x).trans (Int.bmod_eq_of_le ?_ ?_) <;> omega
  case uw | ud =>
    show ((BitVec.ofInt 16 x).toNat : Int) = x
    rw [BitVec.toNat_ofInt]
    omega

theorem dividendInt_nonneg {kind : DivKind} (h : kind = .uw ∨ kind = .ud) (a : BitVec 32) :
    0 ≤ dividendInt kind a := by
  obtain rfl | rfl := h <;> exact Int.natCast_nonneg _

theorem divWordInt_nonneg {kind : DivKind} (h : kind = .uw ∨ kind = .ud) (d : Word) : 0 ≤ divWordInt kind d := by
  obtain rfl | rfl := h <;> exact Int.natCast_nonneg _

/-- A quotient that does not overflow fits: that of an unsigned form is not negative. -/
theorem quotient_fits {kind : DivKind} {a : BitVec 32} {d : Word} {q : Int}
    (hq : (dividendInt kind a).tdiv (divWordInt kind d) = q) (hno : divOverflows kind q = false) :
    FitsWord kind q := by
  have hnonneg : kind = .uw ∨ kind = .ud → 0 ≤ q := fun h =>
    hq ▸ Int.tdiv_nonneg (dividendInt_nonneg h a) (divWordInt_nonneg h d)
  cases kind <;> simp only [divOverflows, Bool.or_eq_false_iff, decide_eq_false_iff_not, Int.not_lt] at hno
  case sw | sd => exact hno
  case uw => exact ⟨hnonneg (.inl rfl), hno⟩
  case ud => exact ⟨hnonneg (.inr rfl), hno⟩

/-- A remainder smaller than its divisor fits. -/
theorem remainder_fits {kind : DivKind} {a : BitVec 32} {d : Word} {r : Int}
    (hr : (dividendInt kind a).tmod (divWordInt kind d) = r) (hlt : r.natAbs < (divWordInt kind d).natAbs) :
    FitsWord kind r := by
  have hnonneg : kind = .uw ∨ kind = .ud → 0 ≤ r := fun h => hr ▸ Int.tmod_nonneg _ (dividendInt_nonneg h a)
  have hbounds := toInt_bounds d
  have hmax := d.isLt
  cases kind <;> simp only [divWordInt] at hlt <;> simp only [FitsWord]
  case sw | sd => omega
  case uw => exact ⟨hnonneg (.inl rfl), by omega⟩
  case ud => exact ⟨hnonneg (.inr rfl), by omega⟩

/-- Where the quotient fits, the last execution leaves it in W0 and the remainder in W1. -/
theorem finishDiv_reg {g : DivGhost} {q r : Int} (s : State) (h : divInts g.kind g.dividend g.divisor = (q, r))
    (hno : divOverflows g.kind q = false) :
    (finishDiv g s).reg 0 = BitVec.ofInt 16 q ∧ (finishDiv g s).reg 1 = BitVec.ofInt 16 r := by
  simp only [finishDiv, h, hno, Bool.false_eq_true, if_false]
  exact setW_01_reg { s with draws := s.draws + 6 } (BitVec.ofInt 16 q) (BitVec.ofInt 16 r)

theorem finishDiv_pc_event (g : DivGhost) (s : State) :
    (finishDiv g s).pc = s.pc ∧ (finishDiv g s).event = s.event := by
  unfold finishDiv
  dsimp only
  split <;> exact ⟨rfl, rfl⟩

/-- The last execution leaves the quotient and the remainder that the two conditions on the remainder pin down. -/
theorem finishDiv_quotient {g : DivGhost} {q r : Int} (s : State) (hd : g.divisor ≠ 0)
    (h : dividendInt g.kind g.dividend = q * divWordInt g.kind g.divisor + r)
    (hlt : r.natAbs < (divWordInt g.kind g.divisor).natAbs)
    (hsign : r = 0 ∨ (r < 0 ↔ dividendInt g.kind g.dividend < 0)) (hno : divOverflows g.kind q = false) :
    divWordInt g.kind ((finishDiv g s).reg 0) = q ∧ divWordInt g.kind ((finishDiv g s).reg 1) = r := by
  obtain ⟨hq, hr⟩ := tdiv_tmod_of_signed (divWordInt_ne_zero hd) h hlt hsign
  obtain ⟨hw0, hw1⟩ := finishDiv_reg s (by rw [divInts_eq, hq, hr]) hno
  rw [hw0, hw1]
  exact ⟨divWordInt_ofInt (quotient_fits hq hno), divWordInt_ofInt (remainder_fits hr hlt)⟩

/-! ## The statement -/

/-- Settles O46: which execution it is decides whether the record begins, goes on, is closed or is refused. -/
theorem divideExecutions : Obligations.DivideExecutions := by
  intro s kind t m n
  refine ⟨fun hbad => ?badRegs, fun ht => ?badField, fun hregs => ⟨fun hn hg hra hrc => ?first, fun g hg =>
    ⟨fun hon => ?goesOn, fun hend => ?ends, fun h1 h2 => ?misuse⟩, fun hg hout => ?outside⟩⟩
  case badRegs =>
    rw [exec_divInstr_field]
    exact divide_refused_of_bad s ((divBadOperand_iff kind m n).2 hbad)
  case badField =>
    exact ⟨divide_refused_of_bad s (divBadOperand_of_field n (kind := .sd) rfl ht),
      divide_refused_of_bad s (divBadOperand_of_field n (kind := .ud) rfl ht)⟩
  case first =>
    have hstep := divStep_first (kind := kind) (m := m) (n := n) hg hra hrc
    rw [if_neg hn] at hstep
    have ⟨hn0, hn1, _⟩ := hregs
    obtain ⟨g, hrec, hkind, hdone, hdivisor, hdividend, hintact⟩ :=
      scramble_record (g := firstRecord kind m n s) hn0 hn1 rfl
    refine ⟨_, exec_divInstr_of_step hregs hstep, rfl, rfl, rfl, rfl, g, hrec, hkind, hdone, hdivisor, ?_, hintact⟩
    rw [hdividend]
    cases kind with
    | sw => exact congrArg BitVec.toInt (dividendOf_narrow (kind := .sw) rfl m s)
    | uw => exact congrArg (fun v : Word => (v.toNat : Int)) (dividendOf_narrow (kind := .uw) rfl m s)
    | sd => exact congrArg BitVec.toInt (dividendOf_wide (kind := .sd) rfl m s)
    | ud => exact congrArg (fun v : BitVec 32 => (v.toNat : Int)) (dividendOf_wide (kind := .ud) rfl m s)
  case goesOn =>
    have hstep := divStep_goesOn (m := m) hg hon
    have ⟨hn0, hn1, _⟩ := hregs
    obtain ⟨hkind, -, -, -, -, hintact⟩ := hon
    obtain ⟨g', hrec, hkind', hrest⟩ :=
      scramble_record (g := { g with done := g.done + 1 }) hn0 hn1 hintact.divisor
    exact ⟨_, exec_divInstr_of_step hregs hstep, rfl, rfl, rfl, rfl, g', hrec, hkind'.trans hkind, hrest⟩
  case ends =>
    have hstep := divStep_ends (m := m) hg hend
    obtain ⟨rfl, -, -, -, -, hd⟩ := hend
    obtain ⟨hpc, hev⟩ := finishDiv_pc_event g s
    refine ⟨_, exec_divInstr_of_step hregs hstep, next_pc_of_eq hpc, hev, (finishDiv_kept g s).2, rfl,
      fun q r h hlt hsign hfits => finishDiv_quotient s hd h hlt hsign ?_⟩
    cases hk : g.kind <;> simp only [hk] at hfits <;>
      simpa only [divOverflows, Bool.or_eq_false_iff, decide_eq_false_iff_not, Int.not_lt] using hfits
  case misuse => exact exec_divInstr_refused hregs (divStep_misuse hg h1 h2)
  case outside => exact exec_divInstr_refused hregs (divStep_outside hg hout)

end Sys2Proof.Machine
end

section
/-! The trap of a divide by zero and the frame of its handler (R222, R343, R352): O22. -/

namespace Sys2Proof.Machine

/-! ## Entering a handler -/

theorem progRead_sameProgram {s t : State} (h : SameProgram s t) (a : Nat) : progRead t a = progRead s a := by
  unfold progRead progImplemented
  rw [h.prog, h.dev]

theorem vectorOf_sameProgram {s t : State} (h : SameProgram s t) (v : Nat) : vectorOf v t = vectorOf v s := by
  unfold vectorOf
  rw [h.dev]
  simp only [progRead_sameProgram h]

/-- What the exception entry pushes (R101): SR, IPL3 and the return address stand as before the first push. -/
theorem pushPcExc_eq {s : State} (ret : PAddr) (h0 : SlotOk (s.reg sp) 0 s) (h1 : SlotOk (s.reg sp) 1 s) :
    pushPcExc ret s = .ok (pushedTwo (ret.extractLsb' 0 16) (frameHigh s ret) s) := by
  have h := push16_twice_ok (v := ret.extractLsb' 0 16) (w := frameHigh s ret) h0 h1
  rw [push16_ok h0] at h
  simp only [pushPcExc, push16_ok h0, ok_bind]
  exact h

theorem pushedTwo_keeps (lo hi : Word) (s : State) :
    SameProgram s (pushedTwo lo hi s) ∧ (pushedTwo lo hi s).rcount = s.rcount ∧
      (pushedTwo lo hi s).event = s.event :=
  ⟨⟨rfl, rfl⟩, rfl, rfl⟩

/-- An entry whose frame fits and whose vector is there. -/
theorem enter_answers {v : Nat} (p : BitVec 4) (ret : PAddr) {target : PAddr} {s : State}
    (h0 : SlotOk (s.reg sp) 0 s) (h1 : SlotOk (s.reg sp) 1 s) (hv : vectorOf v s = .ok target) :
    ∃ u, enter v p ret s = .ok u ∧ u.pc = target ∧ u.sr.ra = false ∧ u.rcount = s.rcount ∧ u.event = s.event ∧
      ramRead u .word (s.reg sp) = ret.extractLsb' 0 16 ∧
      ramRead u .word (s.reg sp + 2) = frameHigh s ret ∧ u.reg sp = s.reg sp + 4 := by
  obtain ⟨hprog, hrcount, hevent⟩ := pushedTwo_keeps (ret.extractLsb' 0 16) (frameHigh s ret) s
  obtain ⟨hlo, hhi, hsp, -⟩ :=
    pushedTwo_spec (lo := ret.extractLsb' 0 16) (hi := frameHigh s ret) h0 h1
  simp only [enter, pushPcExc_eq ret h0 h1, ok_bind, vectorOf_sameProgram hprog, hv]
  exact ⟨_, rfl, rfl, rfl, hrcount, hevent, hlo, hhi, hsp⟩

theorem frameHigh_ret (s : State) (ret : PAddr) : (frameHigh s ret).extractLsb' 0 7 = ret.extractLsb' 16 7 := by
  apply BitVec.eq_of_getLsbD_eq
  intro i hi
  simp only [frameHigh, BitVec.getLsbD_extractLsb', BitVec.getLsbD_append, Nat.zero_add, hi, if_true, decide_true,
    Bool.true_and]

/-- Bit 12 of the frame's second word is RA, SR<4> (R33, R101). -/
theorem frameHigh_ra (s : State) (ret : PAddr) : (frameHigh s ret).getLsbD 12 = s.sr.ra := by
  have hbit := srWord_getLsbD s.sr 4
  simp only [frameHigh, BitVec.getLsbD_append, getLsbD_lowByte]
  exact hbit

/-! ## A trap requested inside a running loop -/

theorem retire_sameProgram (i : Instr) (s t : State) : SameProgram t (retire i s t) := by
  unfold retire leaveTrace countPass countDisi
  split <;> split <;> exact ⟨rfl, rfl⟩

/-- A pass of a running loop is counted, and the PC goes back to it (R313). -/
theorem retire_pass {i : Instr} {s t : State} (hl : loopActive s = true) :
    (retire i s t).pc = s.pc ∧ (retire i s t).rcount = rcountMask t.dev (t.rcount - 1) ∧
      (rcountMask t.dev (t.rcount - 1) ≠ 0 → (retire i s t).sr.ra = t.sr.ra) := by
  unfold retire leaveTrace countPass countDisi
  rw [if_pos hl]
  split <;> exact ⟨rfl, rfl, fun hne => if_neg hne⟩

/-- The handler of a trap that a pass requested: the pass is counted first, and its own address is stacked. -/
theorem finish_trap_inLoop {i : Instr} {s t : State} {k : TrapKind} {target : PAddr}
    (he : t.event = some (.trap k)) (h3 : s.corcon.ipl3 = false) (hl : loopActive s = true)
    (h0 : SlotOk (t.reg sp) 0 t) (h1 : SlotOk (t.reg sp) 1 t)
    (hv : vectorOf (trapLine t.dev k).source t = .ok target) :
    Answers (finish i s t) fun u =>
      u.pc = target ∧ u.sr.ra = false ∧ u.rcount = rcountMask t.dev (t.rcount - 1) ∧ u.event = none ∧
      ramRead u .word (t.reg sp) = s.pc.extractLsb' 0 16 ∧
      ramRead u .word (t.reg sp + 2) = frameHigh (retire i s t) s.pc ∧ u.reg sp = t.reg sp + 4 := by
  obtain ⟨hw, hd, hc, hsplim, hsplimen⟩ := retire_frame i s t
  obtain ⟨hpc, hrcount, -⟩ := retire_pass (i := i) (t := t) hl
  have hsp : ({ retire i s t with event := none } : State).reg sp = t.reg sp := State.reg_congr hw sp
  have hvector := (vectorOf_sameProgram (retire_sameProgram i s t) _).trans hv
  obtain ⟨u, hu, hspec⟩ := enter_answers (s := { retire i s t with event := none }) (trapLine t.dev k).level s.pc
    (by rw [hsp]; exact h0.congr hd hc hsplim hsplimen) (by rw [hsp]; exact h1.congr hd hc hsplim hsplimen) hvector
  refine ⟨u, finish_trap_entered he h3 (hpc ▸ hu), ?_⟩
  rw [hsp, show ({ retire i s t with event := none } : State).rcount = _ from hrcount] at hspec
  exact hspec

/-! ## The statement -/

/-- RCOUNT after the first pass of a divide, at either width of RCOUNT. -/
theorem rcountMask_first_pass (d : Config.Device) : rcountMask d (17 - 1) = 16 := by
  unfold rcountMask
  split <;> rfl

/-- The state after the first execution of a divide, which by a divisor 0 requests the trap. -/
def zeroDivided (kind : DivKind) (m n : Reg) (s : State) : State :=
  advance 1 { scramble (firstRecord kind m n s) s with event := some (.trap .arithmeticError) }

theorem exec_divInstr_zero {kind : DivKind} {m n : Reg} {s : State} (hregs : DivRegs kind m n) (hn : s.reg n = 0)
    (hg : s.divGhost = none) (hra : s.sr.ra = true) (hrc : s.rcount = 17) :
    exec (divInstr kind m n) s = .next (zeroDivided kind m n s) := by
  have hstep := divStep_first (kind := kind) (m := m) (n := n) hg hra hrc
  rw [if_pos hn] at hstep
  exact exec_divInstr_of_step hregs hstep

theorem zeroDivided_sp (kind : DivKind) (m n : Reg) (s : State) : (zeroDivided kind m n s).reg sp = s.reg sp :=
  scramble_reg (firstRecord kind m n s) (by decide) (by decide) s

theorem zeroDivided_kept (kind : DivKind) (m n : Reg) (s : State) :
    Kept [0, 1] [] s { zeroDivided kind m n s with divGhost := s.divGhost } :=
  (scramble_kept (firstRecord kind m n s) s).1.advance 1

/-- Settles O22: the first execution requests the trap; its pass is counted and the handler entered with its frame. -/
theorem divideByZeroTraps : Obligations.DivideByZeroTraps := by
  intro s kind m n hregs hn hg hra hrc
  have hexec := exec_divInstr_zero hregs hn hg hra hrc
  refine ⟨zeroDivided kind m n s, hexec, rfl, hra, rfl, rfl, zeroDivided_kept kind m n s,
    finish_trap_inHandler (k := .arithmeticError) rfl, fun target h3 h0 h1 hv => ?_⟩
  have hl : loopActive s = true := by simp [loopActive, hra, hrc]
  have hcount : rcountMask s.dev (s.rcount - 1) = 16 := by rw [hrc, rcountMask_first_pass]
  have hsp := zeroDivided_sp kind m n s
  have hframe := finish_trap_inLoop (i := divInstr kind m n) (s := s) (t := zeroDivided kind m n s)
    (k := .arithmeticError) rfl h3 hl (by rw [hsp]; exact h0.congr rfl rfl rfl rfl)
    (by rw [hsp]; exact h1.congr rfl rfl rfl rfl) ((vectorOf_sameProgram ⟨rfl, rfl⟩ _).trans hv)
  rw [hsp] at hframe
  refine hframe.imp fun u ⟨hpc, hura, hrcount, hev, hlo, hhi, husp⟩ =>
    ⟨hpc, hura, hrcount.trans hcount, hev, hlo, ?_, ?_, husp⟩
  · rw [hhi, frameHigh_ret]
  · obtain ⟨-, -, hpass⟩ := retire_pass (i := divInstr kind m n) (t := zeroDivided kind m n s) hl
    rw [hhi, frameHigh_ra]
    exact (hpass (hcount ▸ (by decide : (16 : Word) ≠ 0))).trans hra

end Sys2Proof.Machine
end

section
/-! The shifts by any number of places, literal and in a register (R242, R244, R246, R247): O48. -/

namespace Sys2Proof.Machine

/-! ## The shifted word -/

theorem shifted_left_word_toNat (k : Nat) (v : Word) :
    (shifted .left .word k v).toNat = v.toNat * 2 ^ k % 65536 :=
  (BitVec.toNat_shiftLeft ..).trans (by rw [Nat.shiftLeft_eq])

theorem shifted_logical_word_toNat (k : Nat) (v : Word) :
    (shifted .logical .word k v).toNat = v.toNat / 2 ^ k :=
  (BitVec.toNat_ushiftRight ..).trans (Nat.shiftRight_eq_div_pow ..)

theorem shifted_arith_word_toInt (k : Nat) (v : Word) :
    (shifted .arith .word k v).toInt = v.toInt / 2 ^ k :=
  BitVec.toInt_sshiftRight.trans (by rw [Int.shiftRight_eq_div_pow]; norm_cast)

/-! ## N and Z of a word -/

theorem zero_word_iff (r : Word) : zero .word r = true ↔ r = 0 :=
  (zero_iff r.isLt).trans (BitVec.toNat_inj (y := 0))

/-- N is the sign of the word as a signed number. -/
theorem negative_word_iff (r : Word) : negative .word r = true ↔ r.toInt < 0 := by
  rw [negative, signBit, widthOf, ← BitVec.msb_eq_getLsbD_last, BitVec.msb_eq_toInt, decide_eq_true_iff]

/-! ## What a multi-bit shift leaves -/

/-- Wnd holds a word with the property, N and Z are of that word, the other flags are as before, and the PC is at the
next instruction. -/
def HoldsShifted (nd : Reg) (p : Word → Prop) (s t : State) : Prop :=
  ∃ r : Word, t.reg nd = regMask nd r ∧ p r ∧ (t.sr.flags.z = true ↔ r = 0) ∧ (t.sr.flags.n = true ↔ r.toInt < 0) ∧
    t.sr.flags.c = s.sr.flags.c ∧ t.sr.flags.ov = s.sr.flags.ov ∧ t.sr.flags.dc = s.sr.flags.dc ∧ t.pc = s.pc + 2

theorem shiftInto_holds (nd : Reg) {p : Word → Prop} {r : Word} (hr : p r) (s : State) :
    HoldsShifted nd p s (advance 1 (shiftInto nd r s)) := by
  obtain ⟨-, hdc, hov, hc⟩ := shiftInto_frame nd r s
  have hreg : (advance 1 (shiftInto nd r s)).reg nd = regMask nd r := by simp [shiftInto]
  exact ⟨r, hreg, hr, zero_word_iff r, negative_word_iff r, hc, hov, hdc, rfl⟩

theorem shiftLit_answers {op : ShiftOp} {wb : Reg} {k : BitVec 4} {p : Word → Prop} {s : State} (nd : Reg)
    (hp : p (shifted op .word k.toNat (s.reg wb))) :
    Answers (shiftLit op wb k nd s) (HoldsShifted nd p s) :=
  ⟨_, rfl, shiftInto_holds nd hp s⟩

theorem shiftReg_answers {op : ShiftOp} {wb ns : Reg} {p : Word → Prop} {s : State} (nd : Reg)
    (hk : (s.reg ns).toNat ≤ 15) (hp : p (shifted op .word (s.reg ns).toNat (s.reg wb))) :
    Answers (shiftReg op wb ns nd s) (HoldsShifted nd p s) :=
  ⟨_, by rw [shiftReg, if_pos hk, settle_ok], shiftInto_holds nd hp s⟩

theorem shiftReg_refused (op : ShiftOp) (wb nd : Reg) {ns : Reg} {s : State} (hk : 15 < (s.reg ns).toNat) :
    shiftReg op wb ns nd s = .refused .shiftCountOver15 := by
  rw [shiftReg, if_neg hk.not_ge, settle_refuse]

/-- Settles O48: the shifted word as a number, for a literal and for a register count up to 15; past it the refusal. -/
theorem shiftByCount : Obligations.ShiftByCount := by
  intro s wb ns nd lit
  refine ⟨shiftLit_answers nd (shifted_left_word_toNat _ _), shiftLit_answers nd (shifted_logical_word_toNat _ _),
    shiftLit_answers nd (shifted_arith_word_toInt _ _), fun hk => ?counted, fun hk i hi => ?refused⟩
  case counted =>
    exact ⟨shiftReg_answers nd hk (shifted_left_word_toNat _ _),
      shiftReg_answers nd hk (shifted_logical_word_toNat _ _), shiftReg_answers nd hk (shifted_arith_word_toInt _ _)⟩
  case refused =>
    obtain rfl | rfl | rfl := hi
    · exact shiftReg_refused .left wb nd hk
    · exact shiftReg_refused .logical wb nd hk
    · exact shiftReg_refused .arith wb nd hk

end Sys2Proof.Machine
end

section
/-! Returning from an exception: what RETFIE takes from the frame, and that it undoes the entry (R277, R356): O19, O20. -/

namespace Sys2Proof.Machine

/-! ## SR<7:0> on the stack and back -/

/-- The byte that RETFIE restores reads back as SR<7:0>. -/
theorem lowByte_srWord_srRestored (r : StatusReg) (b : Byte) : lowByte (srWord (srRestored r b)) = b := by
  apply BitVec.eq_of_getLsbD_eq
  intro i hi
  rw [getLsbD_lowByte, srWord_getLsbD]
  interval_cases i <;> simp [srBit, srRestored, BitVec.getLsbD_extractLsb', -BitVec.getLsbD_eq_getElem]

/-- SR<7:0> restored over a register with the same DC, the one bit outside that byte. -/
theorem srRestored_lowByte_srWord {r r' : StatusReg} (hdc : r'.flags.dc = r.flags.dc) :
    srRestored r' (lowByte (srWord r)) = r := by
  have hbit : ∀ k, k < 8 → (lowByte (srWord r)).getLsbD k = srBit r k := fun k hk => by
    rw [getLsbD_lowByte, srWord_getLsbD, decide_eq_true hk, Bool.true_and]
  have hipl : (lowByte (srWord r)).extractLsb' 5 3 = r.ipl := by
    apply BitVec.eq_of_getLsbD_eq
    intro i hi
    rw [BitVec.getLsbD_extractLsb', hbit _ (by omega), decide_eq_true hi, Bool.true_and]
    interval_cases i <;> rfl
  rw [srRestored, hipl, hdc, hbit 0 (by decide), hbit 1 (by decide), hbit 2 (by decide), hbit 3 (by decide),
    hbit 4 (by decide)]
  rfl

/-! ## The frame's second word (R101) -/

theorem highByte_frameHigh (s : State) (ret : PAddr) : highByte (frameHigh s ret) = lowByte (srWord s.sr) := by
  apply BitVec.eq_of_getLsbD_eq
  intro i hi
  rw [getLsbD_highByte, decide_eq_true hi, Bool.true_and, frameHigh, BitVec.getLsbD_append, if_neg (by omega),
    BitVec.getLsbD_append, if_neg (by omega), show 8 + i - 7 - 1 = i by omega]

theorem frameHigh_ipl3 (s : State) (ret : PAddr) : (frameHigh s ret).getLsbD 7 = s.corcon.ipl3 := by
  rw [frameHigh, BitVec.getLsbD_append, if_neg (by decide), BitVec.getLsbD_append, if_pos (by decide)]
  simp

/-- The two words of a frame make up the return address. -/
theorem poppedAddr_frame (s : State) {ret : PAddr} (he : ret.toNat % 2 = 0) :
    poppedAddr (frameHigh s ret) (ret.extractLsb' 0 16) = ret := by
  have hjoin : ret.extractLsb' 16 7 ++ ret.extractLsb' 0 16 = ret :=
    (BitVec.extractLsb'_append_extractLsb'_eq_extractLsb' rfl).trans BitVec.extractLsb'_eq_self
  rw [poppedAddr, frameHigh_ret, hjoin, evenAddr_of_even he]

/-! ## The notes of delayed targets (R316) -/

theorem findAt_dropFrame (top : Word) (l : List (Nat × PAddr)) : findAt (dropFrame top l) top.toNat = none := by
  induction l with
  | nil => rfl
  | cons e l ih =>
    obtain ⟨a, x⟩ := e
    by_cases ha : a = top.toNat
    · rw [dropFrame, List.filter_cons_of_neg (by simp [ha])]
      exact ih
    · rw [dropFrame, List.filter_cons_of_pos (by simp [ha]), findAt, if_neg (Ne.symm ha)]
      exact ih

/-- The frame is noted with its return address after a REPEAT, and has no note otherwise. -/
theorem findAt_noteFrame (after : Bool) (top : Word) (ret : PAddr) (l : List (Nat × PAddr)) :
    findAt (noteFrame after top ret l) top.toNat = if after then some ret else none := by
  cases after with
  | false => exact findAt_dropFrame top l
  | true => simp [noteFrame, findAt]

/-! ## RETFIE -/

/-- The state after RETFIE: the frame popped, SR<7:0>, IPL3 and the PC restored from it. -/
def returned (s : State) : State :=
  (restoreFrame (stackWord (s.reg sp) 1 s) (stackWord (s.reg sp) 2 s)
    ((s.setW sp (s.reg sp - 2)).setW sp (s.reg sp - 4))).backToTarget (s.reg sp)

theorem exec_retfie_ok {s : State} (h1 : TopOk (s.reg sp) 1 s) (h2 : TopOk (s.reg sp) 2 s) :
    exec .retfie s = .next (returned s) := by
  obtain ⟨f, hexec⟩ := exec_retfie s
  rw [hexec, popFrame_ok h1 h2]
  rfl

theorem returned_reg {s : State} (h : TopOk (s.reg sp) 2 s) (n : Reg) :
    (returned s).reg n = if n = sp then s.reg sp - 4 else s.reg n := reg_after_popFrame h n

theorem RegsKept.trans {R : List Reg} {s t u : State} (h : RegsKept R [] s t) (k : RegsKept R [] t u) :
    RegsKept R [] s u := fun r hr hm =>
  have ⟨hreg, hinit⟩ := h r hr hm
  have ⟨kreg, kinit⟩ := k r hr hm
  ⟨kreg.trans hreg, kinit.trans hinit⟩

theorem returned_regsKept (s : State) : RegsKept [sp] [] s (returned s) :=
  (((Kept.setW s sp (s.reg sp - 2)).trans (Kept.setW _ sp (s.reg sp - 4))).mono (R2 := [sp]) (S2 := []) (by simp)
    (by simp)).1

/-- Settles O20: SR<7:0>, IPL3 and the PC are read off the state RETFIE leaves. -/
theorem retfieRestoresTheFrame : Obligations.RetfieRestoresTheFrame := fun s h1 h2 =>
  ⟨returned s, exec_retfie_ok h1 h2, lowByte_srWord_srRestored s.sr _, rfl, rfl, rfl, poppedAddr_toNat _ _,
    (returned_reg h2 sp).trans (if_pos rfl)⟩

/-! ## The stack that an exception entry leaves -/

/-- The state after an exception entry to the handler at `target` (R352). -/
def entered (p : BitVec 4) (ret target : PAddr) (s : State) : State :=
  let s1 := setLevel p (pushedTwo (ret.extractLsb' 0 16) (frameHigh s ret) s)
  { s1 with
    sr := { s1.sr with ra := false }
    pc := target
    prev := { s1.prev with mods := 0, midLoop := false, afterRepeat := false }
    delayed := noteFrame s.prev.afterRepeat (s1.reg sp) ret s1.delayed }

theorem enter_eq_entered {v : Nat} {p : BitVec 4} {ret : PAddr} {s t : State} (h0 : SlotOk (s.reg sp) 0 s)
    (h1 : SlotOk (s.reg sp) 1 s) (h : enter v p ret s = .ok t) : ∃ target, t = entered p ret target s := by
  obtain ⟨s1, hpush, h⟩ := bind_ok h
  obtain ⟨target, -, h⟩ := bind_ok h
  rw [pushPcExc_eq ret h0 h1] at hpush
  cases hpush
  cases h
  exact ⟨target, rfl⟩

/-- Data accesses depend on the device and on PSV, not on IPL3. -/
theorem AccessOk.congr_psv {sz : Size} {a : Word} {s t : State} (h : AccessOk sz a s) (hd : t.dev = s.dev)
    (hp : t.corcon.psv = s.corcon.psv) : AccessOk sz a t := by
  obtain ⟨heven, hram, hholds⟩ := h
  have himpl : dataImplemented t = dataImplemented s := by unfold dataImplemented; rw [hd]
  refine ⟨heven, ?_, ?_⟩
  · rw [← hram]; unfold region; rw [hd, hp, himpl]
  · rw [← hholds]; unfold ramHolds; rw [himpl]

/-- A word of a frame that could be pushed can be popped. -/
theorem SlotOk.topOk {base top : Word} {j k : Nat} {s t : State} (h : SlotOk base k s)
    (ha : top - BitVec.ofNat 16 (2 * j) = base + BitVec.ofNat 16 (2 * k)) (hd : t.dev = s.dev)
    (hp : t.corcon.psv = s.corcon.psv) (hs : t.splim = s.splim) (hl : t.splimen = s.splimen)
    (hw : t.prev.splim = false) : TopOk top j t := by
  obtain ⟨haccess, hlimit⟩ := h
  rw [TopOk, ha, hs, hl]
  refine ⟨haccess.congr_psv hd hp, fun hlatch => ⟨?_, hw⟩⟩
  obtain ⟨-, hle⟩ := hlimit hlatch
  calc (base + BitVec.ofNat 16 (2 * k)).toNat ≤ base.toNat + 2 * k := by
        rw [BitVec.toNat_add, BitVec.toNat_ofNat]; omega
    _ ≤ s.splim.toNat + 2 := hle

/-- The words below `W15 = base + 4` are those of the frame pushed from `base`. -/
theorem frame_addrs (base : Word) :
    base + 4 - BitVec.ofNat 16 (2 * 1) = base + 2 ∧ base + 4 - BitVec.ofNat 16 (2 * 2) = base :=
  ⟨add_sub_assoc base 4 2, add_sub_cancel_right base 4⟩

section
variable {p : BitVec 4} {ret target : PAddr} {s : State}

theorem entered_sp (h0 : SlotOk (s.reg sp) 0 s) (h1 : SlotOk (s.reg sp) 1 s) :
    (entered p ret target s).reg sp = s.reg sp + 4 := by
  obtain ⟨-, -, hsp, -⟩ := pushedTwo_spec (lo := ret.extractLsb' 0 16) (hi := frameHigh s ret) h0 h1
  exact hsp

theorem entered_topOk (h0 : SlotOk (s.reg sp) 0 s) (h1 : SlotOk (s.reg sp) 1 s) (hw : s.prev.splim = false) :
    TopOk ((entered p ret target s).reg sp) 1 (entered p ret target s) ∧
      TopOk ((entered p ret target s).reg sp) 2 (entered p ret target s) := by
  obtain ⟨hhi, hlo⟩ := frame_addrs (s.reg sp)
  rw [entered_sp h0 h1]
  exact ⟨h1.topOk hhi rfl rfl rfl rfl hw, h0.topOk (hlo.trans (add_zero _).symm) rfl rfl rfl rfl hw⟩

/-- The words at the top of the stack are the frame's. -/
theorem entered_stackWord (h0 : SlotOk (s.reg sp) 0 s) (h1 : SlotOk (s.reg sp) 1 s) :
    stackWord ((entered p ret target s).reg sp) 1 (entered p ret target s) = frameHigh s ret ∧
      stackWord ((entered p ret target s).reg sp) 2 (entered p ret target s) = ret.extractLsb' 0 16 := by
  obtain ⟨hlo, hhi, -⟩ := pushedTwo_spec (lo := ret.extractLsb' 0 16) (hi := frameHigh s ret) h0 h1
  obtain ⟨hhiAddr, hloAddr⟩ := frame_addrs (s.reg sp)
  rw [entered_sp h0 h1, stackWord, stackWord, hhiAddr, hloAddr]
  exact ⟨hhi, hlo⟩

theorem entered_regsKept : RegsKept [sp] [] s (entered p ret target s) := by
  intro r hr _
  have hne : sp ≠ r := fun h => hr (by simp [h])
  show (pushedTwo _ _ s).reg r = s.reg r ∧ (pushedTwo _ _ s).isInit r = s.isInit r
  simp [pushedTwo, hne]

/-- What RETFIE restores right after the entry. -/
theorem returned_entered (h0 : SlotOk (s.reg sp) 0 s) (h1 : SlotOk (s.reg sp) 1 s) (he : ret.toNat % 2 = 0) :
    (returned (entered p ret target s)).pc = ret ∧ (returned (entered p ret target s)).sr = s.sr ∧
      (returned (entered p ret target s)).corcon = s.corcon := by
  obtain ⟨hhi, hlo⟩ := entered_stackWord (p := p) (ret := ret) (target := target) h0 h1
  rw [returned, hhi, hlo]
  refine ⟨poppedAddr_frame s he, ?_, ?_⟩
  · rw [State.backToTarget_sr, restoreFrame_sr, highByte_frameHigh]
    exact srRestored_lowByte_srWord rfl
  · rw [State.backToTarget_corcon, restoreFrame_corcon, frameHigh_ipl3]
    rfl

/-- The return goes back to the target of a REPEAT where the entry noted one. -/
theorem returned_toTarget (hpc : (returned (entered p ret target s)).pc = ret) :
    (returned (entered p ret target s)).cur.toTarget = s.prev.afterRepeat := by
  have hnote : findAt (entered p ret target s).delayed ((entered p ret target s).reg sp).toNat =
      if s.prev.afterRepeat then some ret else none := findAt_noteFrame ..
  show decide (findAt (entered p ret target s).delayed ((entered p ret target s).reg sp).toNat =
    some (returned (entered p ret target s)).pc) = _
  rw [hnote, hpc]
  cases s.prev.afterRepeat <;> simp

end

/-- Settles O19: the entry leaves a frame that RETFIE can pop, and what it pops is what the entry pushed. -/
theorem retfieUndoesEnter : Obligations.RetfieUndoesEnter := by
  intro s t v p ret h0 h1 hw he h
  obtain ⟨target, rfl⟩ := enter_eq_entered h0 h1 h
  obtain ⟨htop1, htop2⟩ := entered_topOk (p := p) (ret := ret) (target := target) h0 h1 hw
  obtain ⟨hpc, hsr, hcorcon⟩ := returned_entered (p := p) (target := target) h0 h1 he
  have hsp : (returned (entered p ret target s)).reg sp = s.reg sp := by
    rw [returned_reg htop2, if_pos rfl, entered_sp h0 h1]
    exact BitVec.add_sub_cancel ..
  exact ⟨_, exec_retfie_ok htop1 htop2, hpc, hsr, hcorcon, hsp, entered_regsKept.trans (returned_regsKept _),
    returned_toTarget hpc⟩

end Sys2Proof.Machine
end

section
/-! One program word read through the table window and through the PSV window, and the instructions that stop on every
operand (R300 to R304, R320): O33, O9. -/

namespace Sys2Proof.Machine

/-! ## One word through two windows -/

/-- Halving and doubling an even address changes nothing. -/
theorem halved_doubled_of_not_odd {a : Word} (h : isOdd a = false) : a.toNat / 2 * 2 = a.toNat := by
  rw [← evenWord_toNat, evenWord_of_not_odd h]

theorem progRead_of_implemented {s : State} {a : Nat} (h : progImplemented s a = true) : ∃ w, progRead s a = some w :=
  ⟨_, if_pos h⟩

section
variable {s : State} {n nd : Reg} {f : Word} {w : PWord}

/-- Pages and half pages are even, so pointers of one program address are aligned alike. -/
theorem tablePointer_not_odd (h8 : 0x8000 ≤ f.toNat) (ho : isOdd f = false)
    (haddr : s.tblpag.toNat * 0x10000 + (s.reg n).toNat = s.psvpag.toNat * 0x8000 + (f.toNat - 0x8000)) :
    isOdd (s.reg n) = false := by
  rw [isOdd_eq, decide_eq_false_iff_not] at ho ⊢
  omega

/-- TBLRDL through an aligned pointer loads bits 15:0 of the word it names (R301). -/
theorem tblrdl_loads_progLow (hi : s.isInit n = true) (hn : n ≠ sp) (h7 : s.tblpag.getLsbD 7 = false)
    (ho : isOdd (s.reg n) = false) (hw : progRead s (s.tblpag.toNat * 0x10000 + (s.reg n).toNat) = some w) :
    Answers (exec (.tblrdl .word (.ind n) (.direct nd)) s) fun t => t.reg nd = regMask nd (progLow w) := by
  have hea : eaOf (.ind n) (bytesOf .word) s = s.reg n := eaOf_ind n _ s
  have hp : PointerOk (.ind n) (bytesOf .word) true s := pointerOk_of_not_usesSp hi (decide_eq_false hn)
  rw [← halved_doubled_of_not_odd ho] at hw
  exact (tableRead_answers false (dst := .direct nd) rfl rfl hp h7 (fun _ => hea ▸ ho) (hea ▸ hw) (.inl rfl)).imp
    fun t ⟨htook, _⟩ => htook

/-- MOV f,Wnd in the PSV window loads bits 15:0 of the word it names (R93). -/
theorem movFWnd_loads_progLow (h8 : 0x8000 ≤ f.toNat) (ho : isOdd f = false) (hpsv : s.corcon.psv = true)
    (hc : cpuRegAt s.dev.sfr f = none)
    (hw : progRead s (s.psvpag.toNat * 0x8000 + (f.toNat - 0x8000)) = some w) :
    Answers (exec (.movFWnd f nd) s) fun t => t.reg nd = regMask nd (progLow w) := by
  rw [← evenWord_of_not_odd ho] at hc
  have haddr : s.psvpag.toNat * 0x8000 + (f.toNat - 0x8000) = psvAddr s f := by
    rw [psvAddr_of_window h8]
    have := halved_doubled_of_not_odd ho
    omega
  rw [haddr] at hw
  refine ⟨_, exec_movFWnd_of_read (memRead_psv (fun _ => ho) (region_psv hc h8 hpsv) hw), ?_⟩
  exact (State.reg_setW ..).trans (if_pos rfl)

end

/-- Settles O33: either window loads bits 15:0 of the one program word that both addresses name. -/
theorem tableReadMatchesPsv : Obligations.TableReadMatchesPsv := by
  intro s n nd f hi hn _ ho h8 hpsv hc h7 haddr himpl
  obtain ⟨w, hw⟩ := progRead_of_implemented himpl
  have hwTable := hw
  rw [← haddr] at hwTable
  have htable := tblrdl_loads_progLow (nd := nd) hi hn h7 (tablePointer_not_odd h8 ho haddr) hwTable
  have hpsvLoad := movFWnd_loads_progLow (nd := nd) h8 ho hpsv hc hw
  exact htable.imp fun t ht => hpsvLoad.imp fun u hu => ht.trans hu.symm

/-! ## Instructions that stop on every operand -/

/-- Settles O9: the meanings of the three instructions look at neither operand nor state (R303, R320). -/
theorem tableWritesAndPowerSaveStop : Obligations.TableWritesAndPowerSaveStop :=
  fun _ _ _ _ _ => ⟨rfl, rfl, rfl⟩

end Sys2Proof.Machine
end

section
/-! What the end of an instruction adds to it: the pass, the cycles and the marks (R313, R319, R401, R410 to R415): O6. -/

namespace Sys2Proof.Machine

/-! ## An instruction that is over -/

theorem loopActive_iff (s : State) : loopActive s = true ↔ s.sr.ra = true ∧ s.rcount ≠ 0 := by
  simp [loopActive]

theorem finish_of_no_event {i : Instr} {s t : State} (h : t.event = none) : finish i s t = .next (retire i s t) := by
  simp only [finish, h]

theorem countDisi_eq (i : Instr) (s t : State) :
    countDisi i s t = { t with disicnt := (countDisi i s t).disicnt } := by
  unfold countDisi
  split <;> rfl

theorem countDisi_of_ne_disi {i : Instr} (h : ∀ lit, i ≠ .disi lit) (s t : State) :
    countDisi i s t = { t with disicnt := BitVec.ofNat 14 (t.disicnt.toNat - cyclesOf i s t) } := by
  cases i with
  | disi lit => exact absurd rfl (h lit)
  | _ => rfl

theorem countPass_disicnt (s t : State) : (countPass s t).disicnt = t.disicnt := by
  unfold countPass
  split <;> rfl

/-- `t` with the fields that the end of an instruction writes taken from `u`. -/
def withPassOf (u t : State) : State :=
  { t with
    pc := u.pc, rcount := u.rcount, sr := { t.sr with ra := u.sr.ra }, disicnt := u.disicnt, prev := u.prev,
    cur := u.cur }

theorem countPass_eq (s t : State) : countPass s t = withPassOf (countPass s t) t := by
  unfold countPass
  split <;> rfl

theorem retire_eq (i : Instr) (s t : State) : retire i s t = withPassOf (retire i s t) t := by
  unfold retire
  rw [countDisi_eq, countPass_eq]
  rfl

/-- Nothing else of the state is written by the end of an instruction. -/
theorem retire_keeps {α : Type} (f : State → α) (i : Instr) (s t : State) :
    f (retire i s t) = f (withPassOf (retire i s t) t) := congrArg f (retire_eq i s t)

theorem retire_past_loop {i : Instr} {s t : State} (hl : loopActive s = false) :
    (retire i s t).pc = t.pc ∧ (retire i s t).rcount = t.rcount ∧ (retire i s t).sr.ra = t.sr.ra := by
  have hpass : countPass s (countDisi i s t) = countDisi i s t := if_neg (Bool.eq_false_iff.1 hl)
  rw [retire, hpass, countDisi_eq]
  exact ⟨rfl, rfl, rfl⟩

/-- A pass that brings RCOUNT to 0 is the last one: it clears RA (R313). -/
theorem retire_pass_ra {i : Instr} {s t : State} (hl : loopActive s = true) :
    (retire i s t).sr.ra = true ↔ t.sr.ra = true ∧ (retire i s t).rcount ≠ 0 := by
  have hpass : (countPass s (countDisi i s t)).sr.ra =
      if rcountMask t.dev (t.rcount - 1) = 0 then false else t.sr.ra := by
    rw [countPass, if_pos hl, countDisi_eq]
  obtain ⟨-, hrcount, -⟩ := retire_pass (i := i) (t := t) hl
  rw [hrcount, retire, leaveTrace_sr, hpass]
  split <;> simp_all

theorem retire_prev (i : Instr) (s t : State) :
    (retire i s t).prev =
      ⟨modsMask i ||| t.cur.wHit, t.cur.splimHit, loopActive s, isRepeat i || t.cur.toTarget⟩ := by
  have hcur : (countPass s (countDisi i s t)).cur = t.cur := by
    unfold countPass
    rw [countDisi_eq]
    split <;> rfl
  rw [retire, leaveTrace, hcur]

theorem isRepeat_iff (i : Instr) : isRepeat i = true ↔ (∃ lit, i = .repeatLit lit) ∨ ∃ n, i = .repeatW n := by
  cases i <;> simp [isRepeat]

theorem retire_disicnt_disi (lit : BitVec 14) (s t : State) : (retire (.disi lit) s t).disicnt = t.disicnt := by
  rw [retire, leaveTrace_disicnt, countPass_disicnt]
  rfl

theorem retire_disicnt {i : Instr} (h : ∀ lit, i ≠ .disi lit) (s t : State) :
    (retire i s t).disicnt.toNat = t.disicnt.toNat - cyclesOf i s t := by
  rw [retire, leaveTrace_disicnt, countPass_disicnt, countDisi_of_ne_disi h, BitVec.toNat_ofNat]
  have := t.disicnt.isLt
  omega

/-! ## The registers of a mask (R412) -/

@[simp] theorem getLsbD_regBit (n r : Reg) : (regBit n).getLsbD r.val = decide (r = n) := by
  revert n r; decide

@[simp] theorem getLsbD_pairBits (n r : Reg) :
    (pairBits n).getLsbD r.val = (decide (r = n) || decide (r = pairHigh n)) := by
  rw [pairBits, BitVec.getLsbD_or, getLsbD_regBit, getLsbD_regBit, pairHigh]

theorem getLsbD_eaMask (op : Opnd) (r : Reg) : (eaMask op).getLsbD r.val = formsAddress op r := by
  cases op with
  | direct n => simp [eaMask, formsAddress]
  | ind n | postDec n | postInc n | preDec n | preInc n => exact getLsbD_regBit n r
  | offset n b => simp [eaMask, formsAddress, -BitVec.getLsbD_eq_getElem]

theorem getLsbD_sourceEaMask (i : Instr) (r : Reg) : (sourceEaMask i).getLsbD r.val = sourceUses i r := by
  cases i <;> simp [sourceEaMask, sourceUses, getLsbD_eaMask, -BitVec.getLsbD_eq_getElem]

theorem getLsbD_dstMask (op : Opnd) (r : Reg) :
    (dstMask op).getLsbD r.val = true ↔ r = op.reg ∧ (isDirect op = true ∨ modifies op = true) := by
  unfold dstMask
  split <;> simp_all [-BitVec.getLsbD_eq_getElem]

/-- Two masks are disjoint when no register is in both. -/
theorem mask_and_eq_zero_iff (a b : BitVec 16) :
    a &&& b = 0 ↔ ¬∃ r : Reg, a.getLsbD r.val = true ∧ b.getLsbD r.val = true := by
  constructor
  · rintro h ⟨r, ha, hb⟩
    have hbit := congrArg (·.getLsbD r.val) h
    simp [ha, hb, -BitVec.getLsbD_eq_getElem] at hbit
  · intro h
    apply BitVec.eq_of_getLsbD_eq
    intro k hk
    simpa [-BitVec.getLsbD_eq_getElem] using fun ha hb => h ⟨⟨k, hk⟩, ha, hb⟩

/-! ## Cycles (R410 to R415) -/

theorem stallCycles_eq (i : Instr) (s : State) :
    stallCycles i s = if ∃ r : Reg, s.prev.mods.getLsbD r.val = true ∧ sourceUses i r = true then 1 else 0 := by
  have hdisjoint := mask_and_eq_zero_iff s.prev.mods (sourceEaMask i)
  simp only [getLsbD_sourceEaMask] at hdisjoint
  simp only [stallCycles, hdisjoint, ite_not]

theorem psvCycles_eq (s t : State) :
    psvCycles s t = if t.cur.psvRead = true ∧ s.prev.midLoop = false then 2 else 0 := by
  simp [psvCycles]

theorem takes_of_baseCycles {base : Nat} {i : Instr} {s t : State} (h : baseCycles i (skippedWords s t) = base) :
    Takes base i s t := by
  rw [Takes, cyclesOf, h, stallCycles_eq, psvCycles_eq]

theorem skippedWords_of_pc {s t : State} {d : PAddr} (h : t.pc = s.pc + d) : skippedWords s t = d.toNat / 2 - 1 := by
  rw [skippedWords, h, add_sub_cancel_left]

theorem takes_btsc {s t : State} {d : PAddr} (g : BitVec 13) (k : BitVec 4) (h : t.pc = s.pc + d) :
    Takes (1 + (d.toNat / 2 - 1)) (.btsc g k) s t :=
  takes_of_baseCycles (congrArg (1 + ·) (skippedWords_of_pc h))

theorem cycleTable (s t : State) : CycleTable s t := by
  intro sz src dst wb m n f v g b l k c e p d file
  refine ⟨fun i hi => takes_of_baseCycles ?_, fun i hi => takes_of_baseCycles ?_, fun i hi => takes_of_baseCycles ?_,
    takes_btsc g k, takes_btsc g k, takes_btsc g k⟩ <;> revert i
  · cases d <;> simp [baseCycles, divInstr]
  · simp [baseCycles]
  · simp [baseCycles]

/-! ## Modified registers (R412, R414) -/

section
variable {i : Instr} {t u : State} {r : Reg}

/-- What the next instruction's stall asks about: the registers of the mask, and those whose address was stored to. -/
theorem mods_iff {p : Prop} (hu : u.prev.mods = modsMask i ||| t.cur.wHit)
    (hp : (modsMask i).getLsbD r.val = true ↔ p) :
    u.prev.mods.getLsbD r.val = true ↔ t.cur.wHit.getLsbD r.val = true ∨ p := by
  rw [hu, BitVec.getLsbD_or, Bool.or_eq_true, hp, or_comm]

/-- Instructions that share a mask. -/
theorem mods_iff_of_mem {p : Prop} {l : List Instr} {m : BitVec 16} (hu : u.prev.mods = modsMask i ||| t.cur.wHit)
    (hl : ∀ j ∈ l, modsMask j = m) (hi : i ∈ l) (hp : m.getLsbD r.val = true ↔ p) :
    u.prev.mods.getLsbD r.val = true ↔ t.cur.wHit.getLsbD r.val = true ∨ p :=
  mods_iff hu (by rw [hl i hi, hp])

theorem mods_iff_of_zero {l : List Instr} (hu : u.prev.mods = modsMask i ||| t.cur.wHit)
    (hl : ∀ j ∈ l, modsMask j = 0) (hi : i ∈ l) :
    u.prev.mods.getLsbD r.val = true ↔ t.cur.wHit.getLsbD r.val = true := by
  rw [mods_iff_of_mem (p := False) hu hl hi (by simp), or_false]

end

theorem getLsbD_regBit_iff (n r : Reg) : (regBit n).getLsbD r.val = true ↔ r = n := by
  rw [getLsbD_regBit, decide_eq_true_eq]

theorem getLsbD_pairBits_iff (n r : Reg) : (pairBits n).getLsbD r.val = true ↔ r = n ∨ r = pairHigh n := by
  rw [getLsbD_pairBits, Bool.or_eq_true, decide_eq_true_eq, decide_eq_true_eq]

theorem getLsbD_framePointers_iff (r : Reg) : (regBit fp ||| regBit sp).getLsbD r.val = true ↔ r = fp ∨ r = sp := by
  rw [BitVec.getLsbD_or, Bool.or_eq_true, getLsbD_regBit_iff, getLsbD_regBit_iff]

theorem getLsbD_modsMask_movDStore (ns r : Reg) (dst : Opnd) :
    (modsMask (.movDStore ns dst)).getLsbD r.val = true ↔
      (r = dst.reg ∧ (isDirect dst = true ∨ modifies dst = true)) ∨ (isDirect dst = true ∧ r = pairHigh dst.reg) := by
  have hmask : modsMask (.movDStore ns dst) = if isDirect dst then pairBits dst.reg else dstMask dst := rfl
  rw [hmask]
  split
  next hd => simp only [getLsbD_pairBits_iff, hd, true_or, and_true, true_and]
  next hd => simp only [getLsbD_dstMask, hd, Bool.false_eq_true, false_or, false_and, or_false]

theorem getLsbD_modsMask_mulF (sz : Size) (g : BitVec 13) (r : Reg) :
    (modsMask (.mulF sz g)).getLsbD r.val = true ↔ r = 2 ∨ (sz = .word ∧ r = 3) := by
  cases sz with
  | word => exact (getLsbD_pairBits_iff 2 r).trans (or_congr_right (by simp [pairHigh]))
  | byte => exact (getLsbD_regBit_iff 2 r).trans (by simp)

theorem modsMask_divInstr (d : DivKind) (m n : Reg) : modsMask (divInstr d m n) = pairBits 0 := by
  cases d <;> rfl

theorem getLsbD_modsMask_popS (r : Reg) : (modsMask .popS).getLsbD r.val = true ↔ r.val < 4 := by
  revert r; decide

theorem modifiedNoted {i : Instr} {t u : State} (hu : u.prev.mods = modsMask i ||| t.cur.wHit) :
    ModifiedNoted i t u := by
  intro r sz src dst wb m n f v g b l k c e p d
  refine ⟨fun hi => mods_iff_of_mem hu (by simp [modsMask]) hi (getLsbD_dstMask dst r),
    fun hi => mods_iff_of_mem hu (by simp [modsMask]) hi (getLsbD_regBit_iff n r),
    fun hi => mods_iff_of_mem hu (by simp [modsMask]) hi (getLsbD_pairBits_iff n r),
    fun hi => mods_iff_of_mem hu (by simp [modsMask]) hi (getLsbD_regBit_iff sp r),
    fun hi => mods_iff_of_zero hu (by simp [modsMask]) hi, ?_, ?_, ?_, ?_,
    fun hi => mods_iff_of_mem hu (by simp [modsMask]) hi (getLsbD_framePointers_iff r), ?_⟩
  · rintro rfl
    exact mods_iff hu (getLsbD_regBit_iff wreg r)
  · rintro rfl
    exact mods_iff hu (getLsbD_modsMask_movDStore n r dst)
  · rintro rfl
    exact mods_iff hu (getLsbD_modsMask_mulF sz g r)
  · rintro rfl
    exact mods_iff hu (by rw [modsMask_divInstr]; exact getLsbD_pairBits_iff 0 r)
  · rintro rfl
    exact mods_iff hu (getLsbD_modsMask_popS r)

/-! ## The statement -/

/-- Settles O6: the end of an instruction writes the PC, RCOUNT, RA, DISICNT and the marks, each by its own rule. -/
theorem finishCountsThePass : Obligations.FinishCountsThePass := by
  intro i s t he
  have hkept {α : Type} (f : State → α) := retire_keeps f i s t
  have hprev := retire_prev i s t
  refine ⟨retire i s t, finish_of_no_event he, hkept State.w, hkept State.winit,
    hkept State.mem, hkept State.corcon, hkept (·.sr.flags), hkept (·.sr.ipl),
    hkept State.splim, hkept State.splimen, hkept State.tblpag, hkept State.psvpag,
    hkept State.wsh, hkept State.srsh, hkept State.divGhost, hkept State.prog,
    hkept State.dev, hkept State.inputs, hkept State.devOut, hkept State.draws,
    hkept State.ramEpoch, (retire_event i s t).trans he, fun hl => ?_, fun hl => ?_, ?_, ?_,
    congrArg Previous.splim hprev, ?_, fun hi => retire_disicnt hi s t, cycleTable s t,
    modifiedNoted (congrArg Previous.mods hprev)⟩
  · have hloop := (loopActive_iff s).2 hl
    obtain ⟨hpc, hrcount, -⟩ := retire_pass (i := i) (t := t) hloop
    exact ⟨hpc, hrcount, retire_pass_ra hloop⟩
  · exact retire_past_loop (Bool.eq_false_iff.2 fun h => hl ((loopActive_iff s).1 h))
  · rw [hprev, Bool.or_eq_true, isRepeat_iff, or_assoc]
  · rw [hprev, loopActive_iff]
  · rintro ⟨lit, rfl⟩
    exact retire_disicnt_disi lit s t

end Sys2Proof.Machine
end

section
/-! The step at a decoded instruction, REPEAT with NOP and DISI, and the device reset (R310 to R319, R350, R390): O5, O55,
O7, O10. -/

namespace Sys2Proof.Machine

/-! ## The step (R313, R344, R350) -/

/-- The prefetch does not end the step: its words exist, or a device reset replaces it. -/
theorem prefetch_passes {i : Instr} {s : State}
    (hp : PrefetchOk i s ∨ ∃ t c, exec i (startPass s) = .next t ∧ t.event = some (.reset c)) :
    ¬(prefetchFails i s && !asksReset (exec i (startPass s))) = true := by
  obtain h | h := hp
  · simp [prefetchFails_of_ok h]
  · simp [(asksReset_iff _).2 h]

/-- Settles O5: neither R316 nor the prefetch stops the instruction, and each outcome of `exec` is passed on. -/
theorem stepRunsDecodedInstruction : Obligations.StepRunsDecodedInstruction := by
  intro s s1 s0 w w2 rest i hq hw hd hb hs0 hp
  obtain rfl := startPass_of_begins hs0
  rw [step_of_words hq hw hd, runInstr, if_neg (Bool.eq_false_iff.1 hb), if_neg (prefetch_passes hp)]
  exact ⟨fun t h => by rw [h], fun f h => by rw [h], fun r h => by rw [h]⟩

/-! ## REPEAT, NOP and DISI (R311, R312, R317, R319) -/

theorem countFits_iff (d : Config.Device) (c : Word) :
    countFits d c = true ↔ d.rcountWide = true ∨ c.toNat < 16384 := by
  simp [countFits]

theorem exec_repeatW_fits {n : Reg} {s : State} (h : countFits s.dev (s.reg n) = true) :
    exec (.repeatW n) s = .next (advance 1 (startLoop (s.reg n) s)) :=
  congrArg (settle 1 pcOnly s) (if_pos h)

theorem exec_repeatW_tooWide {n : Reg} {s : State} (h : ¬countFits s.dev (s.reg n) = true) :
    exec (.repeatW n) s = .refused .repeatCountTooWide :=
  congrArg (settle 1 pcOnly s) (if_neg h)

theorem exec_nop (s : State) : exec .nop s = .next (advance 1 s) := rfl

/-- RA after a REPEAT: a count of 0 leaves it as it was (R311). -/
theorem startLoop_ra_iff (c : Word) (s : State) : (startLoop c s).sr.ra = true ↔ s.sr.ra = true ∨ c ≠ 0 := by
  simp

theorem setWidth_lit_ne_zero (lit : BitVec 14) : lit.setWidth 16 ≠ 0 ↔ lit ≠ 0 := by
  bv_omega

/-- Settles O55: a count that fits RCOUNT starts a loop, and each of the instructions goes on at the next word. -/
theorem repeatNopAndDisi : Obligations.RepeatNopAndDisi := by
  intro s lit n
  refine ⟨⟨_, exec_repeatLit lit s, ?_, ?_, rfl⟩, fun hfits => ?_, fun hnarrow hbig => ?_, exec_nop s, rfl⟩
  · exact BitVec.toNat_setWidth_of_le (by decide)
  · rw [← setWidth_lit_ne_zero]
    exact startLoop_ra_iff _ s
  · exact ⟨_, exec_repeatW_fits ((countFits_iff _ _).2 hfits), rfl, startLoop_ra_iff _ s, rfl⟩
  · refine exec_repeatW_tooWide fun h => ?_
    obtain hwide | hsmall := (countFits_iff _ _).1 h
    · simp [hnarrow] at hwide
    · omega

/-! ## NOP under REPEAT (R310, R313, R314) -/

theorem beginsIn_startPass (s : State) : BeginsIn s (startPass s) := ⟨loopActive_iff s, rfl⟩

theorem loopActive_startPass (s : State) : loopActive (startPass s) = loopActive s := by
  simp [loopActive]

/-- The state after one execution of a NOP begun at the boundary state `s`. -/
def afterNop (s : State) : State := retire .nop (startPass s) (advance 1 (startPass s))

theorem step_nop {s : State} (hi : s.inputs = []) (hw : progRead s s.pc.toNat = some 0)
    (hn : progImplemented s (s.pc.toNat + 2) = true) : step s = .next (afterNop s) := by
  obtain ⟨w2, hw2⟩ := progRead_of_implemented hn
  have hbarred : barred .nop s = false := Bool.and_false _
  have hprefetch : PrefetchOk .nop s := ⟨fun _ => hn, by simp⟩
  obtain ⟨hnext, -, -⟩ := stepRunsDecodedInstruction s s (startPass s) 0 w2 [w2] .nop (.inl ⟨hi, rfl⟩) ⟨hw, .inl hw2⟩
    rfl hbarred (beginsIn_startPass s) (.inl hprefetch)
  rw [hnext _ (exec_nop _), finish_of_no_event rfl, afterNop]

theorem rcountMask_pred_toNat {d : Config.Device} {c : Word} (hc : rcountMask d c = c) (h0 : c ≠ 0) :
    (rcountMask d (c - 1)).toNat = c.toNat - 1 := by
  have hwidth := congrArg BitVec.toNat hc
  have hpred : (c - 1).toNat = c.toNat - 1 := by bv_omega
  rw [rcountMask_toNat] at hwidth ⊢
  rw [hpred]
  refine Nat.mod_eq_of_lt ((Nat.sub_le _ _).trans_lt ?_)
  rw [← hwidth]
  exact Nat.mod_lt _ (Nat.two_pow_pos _)

/-- `s` stands at the NOP of `s0`, with `k` passes of its loop to go before an ordinary execution. -/
structure NopLoop (s0 : State) (k : Nat) (s : State) : Prop where
  inputs : s.inputs = []
  prog : s.prog = s0.prog
  dev : s.dev = s0.dev
  pc : s.pc = s0.pc
  w : s.w = s0.w
  mem : s.mem = s0.mem
  width : rcountMask s.dev s.rcount = s.rcount
  count : s.rcount.toNat = k
  ra : s.sr.ra = true ↔ s.rcount ≠ 0

theorem run_succ {M : Host.Core} {s t : M.State} (h : M.step s = .next t) (k : Nat) :
    M.run (k + 1) s = M.run k t := by
  rw [Host.Core.run, h]

theorem run_succ_of_step {s t : State} (h : step s = .next t) (k : Nat) :
    Host.Core.run Sys2Proof.core (k + 1) s = Host.Core.run Sys2Proof.core k t :=
  run_succ (M := Sys2Proof.core) h k

namespace NopLoop

variable {s0 s : State} {k : Nat}

theorem active_iff (h : NopLoop s0 k s) : loopActive s = true ↔ s.rcount ≠ 0 := by
  rw [loopActive_iff, h.ra, and_self]

theorem rcount_eq_zero_iff (h : NopLoop s0 k s) : s.rcount = 0 ↔ k = 0 := by
  rw [← h.count]
  exact BitVec.toNat_eq.trans Iff.rfl

theorem step_eq (h : NopLoop s0 k s) (hw : progRead s0 s0.pc.toNat = some 0)
    (hn : progImplemented s0 (s0.pc.toNat + 2) = true) : step s = .next (afterNop s) := by
  refine step_nop h.inputs ?_ ?_
  · rwa [progRead, progImplemented, h.prog, h.dev, h.pc]
  · rwa [progImplemented, h.dev, h.pc]

/-- One pass of the loop. -/
theorem pass (h : NopLoop s0 (k + 1) s) : NopLoop s0 k (afterNop s) := by
  have h0 : s.rcount ≠ 0 := fun e => Nat.succ_ne_zero k (h.rcount_eq_zero_iff.1 e)
  have hactive : loopActive s = true := h.active_iff.2 h0
  have hloop := (loopActive_startPass s).trans hactive
  have hkept {α : Type} (f : State → α) := retire_keeps f .nop (startPass s) (advance 1 (startPass s))
  obtain ⟨hpc, hcounted, -⟩ := retire_pass (i := .nop) (t := advance 1 (startPass s)) hloop
  have hrcount : (afterNop s).rcount = rcountMask s.dev (s.rcount - 1) := hcounted
  have hdev : (afterNop s).dev = s.dev := hkept State.dev
  exact {
    inputs := (hkept State.inputs).trans h.inputs
    prog := (hkept State.prog).trans h.prog
    dev := hdev.trans h.dev
    pc := hpc.trans h.pc
    w := (hkept State.w).trans h.w
    mem := (hkept State.mem).trans h.mem
    width := by rw [hdev, hrcount, rcountMask_idem]
    count := by rw [hrcount, rcountMask_pred_toNat h.width h0, h.count, Nat.add_sub_cancel]
    ra := (retire_pass_ra hloop).trans (and_iff_right hactive) }

/-- All passes of the loop, and any number of steps after them. -/
theorem run (hw : progRead s0 s0.pc.toNat = some 0) (hn : progImplemented s0 (s0.pc.toNat + 2) = true) :
    ∀ {k : Nat} {s : State}, NopLoop s0 k s →
      ∃ t, NopLoop s0 0 t ∧
        ∀ m, Host.Core.run Sys2Proof.core (k + m) s = Host.Core.run Sys2Proof.core m t := by
  intro k
  induction k with
  | zero => exact fun {s} h => ⟨s, h, fun m => by rw [Nat.zero_add]⟩
  | succ k ih =>
    intro s h
    obtain ⟨t, ht, hrun⟩ := ih h.pass
    refine ⟨t, ht, fun m => ?_⟩
    rw [Nat.add_right_comm, run_succ_of_step (h.step_eq hw hn), hrun]

theorem ra_eq_false (h : NopLoop s0 0 s) : s.sr.ra = false :=
  Bool.eq_false_iff.2 fun hra => h.ra.1 hra (h.rcount_eq_zero_iff.2 rfl)

/-- The ordinary execution after the last pass. -/
theorem past (h : NopLoop s0 0 s) :
    (afterNop s).pc = s0.pc + 2 ∧ (afterNop s).rcount = 0 ∧ (afterNop s).sr.ra = false ∧
      (afterNop s).w = s0.w ∧ (afterNop s).mem = s0.mem := by
  have hrcount := h.rcount_eq_zero_iff.2 rfl
  have hidle : loopActive s = false := Bool.eq_false_iff.2 fun hl => h.active_iff.1 hl hrcount
  have hkept {α : Type} (f : State → α) := retire_keeps f .nop (startPass s) (advance 1 (startPass s))
  obtain ⟨hpc, hrc, hra⟩ :=
    retire_past_loop (i := .nop) (t := advance 1 (startPass s)) ((loopActive_startPass s).trans hidle)
  refine ⟨hpc.trans ?_, hrc.trans hrcount, hra.trans hidle, (hkept State.w).trans h.w, (hkept State.mem).trans h.mem⟩
  exact congrArg (· + 2) h.pc

end NopLoop

/-- Settles O7: RCOUNT passes at the NOP, then its ordinary execution. -/
theorem repeatedNopRunsCountPlusOneTimes : Obligations.RepeatedNopRunsCountPlusOneTimes := by
  intro s hi hra hrc hwidth hw hn
  have hstart : NopLoop s s.rcount.toNat s :=
    ⟨hi, rfl, rfl, rfl, rfl, rfl, hwidth, rfl, iff_of_true hra hrc⟩
  obtain ⟨t, ht, hrun⟩ := hstart.run hw hn
  refine ⟨⟨t, hrun 0, ht.pc, ht.rcount_eq_zero_iff.2 rfl, ht.ra_eq_false, ht.w, ht.mem⟩, afterNop t, ?_, ht.past⟩
  rw [hrun 1, run_succ_of_step (ht.step_eq hw hn)]
  rfl

/-! ## Reset (R318, R390) -/

/-- The boundary after a device reset, where no reset is presented again. -/
theorem step_after_reset (c : ResetCause) {s : State} (h : s.inputs.head? ≠ some .reset) :
    step { deviceReset c s with event := none } =
      runAtPc { deviceReset c s with event := none, inputs := s.inputs.tail } := by
  obtain ⟨hhead, htail⟩ := withoutPending_quiet h
  have htake : takeInput { deviceReset c s with event := none } =
      (.quiet, { deviceReset c s with event := none, inputs := s.inputs.tail }) := by
    rw [← htail, ← hhead]
    rfl
  rw [step, outerStep, htake]

theorem exec_reset (s : State) : exec .reset s = .next (deviceReset .software s) := rfl

theorem step_presented_reset {s : State} {l : List Input} (h : s.inputs = .reset :: l) :
    step s = .next { deviceReset .environment { s with inputs := l } with event := none } := by
  simp [step, outerStep, takeInput, h]

/-- Settles O10: both resets are `deviceReset`, which drops a request at the boundary that follows. -/
theorem resetGivesTheResetState : Obligations.ResetGivesTheResetState := by
  intro s
  refine ⟨⟨_, exec_reset s, isReset_deviceReset .software s, ?_⟩, fun l hl => ?_⟩
  · rintro u rfl hnext
    exact step_after_reset .software hnext
  · have hreset : IsReset s { deviceReset .environment { s with inputs := l } with event := none } :=
      isReset_deviceReset .environment { s with inputs := l }
    exact ⟨_, step_presented_reset hl, hreset, rfl, fun hagain => withoutPending_reset hagain,
      fun hnext => step_after_reset .environment (s := { s with inputs := l }) hnext⟩

end Sys2Proof.Machine
end

section
/-! A PC or a prefetch outside program memory (R344 (a), R350, R402): O26. -/

namespace Sys2Proof.Machine

/-! ## A missing word -/

theorem progRead_of_not_implemented {s : State} {a : Nat} (h : progImplemented s a = false) : progRead s a = none :=
  if_neg (Bool.eq_false_iff.1 h)

/-- A PC that holds no program word ends the step before anything is decoded. -/
theorem step_of_no_word {s s1 : State} (hq : Quietly s s1) (h : progImplemented s1 s1.pc.toNat = false) :
    step s = .fault .addressError := by
  have hfetch : fetchWords s1 = none := by rw [fetchWords, progRead_of_not_implemented h, Option.map_none]
  simp only [step, outerStep, takeInput_of_quietly hq, runAtPc, hfetch]

theorem prefetchFails_of_no_next {i : Instr} {s : State} (hi : i ≠ .reset)
    (h : progImplemented s (s.pc.toNat + 2) = false) : prefetchFails i s = true := by
  cases i with
  | reset => exact absurd rfl hi
  | _ => simp only [prefetchFails, h, Bool.false_and, Bool.not_false]

/-- The returns prefetch two words. -/
theorem prefetchFails_of_no_second {i : Instr} {s : State}
    (hi : i = .ret ∨ (∃ sz lit n, i = .retlw sz lit n) ∨ i = .retfie)
    (h : progImplemented s (s.pc.toNat + 4) = false) : prefetchFails i s = true := by
  obtain rfl | ⟨sz, lit, n, rfl⟩ | rfl := hi <;> simp only [prefetchFails, h, Bool.and_false, Bool.not_false]

/-- A prefetch that fails ends the instruction, unless it resets the device. -/
theorem runInstr_of_prefetchFails {i : Instr} {s : State} (hb : barred i s = false) (hp : prefetchFails i s = true)
    (hr : ∀ t c, exec i (startPass s) = .next t → t.event ≠ some (.reset c)) :
    runInstr i s = .fault .addressError := by
  have hasks : asksReset (exec i (startPass s)) = false :=
    Bool.eq_false_iff.2 fun h =>
      have ⟨t, c, ht, he⟩ := (asksReset_iff _).1 h
      hr t c ht he
  rw [runInstr, if_neg (Bool.eq_false_iff.1 hb), hp, hasks]
  rfl

/-! ## A device reset -/

theorem finish_of_reset {i : Instr} {s t : State} {c : ResetCause} (h : t.event = some (.reset c)) :
    finish i s t = .next { t with event := none } := by
  simp only [finish, h]

/-- Settles O26: a missing word ends the step, unless the instruction's own device reset replaces everything (D38). -/
theorem missingProgramWordFaults : Obligations.MissingProgramWordFaults := by
  intro s s1 hq
  refine ⟨step_of_no_word hq, fun s0 w w2 rest i hw hd hb hs0 => ?_⟩
  have hreset : ∀ t c, exec i s0 = .next t → t.event = some (.reset c) → step s = .next { t with event := none } := by
    intro t c ht he
    obtain ⟨hnext, -, -⟩ := stepRunsDecodedInstruction s s1 s0 w w2 rest i hq hw hd hb hs0 (.inr ⟨t, c, ht, he⟩)
    rw [hnext t ht, finish_of_reset he]
  obtain rfl := startPass_of_begins hs0
  have hstep := step_of_words hq hw hd
  refine ⟨?_, hreset, fun hr => ⟨fun hi h => ?_, fun hi h => ?_⟩⟩
  · rintro rfl
    have hsame : IsReset s (deviceReset .software (startPass s1)) := by
      obtain ⟨-, rfl⟩ | ⟨l, -, rfl⟩ := hq
      · exact isReset_deviceReset .software (startPass s1)
      · exact isReset_deviceReset .software (startPass { s with inputs := l })
    exact ⟨_, hreset _ .software (exec_reset _) rfl, hsame, rfl⟩
  · rw [hstep, runInstr_of_prefetchFails hb (prefetchFails_of_no_next hi h) hr]
  · rw [hstep, runInstr_of_prefetchFails hb (prefetchFails_of_no_second hi h) hr]

end Sys2Proof.Machine
end

section
/-! Taking an exception (R352 to R354): O18. -/

namespace Sys2Proof.Machine

/-! ## The handler's address (R354) -/

theorem findAt_append_of_absent {α : Type} {l1 : List (Nat × α)} {a : Nat} (h : ∀ e ∈ l1, e.1 ≠ a)
    (l2 : List (Nat × α)) : findAt (l1 ++ l2) a = findAt l2 a := by
  induction l1 with
  | nil => rfl
  | cons e l ih =>
    rw [List.forall_mem_cons] at h
    obtain ⟨hhead, htail⟩ := h
    rw [List.cons_append, findAt, if_neg (Ne.symm hhead), ih htail]

section
variable {v base : Nat} {s : State}

theorem vectorOf_table (hv : s.dev.vectors = .table base) {w : PWord} (hw : progRead s (base + 2 * v) = some w) :
    vectorOf v s = .ok (evenAddr (w.extractLsb' 0 23)) := by
  simp only [vectorOf, hv, hw]

theorem vectorOf_table_outside (hv : s.dev.vectors = .table base)
    (hp : progImplemented s (base + 2 * v) = false) : vectorOf v s = .error (.trap .addressError) := by
  simp only [vectorOf, hv, progRead_of_not_implemented hp]

theorem vectorOf_listed {es : List (Nat × PAddr)} {other : PAddr} (hv : s.dev.vectors = .listed es other) :
    vectorOf v s = .ok (evenAddr ((findAt es v).getD other)) := by
  simp only [vectorOf, hv]

end

/-! ## The level on entry (R353) -/

/-- IPL3 is the top bit of a level, IPL<2:0> the rest. -/
theorem level_eq_ipl3_ipl (p : BitVec 4) : p.toNat = (p.getLsbD 3).toNat * 8 + (p.extractLsb' 0 3).toNat := by
  revert p; decide

theorem entered_ipl3 (p : BitVec 4) (ret target : PAddr) (s : State) :
    (entered p ret target s).corcon.ipl3 = p.getLsbD 3 := rfl

theorem entered_ipl (p : BitVec 4) (ret target : PAddr) (s : State) :
    (entered p ret target s).sr.ipl = if !p.getLsbD 3 && s.dev.nstdis then 7 else p.extractLsb' 0 3 := rfl

/-- A trap enters at its own level, an interrupt at 7 where nesting is disabled. -/
theorem cpuLevel_entered (p : BitVec 4) (ret target : PAddr) (s : State) :
    cpuLevel (entered p ret target s) = if p.toNat < 8 ∧ s.dev.nstdis then 7 else p.toNat := by
  have hlevel := level_eq_ipl3_ipl p
  have hlow : (p.extractLsb' 0 3).toNat < 8 := (p.extractLsb' 0 3).isLt
  rw [cpuLevel, entered_ipl3, entered_ipl]
  cases h3 : p.getLsbD 3 with
  | true =>
    rw [h3, Bool.toNat_true] at hlevel
    rw [if_neg (by omega : ¬(p.toNat < 8 ∧ _)), hlevel]
    rfl
  | false =>
    rw [h3, Bool.toNat_false, Nat.zero_mul, Nat.zero_add] at hlevel
    cases s.dev.nstdis with
    | true =>
      rw [if_pos (⟨hlevel ▸ hlow, rfl⟩ : p.toNat < 8 ∧ true = true)]
      rfl
    | false =>
      rw [if_neg fun h : p.toNat < 8 ∧ false = true => Bool.false_ne_true h.2, hlevel]
      exact Nat.zero_add _

/-! ## The frame and what is kept -/

theorem enter_ok {v : Nat} (p : BitVec 4) (ret : PAddr) {target : PAddr} {s : State} (h0 : SlotOk (s.reg sp) 0 s)
    (h1 : SlotOk (s.reg sp) 1 s) (hv : vectorOf v s = .ok target) :
    enter v p ret s = .ok (entered p ret target s) := by
  obtain ⟨u, hu, hpc, -⟩ := enter_answers p ret h0 h1 hv
  obtain ⟨target', rfl⟩ := enter_eq_entered h0 h1 hu
  obtain rfl : target' = target := hpc
  exact hu

/-- The two words of the frame, as R101 lays them out. -/
theorem entered_frame (p : BitVec 4) (ret target : PAddr) {s : State} (h0 : SlotOk (s.reg sp) 0 s)
    (h1 : SlotOk (s.reg sp) 1 s) :
    ramRead (entered p ret target s) .word (s.reg sp) = ret.extractLsb' 0 16 ∧
      ramRead (entered p ret target s) .word (s.reg sp + 2) = frameHigh s ret := by
  obtain ⟨hlo, hhi, -⟩ := pushedTwo_spec (lo := ret.extractLsb' 0 16) (hi := frameHigh s ret) h0 h1
  exact ⟨hlo, hhi⟩

theorem pushedTwo_memKept (lo hi : Word) (s : State) :
    MemKept [(.word, s.reg sp), (.word, s.reg sp + 2)] s (pushedTwo lo hi s) := by
  intro a ha
  have hlo := ha (.word, s.reg sp) (by simp)
  have hhi := ha (.word, s.reg sp + 2) (by simp)
  exact (ramByte_ramWrite_outside _ .word _ hi hhi).trans (ramByte_ramWrite_outside s .word _ lo hlo)

theorem entered_memKept (p : BitVec 4) (ret target : PAddr) (s : State) :
    MemKept [(.word, s.reg sp), (.word, s.reg sp + 2)] s (entered p ret target s) :=
  pushedTwo_memKept (ret.extractLsb' 0 16) (frameHigh s ret) s

theorem entered_sp_isInit (p : BitVec 4) (ret target : PAddr) (s : State) :
    (entered p ret target s).isInit sp = true := by
  show (pushedTwo _ _ s).isInit sp = true
  simp [pushedTwo]

/-- Settles O18: the vector by each kind of list, and then the fields of the state that an entry leaves. -/
theorem enterSavesAndRedirects : Obligations.EnterSavesAndRedirects := by
  intro s v p ret target
  refine ⟨fun base w hv hw => ?table, fun base => vectorOf_table_outside, fun l1 h l2 other hv habsent => ?listed,
    fun l other hv habsent => ?unlisted, fun h0 h1 hv => ?entry⟩
  case table =>
    refine ⟨_, vectorOf_table hv hw, ?_⟩
    rw [evenAddr_toNat, BitVec.extractLsb'_toNat, Nat.shiftRight_zero]
  case listed =>
    refine ⟨evenAddr h, ?_, evenAddr_toNat h⟩
    rw [vectorOf_listed hv, findAt_append_of_absent habsent, findAt, if_pos rfl, Option.getD_some]
  case unlisted =>
    refine ⟨evenAddr other, ?_, evenAddr_toNat other⟩
    have hnone := findAt_append_of_absent habsent []
    rw [List.append_nil] at hnone
    rw [vectorOf_listed hv, hnone]
    rfl
  case entry =>
    obtain ⟨hlo, hhi⟩ := entered_frame p ret target h0 h1
    have hlevel := cpuLevel_entered p ret target s
    refine ⟨entered p ret target s, enter_ok p ret h0 h1 hv, hlo, ?_, ?_, ?_, entered_sp h0 h1, rfl, rfl, rfl,
      entered_ipl3 p ret target s, fun h8 => ?_, fun h8 => ?_, rfl, rfl, rfl, rfl, rfl, rfl, rfl, rfl, rfl, rfl, rfl,
      rfl, rfl, rfl, rfl, rfl, entered_sp_isInit p ret target s, entered_regsKept, entered_memKept p ret target s⟩
    · rw [hhi, frameHigh_ret]
    · rw [hhi, frameHigh_ipl3]
    · rw [hhi, highByte_frameHigh]
    · rw [hlevel, if_neg fun h => Nat.not_lt.2 h8 h.1]
    · rw [hlevel]
      exact if_congr (and_iff_right h8) rfl rfl

end Sys2Proof.Machine
end
